-- ==== Sys2Proof/Word.lean ====
section
/-!
DEFINITION. The word types of the block and the byte count of a bit count.
Every register is 32 bits (10_state.md section 2), a byte is 8 bits (00_scope.md R9), all values are unsigned (R9).
-/

namespace Sys2Proof

/-- A register's value: 32 bits (10_state.md section 2). -/
abbrev Word := BitVec 32

/-- A byte of a buffer (00_scope.md R9). -/
abbrev Byte := BitVec 8

/-- `ceil8(w)`: the number of bytes that hold `w` bits (00_scope.md R10). -/
def ceil8 (w : Nat) : Nat := (w + 7) / 8

end Sys2Proof
end

