-- ==== Sys2Proof/Config.lean ====
section
/-!
DEFINITION. What is fixed for a block (00_scope.md R6), the parameters a model takes as arguments (R7), and the free
values that stand for UNSPEC (R11, 93_implementation_defined.md section 2).
-/

namespace Sys2Proof

/-- The named parameters the spec leaves open (00_scope.md R7, 10_state.md R63). -/
structure Params where
  /-- `IBUF_BYTES`, the size of the input buffer. -/
  ibufBytes : Nat
  /-- `OBUF_BYTES`, the size of the output buffer. -/
  obufBytes : Nat
  /-- `CORE_BASE`, the platform address of offset 0. -/
  coreBase  : Nat
deriving DecidableEq, Repr

/-- The legal values of the parameters (00_scope.md R7). -/
abbrev Params.legal (p : Params) : Prop :=
  1 ≤ p.ibufBytes ∧ p.ibufBytes ≤ 2 ^ 20 ∧ 1 ≤ p.obufBytes ∧ p.obufBytes ≤ 2 ^ 20 ∧ p.coreBase % 2 ^ 22 = 0

/-- A node of the hidden tree arena: a leaf with its symbol or an internal node with two child indices
(10_state.md R60). -/
inductive NodeKind where
  | leaf (sym : Byte)
  | internal (left right : Fin 511)
deriving DecidableEq, Repr, Inhabited

/-- The content of one place of the tree arena (10_state.md R60): weight, insertion order, symbol or children. -/
structure Node where
  weight : BitVec 40
  order  : Fin 511
  kind   : NodeKind
deriving DecidableEq, Repr, Inhabited

namespace Config

/-- The reference values of the parameters (00_scope.md R7). DESIGN CHOICE as the parameters of `State.reset` only
(notes/assumptions/1.md). -/
def reference : Params := { ibufBytes := 65536, obufBytes := 65536, coreBase := 0x40000000 }

/-- `W`, the LZ77 window size (00_scope.md R6). -/
def window : Nat := 4096
/-- `MAX_MATCH` (00_scope.md R6). -/
def maxMatch : Nat := 255
/-- `MIN_MATCH` (00_scope.md R6). -/
def minMatch : Nat := 3
/-- `RLE_MAX` (00_scope.md R6). -/
def rleMax : Nat := 255
/-- `TAG_H` (00_scope.md R6). -/
def tagH : Byte := 0x48#8
/-- `TAG_R` (00_scope.md R6). -/
def tagR : Byte := 0x52#8
/-- `TAG_L` (00_scope.md R6). -/
def tagL : Byte := 0x4C#8
/-- `CODE_BITS`, the widest code the tables hold (00_scope.md R6). -/
def codeBits : Nat := 64
/-- `NSYM`, the alphabet size (00_scope.md R6). -/
def nsym : Nat := 256

/-- `UNSPEC` (00_scope.md R11): the free value of width `w` that draw number `draw` gives place `idx`. It has no body:
nothing can be proved of a value of it (notes/assumptions/5.md). -/
opaque unspec (w draw idx : Nat) : BitVec w

/-- `UNSPEC` for a place of the tree arena (10_state.md R60). It has no body (notes/assumptions/7.md). -/
opaque unspecNode (draw idx : Nat) : Node

end Config
end Sys2Proof
end

