-- ==== Sys2Proof/Syntax.lean ====
section
/-!
DEFINITION. The commands of the opcode map (30_encoding.md R101), one constructor per row of spec/opcode_table.json, and
the events that move the machine (60_exceptions.md R307).
-/

namespace Sys2Proof

/-- A command (30_encoding.md R101). No command carries an operand in its word: operands are registers (R103, R105). -/
inductive Instr where
  | hufCompress
  | hufDecompress
  | rleCompress
  | rleDecompress
  | lzCompress
  | lzDecompress
  | bsReset
  | bsWrite
  | bsFlush
  | bsRead
  | hufCount
  | hufBuild
  | hufCanon
  | hufEncode
  | hufDecode
  | rleScan
  | rleEmit
  | lzMatch
  | lzEmit
deriving DecidableEq, Repr

/-- What can happen next at the block: a host access (20_memory.md R74, R75), the sequencer's turn (40_control.md R142,
R151), a hardware reset (70_reset_and_hazards.md R332). Events are indivisible and totally ordered
(60_exceptions.md R307). -/
inductive Event where
  /-- `MemRead(addr, n)`. -/
  | read (addr n : Nat)
  /-- `MemWrite(addr, n, v)`; a narrower access carries its value in the low bits of `v`. -/
  | write (addr n : Nat) (v : Word)
  /-- The sequencer takes its step, if it has one to take. -/
  | execute
  /-- The reset input is asserted and released. -/
  | hardwareReset
deriving DecidableEq, Repr

end Sys2Proof
end

