-- ==== Sys2Proof/WellFormed.lean ====
section
/-!
DEFINITION. What is well formed: a command word (30_encoding.md R100), a command with its operands (R103's column "legal
range"), a host access that the host bus can offer (20_memory.md R77).
A command as syntax has no field, so every `Instr` is well formed by itself; the checks are on what surrounds it.
-/

namespace Sys2Proof

/-- A command word: bits 31:8 are zero (30_encoding.md R100). -/
def commandWordWellFormed (w : Word) : Bool := w.toNat < 256

/-- The column "legal range" of 30_encoding.md R103, over the latched SRC_LEN `n` and the operands. -/
def operandsLegal (i : Instr) (n arg0 arg1 : Word) : Bool :=
  match i with
  | .hufCompress | .hufDecompress | .rleCompress | .rleDecompress | .lzCompress | .lzDecompress => true
  | .bsReset | .bsFlush | .hufCount | .hufBuild | .hufCanon | .hufEncode => true
  | .bsWrite | .bsRead => arg1.toNat ≤ 32
  | .hufDecode => true
  | .rleScan | .lzMatch => arg0.toNat < n.toNat
  | .rleEmit => 1 ≤ arg1.toNat
  | .lzEmit =>
    arg1.toNat = 0 ∨
      (arg1.toNat = 1 ∧ 1 ≤ arg0.toNat % 65536 ∧ arg0.toNat % 65536 ≤ Config.window ∧
        Config.minMatch ≤ arg0.toNat / 65536 ∧ arg0.toNat / 65536 ≤ Config.maxMatch)

/-- A host access the host bus offers: 1, 2 or 4 bytes (20_memory.md R77), a written value that fits its bytes. -/
def eventWellFormed : Event → Bool
  | .read _ n => n = 1 ∨ n = 2 ∨ n = 4
  | .write _ n v => (n = 1 ∨ n = 2 ∨ n = 4) ∧ v.toNat < 2 ^ (8 * n)
  | .execute => true
  | .hardwareReset => true

end Sys2Proof
end

