-- ==== Sys2Proof/Decode.lean ====
section
/-!
DEFINITION. The decoder of a command word, total, rejecting by name (30_encoding.md R100 to R102), then the encoder, both
from the opcode map R101.
-/

namespace Sys2Proof

/-- Why a command word is no command: its OPCODE is one of the 237 illegal values (30_encoding.md R102). -/
inductive DecodeError where
  | illegalOpcode (op : BitVec 8)
deriving DecidableEq, Repr

/-- The opcode map of 30_encoding.md R101; every value it does not list is illegal (R102). -/
def decodeOpcode (op : BitVec 8) : Except DecodeError Instr :=
  match op with
  | 0x01#8 => .ok .hufCompress
  | 0x02#8 => .ok .hufDecompress
  | 0x03#8 => .ok .rleCompress
  | 0x04#8 => .ok .rleDecompress
  | 0x05#8 => .ok .lzCompress
  | 0x06#8 => .ok .lzDecompress
  | 0x10#8 => .ok .bsReset
  | 0x11#8 => .ok .bsWrite
  | 0x12#8 => .ok .bsFlush
  | 0x13#8 => .ok .bsRead
  | 0x20#8 => .ok .hufCount
  | 0x21#8 => .ok .hufBuild
  | 0x22#8 => .ok .hufCanon
  | 0x23#8 => .ok .hufEncode
  | 0x24#8 => .ok .hufDecode
  | 0x30#8 => .ok .rleScan
  | 0x31#8 => .ok .rleEmit
  | 0x40#8 => .ok .lzMatch
  | 0x41#8 => .ok .lzEmit
  | op     => .error (.illegalOpcode op)

/-- CMD.OPCODE, bits 7:0 of a command word (10_state.md R36, 30_encoding.md R100). -/
def opcodeField (w : Word) : BitVec 8 := w.extractLsb' 0 8

/-- The decoder: it looks only at OPCODE = CMD[7:0] (30_encoding.md R100). -/
def decode (w : Word) : Except DecodeError Instr := decodeOpcode (opcodeField w)

/-- The OPCODE of a command (30_encoding.md R101). -/
def encodeOpcode : Instr → BitVec 8
  | .hufCompress   => 0x01#8
  | .hufDecompress => 0x02#8
  | .rleCompress   => 0x03#8
  | .rleDecompress => 0x04#8
  | .lzCompress    => 0x05#8
  | .lzDecompress  => 0x06#8
  | .bsReset       => 0x10#8
  | .bsWrite       => 0x11#8
  | .bsFlush       => 0x12#8
  | .bsRead        => 0x13#8
  | .hufCount      => 0x20#8
  | .hufBuild      => 0x21#8
  | .hufCanon      => 0x22#8
  | .hufEncode     => 0x23#8
  | .hufDecode     => 0x24#8
  | .rleScan       => 0x30#8
  | .rleEmit       => 0x31#8
  | .lzMatch       => 0x40#8
  | .lzEmit        => 0x41#8

/-- The command word CMDW of a command: OPCODE in bits 7:0, bits 31:8 zero (30_encoding.md R100). -/
def encode (i : Instr) : Word := (encodeOpcode i).setWidth 32

/-- The command the decoder reads from a table word: `w`'s low `nbits` bits are the command word, every bit above them
is 0 (a CMD register write keeps bits 7:0 only, 10_state.md R36). -/
def decodeTableWord (nbits w : Nat) : Option Instr :=
  match decode (BitVec.ofNat 32 (w % 2 ^ nbits)) with
  | .ok i    => some i
  | .error _ => none

end Sys2Proof
end

