-- ==== Sys2Proof/Machine/Memory.lean ====
section
/-!
DEFINITION. Memories: the byte buffers and the Huffman tables (10_state.md R49 to R52), each a list of (index, value) pairs
in one canonical form. An index that is not listed was never written since the memory last became UNSPEC: it has no value
of its own and reads as the free value its draw number gives it (20_memory.md R73, notes/assumptions/6.md).
-/

namespace Sys2Proof.Machine

/-- A memory of `w`-bit entries. For `w = 8` its cells are a list of `Host.Cell`. -/
structure Memory (w : Nat) where
  /-- The number of the draw that gives every unlisted index its free value. -/
  draw  : Nat
  /-- The written entries, indices strictly rising. -/
  cells : List (Nat × BitVec w)
deriving DecidableEq, Repr

namespace Memory

/-- The value listed at index `a`, if any. -/
def lookup {α : Type} : List (Nat × α) → Nat → Option α
  | [], _ => none
  | (b, x) :: rest, a => if b = a then some x else lookup rest a

/-- The cells with `v` at index `a`, indices still rising. -/
def store {α : Type} : List (Nat × α) → Nat → α → List (Nat × α)
  | [], a, v => [(a, v)]
  | (b, x) :: rest, a, v =>
    if a < b then (a, v) :: (b, x) :: rest
    else if a = b then (a, v) :: rest
    else (b, x) :: store rest a v

/-- `xs` as cells at the indices from `i` on. -/
def cellsFrom {α : Type} : Nat → List α → List (Nat × α)
  | _, [] => []
  | i, x :: xs => (i, x) :: cellsFrom (i + 1) xs

/-- One entry: the value written last, or the free value if none was (20_memory.md R73). -/
def read {w : Nat} (m : Memory w) (a : Nat) : BitVec w :=
  match lookup m.cells a with
  | some v => v
  | none   => Config.unspec w m.draw a

/-- Write one entry. -/
def write {w : Nat} (m : Memory w) (a : Nat) (v : BitVec w) : Memory w :=
  { m with cells := store m.cells a v }

/-- Write every entry of a table: entry `i` becomes `xs[i]`, reduced to the entry's width (00_scope.md R10). -/
def fill {w : Nat} (m : Memory w) (xs : List Nat) : Memory w :=
  { m with cells := cellsFrom 0 (xs.map (BitVec.ofNat w)) }

/-- A memory every entry of which is UNSPEC (00_scope.md R11). -/
def unspecified (w d : Nat) : Memory w := { draw := d, cells := [] }

/-- The canonical form: the listed indices strictly rise. An unlisted index has no value of its own, so no listed entry
repeats it (notes/assumptions/6.md). -/
abbrev wf {w : Nat} (m : Memory w) : Prop := (m.cells.map Prod.fst).Pairwise (· < ·)

/-- Every listed index is below `size`: the memory holds nothing outside itself. -/
abbrev within {w : Nat} (m : Memory w) (size : Nat) : Prop := ∀ c ∈ m.cells, c.1 < size

end Memory
end Sys2Proof.Machine
end

