-- ==== Sys2Proof/Machine/State.lean ====
section
/-!
DEFINITION. The state of the block as plain data: every item of 10_state.md R30, the parameters of R63, and the model's own
fields; the reasons a step or an access can stop; the state after hardware reset (70_reset_and_hazards.md R330).
-/

namespace Sys2Proof.Machine

/-- Why a host access gets no normal response. -/
inductive Fault where
  /-- BUS_ERROR (20_memory.md R76), raised by `memRead` and `memWrite`: the access changes nothing and returns no data.
  It is a fault of the access alone: `step` records it as the response and goes on, as R76 and R304 say the block does
  (notes/assumptions/3.md). Safe. -/
  | busError
deriving DecidableEq, Repr

/-- Why an instruction has no meaning. -/
inductive Refusal where
  /-- Raised by an arm of `exec` for a command without a meaning, and by nothing else; no arm does so now. Safe. -/
  | notModelled (mnemonic : String)
deriving DecidableEq, Repr

/-- What the START write latches (10_state.md R61, 40_control.md R140). -/
structure Latch where
  op     : BitVec 8
  srcLen : Word
  arg0   : Word
  arg1   : Word
deriving DecidableEq, Repr

/-- The sequencer (10_state.md R61). -/
inductive Sequencer where
  | idle
  | busy (latch : Latch)
deriving DecidableEq, Repr

/-- The hidden tree arena (10_state.md R60). Its content between commands is UNSPEC whatever ran, so all of it is the
free value of one draw (notes/assumptions/7.md). -/
structure Arena where
  draw : Nat
deriving DecidableEq, Repr

/-- Place `i` of the arena, one of up to 511 (10_state.md R60). -/
def Arena.node (a : Arena) (i : Fin 511) : Node := Config.unspecNode a.draw i

/-- What the host port answered last (20_memory.md R74 to R76). The model's own, not the block's state
(notes/assumptions/4.md). -/
inductive Response where
  /-- No access has been served since the machine began. -/
  | none
  /-- OKAY to a write. -/
  | okay
  /-- The value of a read, a 1-byte value in the low 8 bits. -/
  | data (v : Word)
  /-- The error response. -/
  | fault (f : Fault)
deriving DecidableEq, Repr

/-- The state (10_state.md R30). STATUS.BUSY is the one view of `seq` (R61); reserved bits read 0 and are not stored. -/
structure State where
  /-- `IBUF_BYTES`, `OBUF_BYTES`, `CORE_BASE` (R63); no step changes them. -/
  params     : Params
  /-- CTRL.IRQ_EN (R35). -/
  irqEn      : Bool
  /-- CMD.OPCODE (R36). -/
  opcode     : BitVec 8
  /-- STATUS.DONE (R37). -/
  done       : Bool
  /-- STATUS.ERR (R37). -/
  err        : Bool
  /-- STATUS.ERRCODE (R37). -/
  errcode    : BitVec 4
  /-- STATUS.TABLE_VALID (R53). -/
  tableValid : Bool
  /-- SRC_LEN (R38). -/
  srcLen     : Word
  /-- DST_LEN (R39). -/
  dstLen     : Word
  /-- ARG0 (R40). -/
  arg0       : Word
  /-- ARG1 (R40). -/
  arg1       : Word
  /-- RES0 (R41). -/
  res0       : Word
  /-- RES1 (R41). -/
  res1       : Word
  /-- BS_WBITS, the cursor `wpos` (R42). -/
  bsWbits    : Word
  /-- BS_RPOS, the cursor `rpos` (R43). -/
  bsRpos     : Word
  /-- IBUF (R49). -/
  ibuf       : Memory 8
  /-- OBUF (R49). -/
  obuf       : Memory 8
  /-- FREQ (R50). -/
  freq       : Memory 32
  /-- LEN (R51). -/
  len        : Memory 8
  /-- CODE (R52). -/
  code       : Memory 64
  /-- The tree arena (R60). -/
  arena      : Arena
  /-- The sequencer (R61). -/
  seq        : Sequencer
  /-- The events still to come, oldest first; the model's own (notes/assumptions/2.md). -/
  pending    : List Event
  /-- The last answer of the host port; the model's own (notes/assumptions/4.md). -/
  resp       : Response
  /-- The number of the next unused draw of free values; the model's own (notes/assumptions/5.md). -/
  draw       : Nat
deriving DecidableEq, Repr

/-- The state hardware reset gives (70_reset_and_hazards.md R330) a block of parameters `p`: registers at their reset
values, buffers, tables and arena UNSPEC, each from a draw of its own numbered from `d` on. -/
def State.resetFrom (p : Params) (d : Nat) (pending : List Event) (resp : Response) : State where
  params     := p
  irqEn      := false
  opcode     := 0
  done       := false
  err        := false
  errcode    := 0
  tableValid := false
  srcLen     := 0
  dstLen     := 0
  arg0       := 0
  arg1       := 0
  res0       := 0
  res1       := 0
  bsWbits    := 0
  bsRpos     := 0
  ibuf       := Memory.unspecified 8 d
  obuf       := Memory.unspecified 8 (d + 1)
  freq       := Memory.unspecified 32 (d + 2)
  len        := Memory.unspecified 8 (d + 3)
  code       := Memory.unspecified 64 (d + 4)
  arena      := { draw := d + 5 }
  seq        := .idle
  pending    := pending
  resp       := resp
  draw       := d + 6

/-- The machine right after hardware reset, at the reference parameters, with nothing yet to come
(70_reset_and_hazards.md R330; notes/assumptions/1.md, 2.md, 5.md). -/
def State.reset : State := State.resetFrom Config.reference 0 [] .none

end Sys2Proof.Machine
end

