-- ==== Sys2Proof/Machine/Flags.lean ====
section
/-!
DEFINITION. The error codes, the flags of STATUS and CTRL and every computation over them (10_state.md R35, R37, R53 to
R55; 60_exceptions.md R300).
-/

namespace Sys2Proof.Machine

/-- The error codes a command can report (60_exceptions.md R300). -/
inductive ErrorCode where
  | illegalOpcode
  | badLength
  | badArgument
  | corruptHeader
  | truncatedStream
  | corruptStream
  | outputOverflow
  | unencodableSymbol
  | badCodeLengths
  | codeTooLong
  | noCodeTable
deriving DecidableEq, Repr

/-- The value of ERRCODE for each error (60_exceptions.md R300). -/
def ErrorCode.toBits : ErrorCode → BitVec 4
  | .illegalOpcode     => 1#4
  | .badLength         => 2#4
  | .badArgument       => 3#4
  | .corruptHeader     => 4#4
  | .truncatedStream   => 5#4
  | .corruptStream     => 6#4
  | .outputOverflow    => 7#4
  | .unencodableSymbol => 8#4
  | .badCodeLengths    => 9#4
  | .codeTooLong       => 10#4
  | .noCodeTable       => 11#4

/-- STATUS.BUSY: the sequencer is Busy (10_state.md R61). -/
def State.busy (s : State) : Bool :=
  match s.seq with
  | .idle   => false
  | .busy _ => true

/-- A bit as a word, at position `k`. -/
def bitWord (b : Bool) (k : Nat) : Word := if b then 1#32 <<< k else 0#32

/-- STATUS as it is read (10_state.md R37): BUSY 0, DONE 1, ERR 2, TABLE_VALID 3, ERRCODE 11:8, every other bit 0. -/
def State.statusWord (s : State) : Word :=
  bitWord s.busy 0 ||| bitWord s.done 1 ||| bitWord s.err 2 ||| bitWord s.tableValid 3 |||
    (s.errcode.setWidth 32 <<< 8)

/-- CTRL as it is read: `zext_32(IRQ_EN << 1)` (10_state.md R35). -/
def State.ctrlWord (s : State) : Word := bitWord s.irqEn 1

/-- CMD as it is read: OPCODE in bits 7:0, bits 31:8 zero (10_state.md R36). -/
def State.cmdWord (s : State) : Word := s.opcode.setWidth 32

/-- The interrupt output: `CTRL.IRQ_EN AND STATUS.DONE` (10_state.md R55, 60_exceptions.md R305). -/
def State.irq (s : State) : Bool := s.irqEn && s.done

/-- A host write `v` to STATUS while idle (10_state.md R37): W1C of DONE by bit 1, of ERR and ERRCODE by bit 2. It is the
acknowledgement of a completion (60_exceptions.md R309). -/
def State.acknowledge (v : Word) (s : State) : State :=
  { s with
    done    := if v.getLsbD 1 then false else s.done
    err     := if v.getLsbD 2 then false else s.err
    errcode := if v.getLsbD 2 then 0#4 else s.errcode }

/-- The flags START clears (40_control.md R140). -/
def State.clearFlags (s : State) : State := { s with done := false, err := false, errcode := 0#4 }

/-- Completion without error: Idle, DONE (40_control.md R143). -/
def State.completeOk (s : State) : State := { s with seq := .idle, done := true }

/-- Completion with error `c`: Idle, DONE, ERR, ERRCODE (40_control.md R143, 60_exceptions.md R301). -/
def State.completeError (c : ErrorCode) (s : State) : State :=
  { s with seq := .idle, done := true, err := true, errcode := c.toBits }

end Sys2Proof.Machine
end

