-- ==== Sys2Proof/Machine/Operands.lean ====
section
/-!
DEFINITION. The operands of a command (30_encoding.md R103) as the START write latched them (10_state.md R61), which
commands read SRC_LEN (30_encoding.md R101), and the write set of each command (40_control.md R150).
-/

namespace Sys2Proof.Machine

/-- What the START write latched (40_control.md R142). `step` runs a command only while the sequencer is Busy; in a state
that is Idle these are the values a START would latch now (notes/assumptions/10.md). -/
def State.latched (s : State) : Latch :=
  match s.seq with
  | .busy l => l
  | .idle   => { op := s.opcode, srcLen := s.srcLen, arg0 := s.arg0, arg1 := s.arg1 }

/-- `n`: the latched SRC_LEN (40_control.md R142). -/
def State.n (s : State) : Nat := s.latched.srcLen.toNat

/-- The latched ARG0, whole (30_encoding.md R103). -/
def State.a0 (s : State) : Nat := s.latched.arg0.toNat

/-- The latched ARG1, whole (30_encoding.md R103). -/
def State.a1 (s : State) : Nat := s.latched.arg1.toNat

/-- `ARG0[7:0]`, the byte operand of RLE_EMIT and of LZ_EMIT's literal (30_encoding.md R103). -/
def State.a0Byte (s : State) : Byte := s.latched.arg0.extractLsb' 0 8

/-- `d = ARG0[15:0]`, the distance of LZ_EMIT's match (30_encoding.md R103). -/
def State.a0Distance (s : State) : Nat := (s.latched.arg0.extractLsb' 0 16).toNat

/-- `L = ARG0[31:16]`, the length of LZ_EMIT's match (30_encoding.md R103). -/
def State.a0Length (s : State) : Nat := (s.latched.arg0.extractLsb' 16 16).toNat

/-- `wpos`, the value of BS_WBITS (10_state.md R42). -/
def State.wpos (s : State) : Nat := s.bsWbits.toNat

/-- `rpos`, the value of BS_RPOS (10_state.md R43). -/
def State.rpos (s : State) : Nat := s.bsRpos.toNat

/-- The column "reads SRC_LEN" of 30_encoding.md R101. -/
def readsSrcLen : Instr → Bool
  | .hufCompress   => true
  | .hufDecompress => true
  | .rleCompress   => true
  | .rleDecompress => true
  | .lzCompress    => true
  | .lzDecompress  => true
  | .bsReset       => false
  | .bsWrite       => false
  | .bsFlush       => false
  | .bsRead        => true
  | .hufCount      => true
  | .hufBuild      => false
  | .hufCanon      => false
  | .hufEncode     => true
  | .hufDecode     => true
  | .rleScan       => true
  | .rleEmit       => false
  | .lzMatch       => true
  | .lzEmit        => false

/-- The state a command may write (40_control.md R150). RES0 and RES1 are always written together. -/
structure WriteSet where
  obuf       : Bool := false
  bsWbits    : Bool := false
  dstLen     : Bool := false
  bsRpos     : Bool := false
  freq       : Bool := false
  len        : Bool := false
  code       : Bool := false
  tableValid : Bool := false
  arena      : Bool := false
  res        : Bool := false
deriving DecidableEq, Repr

/-- The write set of each command, row by row of 40_control.md R150. -/
def writeSet : Instr → WriteSet
  | .hufCompress | .hufDecompress =>
    { obuf := true, bsWbits := true, dstLen := true, bsRpos := true, freq := true, len := true, code := true,
      tableValid := true, arena := true, res := true }
  | .rleCompress | .rleDecompress | .lzCompress | .lzDecompress =>
    { obuf := true, bsWbits := true, dstLen := true, bsRpos := true, res := true }
  | .bsReset => { bsWbits := true, dstLen := true, bsRpos := true }
  | .bsWrite | .lzEmit => { obuf := true, bsWbits := true, dstLen := true }
  | .bsFlush => { bsWbits := true, dstLen := true }
  | .bsRead => { bsRpos := true, res := true }
  | .hufCount => { freq := true, res := true }
  | .hufBuild => { len := true, tableValid := true, arena := true, res := true }
  | .hufCanon => { code := true, tableValid := true, res := true }
  | .hufEncode | .rleEmit => { obuf := true, bsWbits := true, dstLen := true, res := true }
  | .hufDecode => { obuf := true, bsWbits := true, dstLen := true, bsRpos := true, res := true }
  | .rleScan | .lzMatch => { res := true }

/-- The write set of an OPCODE; an illegal one writes nothing (30_encoding.md R102). -/
def writeSetOfOpcode (op : BitVec 8) : WriteSet :=
  match decodeOpcode op with
  | .ok i    => writeSet i
  | .error _ => {}

end Sys2Proof.Machine
end

