-- ==== Sys2Proof/Machine/Ops.lean ====
section
/-!
DEFINITION. The shared operations of the commands: the bit-stream writer and reader (41_bitstream.md R170 to R174), the
named updates of the state, the outcome of a command and its completion (40_control.md R142 to R149). Error completion is
the block's analogue of taking an exception (60_exceptions.md R308) and is one operation here, `complete`.
-/

namespace Sys2Proof.Machine

/-! ## Bits -/

/-- `x` with bit `k` set to `b`. -/
def setBit (x : Byte) (k : Nat) (b : Bool) : Byte :=
  if b then x ||| (1#8 <<< k) else x &&& ~~~(1#8 <<< k)

/-- The bit at cursor position `p` of bytes `rd`: bit `7 − (p mod 8)` of byte `p div 8` (10_state.md R42). -/
def streamBit (rd : Nat → Byte) (p : Nat) : Bool := (rd (p / 8)).getLsbD (7 - p % 8)

/-- `be(i, m)`: the big-endian number held in the `m` bytes from `i` on (00_scope.md R10). -/
def bigEndian (rd : Nat → Byte) (i : Nat) : Nat → Nat
  | 0     => 0
  | m + 1 => bigEndian rd i m * 256 + (rd (i + m)).toNat

/-! ## The bit-stream writer (41_bitstream.md R170) -/

/-- The writer's data: OBUF and the cursor `wpos`. -/
structure Writer where
  mem : Memory 8
  pos : Nat
deriving DecidableEq, Repr

/-- `write_bit(b)` on an OBUF of `cap` bytes (41_bitstream.md R170). -/
def writeBit (cap : Nat) (b : Bool) (w : Writer) : Except ErrorCode Writer :=
  if w.pos = 8 * cap then .error .outputOverflow
  else
    let i := w.pos / 8
    let old := if w.pos % 8 = 0 then 0#8 else w.mem.read i
    .ok { mem := w.mem.write i (setBit old (7 - w.pos % 8) b), pos := w.pos + 1 }

/-- `write_bits(v, m)`: the low `m` bits of `v`, most significant first (41_bitstream.md R170). -/
def writeBits (cap v : Nat) : Nat → Writer → Except ErrorCode Writer
  | 0, w     => .ok w
  | m + 1, w => do
    let w ← writeBit cap (v.testBit m) w
    writeBits cap v m w

/-- `repeat c times: write_bits(v, 8)` (42_huffman.md R225, 43_rle.md R252). -/
def writeCopies (cap v : Nat) : Nat → Writer → Except ErrorCode Writer
  | 0, w     => .ok w
  | c + 1, w => do
    let w ← writeBits cap v 8 w
    writeCopies cap v c w

/-- `flush()` (41_bitstream.md R174). -/
def Writer.flush (w : Writer) : Writer := { w with pos := 8 * ceil8 w.pos }

/-! ## The bit-stream reader (41_bitstream.md R172) -/

/-- `read_bit()` over the `n` input bytes `rd`: the bit and the cursor after it (41_bitstream.md R172). -/
def readBit (rd : Nat → Byte) (n r : Nat) : Except ErrorCode (Bool × Nat) :=
  if 8 * n ≤ r then .error .truncatedStream else .ok (streamBit rd r, r + 1)

/-- `read_bits(m)` with the bits read so far in `v` (41_bitstream.md R172). -/
def readBitsFrom (rd : Nat → Byte) (n : Nat) : Nat → Nat → Nat → Except ErrorCode (Nat × Nat)
  | 0, v, r     => .ok (v, r)
  | m + 1, v, r => do
    let (b, r) ← readBit rd n r
    readBitsFrom rd n m (2 * v + b.toNat) r

/-- `read_bits(m)`: the value and the cursor after it (41_bitstream.md R172). -/
def readBits (rd : Nat → Byte) (n m r : Nat) : Except ErrorCode (Nat × Nat) := readBitsFrom rd n m 0 r

/-! ## Named updates and views of the state -/

/-- The input bytes `IBUF[0 .. n)`; a command reads no other (40_control.md R144). -/
def State.inputArray (s : State) : Array Byte := ((List.range s.n).map s.ibuf.read).toArray

/-- Byte `i` of an input. -/
def byteAt (a : Array Byte) (i : Nat) : Byte := a.getD i 0#8

/-- The writer as the state holds it: OBUF and BS_WBITS. -/
def State.writer (s : State) : Writer := { mem := s.obuf, pos := s.wpos }

/-- The writer after `bs_reset()`: the cursor is 0, no OBUF byte changes (41_bitstream.md R173). -/
def State.freshWriter (s : State) : Writer := { mem := s.obuf, pos := 0 }

/-- OBUF and BS_WBITS as the writer left them. -/
def State.setWriter (w : Writer) (s : State) : State :=
  { s with obuf := w.mem, bsWbits := BitVec.ofNat 32 w.pos }

/-- `BS_RPOS <- r`. -/
def State.setRpos (r : Nat) (s : State) : State := { s with bsRpos := BitVec.ofNat 32 r }

/-- `RES0 <- a; RES1 <- b` (30_encoding.md R104). -/
def State.setRes (a b : Nat) (s : State) : State :=
  { s with res0 := BitVec.ofNat 32 a, res1 := BitVec.ofNat 32 b }

/-- `DST_LEN <- d`. -/
def State.setDstLen (d : Nat) (s : State) : State := { s with dstLen := BitVec.ofNat 32 d }

/-- The whole FREQ table. -/
def State.setFreq (xs : List Nat) (s : State) : State := { s with freq := s.freq.fill xs }

/-- The whole LEN table. -/
def State.setLen (xs : List Nat) (s : State) : State := { s with len := s.len.fill xs }

/-- The whole CODE table. -/
def State.setCode (xs : List Nat) (s : State) : State := { s with code := s.code.fill xs }

/-- `TABLE_VALID <- b`. -/
def State.setTableValid (b : Bool) (s : State) : State := { s with tableValid := b }

/-- The arena has been written: its content is UNSPEC afterwards (10_state.md R60). -/
def State.touchArena (s : State) : State := { s with arena := { draw := s.draw }, draw := s.draw + 1 }

/-! ## UNSPEC write sets -/

/-- Every element of the write set `ws` becomes UNSPEC, each a free value of its own (40_control.md R148,
70_reset_and_hazards.md R331). -/
def State.unspecify (ws : WriteSet) (s : State) : State :=
  { s with
    obuf       := if ws.obuf then Memory.unspecified 8 s.draw else s.obuf
    freq       := if ws.freq then Memory.unspecified 32 (s.draw + 1) else s.freq
    len        := if ws.len then Memory.unspecified 8 (s.draw + 2) else s.len
    code       := if ws.code then Memory.unspecified 64 (s.draw + 3) else s.code
    arena      := if ws.arena then { draw := s.draw + 4 } else s.arena
    bsWbits    := if ws.bsWbits then Config.unspec 32 (s.draw + 5) 0 else s.bsWbits
    dstLen     := if ws.dstLen then Config.unspec 32 (s.draw + 5) 1 else s.dstLen
    bsRpos     := if ws.bsRpos then Config.unspec 32 (s.draw + 5) 2 else s.bsRpos
    res0       := if ws.res then Config.unspec 32 (s.draw + 5) 3 else s.res0
    res1       := if ws.res then Config.unspec 32 (s.draw + 5) 4 else s.res1
    tableValid := if ws.tableValid then (Config.unspec 1 (s.draw + 5) 5).getLsbD 0 else s.tableValid
    draw       := s.draw + 6 }

/-- The effect of a class B error on the write set (40_control.md R148): all of it UNSPEC, except that BS_WBITS and DST_LEN
are 0 if it holds OBUF and TABLE_VALID is 0 if it holds LEN or CODE. -/
def State.classB (ws : WriteSet) (s : State) : State :=
  let t := s.unspecify ws
  { t with
    bsWbits    := if ws.obuf then 0#32 else t.bsWbits
    dstLen     := if ws.obuf then 0#32 else t.dstLen
    tableValid := if ws.len || ws.code then false else t.tableValid }

/-! ## Outcomes and completion -/

/-- The three outcomes of `Execute` (40_control.md R142). -/
inductive CmdOutcome where
  | ok (t : State)
  | errA (c : ErrorCode)
  | errB (c : ErrorCode)
deriving DecidableEq, Repr

/-- A `raise` in a command's pseudocode is a class B error (40_control.md R146). -/
def CmdOutcome.ofBody : Except ErrorCode State → CmdOutcome
  | .ok t    => .ok t
  | .error c => .errB c

/-- The completion of a command that began in `s`: R149 for `Ok`, R147 for class A, R148 for class B, each followed by R143
(40_control.md). -/
def complete (i : Instr) (s : State) : CmdOutcome → State
  | .ok t   => (if (writeSet i).obuf then t.setDstLen (ceil8 t.wpos) else t).completeOk
  | .errA c => s.completeError c
  | .errB c => (s.classB (writeSet i)).completeError c

/-- `Execute` of a command of the opcode map: check 2 of 40_control.md R145 (BAD_LENGTH), then the command's own rule
`body`, then the completion. -/
def runCommand (i : Instr) (body : State → CmdOutcome) (s : State) : State :=
  complete i s (if readsSrcLen i ∧ s.params.ibufBytes < s.n then .errA .badLength else body s)

/-- `Execute` of an OPCODE that is not in the map: check 1 of 40_control.md R145, class A. -/
def illegalCommand (s : State) : State := s.completeError .illegalOpcode

end Sys2Proof.Machine
end

