-- ==== Sys2Proof/Machine/Bus.lean ====
section
/-!
DEFINITION. The host port: the address map (20_memory.md R72), `MemRead` and `MemWrite` (R74, R75), START
(40_control.md R140), the soft reset (70_reset_and_hazards.md R331) and how a host access is served.
-/

namespace Sys2Proof.Machine

/-! ## Address map (20_memory.md R72) -/

/-- The registers (10_state.md section 2). -/
inductive Reg where
  | id | version | ctrl | cmd | status | srcLen | dstLen | arg0 | arg1 | res0 | res1 | bsWbits | bsRpos
  | lzWindow | lzMatch | rleMaxrun | ibufSize | obufSize | formatTags
deriving DecidableEq, Repr

/-- The offset of a register (10_state.md section 2). -/
def Reg.offset : Reg → Nat
  | .id         => 0x000
  | .version    => 0x004
  | .ctrl       => 0x008
  | .cmd        => 0x00C
  | .status     => 0x010
  | .srcLen     => 0x014
  | .dstLen     => 0x018
  | .arg0       => 0x01C
  | .arg1       => 0x020
  | .res0       => 0x024
  | .res1       => 0x028
  | .bsWbits    => 0x02C
  | .bsRpos     => 0x030
  | .lzWindow   => 0x034
  | .lzMatch    => 0x038
  | .rleMaxrun  => 0x03C
  | .ibufSize   => 0x040
  | .obufSize   => 0x044
  | .formatTags => 0x048

/-- Every register, in the order of its offset. -/
def Reg.all : List Reg :=
  [.id, .version, .ctrl, .cmd, .status, .srcLen, .dstLen, .arg0, .arg1, .res0, .res1, .bsWbits, .bsRpos,
    .lzWindow, .lzMatch, .rleMaxrun, .ibufSize, .obufSize, .formatTags]

/-- What a host access can reach (20_memory.md R72): a register, a table entry, one or four bytes of a buffer. -/
inductive Location where
  | reg (r : Reg)
  | freq (s : Nat)
  | len (s : Nat)
  | codeHi (s : Nat)
  | codeLo (s : Nat)
  | ibufByte (a : Nat)
  | ibufWord (a : Nat)
  | obufByte (a : Nat)
  | obufWord (a : Nat)
deriving DecidableEq, Repr

/-- A register or table location at offset `off`, a multiple of 4, below 0x10_0000 (20_memory.md R72). -/
def wordLocation (off : Nat) : Option Location :=
  if off < 0x4C then (Reg.all.find? fun r => r.offset = off).map .reg
  else if 0x400 ≤ off ∧ off < 0x800 then some (.freq ((off - 0x400) / 4))
  else if 0x800 ≤ off ∧ off < 0xC00 then some (.len ((off - 0x800) / 4))
  else if 0x1000 ≤ off ∧ off < 0x1800 then
    some (if off % 8 = 0 then .codeHi ((off - 0x1000) / 8) else .codeLo ((off - 0x1000) / 8))
  else none

/-- A location inside a buffer of `size` bytes, at byte `a` (20_memory.md R72, R77, R83). -/
def bufferLocation (size a n : Nat) (byte word : Nat → Location) : Option Location :=
  if n = 1 ∧ a < size then some (byte a)
  else if n = 4 ∧ a % 4 = 0 ∧ a + 4 ≤ size then some (word a)
  else none

/-- The location an access of `n` bytes at address `addr` reaches; none where one of the first five checks of
20_memory.md R74 gives BUS_ERROR. -/
def locate (p : Params) (addr n : Nat) : Option Location :=
  if addr < p.coreBase then none
  else
    let off := addr - p.coreBase
    if off < 0x100000 then (if n = 4 ∧ off % 4 = 0 then wordLocation off else none)
    else if off < 0x200000 then bufferLocation p.ibufBytes (off - 0x100000) n .ibufByte .ibufWord
    else if off < 0x300000 then bufferLocation p.obufBytes (off - 0x200000) n .obufByte .obufWord
    else none

/-! ## Reads (20_memory.md R74) -/

/-- The four bytes from `a` on, byte `a` in bits 31:24 (20_memory.md R81). -/
def readWord (m : Memory 8) (a : Nat) : Word :=
  ((m.read a).setWidth 32 <<< 24) ||| ((m.read (a + 1)).setWidth 32 <<< 16) |||
    ((m.read (a + 2)).setWidth 32 <<< 8) ||| (m.read (a + 3)).setWidth 32

/-- Store the four bytes of `v` from `a` on, bits 31:24 at `a` (20_memory.md R81). -/
def writeWord (m : Memory 8) (a : Nat) (v : Word) : Memory 8 :=
  (((m.write a (v.extractLsb' 24 8)).write (a + 1) (v.extractLsb' 16 8)).write (a + 2) (v.extractLsb' 8 8)).write
    (a + 3) (v.extractLsb' 0 8)

/-- The value of a register (10_state.md R33 to R48). -/
def readReg (s : State) : Reg → Word
  | .id         => 0x434F5245#32
  | .version    => 0x00000001#32
  | .ctrl       => s.ctrlWord
  | .cmd        => s.cmdWord
  | .status     => s.statusWord
  | .srcLen     => s.srcLen
  | .dstLen     => s.dstLen
  | .arg0       => s.arg0
  | .arg1       => s.arg1
  | .res0       => s.res0
  | .res1       => s.res1
  | .bsWbits    => s.bsWbits
  | .bsRpos     => s.bsRpos
  | .lzWindow   => BitVec.ofNat 32 Config.window
  | .lzMatch    => BitVec.ofNat 32 (Config.minMatch * 65536 + Config.maxMatch)
  | .rleMaxrun  => BitVec.ofNat 32 Config.rleMax
  | .ibufSize   => BitVec.ofNat 32 s.params.ibufBytes
  | .obufSize   => BitVec.ofNat 32 s.params.obufBytes
  | .formatTags =>
    (Config.tagL.setWidth 32 <<< 16) ||| (Config.tagR.setWidth 32 <<< 8) ||| Config.tagH.setWidth 32

/-- The registers that read UNSPEC while Busy (70_reset_and_hazards.md R340). -/
def Reg.unspecWhileBusy : Reg → Bool
  | .dstLen | .res0 | .res1 | .bsWbits | .bsRpos => true
  | .id | .version | .ctrl | .cmd | .status | .srcLen | .arg0 | .arg1 => false
  | .lzWindow | .lzMatch | .rleMaxrun | .ibufSize | .obufSize | .formatTags => false

/-- The value of a location while Idle (20_memory.md R74). -/
def readLocation (s : State) : Location → Word
  | .reg r      => readReg s r
  | .freq i     => s.freq.read i
  | .len i      => (s.len.read i).setWidth 32
  | .codeHi i   => (s.code.read i).extractLsb' 32 32
  | .codeLo i   => (s.code.read i).extractLsb' 0 32
  | .ibufByte a => (s.ibuf.read a).setWidth 32
  | .ibufWord a => readWord s.ibuf a
  | .obufByte a => (s.obuf.read a).setWidth 32
  | .obufWord a => readWord s.obuf a

/-- The answer to a read while Busy (70_reset_and_hazards.md R340): a register's value, UNSPEC for a result register,
BUS_ERROR for a table or a buffer. -/
def readBusy (s : State) : Location → Except Fault Word
  | .reg r => if r.unspecWhileBusy then .ok (Config.unspec 32 s.draw 0) else .ok (readReg s r)
  | .freq _ | .len _ | .codeHi _ | .codeLo _ => .error .busError
  | .ibufByte _ | .ibufWord _ | .obufByte _ | .obufWord _ => .error .busError

/-- `MemRead(addr, n)`: the value, a 1-byte value zero-extended, or BUS_ERROR (20_memory.md R74). -/
def memRead (s : State) (addr n : Nat) : Except Fault Word :=
  match locate s.params addr n with
  | none     => .error .busError
  | some loc => if s.busy then readBusy s loc else .ok (readLocation s loc)

/-! ## START and soft reset -/

/-- START (40_control.md R140), by a CTRL write `v` while Idle. -/
def State.start (v : Word) (s : State) : State :=
  { s.clearFlags with
    irqEn := v.getLsbD 1
    seq   := .busy { op := s.opcode, srcLen := s.srcLen, arg0 := s.arg0, arg1 := s.arg1 } }

/-- A running command is abandoned: its write set becomes UNSPEC (70_reset_and_hazards.md R331). -/
def State.abandon (s : State) : State :=
  match s.seq with
  | .idle   => s
  | .busy l => s.unspecify (writeSetOfOpcode l.op)

/-- Soft reset (70_reset_and_hazards.md R331). -/
def State.softReset (s : State) : State :=
  { s.abandon with
    seq := .idle, irqEn := false, opcode := 0, done := false, err := false, errcode := 0, tableValid := false,
    srcLen := 0, dstLen := 0, arg0 := 0, arg1 := 0, res0 := 0, res1 := 0, bsWbits := 0, bsRpos := 0 }

/-- A write `v` to CTRL while Idle (40_control.md R141). -/
def State.writeCtrl (v : Word) (s : State) : State :=
  if v.getLsbD 2 then s.softReset
  else if v.getLsbD 0 then s.start v
  else { s with irqEn := v.getLsbD 1 }

/-- Hardware reset (70_reset_and_hazards.md R330, R332): the pending events and the last response are the host's and
stay. -/
def State.hardwareReset (s : State) : State := State.resetFrom s.params s.draw s.pending s.resp

/-! ## Writes (20_memory.md R75) -/

/-- A write to a register while Idle: the read-only ones ignore it (20_memory.md R75, R79). -/
def writeReg (s : State) (v : Word) : Reg → State
  | .ctrl   => s.writeCtrl v
  | .cmd    => { s with opcode := v.extractLsb' 0 8 }
  | .status => s.acknowledge v
  | .srcLen => { s with srcLen := v }
  | .arg0   => { s with arg0 := v }
  | .arg1   => { s with arg1 := v }
  | .bsRpos => { s with bsRpos := v }
  | .id | .version | .dstLen | .res0 | .res1 | .bsWbits => s
  | .lzWindow | .lzMatch | .rleMaxrun | .ibufSize | .obufSize | .formatTags => s

/-- A write to a location while Idle (20_memory.md R75). -/
def writeLocation (s : State) (v : Word) : Location → State
  | .reg r      => writeReg s v r
  | .freq i     => { s with freq := s.freq.write i v }
  | .len i      => { s with len := s.len.write i (v.extractLsb' 0 8), tableValid := false }
  | .ibufByte a => { s with ibuf := s.ibuf.write a (v.extractLsb' 0 8) }
  | .ibufWord a => { s with ibuf := writeWord s.ibuf a v }
  | .codeHi _ | .codeLo _ | .obufByte _ | .obufWord _ => s

/-- `MemWrite(addr, n, v)`: the state after it, or BUS_ERROR; while Busy only a soft reset is accepted
(20_memory.md R75, 70_reset_and_hazards.md R340). -/
def memWrite (s : State) (addr n : Nat) (v : Word) : Except Fault State :=
  match locate s.params addr n with
  | none     => .error .busError
  | some loc =>
    if s.busy then
      if loc = .reg .ctrl ∧ v.getLsbD 2 then .ok s.softReset else .error .busError
    else .ok (writeLocation s v loc)

/-! ## Serving a host access -/

/-- A host read is served: its answer is the response, nothing of the block changes (20_memory.md R76, R80). -/
def serveRead (addr n : Nat) (s : State) : State :=
  { s with
    resp := match memRead s addr n with
      | .ok v    => .data v
      | .error f => .fault f
    draw := s.draw + 1 }

/-- A host write is served: OKAY and its effect, or the error response and no effect (20_memory.md R75, R76). -/
def serveWrite (addr n : Nat) (v : Word) (s : State) : State :=
  match memWrite s addr n v with
  | .ok t    => { t with resp := .okay }
  | .error f => { s with resp := .fault f }

end Sys2Proof.Machine
end

