-- ==== Sys2Proof/Machine/BitStream.lean ====
section
/-!
DEFINITION. The bit-stream commands BS_RESET, BS_WRITE, BS_FLUSH, BS_READ (41_bitstream.md R175 to R178).
-/

namespace Sys2Proof.Machine

/-- BS_RESET's own rule (41_bitstream.md R175). -/
def bsReset (s : State) : CmdOutcome := .ok (((s.setWriter s.freshWriter).setRpos 0).setDstLen 0)

/-- BS_RESET (41_bitstream.md R175). -/
def execBsReset (s : State) : Host.Outcome State Fault Refusal := .next (runCommand .bsReset bsReset s)

/-- BS_WRITE's own rule (41_bitstream.md R176). -/
def bsWrite (s : State) : CmdOutcome :=
  if 32 < s.a1 then .errA .badArgument
  else if 8 * s.params.obufBytes < s.wpos + s.a1 then .errA .outputOverflow
  else .ofBody do
    let w ← writeBits s.params.obufBytes s.a0 s.a1 s.writer
    return s.setWriter w

/-- BS_WRITE (41_bitstream.md R176). -/
def execBsWrite (s : State) : Host.Outcome State Fault Refusal := .next (runCommand .bsWrite bsWrite s)

/-- BS_FLUSH's own rule (41_bitstream.md R177). -/
def bsFlush (s : State) : CmdOutcome := .ok ((s.setWriter s.writer.flush).setDstLen (ceil8 s.wpos))

/-- BS_FLUSH (41_bitstream.md R177). -/
def execBsFlush (s : State) : Host.Outcome State Fault Refusal := .next (runCommand .bsFlush bsFlush s)

/-- BS_READ's own rule (41_bitstream.md R178). -/
def bsRead (s : State) : CmdOutcome :=
  if 32 < s.a1 then .errA .badArgument
  else if 8 * s.n < s.rpos + s.a1 then .errA .truncatedStream
  else .ofBody do
    let (v, r) ← readBits (byteAt s.inputArray) s.n s.a1 s.rpos
    return (s.setRpos r).setRes v s.a1

/-- BS_READ (41_bitstream.md R178). -/
def execBsRead (s : State) : Host.Outcome State Fault Refusal := .next (runCommand .bsRead bsRead s)

end Sys2Proof.Machine
end

