-- ==== Sys2Proof/Machine/Huffman.lean ====
section
/-!
DEFINITION. Frequency count, tree builder, canonical code generator, symbol encoder and decoder, and the Huffman commands
(42_huffman.md). A table is handled as the list of its 256 entries, entry `s` for byte value `s`.
-/

namespace Sys2Proof.Machine

/-! ## Frequency table (42_huffman.md R190) -/

/-- The entries of a table as the state holds them, 0 to 255. -/
def tableEntries {w : Nat} (m : Memory w) : List Nat := (List.range Config.nsym).map fun s => (m.read s).toNat

/-- `count()`: FREQ of the input bytes `rd` 0 to `n - 1` (42_huffman.md R190). -/
def countFreq (rd : Nat → Byte) (n : Nat) : List Nat :=
  (List.range Config.nsym).map fun s => (List.range n).countP fun i => (rd i).toNat = s

/-- `k`: how many entries are not 0 (42_huffman.md R190). -/
def distinct (freq : List Nat) : Nat := freq.countP fun f => 0 < f

/-- HUF_COUNT's own rule (42_huffman.md R191). -/
def hufCount (s : State) : CmdOutcome :=
  let freq := countFreq (byteAt s.inputArray) s.n
  .ok ((s.setFreq freq).setRes (distinct freq) 0)

/-- HUF_COUNT (42_huffman.md R191). -/
def execHufCount (s : State) : Host.Outcome State Fault Refusal := .next (runCommand .hufCount hufCount s)

/-! ## Tree builder (42_huffman.md R195) -/

/-- A node of the tree with what hangs below it: a leaf with its symbol, or an internal node with its two children; each
with its weight and insertion order (42_huffman.md R195, 10_state.md R60). -/
inductive HTree where
  | leaf (sym weight order : Nat)
  | node (left right : HTree) (weight order : Nat)
deriving DecidableEq, Repr

/-- A node's weight. -/
def HTree.weight : HTree → Nat
  | .leaf _ w _   => w
  | .node _ _ w _ => w

/-- A node's insertion order. -/
def HTree.order : HTree → Nat
  | .leaf _ _ o   => o
  | .node _ _ _ o => o

/-- `a` comes before `b` in (weight, order), lexicographically (42_huffman.md R195). -/
def HTree.before (a b : HTree) : Bool :=
  a.weight < b.weight ∨ (a.weight = b.weight ∧ a.order < b.order)

/-- The element of the queue `t :: ts` with the least (weight, order), and the queue without it. -/
def extractLeast (t : HTree) : List HTree → HTree × List HTree
  | []      => (t, [])
  | u :: us =>
    if u.before t then
      let (m, rest) := extractLeast u us
      (m, t :: rest)
    else
      let (m, rest) := extractLeast t us
      (m, u :: rest)

/-- The merge loop over the queue `t :: ts`, the next node's order being `next`: while two are left, extract the two least
and insert their parent; then the root. `fuel` is at least the queue's length less 1 (42_huffman.md R195). -/
def mergeLoop : Nat → Nat → HTree → List HTree → HTree
  | 0, _, t, _          => t
  | fuel + 1, next, t, ts =>
    match extractLeast t ts with
    | (a, [])      => a
    | (a, u :: us) =>
      match extractLeast u us with
      | (b, rest) => mergeLoop fuel (next + 1) (.node a b (a.weight + b.weight) next) rest

/-- The present symbols, ascending, with their weights: `S` of 42_huffman.md R195. -/
def presentFrom : Nat → List Nat → List (Nat × Nat)
  | _, []      => []
  | s, f :: fs => if 0 < f then (s, f) :: presentFrom (s + 1) fs else presentFrom (s + 1) fs

/-- The leaves of the present symbols, orders counting from `j`. -/
def leavesFrom : Nat → List (Nat × Nat) → List HTree
  | _, []           => []
  | j, (s, f) :: ps => .leaf s f j :: leavesFrom (j + 1) ps

/-- The symbols below a node with the number of edges from a root `d` edges above it. -/
def HTree.depths : Nat → HTree → List (Nat × Nat)
  | d, .leaf s _ _   => [(s, d)]
  | d, .node l r _ _ => l.depths (d + 1) ++ r.depths (d + 1)

/-- The (symbol, LEN) pairs of the present symbols: none for k = 0, length 1 for k = 1 (42_huffman.md R196), the depth in
the tree otherwise (R195). -/
def codeLengths (freq : List Nat) : List (Nat × Nat) :=
  match leavesFrom 0 (presentFrom 0 freq) with
  | []               => []
  | [.leaf s _ _]    => [(s, 1)]
  | t :: ts          => (mergeLoop ts.length (ts.length + 1) t ts).depths 0

/-- `build()`: LEN of every symbol, 0 for an absent one (42_huffman.md R195). -/
def buildLens (freq : List Nat) : List Nat :=
  let pairs := codeLengths freq
  (List.range Config.nsym).map fun s => (Memory.lookup pairs s).getD 0

/-- The largest entry: `max_s LEN[s]`, 0 for none (42_huffman.md R195, R204). -/
def largest (xs : List Nat) : Nat := xs.foldr max 0

/-- HUF_BUILD's own rule (42_huffman.md R198). -/
def hufBuild (s : State) : CmdOutcome :=
  let freq := tableEntries s.freq
  let lens := buildLens freq
  if Config.codeBits < largest lens then .errB .codeTooLong
  else .ok ((((s.setLen lens).setTableValid false).touchArena).setRes (distinct freq) (largest lens))

/-- HUF_BUILD (42_huffman.md R198). -/
def execHufBuild (s : State) : Host.Outcome State Fault Refusal := .next (runCommand .hufBuild hufBuild s)

/-! ## Canonical code table generator (42_huffman.md R203) -/

/-- The (length, symbol) pairs of the symbols that have a code, symbols counting from `s`. -/
def codedFrom : Nat → List Nat → List (Nat × Nat)
  | _, []      => []
  | s, l :: ls => if 0 < l then (l, s) :: codedFrom (s + 1) ls else codedFrom (s + 1) ls

/-- `x` comes no later than `y` in (LEN, symbol), lexicographically (42_huffman.md R203). -/
abbrev canonicalLE (x y : Nat × Nat) : Prop := x.1 < y.1 ∨ (x.1 = y.1 ∧ x.2 ≤ y.2)

/-- `T` of 42_huffman.md R203: the coded symbols as (LEN, symbol), sorted ascending. -/
def canonicalOrder (lens : List Nat) : List (Nat × Nat) := (codedFrom 0 lens).insertionSort canonicalLE

/-- The (symbol, code) pairs of the rest of `T`, the next code being `code` and the length before it `prev`
(42_huffman.md R203). -/
def assignCodes : Nat → Nat → List (Nat × Nat) → List (Nat × Nat)
  | _, _, []                => []
  | code, prev, (l, s) :: t =>
    let c := code <<< (l - prev)
    (s, c) :: assignCodes (c + 1) l t

/-- `canon()`: CODE of every symbol, 0 for one without a code (42_huffman.md R203). -/
def canonCodes (lens : List Nat) : List Nat :=
  let t := canonicalOrder lens
  let pairs := assignCodes 0 ((t.head?.getD (0, 0)).1) t
  (List.range Config.nsym).map fun s => (Memory.lookup pairs s).getD 0

/-- The Kraft sum `K = Σ_{LEN[s]>0} 2^(64 − LEN[s])` (42_huffman.md R204). -/
def kraftSum (lens : List Nat) : Nat := (lens.map fun l => if l = 0 then 0 else 2 ^ (64 - l)).sum

/-- HUF_CANON's own rule (42_huffman.md R204). -/
def hufCanon (s : State) : CmdOutcome :=
  let lens := tableEntries s.len
  if Config.codeBits < largest lens then .errA .badCodeLengths
  else if 2 ^ 64 < kraftSum lens then .errA .badCodeLengths
  else .ok (((s.setCode (canonCodes lens)).setTableValid true).setRes (distinct lens) (largest lens))

/-- HUF_CANON (42_huffman.md R204). -/
def execHufCanon (s : State) : Host.Outcome State Fault Refusal := .next (runCommand .hufCanon hufCanon s)

/-! ## Encoder (42_huffman.md R208) -/

/-- An entry of a table given as a list. -/
def entry (xs : List Nat) (b : Byte) : Nat := xs.getD b.toNat 0

/-- `encode()` for the next `k` input bytes, from byte `i` on (42_huffman.md R208). -/
def encodeFrom (cap : Nat) (lens codes : List Nat) (rd : Nat → Byte) : Nat → Nat → Writer → Except ErrorCode Writer
  | 0, _, w     => .ok w
  | k + 1, i, w => do
    let w ← writeBits cap (entry codes (rd i)) (entry lens (rd i)) w
    encodeFrom cap lens codes rd k (i + 1) w

/-- `Σ_{i<n} LEN[IBUF[i]]` (42_huffman.md R209). -/
def encodedBits (lens : List Nat) (rd : Nat → Byte) (n : Nat) : Nat :=
  ((List.range n).map fun i => entry lens (rd i)).sum

/-- HUF_ENCODE's own rule (42_huffman.md R209). -/
def hufEncode (s : State) : CmdOutcome :=
  let rd := byteAt s.inputArray
  let lens := tableEntries s.len
  if s.tableValid = false then .errA .noCodeTable
  else if ∃ i ∈ List.range s.n, entry lens (rd i) = 0 then .errA .unencodableSymbol
  else if 8 * s.params.obufBytes < s.wpos + encodedBits lens rd s.n then .errA .outputOverflow
  else .ofBody do
    let w ← encodeFrom s.params.obufBytes lens (tableEntries s.code) rd s.n 0 s.writer
    return (s.setWriter w).setRes (w.pos - s.wpos) 0

/-- HUF_ENCODE (42_huffman.md R209). -/
def execHufEncode (s : State) : Host.Outcome State Fault Refusal := .next (runCommand .hufEncode hufEncode s)

/-! ## Decoder (42_huffman.md R212) -/

/-- The (symbol, LEN, CODE) triples of the symbols that have a code, symbols counting from `s`. -/
def codeTable : Nat → List Nat → List Nat → List (Nat × Nat × Nat)
  | s, l :: ls, c :: cs => if 0 < l then (s, l, c) :: codeTable (s + 1) ls cs else codeTable (s + 1) ls cs
  | _, _, _             => []

/-- The loop of `decode_symbol()`: `len` bits read so far, their value `code`; `left` is `maxlen - len`. It raises
CORRUPT_STREAM when `maxlen` bits match no code (and at once for the empty code), TRUNCATED_STREAM when a bit is missing
(42_huffman.md R212). -/
def decodeSymbolFrom (table : List (Nat × Nat × Nat)) (rd : Nat → Byte) (n : Nat) :
    Nat → Nat → Nat → Nat → Except ErrorCode (Nat × Nat)
  | 0, _, _, _              => .error .corruptStream
  | left + 1, code, len, r  => do
    let (b, r) ← readBit rd n r
    let code := 2 * code + b.toNat
    match table.find? fun e => e.2.1 = len + 1 ∧ e.2.2 = code with
    | some e => .ok (e.1, r)
    | none   => decodeSymbolFrom table rd n left code (len + 1) r

/-- `repeat N times: write_bits(decode_symbol(), 8)`, read cursor `r` (42_huffman.md R213). -/
def decodeLoop (cap : Nat) (table : List (Nat × Nat × Nat)) (maxlen : Nat) (rd : Nat → Byte) (n : Nat) :
    Nat → Nat → Writer → Except ErrorCode (Nat × Writer)
  | 0, r, w     => .ok (r, w)
  | k + 1, r, w => do
    let (sym, r) ← decodeSymbolFrom table rd n maxlen 0 0 r
    let w ← writeBits cap sym 8 w
    decodeLoop cap table maxlen rd n k r w

/-- HUF_DECODE's own rule (42_huffman.md R213). -/
def hufDecode (s : State) : CmdOutcome :=
  let rd := byteAt s.inputArray
  let lens := tableEntries s.len
  if s.tableValid = false then .errA .noCodeTable
  else .ofBody do
    let (r, w) ← decodeLoop s.params.obufBytes (codeTable 0 lens (tableEntries s.code)) (largest lens) rd s.n
      s.a0 s.rpos s.writer
    return ((s.setWriter w).setRpos r).setRes (r - s.rpos) 0

/-- HUF_DECODE (42_huffman.md R213). -/
def execHufDecode (s : State) : Host.Outcome State Fault Refusal := .next (runCommand .hufDecode hufDecode s)

/-! ## HUF_COMPRESS (42_huffman.md R220) -/

/-- The header entries of the present symbols (42_huffman.md R220 step 5). -/
def writeEntries (cap : Nat) : List (Nat × Nat) → Writer → Except ErrorCode Writer
  | [], w           => .ok w
  | (s, f) :: ps, w => do
    let w ← writeBits cap s 8 w
    let w ← writeBits cap f 32 w
    writeEntries cap ps w

/-- Step 6 of HUF_COMPRESS: the codes of the input if two or more byte values are present, nothing otherwise
(42_huffman.md R220). -/
def encodePayload (cap : Nat) (lens codes : List Nat) (rd : Nat → Byte) (n k : Nat) (w : Writer) :
    Except ErrorCode Writer :=
  if 2 ≤ k then encodeFrom cap lens codes rd n 0 w else .ok w

/-- HUF_COMPRESS's own rule (42_huffman.md R220). -/
def hufCompress (s : State) : CmdOutcome :=
  let cap := s.params.obufBytes
  let rd := byteAt s.inputArray
  let freq := countFreq rd s.n
  let k := distinct freq
  .ofBody do
    let w ← writeBits cap Config.tagH.toNat 8 s.freshWriter
    let w ← writeBits cap k 16 w
    let w ← writeBits cap s.n 32 w
    let w ← writeEntries cap (presentFrom 0 freq) w
    let lens := buildLens freq
    if Config.codeBits < largest lens then .error .codeTooLong
    else do
      let codes := canonCodes lens
      let w' ← encodePayload cap lens codes rd s.n k w
      let t := (((s.setFreq freq).setLen lens).setCode codes).setTableValid true
      return ((t.touchArena.setWriter w'.flush).setRpos 0).setRes k (w'.pos - w.pos)

/-- HUF_COMPRESS (42_huffman.md R220). -/
def execHufCompress (s : State) : Host.Outcome State Fault Refusal := .next (runCommand .hufCompress hufCompress s)

/-! ## HUF_DECOMPRESS (42_huffman.md R225) -/

/-- `s_j`, the byte value of header entry `j` (42_huffman.md R225). -/
def headerSymbol (rd : Nat → Byte) (j : Nat) : Nat := (rd (7 + 5 * j)).toNat

/-- `f_j`, the frequency of header entry `j` (42_huffman.md R225). -/
def headerFreq (rd : Nat → Byte) (j : Nat) : Nat := bigEndian rd (8 + 5 * j) 4

/-- Check 5 of 42_huffman.md R225 for entry `j`. -/
abbrev headerEntryOk (rd : Nat → Byte) (j : Nat) : Prop :=
  1 ≤ headerFreq rd j ∧ (j = 0 ∨ headerSymbol rd (j - 1) < headerSymbol rd j)

/-- FREQ as the header of `k` entries gives it (42_huffman.md R225). -/
def headerTable (rd : Nat → Byte) (k : Nat) : List Nat :=
  let pairs := (List.range k).map fun j => (headerSymbol rd j, headerFreq rd j)
  (List.range Config.nsym).map fun s => (Memory.lookup pairs s).getD 0

/-- The payload part of HUF_DECOMPRESS: the read cursor, the writer and `P` (42_huffman.md R225). -/
def hufPayload (cap : Nat) (lens codes : List Nat) (rd : Nat → Byte) (n k total : Nat) (w : Writer) :
    Except ErrorCode (Nat × Writer × Nat) :=
  let r0 := 8 * (7 + 5 * k)
  if k = 1 then do
    let w ← writeCopies cap (headerSymbol rd 0) total w
    return (r0, w, 0)
  else if 2 ≤ k then do
    let (r, w) ← decodeLoop cap (codeTable 0 lens codes) (largest lens) rd n total r0 w
    if n ≠ ceil8 r then .error .corruptStream else return (r, w, r - r0)
  else return (r0, w, 0)

/-- HUF_DECOMPRESS's own rule, checks 1 to 8 then the decoding (42_huffman.md R225). -/
def hufDecompress (s : State) : CmdOutcome :=
  let cap := s.params.obufBytes
  let rd := byteAt s.inputArray
  let k := bigEndian rd 1 2
  let total := bigEndian rd 3 4
  if s.n < 7 then .errA .corruptHeader
  else if rd 0 ≠ Config.tagH then .errA .corruptHeader
  else if 256 < k then .errA .corruptHeader
  else if s.n < 7 + 5 * k then .errA .corruptHeader
  else if ∃ j ∈ List.range k, ¬headerEntryOk rd j then .errA .corruptHeader
  else if ((List.range k).map (headerFreq rd)).sum ≠ total then .errA .corruptHeader
  else if cap < total then .errA .outputOverflow
  else if k = 0 ∧ s.n ≠ 7 then .errA .corruptStream
  else if k = 1 ∧ s.n ≠ 12 then .errA .corruptStream
  else
    let freq := headerTable rd k
    let lens := buildLens freq
    if Config.codeBits < largest lens then .errB .codeTooLong
    else .ofBody do
      let codes := canonCodes lens
      let (r, w, p) ← hufPayload cap lens codes rd s.n k total s.freshWriter
      let t := (((s.setFreq freq).setLen lens).setCode codes).setTableValid true
      return ((t.touchArena.setWriter w.flush).setRpos r).setRes k p

/-- HUF_DECOMPRESS (42_huffman.md R225). -/
def execHufDecompress (s : State) : Host.Outcome State Fault Refusal :=
  .next (runCommand .hufDecompress hufDecompress s)

end Sys2Proof.Machine
end

