-- ==== Sys2Proof/Machine/Lz77.lean ====
section
/-!
DEFINITION. The match finder, the token serializer and the LZ77 commands (44_lz77.md).
-/

namespace Sys2Proof.Machine

/-! ## Match finder (44_lz77.md R260) -/

/-- How many of `k` bytes from `a` on equal those from `b` on, up to the first that does not. -/
def matchLength (rd : Nat → Byte) : Nat → Nat → Nat → Nat
  | _, _, 0     => 0
  | a, b, k + 1 => if rd a = rd b then matchLength rd (a + 1) (b + 1) k + 1 else 0

/-- The best (distance, length) among the distances 1 to `d`, nearest first, replaced only by a strictly longer one
(44_lz77.md R260). -/
def bestMatch (rd : Nat → Byte) (p maxlen : Nat) : Nat → Nat × Nat
  | 0     => (0, 0)
  | d + 1 =>
    let best := bestMatch rd p maxlen d
    let l := matchLength rd (p - (d + 1)) p maxlen
    if best.2 < l then (d + 1, l) else best

/-- `longest_match(p)` for `p < n`: (distance, length) (44_lz77.md R260). -/
def longestMatch (rd : Nat → Byte) (n p : Nat) : Nat × Nat :=
  bestMatch rd p (min Config.maxMatch (n - p)) (min Config.window p)

/-- LZ_MATCH's own rule (44_lz77.md R261). -/
def lzMatch (s : State) : CmdOutcome :=
  if s.n ≤ s.a0 then .errA .badArgument
  else
    let best := longestMatch (byteAt s.inputArray) s.n s.a0
    .ok (s.setRes best.1 best.2)

/-- LZ_MATCH (44_lz77.md R261). -/
def execLzMatch (s : State) : Host.Outcome State Fault Refusal := .next (runCommand .lzMatch lzMatch s)

/-! ## Token serializer (44_lz77.md R265) -/

/-- `emit_literal(b)` (44_lz77.md R265). -/
def emitLiteral (cap : Nat) (b : Byte) (w : Writer) : Except ErrorCode Writer := do
  let w ← writeBits cap 0x00 8 w
  writeBits cap b.toNat 8 w

/-- `emit_match(d, L)` (44_lz77.md R265). -/
def emitMatch (cap d l : Nat) (w : Writer) : Except ErrorCode Writer := do
  let w ← writeBits cap 0x01 8 w
  let w ← writeBits cap d 16 w
  writeBits cap l 16 w

/-- The token of LZ_EMIT: a literal for kind 0, a match otherwise (44_lz77.md R266). -/
def emitToken (cap kind : Nat) (b : Byte) (d l : Nat) (w : Writer) : Except ErrorCode Writer :=
  if kind = 0 then emitLiteral cap b w else emitMatch cap d l w

/-- The bits of that token (44_lz77.md R266). -/
def tokenBits (kind : Nat) : Nat := if kind = 0 then 16 else 40

/-- LZ_EMIT's own rule (44_lz77.md R266). -/
def lzEmit (s : State) : CmdOutcome :=
  let cap := s.params.obufBytes
  if 1 < s.a1 then .errA .badArgument
  else if s.a1 = 1 ∧ ¬(1 ≤ s.a0Distance ∧ s.a0Distance ≤ Config.window ∧
      Config.minMatch ≤ s.a0Length ∧ s.a0Length ≤ Config.maxMatch) then .errA .badArgument
  else if 8 * cap < s.wpos + tokenBits s.a1 then .errA .outputOverflow
  else .ofBody do
    let w ← emitToken cap s.a1 s.a0Byte s.a0Distance s.a0Length s.writer
    return s.setWriter w

/-- LZ_EMIT (44_lz77.md R266). -/
def execLzEmit (s : State) : Host.Outcome State Fault Refusal := .next (runCommand .lzEmit lzEmit s)

/-! ## LZ_COMPRESS (44_lz77.md R270) -/

/-- How far a token loop has come: literal and match tokens so far, and the writer. -/
structure Tokens where
  lits : Nat
  ms   : Nat
  out  : Writer
deriving DecidableEq, Repr

/-- The loop of LZ_COMPRESS at cursor `p`; `fuel` is at least `n - p`. -/
def lzCompressLoop (cap : Nat) (rd : Nat → Byte) (n : Nat) : Nat → Nat → Tokens → Except ErrorCode Tokens
  | 0, _, k        => .ok k
  | fuel + 1, p, k =>
    if p < n then
      let best := longestMatch rd n p
      if Config.minMatch ≤ best.2 then do
        let w ← emitMatch cap best.1 best.2 k.out
        lzCompressLoop cap rd n fuel (p + best.2) { k with ms := k.ms + 1, out := w }
      else do
        let w ← emitLiteral cap (rd p) k.out
        lzCompressLoop cap rd n fuel (p + 1) { k with lits := k.lits + 1, out := w }
    else .ok k

/-- LZ_COMPRESS's own rule (44_lz77.md R270). -/
def lzCompress (s : State) : CmdOutcome :=
  let cap := s.params.obufBytes
  let rd := byteAt s.inputArray
  .ofBody do
    let w ← writeBits cap Config.tagL.toNat 8 s.freshWriter
    let w ← writeBits cap s.n 32 w
    let k ← lzCompressLoop cap rd s.n s.n 0 { lits := 0, ms := 0, out := w }
    return ((s.setWriter k.out.flush).setRpos 0).setRes k.lits k.ms

/-- LZ_COMPRESS (44_lz77.md R270). -/
def execLzCompress (s : State) : Host.Outcome State Fault Refusal := .next (runCommand .lzCompress lzCompress s)

/-! ## LZ_DECOMPRESS (44_lz77.md R272, R273) -/

/-- The copy of a match, one byte at a time: `l` bytes still to copy from distance `d` (44_lz77.md R273). -/
def copyMatch (cap d : Nat) : Nat → Nat → Writer → Except ErrorCode Writer
  | 0, _, w       => .ok w
  | l + 1, out, w => do
    let w ← writeBits cap (w.mem.read (out - d)).toNat 8 w
    copyMatch cap d l (out + 1) w

/-- The token replay at read cursor `r` with `out` bytes produced of `total`; `fuel` is at least `total - out`
(44_lz77.md R273). -/
def lzReplay (cap : Nat) (rd : Nat → Byte) (n total : Nat) :
    Nat → Nat → Nat → Tokens → Except ErrorCode (Nat × Tokens)
  | 0, r, _, k          => .ok (r, k)
  | fuel + 1, r, out, k =>
    if out < total then do
      let (t, r) ← readBits rd n 8 r
      if t = 0x00 then do
        let (b, r) ← readBits rd n 8 r
        let w ← writeBits cap b 8 k.out
        lzReplay cap rd n total fuel r (out + 1) { k with lits := k.lits + 1, out := w }
      else if t = 0x01 then do
        let (d, r) ← readBits rd n 16 r
        let (l, r) ← readBits rd n 16 r
        if d < 1 ∨ Config.window < d ∨ out < d then .error .corruptStream
        else if l < Config.minMatch ∨ Config.maxMatch < l ∨ total < out + l then .error .corruptStream
        else do
          let w ← copyMatch cap d l out k.out
          lzReplay cap rd n total fuel r (out + l) { k with ms := k.ms + 1, out := w }
      else .error .corruptStream
    else .ok (r, k)

/-- LZ_DECOMPRESS's own rule: header checks 1 to 3 (44_lz77.md R272), then the token replay (R273). -/
def lzDecompress (s : State) : CmdOutcome :=
  let cap := s.params.obufBytes
  let rd := byteAt s.inputArray
  let total := bigEndian rd 1 4
  if s.n < 5 then .errA .corruptHeader
  else if rd 0 ≠ Config.tagL then .errA .corruptHeader
  else if cap < total then .errA .outputOverflow
  else .ofBody do
    let (r, k) ← lzReplay cap rd s.n total total 40 0 { lits := 0, ms := 0, out := s.freshWriter }
    if r ≠ 8 * s.n then .error .corruptStream
    else return ((s.setWriter k.out.flush).setRpos r).setRes k.lits k.ms

/-- LZ_DECOMPRESS (44_lz77.md R272, R273). -/
def execLzDecompress (s : State) : Host.Outcome State Fault Refusal := .next (runCommand .lzDecompress lzDecompress s)

end Sys2Proof.Machine
end

