-- ==== Sys2Proof/Machine/Rle.lean ====
section
/-!
DEFINITION. The run scanner, the run encoder and the RLE commands (43_rle.md).
-/

namespace Sys2Proof.Machine

/-! ## Run scanner (43_rle.md R240) -/

/-- How many of the `k` bytes from `q` on equal `v`, up to the first that does not. -/
def sameCount (rd : Nat → Byte) (v : Byte) : Nat → Nat → Nat
  | _, 0     => 0
  | q, k + 1 => if rd q = v then sameCount rd v (q + 1) k + 1 else 0

/-- `run(p)` for `p < n`: the length of the maximal run that starts at `p` (43_rle.md R240). -/
def runLength (rd : Nat → Byte) (n p : Nat) : Nat := 1 + sameCount rd (rd p) (p + 1) (n - (p + 1))

/-- RLE_SCAN's own rule (43_rle.md R241). -/
def rleScan (s : State) : CmdOutcome :=
  if s.n ≤ s.a0 then .errA .badArgument
  else
    let rd := byteAt s.inputArray
    .ok (s.setRes (runLength rd s.n s.a0) (rd s.a0).toNat)

/-- RLE_SCAN (43_rle.md R241). -/
def execRleScan (s : State) : Host.Outcome State Fault Refusal := .next (runCommand .rleScan rleScan s)

/-! ## Run encoder (43_rle.md R245) -/

/-- The loop of `emit_run`: `c` copies of `b` still to write, `m` pairs written; `fuel` is at least `c`. -/
def emitRunLoop (cap : Nat) (b : Byte) : Nat → Nat → Nat → Writer → Except ErrorCode (Nat × Writer)
  | 0, _, m, w        => .ok (m, w)
  | fuel + 1, c, m, w =>
    if c = 0 then .ok (m, w)
    else do
      let t := min c Config.rleMax
      let w ← writeBits cap t 8 w
      let w ← writeBits cap b.toNat 8 w
      emitRunLoop cap b fuel (c - t) (m + 1) w

/-- `emit_run(b, c)`: the number of pairs written, and the writer (43_rle.md R245). -/
def emitRun (cap : Nat) (b : Byte) (c : Nat) (w : Writer) : Except ErrorCode (Nat × Writer) :=
  emitRunLoop cap b c c 0 w

/-- RLE_EMIT's own rule (43_rle.md R246). -/
def rleEmit (s : State) : CmdOutcome :=
  if s.a1 < 1 then .errA .badArgument
  else if 8 * s.params.obufBytes < s.wpos + 16 * ((s.a1 + 254) / 255) then .errA .outputOverflow
  else .ofBody do
    let (m, w) ← emitRun s.params.obufBytes s.a0Byte s.a1 s.writer
    return (s.setWriter w).setRes m 0

/-- RLE_EMIT (43_rle.md R246). -/
def execRleEmit (s : State) : Host.Outcome State Fault Refusal := .next (runCommand .rleEmit rleEmit s)

/-! ## RLE_COMPRESS (43_rle.md R250) -/

/-- The loop of RLE_COMPRESS: cursor `p`, `m` pairs written; `fuel` is at least `n - p`. -/
def rleCompressLoop (cap : Nat) (rd : Nat → Byte) (n : Nat) :
    Nat → Nat → Nat → Writer → Except ErrorCode (Nat × Writer)
  | 0, _, m, w        => .ok (m, w)
  | fuel + 1, p, m, w =>
    if p < n then do
      let r := runLength rd n p
      let (k, w) ← emitRun cap (rd p) r w
      rleCompressLoop cap rd n fuel (p + r) (m + k) w
    else .ok (m, w)

/-- RLE_COMPRESS's own rule (43_rle.md R250). -/
def rleCompress (s : State) : CmdOutcome :=
  let rd := byteAt s.inputArray
  .ofBody do
    let w ← writeBits s.params.obufBytes Config.tagR.toNat 8 s.freshWriter
    let (m, w) ← rleCompressLoop s.params.obufBytes rd s.n s.n 0 0 w
    return ((s.setWriter w.flush).setRpos 0).setRes m 0

/-- RLE_COMPRESS (43_rle.md R250). -/
def execRleCompress (s : State) : Host.Outcome State Fault Refusal := .next (runCommand .rleCompress rleCompress s)

/-! ## RLE_DECOMPRESS (43_rle.md R252) -/

/-- `c_i`, the count of pair `i` (43_rle.md R252). -/
def pairCount (rd : Nat → Byte) (i : Nat) : Nat := (rd (1 + 2 * i)).toNat

/-- The loop of RLE_DECOMPRESS: `q` pairs still to read at cursor `r`. -/
def rleDecompressLoop (cap : Nat) (rd : Nat → Byte) (n : Nat) :
    Nat → Nat → Writer → Except ErrorCode (Nat × Writer)
  | 0, r, w     => .ok (r, w)
  | q + 1, r, w => do
    let (c, r) ← readBits rd n 8 r
    let (v, r) ← readBits rd n 8 r
    let w ← writeCopies cap v c w
    rleDecompressLoop cap rd n q r w

/-- RLE_DECOMPRESS's own rule, checks 1 to 5 then the replay (43_rle.md R252). -/
def rleDecompress (s : State) : CmdOutcome :=
  let rd := byteAt s.inputArray
  let q := (s.n - 1) / 2
  if s.n < 1 then .errA .corruptHeader
  else if rd 0 ≠ Config.tagR then .errA .corruptHeader
  else if (s.n - 1) % 2 ≠ 0 then .errA .corruptStream
  else if ∃ i ∈ List.range q, pairCount rd i < 1 then .errA .corruptStream
  else if s.params.obufBytes < ((List.range q).map (pairCount rd)).sum then .errA .outputOverflow
  else .ofBody do
    let (_, r) ← readBits rd s.n 8 0
    let (r, w) ← rleDecompressLoop s.params.obufBytes rd s.n q r s.freshWriter
    return ((s.setWriter w.flush).setRpos r).setRes q 0

/-- RLE_DECOMPRESS (43_rle.md R252). -/
def execRleDecompress (s : State) : Host.Outcome State Fault Refusal :=
  .next (runCommand .rleDecompress rleDecompress s)

end Sys2Proof.Machine
end

