-- ==== Sys2Proof/Machine/Dispatch.lean ====
section
/-!
DEFINITION. `exec`: the step `Execute` of each command of the opcode map (40_control.md R142), one arm per constructor.
-/

namespace Sys2Proof.Machine

def exec (i : Instr) (s : State) : Host.Outcome State Fault Refusal :=
  match i with
  | .hufCompress => Sys2Proof.Machine.execHufCompress s
  | .hufDecompress => Sys2Proof.Machine.execHufDecompress s
  | .rleCompress => Sys2Proof.Machine.execRleCompress s
  | .rleDecompress => Sys2Proof.Machine.execRleDecompress s
  | .lzCompress => Sys2Proof.Machine.execLzCompress s
  | .lzDecompress => Sys2Proof.Machine.execLzDecompress s
  | .bsReset => Sys2Proof.Machine.execBsReset s
  | .bsWrite => Sys2Proof.Machine.execBsWrite s
  | .bsFlush => Sys2Proof.Machine.execBsFlush s
  | .bsRead => Sys2Proof.Machine.execBsRead s
  | .hufCount => Sys2Proof.Machine.execHufCount s
  | .hufBuild => Sys2Proof.Machine.execHufBuild s
  | .hufCanon => Sys2Proof.Machine.execHufCanon s
  | .hufEncode => Sys2Proof.Machine.execHufEncode s
  | .hufDecode => Sys2Proof.Machine.execHufDecode s
  | .rleScan => Sys2Proof.Machine.execRleScan s
  | .rleEmit => Sys2Proof.Machine.execRleEmit s
  | .lzMatch => Sys2Proof.Machine.execLzMatch s
  | .lzEmit => Sys2Proof.Machine.execLzEmit s

end Sys2Proof.Machine
end

