-- ==== Sys2Proof/Machine/Step.lean ====
section
/-!
DEFINITION. One step of the machine: the next pending event (60_exceptions.md R307), or, when none is pending, the
sequencer's own progress (40_control.md R151).
-/

namespace Sys2Proof.Machine

/-- The sequencer's turn (40_control.md R142): nothing while Idle; while Busy, `Execute` of the latched OPCODE, which is
judged here (R140, R145 check 1). -/
def State.sequencerTurn (s : State) : Host.Outcome State Fault Refusal :=
  match s.seq with
  | .idle   => .next s
  | .busy l =>
    match decodeOpcode l.op with
    | .ok i    => exec i s
    | .error _ => .next (illegalCommand s)

/-- One event at a state from whose pending events it has been taken (60_exceptions.md R307). -/
def State.handle (e : Event) (s : State) : Host.Outcome State Fault Refusal :=
  match e with
  | .read addr n    => .next (serveRead addr n s)
  | .write addr n v => .next (serveWrite addr n v s)
  | .execute        => s.sequencerTurn
  | .hardwareReset  => .next s.hardwareReset

/-- One step: the oldest pending event; with none pending the sequencer's turn, so that a Busy machine makes progress
(40_control.md R151) and an Idle one waits (60_exceptions.md R316). -/
def step (s : State) : Host.Outcome State Fault Refusal :=
  match s.pending with
  | []        => s.sequencerTurn
  | e :: rest => State.handle e { s with pending := rest }

/-- The state in which the very next step executes the command word `w` (its low `nbits` bits): CMD written with the word
and a START taken with the operand registers as they stand, nothing pending before the sequencer's turn
(10_state.md R36, 40_control.md R140; notes/assumptions/11.md). -/
def State.withFetchWord (s : State) (nbits w : Nat) : State :=
  let op := opcodeField (BitVec.ofNat 32 (w % 2 ^ nbits))
  { s.clearFlags with
    opcode  := op
    seq     := .busy { op := op, srcLen := s.srcLen, arg0 := s.arg0, arg1 := s.arg1 }
    pending := [] }

end Sys2Proof.Machine
end

