-- ==== Sys2Proof/Machine/HostScript.lean ====
section
/-!
DEFINITION. The host script language (30_encoding.md R120) and its pseudo-instructions (R121), as the pending events they
stand for.
-/

namespace Sys2Proof.Machine.Script

/-- `wr REG, imm32` (30_encoding.md R120). -/
def wr (p : Params) (r : Reg) (v : Word) : Event := .write (p.coreBase + r.offset) 4 v

/-- `rd REG` (30_encoding.md R120). -/
def rd (p : Params) (r : Reg) : Event := .read (p.coreBase + r.offset) 4

/-- `wr FREQ[s], imm32` (30_encoding.md R120). -/
def wrFreq (p : Params) (s : Nat) (v : Word) : Event := .write (p.coreBase + 0x400 + 4 * s) 4 v

/-- `wr LEN[s], imm32` (30_encoding.md R120). -/
def wrLen (p : Params) (s : Nat) (v : Word) : Event := .write (p.coreBase + 0x800 + 4 * s) 4 v

/-- `rd FREQ[s]` (30_encoding.md R120). -/
def rdFreq (p : Params) (s : Nat) : Event := .read (p.coreBase + 0x400 + 4 * s) 4

/-- `rd LEN[s]` (30_encoding.md R120). -/
def rdLen (p : Params) (s : Nat) : Event := .read (p.coreBase + 0x800 + 4 * s) 4

/-- `rd CODE_HI[s]` (30_encoding.md R120). -/
def rdCodeHi (p : Params) (s : Nat) : Event := .read (p.coreBase + 0x1000 + 8 * s) 4

/-- `rd CODE_LO[s]` (30_encoding.md R120). -/
def rdCodeLo (p : Params) (s : Nat) : Event := .read (p.coreBase + 0x1004 + 8 * s) 4

/-- `wrb IBUF+a, imm8` (30_encoding.md R120). -/
def wrb (p : Params) (a : Nat) (b : Byte) : Event := .write (p.coreBase + 0x100000 + a) 1 (b.setWidth 32)

/-- `wrw IBUF+a, imm32` (30_encoding.md R120). -/
def wrw (p : Params) (a : Nat) (v : Word) : Event := .write (p.coreBase + 0x100000 + a) 4 v

/-- `rdb OBUF+a` (30_encoding.md R120). -/
def rdb (p : Params) (a : Nat) : Event := .read (p.coreBase + 0x200000 + a) 1

/-- `rdw OBUF+a` (30_encoding.md R120). -/
def rdw (p : Params) (a : Nat) : Event := .read (p.coreBase + 0x200000 + a) 4

/-- The byte writes of `load IBUF`, from byte `a` on (30_encoding.md R121). -/
def loadFrom (p : Params) : Nat → List Byte → List Event
  | _, []      => []
  | a, b :: bs => wrb p a b :: loadFrom p (a + 1) bs

/-- `load IBUF, b0 b1 … b(m−1)` (30_encoding.md R121). -/
def load (p : Params) (bytes : List Byte) : List Event :=
  loadFrom p 0 bytes ++ [wr p .srcLen (BitVec.ofNat 32 bytes.length)]

/-- `args a0, a1` (30_encoding.md R121). -/
def args (p : Params) (a0 a1 : Word) : List Event := [wr p .arg0 a0, wr p .arg1 a1]

/-- `start OP` (30_encoding.md R121). -/
def start (p : Params) (i : Instr) : List Event := [wr p .cmd (encode i), wr p .ctrl 0x1#32]

/-- `starti OP` (30_encoding.md R121). -/
def starti (p : Params) (i : Instr) : List Event := [wr p .cmd (encode i), wr p .ctrl 0x3#32]

/-- `wait` (30_encoding.md R121) when `k` STATUS reads are served before `Execute`: those reads, the sequencer's turn, and
the read that finds BUSY = 0. The number `k` is the free delay of 40_control.md R151. -/
def wait (p : Params) (k : Nat) : List Event := List.replicate k (rd p .status) ++ [.execute, rd p .status]

/-- `run OP`, with the delay of its `wait` (30_encoding.md R121). -/
def run (p : Params) (i : Instr) (k : Nat) : List Event := start p i ++ wait p k

/-- `ack` (30_encoding.md R121). -/
def ack (p : Params) : List Event := [wr p .status 0x6#32]

/-- `sreset` (30_encoding.md R121). -/
def sreset (p : Params) : List Event := [wr p .ctrl 0x4#32]

end Sys2Proof.Machine.Script
end

