-- ==== Sys2Proof/Safety.lean ====
section
/-!
DEFINITION. What holds of the block at every point a host access can observe: the invariants the spec states
(10_state.md R37, R39, R42, R53, R61; 41_bitstream.md R171; 60_exceptions.md R300; 00_scope.md R7); what a command leaves
unchanged and how it ends (40_control.md R143 to R150), in the terms claims use.
-/

namespace Sys2Proof.Machine

/-! ## The invariant -/

/-- The memories are in canonical form and hold nothing outside their sizes (10_state.md R49 to R52). -/
structure State.MemoriesOk (s : State) : Prop where
  ibuf_wf     : s.ibuf.wf
  ibuf_within : s.ibuf.within s.params.ibufBytes
  obuf_wf     : s.obuf.wf
  obuf_within : s.obuf.within s.params.obufBytes
  freq_wf     : s.freq.wf
  freq_within : s.freq.within Config.nsym
  len_wf      : s.len.wf
  len_within  : s.len.within Config.nsym
  code_wf     : s.code.wf
  code_within : s.code.within Config.nsym

/-- The writer's cursor is inside OBUF (10_state.md R42), DST_LEN counts its bytes (R39), and the bits of its last partial
byte past it are 0 (41_bitstream.md R171). -/
structure State.WriterOk (s : State) : Prop where
  inside  : s.wpos ≤ 8 * s.params.obufBytes
  dstLen  : s.dstLen.toNat = ceil8 s.wpos
  padding : ∀ p, s.wpos ≤ p → p < 8 * ceil8 s.wpos → streamBit s.obuf.read p = false

/-- ERR = 1 if and only if ERRCODE ≠ 0; BUSY = 1 implies DONE = 0, ERR = 0 and ERRCODE = 0 (10_state.md R37); the reserved
codes 12 to 15 are never reported (60_exceptions.md R300). -/
structure State.FlagsOk (s : State) : Prop where
  err_iff    : s.err = true ↔ s.errcode ≠ 0
  busy_clear : s.busy = true → s.done = false ∧ s.err = false ∧ s.errcode = 0
  code_known : s.errcode.toNat < 12

/-- While Busy, CMD, SRC_LEN, ARG0 and ARG1 hold what was latched (70_reset_and_hazards.md R340). -/
def State.LatchOk (s : State) : Prop :=
  ∀ l, s.seq = .busy l → l = { op := s.opcode, srcLen := s.srcLen, arg0 := s.arg0, arg1 := s.arg1 }

/-- What TABLE_VALID = 1 guarantees (10_state.md R53): every LEN is at most 64, the Kraft sum at most 2^64, and every CODE
is the canonical code for LEN. -/
structure State.TablesOk (s : State) : Prop where
  len_le : ∀ l ∈ tableEntries s.len, l ≤ 64
  kraft  : kraftSum (tableEntries s.len) ≤ 2 ^ 64
  canon  : tableEntries s.code = canonCodes (tableEntries s.len)

/-- The invariant of the block. -/
structure State.Inv (s : State) : Prop where
  legal    : s.params.legal
  memories : s.MemoriesOk
  writer   : s.WriterOk
  flags    : s.FlagsOk
  latch    : s.LatchOk
  tables   : s.tableValid = true → s.TablesOk

/-! ## What a command leaves and how it ends -/

/-- From `s` to `t` nothing outside the write set `ws` changes: not IBUF, SRC_LEN, ARG0, ARG1, CMD, CTRL, the parameters
(40_control.md R150), nor any element `ws` does not hold, nor the pending events and the last response. -/
structure State.SameOutside (ws : WriteSet) (s t : State) : Prop where
  params     : t.params = s.params
  irqEn      : t.irqEn = s.irqEn
  opcode     : t.opcode = s.opcode
  srcLen     : t.srcLen = s.srcLen
  arg0       : t.arg0 = s.arg0
  arg1       : t.arg1 = s.arg1
  ibuf       : t.ibuf = s.ibuf
  pending    : t.pending = s.pending
  resp       : t.resp = s.resp
  obuf       : ws.obuf = false → t.obuf = s.obuf
  bsWbits    : ws.bsWbits = false → t.bsWbits = s.bsWbits
  dstLen     : ws.dstLen = false → t.dstLen = s.dstLen
  bsRpos     : ws.bsRpos = false → t.bsRpos = s.bsRpos
  freq       : ws.freq = false → t.freq = s.freq
  len        : ws.len = false → t.len = s.len
  code       : ws.code = false → t.code = s.code
  tableValid : ws.tableValid = false → t.tableValid = s.tableValid
  arena      : ws.arena = false → t.arena = s.arena
  res0       : ws.res = false → t.res0 = s.res0
  res1       : ws.res = false → t.res1 = s.res1

/-- Command `i` ended `Ok` (40_control.md R143, R149): Idle, DONE, no error recorded, nothing outside its write set
changed. -/
structure State.CompletedOk (i : Instr) (s t : State) : Prop where
  idle    : t.seq = .idle
  done    : t.done = true
  err     : t.err = s.err
  errcode : t.errcode = s.errcode
  frame   : State.SameOutside (writeSet i) s t

/-- Command `i` ended with the class B error `c` (40_control.md R143, R148). -/
structure State.FailedClassB (i : Instr) (c : ErrorCode) (s t : State) : Prop where
  idle       : t.seq = .idle
  done       : t.done = true
  err        : t.err = true
  errcode    : t.errcode = c.toBits
  frame      : State.SameOutside (writeSet i) s t
  noOutput   : (writeSet i).obuf = true → t.bsWbits = 0 ∧ t.dstLen = 0
  tableValid : (writeSet i).len = true ∨ (writeSet i).code = true → t.tableValid = false

/-- The codes each command can report, read off the column "raised by" of 60_exceptions.md R300. -/
def errorCodesOf : Instr → List ErrorCode
  | .hufCompress   => [.badLength, .outputOverflow, .codeTooLong]
  | .hufDecompress => [.badLength, .corruptHeader, .truncatedStream, .corruptStream, .outputOverflow, .codeTooLong]
  | .rleCompress   => [.badLength, .outputOverflow]
  | .rleDecompress => [.badLength, .corruptHeader, .corruptStream, .outputOverflow]
  | .lzCompress    => [.badLength, .outputOverflow]
  | .lzDecompress  => [.badLength, .corruptHeader, .truncatedStream, .corruptStream, .outputOverflow]
  | .bsReset       => []
  | .bsWrite       => [.badArgument, .outputOverflow]
  | .bsFlush       => []
  | .bsRead        => [.badLength, .badArgument, .truncatedStream]
  | .hufCount      => [.badLength]
  | .hufBuild      => [.codeTooLong]
  | .hufCanon      => [.badCodeLengths]
  | .hufEncode     => [.badLength, .noCodeTable, .unencodableSymbol, .outputOverflow]
  | .hufDecode     => [.badLength, .noCodeTable, .truncatedStream, .corruptStream, .outputOverflow]
  | .rleScan       => [.badLength, .badArgument]
  | .rleEmit       => [.badArgument, .outputOverflow]
  | .lzMatch       => [.badLength, .badArgument]
  | .lzEmit        => [.badArgument, .outputOverflow]

/-- The six codec commands (30_encoding.md R101, family "codec"). -/
def isCodec : Instr → Bool
  | .hufCompress | .hufDecompress | .rleCompress | .rleDecompress | .lzCompress | .lzDecompress => true
  | .bsReset | .bsWrite | .bsFlush | .bsRead => false
  | .hufCount | .hufBuild | .hufCanon | .hufEncode | .hufDecode => false
  | .rleScan | .rleEmit | .lzMatch | .lzEmit => false

/-- The row of 20_memory.md R72 that admits an access of `n` bytes at offset `off`: the condition under which it gets no
BUS_ERROR while Idle, written from the map and not from `locate`. -/
def accessAllowed (p : Params) (off n : Nat) : Prop :=
  (n = 4 ∧ off % 4 = 0 ∧
    (off < 0x4C ∨ (0x400 ≤ off ∧ off < 0xC00) ∨ (0x1000 ≤ off ∧ off < 0x1800))) ∨
  ((n = 1 ∨ (n = 4 ∧ off % 4 = 0)) ∧
    ((0x100000 ≤ off ∧ off - 0x100000 + n ≤ p.ibufBytes) ∨
      (0x200000 ≤ off ∧ off - 0x200000 + n ≤ p.obufBytes)))

end Sys2Proof.Machine
end

