-- ==== Sys2Proof/Safety/Containers.lean ====
section
/-!
DEFINITION. Bit streams and the three container formats as lists of bytes or bits (30_encoding.md R110 to R117), written
from the layouts and not from the commands' loops, in the terms claims use.
-/

namespace Sys2Proof.Machine

/-! ## Bits and bytes -/

/-- The low `m` bits of `v`, most significant first (20_memory.md R82). -/
def bitsMSB (v : Nat) : Nat → List Bool
  | 0     => []
  | m + 1 => v.testBit m :: bitsMSB v m

/-- The bits of bytes, in stream order (20_memory.md R82). -/
def bytesBits (bs : List Byte) : List Bool := bs.flatMap fun b => bitsMSB b.toNat 8

/-- The `k` bits at cursor `p` on of bytes `rd` (10_state.md R42, R43). -/
def streamBits (rd : Nat → Byte) (p k : Nat) : List Bool := (List.range k).map fun j => streamBit rd (p + j)

/-- `[name:k]`: `v` as `k` bytes, most significant byte first (30_encoding.md R110). -/
def beBytes (v : Nat) : Nat → List Byte
  | 0     => []
  | k + 1 => beBytes (v / 256) k ++ [BitVec.ofNat 8 v]

/-- `IBUF[0 .. n)`. -/
def State.inputBytes (s : State) : List Byte := (List.range s.n).map s.ibuf.read

/-- `OBUF[0 .. DST_LEN)`. -/
def State.outputBytes (s : State) : List Byte := (List.range s.dstLen.toNat).map s.obuf.read

/-- The writer appended `bits` at `wpos` (41_bitstream.md R170, R171): the cursor and DST_LEN moved past them, the bits
before the cursor and the bytes outside those written are as before. -/
structure State.Appended (bits : List Bool) (s t : State) : Prop where
  cursor : t.wpos = s.wpos + bits.length
  dstLen : t.dstLen.toNat = ceil8 t.wpos
  fresh  : streamBits t.obuf.read s.wpos bits.length = bits
  old    : ∀ p, p < s.wpos → streamBit t.obuf.read p = streamBit s.obuf.read p
  before : ∀ a, a < s.wpos / 8 → t.obuf.read a = s.obuf.read a
  beyond : ∀ a, ceil8 t.wpos ≤ a → t.obuf.read a = s.obuf.read a

/-- A codec command produced the bytes `bs`: OBUF[0 .. DST_LEN) is `bs`, the cursor is at its end, every byte beyond is as
before (40_control.md R149, R150). -/
structure State.Produced (bs : List Byte) (s t : State) : Prop where
  dstLen : t.dstLen.toNat = bs.length
  cursor : t.wpos = 8 * bs.length
  output : t.outputBytes = bs
  beyond : ∀ a, bs.length ≤ a → t.obuf.read a = s.obuf.read a

/-! ## RLE (30_encoding.md R114) -/

/-- The maximal runs of a byte sequence, as (byte, length). -/
def runs : List Byte → List (Byte × Nat)
  | []      => []
  | x :: xs =>
    match runs xs with
    | []             => [(x, 1)]
    | (y, c) :: rest => if x = y then (y, c + 1) :: rest else (x, 1) :: (y, c) :: rest

/-- The pairs of a run of `c` bytes `b`: `c div 255` full pairs, then the rest if any (43_rle.md R245). -/
def runPairs (b : Byte) (c : Nat) : List Byte :=
  (List.replicate (c / 255) [255#8, b]).flatten ++ (if c % 255 = 0 then [] else [BitVec.ofNat 8 (c % 255), b])

/-- The RLE container of `xs` (30_encoding.md R114). -/
def rleContainer (xs : List Byte) : List Byte := Config.tagR :: (runs xs).flatMap fun r => runPairs r.1 r.2

/-- The bytes that (count, value) pairs stand for. -/
def expandPairs : List (Byte × Byte) → List Byte
  | []           => []
  | (c, v) :: ps => List.replicate c.toNat v ++ expandPairs ps

/-- (count, value) pairs as bytes (30_encoding.md R114). -/
def pairBytes (ps : List (Byte × Byte)) : List Byte := ps.flatMap fun p => [p.1, p.2]

/-! ## LZ77 (30_encoding.md R115, R116) -/

/-- A token (30_encoding.md R116). -/
inductive Token where
  | literal (b : Byte)
  | copy (d l : Nat)
deriving DecidableEq, Repr

/-- A token as bytes (30_encoding.md R116). -/
def Token.bytes : Token → List Byte
  | .literal b => [0x00#8, b]
  | .copy d l  => 0x01#8 :: (beBytes d 2 ++ beBytes l 2)

/-- A token that is a literal. -/
def Token.isLiteral : Token → Bool
  | .literal _ => true
  | .copy _ _  => false

/-- The LZ77 container of a declared length and tokens (30_encoding.md R115). -/
def lzContainer (total : Nat) (ts : List Token) : List Byte :=
  Config.tagL :: (beBytes total 4 ++ ts.flatMap Token.bytes)

/-- The tokens of the greedy parse of `rd 0 .. n - 1` from cursor `p` on (44_lz77.md R270). -/
def lzTokens (rd : Nat → Byte) (n : Nat) : Nat → Nat → List Token
  | 0, _        => []
  | fuel + 1, p =>
    if p < n then
      if Config.minMatch ≤ (longestMatch rd n p).2 then
        .copy (longestMatch rd n p).1 (longestMatch rd n p).2 :: lzTokens rd n fuel (p + (longestMatch rd n p).2)
      else .literal (rd p) :: lzTokens rd n fuel (p + 1)
    else []

/-- `l` bytes copied one at a time from distance `d` behind the end of `out` (44_lz77.md R273). -/
def copyBytes (d : Nat) : Nat → List Byte → List Byte
  | 0, out     => out
  | l + 1, out => copyBytes d l (out ++ [out.getD (out.length - d) 0#8])

/-- What tokens produce after `out`, if each passes the checks of 44_lz77.md R273 and they end at `total` bytes. -/
def replayTokens (total : Nat) : List Byte → List Token → Option (List Byte)
  | out, []              => if out.length = total then some out else none
  | out, .literal b :: ts => if out.length < total then replayTokens total (out ++ [b]) ts else none
  | out, .copy d l :: ts =>
    if out.length < total ∧ 1 ≤ d ∧ d ≤ Config.window ∧ d ≤ out.length ∧ Config.minMatch ≤ l ∧ l ≤ Config.maxMatch ∧
        out.length + l ≤ total then
      replayTokens total (copyBytes d l out) ts
    else none

/-- The tokens cover `rd p .. n - 1`, each as 44_lz77.md R271 says. -/
def tokensCover (rd : Nat → Byte) (n : Nat) : Nat → List Token → Prop
  | p, []               => p = n
  | p, .literal b :: ts => p < n ∧ b = rd p ∧ tokensCover rd n (p + 1) ts
  | p, .copy d l :: ts  =>
    1 ≤ d ∧ d ≤ min Config.window p ∧ Config.minMatch ≤ l ∧ l ≤ Config.maxMatch ∧ p + l ≤ n ∧
      (∀ j, j < l → rd (p - d + j) = rd (p + j)) ∧ tokensCover rd n (p + l) ts

/-- The input ends inside the next token: no byte is left for its tag, or too few for its fields (44_lz77.md R273). -/
def tokenCut (rest : List Byte) : Prop :=
  rest = [] ∨ rest = [0x00#8] ∨ ∃ fields, rest = 0x01#8 :: fields ∧ fields.length < 4

/-- The next token is whole as far as it is read, but refused after `out` of `total` bytes: an unknown tag, or a match whose
distance or length 44_lz77.md R273 does not allow. -/
def tokenRefused (total out : Nat) (rest : List Byte) : Prop :=
  (∃ tag tail, rest = tag :: tail ∧ tag ≠ 0x00#8 ∧ tag ≠ 0x01#8) ∨
  (∃ d l tail, rest = (Token.copy d l).bytes ++ tail ∧ d < 65536 ∧ l < 65536 ∧
    (d < 1 ∨ Config.window < d ∨ out < d ∨ l < Config.minMatch ∨ Config.maxMatch < l ∨ total < out + l))

/-! ## Huffman (30_encoding.md R111 to R113) -/

/-- The code bits of the bytes `xs` under the tables (42_huffman.md R208). -/
def codeBits (lens codes : List Nat) (xs : List Byte) : List Bool :=
  xs.flatMap fun b => bitsMSB (entry codes b) (entry lens b)

/-- No code of the tables begins the bits `rest` (42_huffman.md R212). -/
def noCodeBegins (lens codes : List Nat) (rest : List Bool) : Prop :=
  ∀ b : Byte, 0 < entry lens b → ¬bitsMSB (entry codes b) (entry lens b) <+: rest

/-- FREQ of `xs` (42_huffman.md R190). -/
def freqOf (xs : List Byte) : List Nat := (List.range Config.nsym).map fun s => xs.countP fun b => b.toNat = s

/-- The header of a Huffman container: tag, distinct count, original length, entries (30_encoding.md R111). -/
def hufHeader (pairs : List (Nat × Nat)) (total : Nat) : List Byte :=
  Config.tagH :: (beBytes pairs.length 2 ++ beBytes total 4 ++
    pairs.flatMap fun p => BitVec.ofNat 8 p.1 :: beBytes p.2 4)

/-- Checks 1 to 6 of HUF_DECOMPRESS on the `n` input bytes `rd` (42_huffman.md R225): `k = be(1, 2)`, `N = be(3, 4)`,
`s_j = IBUF[7 + 5j]`, `f_j = be(8 + 5j, 4)`. -/
structure HufHeaderOk (rd : Nat → Byte) (n : Nat) : Prop where
  fixed   : 7 ≤ n
  tag     : rd 0 = Config.tagH
  count   : bigEndian rd 1 2 ≤ 256
  entries : 7 + 5 * bigEndian rd 1 2 ≤ n
  present : ∀ j, j < bigEndian rd 1 2 → 1 ≤ bigEndian rd (8 + 5 * j) 4
  rising  : ∀ j, j + 1 < bigEndian rd 1 2 → (rd (7 + 5 * j)).toNat < (rd (7 + 5 * (j + 1))).toNat
  total   : ((List.range (bigEndian rd 1 2)).map fun j => bigEndian rd (8 + 5 * j) 4).sum = bigEndian rd 3 4

/-- The payload bits of `xs`: its codes if two or more byte values are present, none otherwise (30_encoding.md R112,
R113). -/
def hufPayloadBits (xs : List Byte) : List Bool :=
  if 2 ≤ distinct (freqOf xs) then codeBits (buildLens (freqOf xs)) (canonCodes (buildLens (freqOf xs))) xs else []

/-- The bits of the Huffman container of `xs`, padding included (30_encoding.md R111, R113). -/
def hufContainerBits (xs : List Byte) : List Bool :=
  bytesBits (hufHeader (presentFrom 0 (freqOf xs)) xs.length) ++ hufPayloadBits xs ++
    List.replicate (8 * ceil8 (hufPayloadBits xs).length - (hufPayloadBits xs).length) false

end Sys2Proof.Machine
end

