-- ==== Sys2Proof/Safety/MergeOrder.lean ====
section
/-!
DEFINITION. The order in which the tree builder merges (42_huffman.md R195), as a relation on forests and not as the
builder's loop, in the terms claims use.
-/

namespace Sys2Proof.Machine

/-- A root of the forest: its weight, its insertion order and, for every symbol below it, the number of edges down to the
symbol's leaf (42_huffman.md R195). -/
structure Root where
  weight : Nat
  order  : Nat
  below  : List (Nat × Nat)
deriving DecidableEq, Repr

/-- `a` has the lesser (weight, order), lexicographically: of equal weights, the earliest inserted comes first
(42_huffman.md R195). -/
abbrev Root.precedes (a b : Root) : Prop := a.weight < b.weight ∨ (a.weight = b.weight ∧ a.order < b.order)

/-- The parent of `a` and `b`, inserted as number `order`: every leaf below is one edge further away. -/
def Root.parent (order : Nat) (a b : Root) : Root where
  weight := a.weight + b.weight
  order  := order
  below  := (a.below ++ b.below).map fun p => (p.1, p.2 + 1)

/-- The forest, its next inserted node being number `next`, is merged into the one root `r`: while more than one root is
left, the least in (weight, order) and the least of the others are taken out and their parent is put in
(42_huffman.md R195). The place of a root in the list means nothing. -/
inductive MergesTo : Nat → List Root → Root → Prop where
  | done (next : Nat) (r : Root) : MergesTo next [r] r
  | merge {next : Nat} {forest rest : List Root} {a b r : Root} (taken : forest.Perm (a :: b :: rest))
      (least : ∀ c ∈ b :: rest, a.precedes c) (second : ∀ c ∈ rest, b.precedes c)
      (rest_merges : MergesTo (next + 1) (Root.parent next a b :: rest) r) : MergesTo next forest r

/-- `S`: the byte values with `freq` above 0, ascending (42_huffman.md R195). -/
def presentSymbols (freq : Nat → Nat) : List Nat := (List.range 256).filter fun s => 0 < freq s

/-- The leaves `0 .. k - 1`: leaf `j` of symbol `S[j]`, its weight the symbol's frequency, its order `j`
(42_huffman.md R195). -/
def leafRoots (freq : Nat → Nat) : List Root :=
  (presentSymbols freq).zipIdx.map fun p => { weight := freq p.1, order := p.2, below := [(p.1, 0)] }

end Sys2Proof.Machine
end

