-- ==== Sys2Proof/Certificates/Slice0/Obligations.lean ====
section
/-!
DEFINITION. The statements about the model, each from the rules of spec/ its docstring names. They are stated here and not
proved.
-/

open Sys2Proof Sys2Proof.Machine

/-! ## Reset, events, decoding -/

/-- 70_reset_and_hazards.md R330, for the model's `State.reset`. The values of `params`, `pending`, `resp` and `draw` are
the model's choice (notes/assumptions/1.md, 2.md, 4.md, 5.md) and are not claimed. -/
def Obligations.ResetLeavesTheSpecifiedState : Prop :=
  let s := State.reset
  s.seq = .idle ∧ readReg s .id = 0x434F5245#32 ∧ readReg s .version = 1#32 ∧
  readReg s .ctrl = 0 ∧ readReg s .cmd = 0 ∧ readReg s .status = 0 ∧
  s.srcLen = 0 ∧ s.dstLen = 0 ∧ s.arg0 = 0 ∧ s.arg1 = 0 ∧ s.res0 = 0 ∧ s.res1 = 0 ∧ s.bsWbits = 0 ∧ s.bsRpos = 0 ∧
  readReg s .lzWindow = 0x1000#32 ∧ readReg s .lzMatch = 0x300FF#32 ∧ readReg s .rleMaxrun = 0xFF#32 ∧
  readReg s .ibufSize = BitVec.ofNat 32 s.params.ibufBytes ∧ readReg s .obufSize = BitVec.ofNat 32 s.params.obufBytes ∧
  readReg s .formatTags = 0x4C5248#32 ∧ s.irq = false ∧
  (∃ d, ∀ a, s.ibuf.read a = Config.unspec 8 d a) ∧ (∃ d, ∀ a, s.obuf.read a = Config.unspec 8 d a) ∧
  (∃ d, ∀ a, s.freq.read a = Config.unspec 32 d a) ∧ (∃ d, ∀ a, s.len.read a = Config.unspec 8 d a) ∧
  (∃ d, ∀ a, s.code.read a = Config.unspec 64 d a) ∧ (∃ d, ∀ i, s.arena.node i = Config.unspecNode d i)

/-- 70_reset_and_hazards.md R332: a hardware reset may come at any time, also while Busy; it abandons any command and gives
the state of R330, every UNSPEC element from a draw not used before. -/
def Obligations.HardwareResetAbandonsAnyCommand : Prop :=
  ∀ s rest, s.pending = .hardwareReset :: rest → ∃ t, step s = .next t ∧
    t.seq = .idle ∧ t.params = s.params ∧ t.pending = rest ∧
    t.irqEn = false ∧ t.opcode = 0 ∧ t.statusWord = 0 ∧ t.irq = false ∧
    t.srcLen = 0 ∧ t.dstLen = 0 ∧ t.arg0 = 0 ∧ t.arg1 = 0 ∧ t.res0 = 0 ∧ t.res1 = 0 ∧ t.bsWbits = 0 ∧ t.bsRpos = 0 ∧
    ∃ d1 d2 d3 d4 d5 d6, [d1, d2, d3, d4, d5, d6].Nodup ∧ (∀ d ∈ [d1, d2, d3, d4, d5, d6], s.draw ≤ d ∧ d < t.draw) ∧
      (∀ a, t.ibuf.read a = Config.unspec 8 d1 a) ∧ (∀ a, t.obuf.read a = Config.unspec 8 d2 a) ∧
      (∀ a, t.freq.read a = Config.unspec 32 d3 a) ∧ (∀ a, t.len.read a = Config.unspec 8 d4 a) ∧
      (∀ a, t.code.read a = Config.unspec 64 d5 a) ∧ (∀ i, t.arena.node i = Config.unspecNode d6 i)

/-- The invariant (10_state.md R37, R39, R42, R53, 41_bitstream.md R171, 60_exceptions.md R300, 70_reset_and_hazards.md
R340) holds after hardware reset. -/
def Obligations.ResetMeetsInvariant : Prop := State.reset.Inv

/-- Every step keeps the invariant, from every state that has it. -/
def Obligations.StepKeepsInvariant : Prop := ∀ s t, s.Inv → step s = .next t → t.Inv

/-- What `step` runs: the command that the latched OPCODE decodes to, at the sequencer's turn, which is the oldest pending
event or, when nothing is pending, the step itself (40_control.md R142, R151; the pending list is notes/assumptions/2.md).
While Idle the sequencer has nothing to do. -/
def Obligations.StepRunsTheDecodedCommand : Prop :=
  ∀ s l i, s.seq = .busy l → decodeOpcode l.op = .ok i →
    (s.pending = [] → step s = exec i s) ∧
    (∀ rest, s.pending = .execute :: rest → step s = exec i { s with pending := rest })

/-- What `step` does where no command runs: a host access is served, an Idle sequencer leaves the state as it is
(20_memory.md R74, R75, 60_exceptions.md R316; notes/assumptions/2.md). And no step ends in a fault or a refusal: BUS_ERROR
ends an access, not the machine (20_memory.md R76; notes/assumptions/3.md), and every command completes (40_control.md
R142, R143). -/
def Obligations.StepServesThePendingAccess : Prop :=
  (∀ s, ∃ t, step s = .next t) ∧
  ∀ s rest,
    (∀ addr n, s.pending = .read addr n :: rest → step s = .next (serveRead addr n { s with pending := rest })) ∧
    (∀ addr n v, s.pending = .write addr n v :: rest →
      step s = .next (serveWrite addr n v { s with pending := rest })) ∧
    (s.seq = .idle → s.pending = .execute :: rest → step s = .next { s with pending := rest }) ∧
    (s.seq = .idle → s.pending = [] → step s = .next s)

/-- 30_encoding.md R102: the 237 OPCODE values outside the map, and no other, are illegal; the sequencer's turn with one
latched completes with the class A error ILLEGAL_OPCODE and changes nothing else. -/
def Obligations.IllegalOpcodeCompletesWithoutEffect : Prop :=
  (∀ op : BitVec 8, (∃ e, decodeOpcode op = .error e) ↔
    (op.toNat = 0x00 ∨ (0x07 ≤ op.toNat ∧ op.toNat ≤ 0x0F) ∨ (0x14 ≤ op.toNat ∧ op.toNat ≤ 0x1F) ∨
      (0x25 ≤ op.toNat ∧ op.toNat ≤ 0x2F) ∨ (0x32 ≤ op.toNat ∧ op.toNat ≤ 0x3F) ∨ 0x42 ≤ op.toNat)) ∧
  (∀ (s : State) l e, s.seq = .busy l → decodeOpcode l.op = .error e →
    s.sequencerTurn = .next { s with seq := .idle, done := true, err := true, errcode := 1#4 })

/-- 30_encoding.md R100, R101, R105: decoding an encoded command gives it back, a word decodes to a command only if its
OPCODE is that command's, and only CMD[7:0] is looked at. -/
def Obligations.DecodeAndEncodeAgree : Prop :=
  (∀ i, decode (encode i) = .ok i ∧ commandWordWellFormed (encode i) = true) ∧
  (∀ w i, decode w = .ok i → opcodeField w = encodeOpcode i) ∧
  (∀ w v : Word, w.toNat % 256 = v.toNat % 256 → decode w = decode v)

/-- Words of every family written out from the opcode map (30_encoding.md R101). -/
def Obligations.OpcodeMapWordsDecode : Prop :=
  decode 0b00000000000000000000000000000001#32 = .ok .hufCompress ∧
  decode 0b00000000000000000000000000000110#32 = .ok .lzDecompress ∧
  decode 0b00000000000000000000000000010011#32 = .ok .bsRead ∧
  decode 0b00000000000000000000000000100010#32 = .ok .hufCanon ∧
  decode 0b00000000000000000000000000110000#32 = .ok .rleScan ∧
  decode 0b00000000000000000000000001000001#32 = .ok .lzEmit ∧
  decodeTableWord 8 0x24 = some .hufDecode ∧ decodeTableWord 8 0x07 = none

/-! ## What every command does -/

/-- 40_control.md R150: no command changes anything outside its write set, however it ends, and within OBUF a successful
command writes only bytes below its final `ceil8(wpos)` (from a cursor inside OBUF, where R42 keeps it). -/
def Obligations.CommandsChangeOnlyTheirWriteSet : Prop :=
  ∀ i s t, exec i s = .next t →
    State.SameOutside (writeSet i) s t ∧
    (s.params.legal → s.wpos ≤ 8 * s.params.obufBytes → s.err = false → t.err = false →
      ∀ a, ceil8 t.wpos ≤ a → t.obuf.read a = s.obuf.read a)

/-- 40_control.md R143: every command ends Idle with DONE set, and with ERR set only if ERRCODE tells the error. -/
def Obligations.EveryCommandCompletes : Prop :=
  ∀ i s, ∃ t, exec i s = .next t ∧ t.seq = .idle ∧ t.busy = false ∧ t.done = true ∧
    ((t.err = s.err ∧ t.errcode = s.errcode) ∨ (t.err = true ∧ ∃ c : ErrorCode, t.errcode = c.toBits))

/-- 40_control.md R145 check 2 and R147: a command that reads SRC_LEN refuses one above `IBUF_BYTES` before any check of its
own, with no other effect; a command that does not read it never reports BAD_LENGTH. -/
def Obligations.BadLengthIsCheckedFirst : Prop :=
  ∀ i s, (readsSrcLen i = true → s.params.ibufBytes < s.n →
      exec i s = .next { s with seq := .idle, done := true, err := true, errcode := 2#4 }) ∧
    ((readsSrcLen i = false ∨ s.n ≤ s.params.ibufBytes) → s.errcode ≠ 2#4 →
      ∀ t, exec i s = .next t → t.errcode ≠ 2#4)

/-- 30_encoding.md R103: an operand outside its legal range is refused with BAD_ARGUMENT and no other effect, and only such
an operand is. -/
def Obligations.BadArgumentExactlyOutsideTheRange : Prop :=
  ∀ i s, (readsSrcLen i = false ∨ s.n ≤ s.params.ibufBytes) →
    (operandsLegal i s.latched.srcLen s.latched.arg0 s.latched.arg1 = false →
      exec i s = .next { s with seq := .idle, done := true, err := true, errcode := 3#4 }) ∧
    (operandsLegal i s.latched.srcLen s.latched.arg0 s.latched.arg1 = true → s.errcode ≠ 3#4 →
      ∀ t, exec i s = .next t → t.errcode ≠ 3#4)

/-- 60_exceptions.md R300: a command that no row names for a code never reports that code. -/
def Obligations.CommandsReportOnlyTheirCodes : Prop :=
  ∀ i s t, s.err = false → s.errcode = 0 → exec i s = .next t →
    (t.err = false ∧ t.errcode = 0) ∨ (t.err = true ∧ ∃ c ∈ errorCodesOf i, t.errcode = c.toBits)

/-- 40_control.md R147, R148, 60_exceptions.md R301: a command that ends with an error has either changed nothing but the
completion flags, or left no output (BS_WBITS = DST_LEN = 0 if it writes OBUF) and no valid table (TABLE_VALID = 0 if it
writes LEN or CODE). -/
def Obligations.ErrorsChangeNothingOrLeaveNoOutput : Prop :=
  ∀ i s t, s.err = false → exec i s = .next t → t.err = true →
    t = { s with seq := .idle, done := true, err := true, errcode := t.errcode } ∨
    ∃ c, State.FailedClassB i c s t

/-- 42_huffman.md R197: the CODE_TOO_LONG check can never fire. -/
def Obligations.CodeTooLongNeverReported : Prop :=
  ∀ i s t, s.params.legal → s.errcode ≠ 10#4 → exec i s = .next t → t.errcode ≠ 10#4

/-- 40_control.md R152, R153: what a codec command does is a function of `IBUF[0 .. n)` alone: two states that agree on it
(and on the buffer sizes) give the same outcome and the same output, whatever else they hold. -/
def Obligations.CodecCommandsArePure : Prop :=
  ∀ i s u t v, isCodec i = true → s.params = u.params → s.params.legal → s.inputBytes = u.inputBytes →
    s.err = false → u.err = false → s.errcode = 0 → u.errcode = 0 → exec i s = .next t → exec i u = .next v →
    t.err = v.err ∧ t.errcode = v.errcode ∧
    (t.err = false → t.outputBytes = v.outputBytes ∧ t.dstLen = v.dstLen ∧ t.bsWbits = v.bsWbits ∧
      t.bsRpos = v.bsRpos ∧ t.res0 = v.res0 ∧ t.res1 = v.res1)

/-- 10_state.md R53: TABLE_VALID is set only by a HUF_CANON, HUF_COMPRESS or HUF_DECOMPRESS that completes without error. -/
def Obligations.OnlyThreeCommandsSetTableValid : Prop :=
  ∀ s t, step s = .next t → s.tableValid = false → t.tableValid = true →
    ∃ l i, s.seq = .busy l ∧ decodeOpcode l.op = .ok i ∧ (i = .hufCanon ∨ i = .hufCompress ∨ i = .hufDecompress) ∧
      t.seq = .idle ∧ t.done = true ∧ t.err = s.err

/-- 40_control.md R143: completion is the only event that sets DONE and ERR: a step that sets either ends a command that
was running. -/
def Obligations.OnlyCompletionSetsDoneAndErr : Prop :=
  ∀ s t, step s = .next t → (s.done = false ∧ t.done = true) ∨ (s.err = false ∧ t.err = true) →
    s.busy = true ∧ t.busy = false ∧ t.done = true

/-- 20_memory.md R92, R71: IBUF changes only by a host write while Idle or a hardware reset, so a command reads the same
bytes from START to completion. -/
def Obligations.InputIsStableWhileBusy : Prop :=
  ∀ s t, step s = .next t → s.busy = true → (∀ rest, s.pending ≠ .hardwareReset :: rest) → t.ibuf = s.ibuf

/-! ## The host port -/

/-- 20_memory.md R72, R74, R77, R78, R83: while Idle an access gets BUS_ERROR exactly where no row of the address map
admits it. -/
def Obligations.AddressMapDecidesBusErrors : Prop :=
  ∀ s addr n v, s.params.legal → s.busy = false →
    ((∃ x, memRead s addr n = .ok x) ↔
      (s.params.coreBase ≤ addr ∧ accessAllowed s.params (addr - s.params.coreBase) n)) ∧
    ((∃ t, memWrite s addr n v = .ok t) ↔
      (s.params.coreBase ≤ addr ∧ accessAllowed s.params (addr - s.params.coreBase) n))

/-- 60_exceptions.md R304, 20_memory.md R76, R80: a BUS_ERROR response sets no status bit, raises no interrupt and changes no
state, and no read changes any; only the response, and for a read the model's draw number (notes/assumptions/5.md), differ. -/
def Obligations.BusErrorsAndReadsChangeNothing : Prop :=
  ∀ s rest,
    (∀ addr n, s.pending = .read addr n :: rest → ∃ r, step s = .next { s with pending := rest, resp := r, draw := s.draw + 1 } ∧
      (memRead s addr n = .error .busError → r = .fault .busError) ∧
      (∀ x, memRead s addr n = .ok x → r = .data x)) ∧
    (∀ addr n v, s.pending = .write addr n v :: rest → memWrite s addr n v = .error .busError →
      step s = .next { s with pending := rest, resp := .fault .busError })

/-- 70_reset_and_hazards.md R340: what a host access gets while a command runs, row by row of its table. -/
def Obligations.BusyAccessesFollowTheTable : Prop :=
  ∀ s addr n v, s.busy = true →
    (∀ r, locate s.params addr n = some (.reg r) → r.unspecWhileBusy = false → memRead s addr n = .ok (readReg s r)) ∧
    (∀ r, locate s.params addr n = some (.reg r) → r ∈ [Reg.dstLen, .res0, .res1, .bsWbits, .bsRpos] →
      memRead s addr n = .ok (Config.unspec 32 s.draw 0)) ∧
    ((∀ r, locate s.params addr n ≠ some (.reg r)) → memRead s addr n = .error .busError) ∧
    (locate s.params addr n = some (.reg .ctrl) → v.getLsbD 2 = true → memWrite s addr n v = .ok s.softReset) ∧
    ((locate s.params addr n ≠ some (.reg .ctrl) ∨ v.getLsbD 2 = false) → memWrite s addr n v = .error .busError)

/-- 20_memory.md R73, R74, R81: while Idle, what 1-byte and 4-byte accesses to the buffers do. A 1-byte write to IBUF sets
that byte to `v[7:0]`; a 4-byte write is big-endian, and 1-byte reads after it return `v[31:24]`, `v[23:16]`, `v[15:8]`,
`v[7:0]`; every other byte and everything else is as before. A 1-byte read of IBUF or OBUF returns the byte, zero-extended,
a 4-byte read the four bytes with byte `a` in bits 31:24. -/
def Obligations.BufferAccessesAreBigEndian : Prop :=
  ∀ s, s.params.legal → s.busy = false →
    let ibuf := s.params.coreBase + 0x100000
    let obuf := s.params.coreBase + 0x200000
    (∀ a v, a < s.params.ibufBytes →
      ∃ t, memWrite s (ibuf + a) 1 v = .ok t ∧ (t.ibuf.read a).toNat = v.toNat % 256 ∧
        memRead t (ibuf + a) 1 = .ok (BitVec.ofNat 32 (v.toNat % 256)) ∧
        (∀ b, b ≠ a → t.ibuf.read b = s.ibuf.read b) ∧ t = { s with ibuf := t.ibuf }) ∧
    (∀ a v, a % 4 = 0 → a + 4 ≤ s.params.ibufBytes →
      ∃ t, memWrite s (ibuf + a) 4 v = .ok t ∧ memRead t (ibuf + a) 4 = .ok v ∧
        (∀ j, j < 4 → memRead t (ibuf + (a + j)) 1 =
          .ok (BitVec.ofNat 32 (v.toNat / 2 ^ (24 - 8 * j) % 256))) ∧
        (∀ b, b < a ∨ a + 4 ≤ b → t.ibuf.read b = s.ibuf.read b) ∧ t = { s with ibuf := t.ibuf }) ∧
    (∀ a, a < s.params.ibufBytes → memRead s (ibuf + a) 1 = .ok (BitVec.ofNat 32 (s.ibuf.read a).toNat)) ∧
    (∀ a, a < s.params.obufBytes → memRead s (obuf + a) 1 = .ok (BitVec.ofNat 32 (s.obuf.read a).toNat)) ∧
    (∀ a, a % 4 = 0 → a + 4 ≤ s.params.ibufBytes →
      memRead s (ibuf + a) 4 = .ok (s.ibuf.read a ++ s.ibuf.read (a + 1) ++ s.ibuf.read (a + 2) ++ s.ibuf.read (a + 3))) ∧
    (∀ a, a % 4 = 0 → a + 4 ≤ s.params.obufBytes →
      memRead s (obuf + a) 4 = .ok (s.obuf.read a ++ s.obuf.read (a + 1) ++ s.obuf.read (a + 2) ++ s.obuf.read (a + 3)))

/-- 10_state.md R37, 20_memory.md R74, 70_reset_and_hazards.md R340: a host read of STATUS, Idle or Busy, returns the fields
at their places; reserved bits read 0. -/
def Obligations.StatusReadsItsFields : Prop :=
  ∀ s, s.params.legal → ∃ w : Word, memRead s (s.params.coreBase + 0x010) 4 = .ok w ∧
    w.getLsbD 0 = s.busy ∧ w.getLsbD 1 = s.done ∧ w.getLsbD 2 = s.err ∧ w.getLsbD 3 = s.tableValid ∧
    w.extractLsb' 8 4 = s.errcode ∧ (∀ k, (4 ≤ k ∧ k ≤ 7) ∨ 12 ≤ k → w.getLsbD k = false) ∧
    w.toNat = s.busy.toNat + 2 * s.done.toNat + 4 * s.err.toNat + 8 * s.tableValid.toNat + 256 * s.errcode.toNat

/-- 10_state.md R37 and 60_exceptions.md R309: a host write to STATUS while idle clears DONE by bit 1, ERR and ERRCODE by
bit 2, and does nothing else. -/
def Obligations.StatusWritesAcknowledge : Prop :=
  ∀ s v, s.busy = false → s.params.legal → ∃ t, memWrite s (s.params.coreBase + 0x010) 4 v = .ok t ∧
    t.done = (s.done && !v.getLsbD 1) ∧ t.err = (s.err && !v.getLsbD 2) ∧
    t.errcode = (if v.getLsbD 2 then 0#4 else s.errcode) ∧
    t = { s with done := t.done, err := t.err, errcode := t.errcode }

/-- 40_control.md R140: START, by a write `v` to CTRL while Idle with `v[2] = 0` and `v[0] = 1`, for every OPCODE. -/
def Obligations.StartLatchesAndClears : Prop :=
  ∀ s v, s.seq = .idle → s.params.legal → v.getLsbD 2 = false → v.getLsbD 0 = true →
    ∃ t, memWrite s (s.params.coreBase + 0x008) 4 v = .ok t ∧
      t = { s with
        irqEn := v.getLsbD 1, done := false, err := false, errcode := 0#4,
        seq := .busy { op := s.opcode, srcLen := s.srcLen, arg0 := s.arg0, arg1 := s.arg1 } } ∧
      t.busy = true ∧ t.irq = false

/-- 40_control.md R141: a write to CTRL while Idle does exactly one of: a soft reset by bit 2; otherwise IRQ_EN, and START by
bit 0; the other bits are ignored. While Busy it is a soft reset by bit 2, otherwise BUS_ERROR. -/
def Obligations.CtrlWriteDoesExactlyOneThing : Prop :=
  ∀ s v, s.params.legal →
    (s.busy = false → memWrite s (s.params.coreBase + 0x008) 4 v =
      .ok (if v.getLsbD 2 then s.softReset else if v.getLsbD 0 then s.start v else { s with irqEn := v.getLsbD 1 })) ∧
    (s.busy = true → memWrite s (s.params.coreBase + 0x008) 4 v =
      if v.getLsbD 2 then .ok s.softReset else .error .busError) ∧
    (s.start v).seq = .busy { op := s.opcode, srcLen := s.srcLen, arg0 := s.arg0, arg1 := s.arg1 } ∧
    s.softReset.seq = .idle

/-- 70_reset_and_hazards.md R331: soft reset, whether Idle or Busy: every register at 0, IBUF unchanged, OBUF and the tables
unchanged if Idle, the write set of an abandoned command UNSPEC. -/
def Obligations.SoftResetAbandonsAndClears : Prop :=
  ∀ s v, s.params.legal → v.getLsbD 2 = true → ∃ t, memWrite s (s.params.coreBase + 0x008) 4 v = .ok t ∧
    t.seq = .idle ∧ t.irqEn = false ∧ t.opcode = 0 ∧ t.statusWord = 0 ∧ t.irq = false ∧
    t.srcLen = 0 ∧ t.dstLen = 0 ∧ t.arg0 = 0 ∧ t.arg1 = 0 ∧ t.res0 = 0 ∧ t.res1 = 0 ∧ t.bsWbits = 0 ∧ t.bsRpos = 0 ∧
    t.params = s.params ∧ t.pending = s.pending ∧ t.ibuf = s.ibuf ∧
    (s.seq = .idle → t.obuf = s.obuf ∧ t.freq = s.freq ∧ t.len = s.len ∧ t.code = s.code ∧ t.arena = s.arena) ∧
    (∀ l, s.seq = .busy l →
      ((writeSetOfOpcode l.op).obuf = false → t.obuf = s.obuf) ∧
      ((writeSetOfOpcode l.op).obuf = true → ∃ d, s.draw ≤ d ∧ ∀ a, t.obuf.read a = Config.unspec 8 d a) ∧
      ((writeSetOfOpcode l.op).freq = false → t.freq = s.freq) ∧
      ((writeSetOfOpcode l.op).freq = true → ∃ d, s.draw ≤ d ∧ ∀ a, t.freq.read a = Config.unspec 32 d a) ∧
      ((writeSetOfOpcode l.op).len = false → t.len = s.len) ∧
      ((writeSetOfOpcode l.op).len = true → ∃ d, s.draw ≤ d ∧ ∀ a, t.len.read a = Config.unspec 8 d a) ∧
      ((writeSetOfOpcode l.op).code = false → t.code = s.code) ∧
      ((writeSetOfOpcode l.op).code = true → ∃ d, s.draw ≤ d ∧ ∀ a, t.code.read a = Config.unspec 64 d a) ∧
      ((writeSetOfOpcode l.op).arena = false → t.arena = s.arena) ∧
      ((writeSetOfOpcode l.op).arena = true → ∃ d, s.draw ≤ d ∧ ∀ i, t.arena.node i = Config.unspecNode d i))

/-- 20_memory.md R75, 10_state.md R36, R38, R40, R43, R50, R51, R53: writes to the registers and tables while Idle, each with
its frame; a write to any LEN entry clears TABLE_VALID. -/
def Obligations.RegisterAndTableWrites : Prop :=
  ∀ s v, s.busy = false → s.params.legal →
    memWrite s (s.params.coreBase + 0x00C) 4 v = .ok { s with opcode := v.extractLsb' 0 8 } ∧
    memWrite s (s.params.coreBase + 0x014) 4 v = .ok { s with srcLen := v } ∧
    memWrite s (s.params.coreBase + 0x01C) 4 v = .ok { s with arg0 := v } ∧
    memWrite s (s.params.coreBase + 0x020) 4 v = .ok { s with arg1 := v } ∧
    memWrite s (s.params.coreBase + 0x030) 4 v = .ok { s with bsRpos := v } ∧
    (∀ x, x < 256 → ∃ t, memWrite s (s.params.coreBase + 0x400 + 4 * x) 4 v = .ok t ∧ t = { s with freq := t.freq } ∧
      t.freq.read x = v ∧ ∀ y, y ≠ x → t.freq.read y = s.freq.read y) ∧
    (∀ x, x < 256 → ∃ t, memWrite s (s.params.coreBase + 0x800 + 4 * x) 4 v = .ok t ∧
      t = { s with len := t.len, tableValid := false } ∧
      (t.len.read x).toNat = v.toNat % 256 ∧ ∀ y, y ≠ x → t.len.read y = s.len.read y)

/-- 20_memory.md R79: a write to a read-only location while idle is ignored and completes with OKAY. -/
def Obligations.ReadOnlyLocationsIgnoreWrites : Prop :=
  ∀ s addr n v loc, s.busy = false → locate s.params addr n = some loc →
    (loc ∈ [Location.reg .id, .reg .version, .reg .dstLen, .reg .res0, .reg .res1, .reg .bsWbits, .reg .lzWindow,
        .reg .lzMatch, .reg .rleMaxrun, .reg .ibufSize, .reg .obufSize, .reg .formatTags] ∨
      (∃ x, loc = .codeHi x ∨ loc = .codeLo x ∨ loc = .obufByte x ∨ loc = .obufWord x)) →
    memWrite s addr n v = .ok s ∧ (serveWrite addr n v s).resp = .okay

/-- 10_state.md R33 to R36, R38 to R48, R50 to R52, 20_memory.md R74: the value of a host read of every register (STATUS has a
statement of its own) and every table entry. The identity and parameter registers read their constants, Idle or Busy; the
others are stated while Idle. CTRL reads IRQ_EN at bit 1 alone, CMD and LEN are zero-extended, and CODE is split into
bits 63:32 at `0x1000 + 8x` and bits 31:0 at `0x1004 + 8x`. -/
def Obligations.RegistersAndTablesReadTheirValues : Prop :=
  ∀ s : State, s.params.legal →
    let reads := fun off (v : Word) => memRead s (s.params.coreBase + off) 4 = .ok v
    reads 0x000 0x434F5245#32 ∧ reads 0x004 0x00000001#32 ∧ reads 0x034 0x00001000#32 ∧ reads 0x038 0x000300FF#32 ∧
    reads 0x03C 0x000000FF#32 ∧ reads 0x040 (BitVec.ofNat 32 s.params.ibufBytes) ∧
    reads 0x044 (BitVec.ofNat 32 s.params.obufBytes) ∧ reads 0x048 0x004C5248#32 ∧
    (s.busy = false →
      reads 0x008 (if s.irqEn then 2#32 else 0#32) ∧ reads 0x00C (BitVec.ofNat 32 s.opcode.toNat) ∧
      reads 0x014 s.srcLen ∧ reads 0x018 s.dstLen ∧ reads 0x01C s.arg0 ∧ reads 0x020 s.arg1 ∧
      reads 0x024 s.res0 ∧ reads 0x028 s.res1 ∧ reads 0x02C s.bsWbits ∧ reads 0x030 s.bsRpos ∧
      ∀ x, x < 256 →
        reads (0x400 + 4 * x) (s.freq.read x) ∧
        reads (0x800 + 4 * x) (BitVec.ofNat 32 (s.len.read x).toNat) ∧
        reads (0x1000 + 8 * x) (BitVec.ofNat 32 ((s.code.read x).toNat / 2 ^ 32)) ∧
        reads (0x1004 + 8 * x) (BitVec.ofNat 32 ((s.code.read x).toNat % 2 ^ 32)))

/-- 60_exceptions.md R305, 10_state.md R55: `irq` is a level, raised by the completion of any command, with or without error,
when IRQ_EN = 1, and taken away by clearing DONE or IRQ_EN. -/
def Obligations.InterruptFollowsCompletion : Prop :=
  (∀ i s t, exec i s = .next t → t.irq = s.irqEn) ∧
  (∀ s : State, s.irq = (s.irqEn && s.done)) ∧
  (∀ s v, s.busy = false → s.params.legal → v.getLsbD 1 = true →
    ∃ t, memWrite s (s.params.coreBase + 0x010) 4 v = .ok t ∧ t.irq = false) ∧
  (∀ s v, s.busy = false → s.params.legal → v.getLsbD 0 = false → v.getLsbD 1 = false →
    ∃ t, memWrite s (s.params.coreBase + 0x008) 4 v = .ok t ∧ t.irq = false)

/-! ## Bit-stream commands -/

/-- 41_bitstream.md R175: BS_RESET. -/
def Obligations.BsResetClearsTheCursors : Prop :=
  encodeOpcode .bsReset = 0x10#8 ∧
  ∀ s, ∃ t, exec .bsReset s = .next t ∧ State.CompletedOk .bsReset s t ∧
    t.bsWbits = 0 ∧ t.bsRpos = 0 ∧ t.dstLen = 0 ∧ t.obuf = s.obuf

/-- 41_bitstream.md R176: BS_WRITE, its checks in order and its effect. -/
def Obligations.BsWriteAppendsTheLowBits : Prop :=
  encodeOpcode .bsWrite = 0x11#8 ∧
  ∀ s, s.params.legal →
    (32 < s.a1 → exec .bsWrite s = .next (s.completeError .badArgument)) ∧
    (s.a1 ≤ 32 → 8 * s.params.obufBytes < s.wpos + s.a1 →
      exec .bsWrite s = .next (s.completeError .outputOverflow)) ∧
    (s.a1 ≤ 32 → s.wpos + s.a1 ≤ 8 * s.params.obufBytes →
      ∃ t, exec .bsWrite s = .next t ∧ State.CompletedOk .bsWrite s t ∧ State.Appended (bitsMSB s.a0 s.a1) s t)

/-- 41_bitstream.md R177, R174: BS_FLUSH moves the cursor to the next byte and writes no byte. -/
def Obligations.BsFlushPadsToAByte : Prop :=
  encodeOpcode .bsFlush = 0x12#8 ∧
  ∀ s, s.params.legal → s.wpos ≤ 8 * s.params.obufBytes →
    ∃ t, exec .bsFlush s = .next t ∧ State.CompletedOk .bsFlush s t ∧
      t.wpos = 8 * ceil8 s.wpos ∧ t.dstLen.toNat = ceil8 s.wpos ∧ t.obuf = s.obuf ∧ t.wpos ≤ 8 * s.params.obufBytes

/-- 41_bitstream.md R178, R172: BS_READ, its checks in order and its effect. The value it leaves in RES0 is the model's
resolution of a conflict in the spec (notes/assumptions/17.md): R178's own example gives 0xFF for 8 bits at position 3 of the
bytes BF 80, where the pseudocode of R172, and this statement, give 0xFC. -/
def Obligations.BsReadReturnsTheNextBits : Prop :=
  encodeOpcode .bsRead = 0x13#8 ∧
  ∀ s, s.params.legal →
    (s.params.ibufBytes < s.n → exec .bsRead s = .next (s.completeError .badLength)) ∧
    (s.n ≤ s.params.ibufBytes → 32 < s.a1 → exec .bsRead s = .next (s.completeError .badArgument)) ∧
    (s.n ≤ s.params.ibufBytes → s.a1 ≤ 32 → 8 * s.n < s.rpos + s.a1 →
      exec .bsRead s = .next (s.completeError .truncatedStream)) ∧
    (s.n ≤ s.params.ibufBytes → s.a1 ≤ 32 → s.rpos + s.a1 ≤ 8 * s.n →
      ∃ t, exec .bsRead s = .next t ∧ State.CompletedOk .bsRead s t ∧ t.rpos = s.rpos + s.a1 ∧
        t.res0.toNat < 2 ^ s.a1 ∧ bitsMSB t.res0.toNat s.a1 = streamBits s.ibuf.read s.rpos s.a1 ∧
        t.res1.toNat = s.a1)

/-! ## Huffman units -/

/-- 42_huffman.md R191, R190: HUF_COUNT. -/
def Obligations.HufCountCountsTheInput : Prop :=
  encodeOpcode .hufCount = 0x20#8 ∧
  ∀ s,
    (s.params.ibufBytes < s.n → exec .hufCount s = .next (s.completeError .badLength)) ∧
    (s.n ≤ s.params.ibufBytes → ∃ t, exec .hufCount s = .next t ∧ State.CompletedOk .hufCount s t ∧
      (∀ x, x < 256 → (t.freq.read x).toNat = s.inputBytes.countP fun b => b.toNat = x) ∧
      ((List.range 256).map fun x => (t.freq.read x).toNat).sum = s.n ∧
      t.res0.toNat = ((List.range 256).countP fun x => 0 < (t.freq.read x).toNat) ∧ t.res1 = 0)

/-- 42_huffman.md R198, R195, R196: HUF_BUILD always completes `Ok`, with CODE unchanged and TABLE_VALID = 0. An absent symbol
gets LEN 0; one present symbol alone gets LEN 1; of two or more, each gets its depth in the tree that merging the leaves gives,
always the two roots least in (weight, order). `buildLens` is the model's name for those lengths. -/
def Obligations.HufBuildWritesTheCodeLengths : Prop :=
  encodeOpcode .hufBuild = 0x21#8 ∧
  ∀ s, let freq := fun x => (s.freq.read x).toNat
    ∃ t, exec .hufBuild s = .next t ∧ State.CompletedOk .hufBuild s t ∧ t.tableValid = false ∧ t.code = s.code ∧
      (∀ x, x < 256 → freq x = 0 → t.len.read x = 0) ∧
      (∀ x, presentSymbols freq = [x] → t.len.read x = 1) ∧
      (2 ≤ (presentSymbols freq).length → ∃ root, MergesTo (presentSymbols freq).length (leafRoots freq) root ∧
        ∀ x ∈ presentSymbols freq, (x, (t.len.read x).toNat) ∈ root.below) ∧
      tableEntries t.len = buildLens (tableEntries s.freq) ∧
      t.res0.toNat = (presentSymbols freq).length ∧
      (∀ x, x < 256 → (t.len.read x).toNat ≤ t.res1.toNat) ∧
      (t.res1.toNat = 0 ∨ ∃ x, x < 256 ∧ (t.len.read x).toNat = t.res1.toNat)

/-- 42_huffman.md R195, R196, R197: the code lengths HUF_BUILD leaves: a symbol has one exactly if it is present; one present
symbol has length 1; two or more satisfy the Kraft equality with lengths between 1 and k − 1; no length exceeds 57. -/
def Obligations.BuiltLengthsFormACompleteCode : Prop :=
  ∀ s t, exec .hufBuild s = .next t →
    (∀ x, x < 256 → ((t.len.read x).toNat = 0 ↔ (s.freq.read x).toNat = 0)) ∧
    (t.res0.toNat = 1 → ∀ x, x < 256 → (s.freq.read x).toNat ≠ 0 → (t.len.read x).toNat = 1) ∧
    (2 ≤ t.res0.toNat →
      ((List.range 256).map fun x =>
        if (t.len.read x).toNat = 0 then 0 else 2 ^ (64 - (t.len.read x).toNat)).sum = 2 ^ 64 ∧
      ∀ x, x < 256 → (t.len.read x).toNat ≤ t.res0.toNat - 1) ∧
    (∀ x, x < 256 → (t.len.read x).toNat ≤ 57)

/-- 42_huffman.md R204, R203: HUF_CANON refuses a LEN above 64 or a Kraft sum above 2^64; otherwise every symbol without a
code gets CODE 0, and every other one the number whose `64 − LEN`-fold left shift is the Kraft sum of the symbols before it
in (LEN, symbol) order. `canonCodes` is the model's name for those codes. -/
def Obligations.HufCanonAssignsTheCanonicalCode : Prop :=
  encodeOpcode .hufCanon = 0x22#8 ∧
  ∀ s, let lens := fun x => (s.len.read x).toNat
    let kraft := ((List.range 256).map fun x => if lens x = 0 then 0 else 2 ^ (64 - lens x)).sum
    ((∃ x, x < 256 ∧ 64 < lens x) → exec .hufCanon s = .next (s.completeError .badCodeLengths)) ∧
    (2 ^ 64 < kraft → exec .hufCanon s = .next (s.completeError .badCodeLengths)) ∧
    ((∀ x, x < 256 → lens x ≤ 64) → kraft ≤ 2 ^ 64 →
      ∃ t, exec .hufCanon s = .next t ∧ State.CompletedOk .hufCanon s t ∧ t.tableValid = true ∧
        tableEntries t.code = canonCodes (tableEntries s.len) ∧
        t.res0.toNat = ((List.range 256).countP fun x => 0 < lens x) ∧
        (∀ x, x < 256 → lens x ≤ t.res1.toNat) ∧ (t.res1.toNat = 0 ∨ ∃ x, x < 256 ∧ lens x = t.res1.toNat) ∧
        ∀ x, x < 256 →
          (lens x = 0 → t.code.read x = 0) ∧
          (0 < lens x → (t.code.read x).toNat * 2 ^ (64 - lens x) =
            ((List.range 256).map fun y =>
              if 0 < lens y ∧ (lens y < lens x ∨ (lens y = lens x ∧ y < x)) then 2 ^ (64 - lens y) else 0).sum))

/-- 42_huffman.md R203, 30_encoding.md R117, 10_state.md R52: while TABLE_VALID = 1 every code fits its length and no code is a
prefix of another. -/
def Obligations.ValidTablesArePrefixFree : Prop :=
  ∀ s : State, s.Inv → s.tableValid = true → ∀ x, x < 256 →
    (s.code.read x).toNat < 2 ^ (s.len.read x).toNat ∧
    ∀ y, y < 256 → x ≠ y → 0 < (s.len.read x).toNat → (s.len.read x).toNat ≤ (s.len.read y).toNat →
      (s.code.read y).toNat / 2 ^ ((s.len.read y).toNat - (s.len.read x).toNat) ≠ (s.code.read x).toNat

/-- 42_huffman.md R209, R208: HUF_ENCODE, its checks in order and its effect. -/
def Obligations.HufEncodeAppendsTheCodes : Prop :=
  encodeOpcode .hufEncode = 0x23#8 ∧
  (∀ s, s.params.ibufBytes < s.n → exec .hufEncode s = .next (s.completeError .badLength)) ∧
  ∀ s, s.params.legal → s.n ≤ s.params.ibufBytes →
    let lens := tableEntries s.len
    let bits := codeBits lens (tableEntries s.code) s.inputBytes
    (s.tableValid = false → exec .hufEncode s = .next (s.completeError .noCodeTable)) ∧
    (s.tableValid = true → (∃ b ∈ s.inputBytes, entry lens b = 0) →
      exec .hufEncode s = .next (s.completeError .unencodableSymbol)) ∧
    (s.tableValid = true → (∀ b ∈ s.inputBytes, 0 < entry lens b) → 8 * s.params.obufBytes < s.wpos + bits.length →
      exec .hufEncode s = .next (s.completeError .outputOverflow)) ∧
    (s.tableValid = true → (∀ b ∈ s.inputBytes, 0 < entry lens b) → s.wpos + bits.length ≤ 8 * s.params.obufBytes →
      ∃ t, exec .hufEncode s = .next t ∧ State.CompletedOk .hufEncode s t ∧ State.Appended bits s t ∧
        t.res0.toNat = bits.length ∧ t.res1 = 0)

/-- 42_huffman.md R212, R213, R226, 60_exceptions.md R306: HUF_DECODE on every input. Without a valid table: NO_CODE_TABLE.
With one, where the input at the cursor holds the codes of `xs`, `xs` no longer than asked for: it reports OUTPUT_OVERFLOW
(class B) if `xs` does not fit OBUF; it appends `xs` and consumes exactly those codes if that was all that was asked for;
otherwise, where no code begins the bits that are left, it reports TRUNCATED_STREAM if fewer are left than some code has bits,
and CORRUPT_STREAM if not (so for the empty code). -/
def Obligations.HufDecodeInvertsTheEncoder : Prop :=
  encodeOpcode .hufDecode = 0x24#8 ∧
  (∀ s, s.params.ibufBytes < s.n → exec .hufDecode s = .next (s.completeError .badLength)) ∧
  ∀ s : State, s.Inv → s.n ≤ s.params.ibufBytes →
    let lens := tableEntries s.len
    let codes := tableEntries s.code
    (s.tableValid = false → exec .hufDecode s = .next (s.completeError .noCodeTable)) ∧
    (∀ xs : List Byte, s.tableValid = true → xs.length ≤ s.a0 → (∀ b ∈ xs, 0 < entry lens b) →
      let bits := codeBits lens codes xs
      let rest := streamBits s.ibuf.read (s.rpos + bits.length) (8 * s.n - (s.rpos + bits.length))
      (xs = [] ∨ s.rpos + bits.length ≤ 8 * s.n) → streamBits s.ibuf.read s.rpos bits.length = bits →
      (8 * s.params.obufBytes < s.wpos + 8 * xs.length →
        ∃ t, exec .hufDecode s = .next t ∧ State.FailedClassB .hufDecode .outputOverflow s t) ∧
      (s.wpos + 8 * xs.length ≤ 8 * s.params.obufBytes → xs.length = s.a0 →
        ∃ t, exec .hufDecode s = .next t ∧ State.CompletedOk .hufDecode s t ∧ State.Appended (bytesBits xs) s t ∧
          t.rpos = s.rpos + bits.length ∧ t.res0.toNat = bits.length ∧ t.res1 = 0) ∧
      (s.wpos + 8 * xs.length ≤ 8 * s.params.obufBytes → xs.length < s.a0 → noCodeBegins lens codes rest →
        ((∃ b, rest.length < entry lens b) →
          ∃ t, exec .hufDecode s = .next t ∧ State.FailedClassB .hufDecode .truncatedStream s t) ∧
        ((∀ b, entry lens b ≤ rest.length) →
          ∃ t, exec .hufDecode s = .next t ∧ State.FailedClassB .hufDecode .corruptStream s t)))

/-! ## RLE -/

/-- 43_rle.md R241, R240: RLE_SCAN reports the maximal run that starts at `p`, not capped, and its value. -/
def Obligations.RleScanReportsTheMaximalRun : Prop :=
  encodeOpcode .rleScan = 0x30#8 ∧
  (∀ s, s.params.ibufBytes < s.n → exec .rleScan s = .next (s.completeError .badLength)) ∧
  ∀ s, s.n ≤ s.params.ibufBytes →
    (s.n ≤ s.a0 → exec .rleScan s = .next (s.completeError .badArgument)) ∧
    (s.a0 < s.n → ∃ t r, exec .rleScan s = .next t ∧ State.CompletedOk .rleScan s t ∧
      t.res0.toNat = r ∧ t.res1 = (s.ibuf.read s.a0).setWidth 32 ∧
      1 ≤ r ∧ r ≤ s.n - s.a0 ∧ (∀ j, j < r → s.ibuf.read (s.a0 + j) = s.ibuf.read s.a0) ∧
      (s.a0 + r = s.n ∨ s.ibuf.read (s.a0 + r) ≠ s.ibuf.read s.a0))

/-- 43_rle.md R246, R245: RLE_EMIT, its checks in order and its effect. -/
def Obligations.RleEmitAppendsThePairs : Prop :=
  encodeOpcode .rleEmit = 0x31#8 ∧
  ∀ s, s.params.legal →
    (s.a1 < 1 → exec .rleEmit s = .next (s.completeError .badArgument)) ∧
    (1 ≤ s.a1 → 8 * s.params.obufBytes < s.wpos + 16 * ((s.a1 + 254) / 255) →
      exec .rleEmit s = .next (s.completeError .outputOverflow)) ∧
    (1 ≤ s.a1 → s.wpos + 16 * ((s.a1 + 254) / 255) ≤ 8 * s.params.obufBytes →
      ∃ t, exec .rleEmit s = .next t ∧ State.CompletedOk .rleEmit s t ∧
        State.Appended (bytesBits (runPairs s.a0Byte s.a1)) s t ∧
        t.res0.toNat = (s.a1 + 254) / 255 ∧ t.res1 = 0)

/-- 43_rle.md R250, 30_encoding.md R114: RLE_COMPRESS writes the container of the input's maximal runs, or fails with
OUTPUT_OVERFLOW if it does not fit. -/
def Obligations.RleCompressWritesTheContainer : Prop :=
  encodeOpcode .rleCompress = 0x03#8 ∧
  (∀ s, s.params.ibufBytes < s.n → exec .rleCompress s = .next (s.completeError .badLength)) ∧
  ∀ s, s.params.legal → s.n ≤ s.params.ibufBytes →
    let c := rleContainer s.inputBytes
    (c.length ≤ s.params.obufBytes → ∃ t, exec .rleCompress s = .next t ∧ State.CompletedOk .rleCompress s t ∧
      State.Produced c s t ∧ t.bsRpos = 0 ∧ c.length = 1 + 2 * t.res0.toNat ∧ t.res1 = 0) ∧
    (s.params.obufBytes < c.length → ∃ t, exec .rleCompress s = .next t ∧
      State.FailedClassB .rleCompress .outputOverflow s t)

/-- 43_rle.md R252: RLE_DECOMPRESS of a tag and pairs with counts of at least 1 expands them; every other input, and one whose
output would not fit, is refused with the code of the first check that fails. -/
def Obligations.RleDecompressExpandsThePairs : Prop :=
  encodeOpcode .rleDecompress = 0x04#8 ∧
  (∀ s, s.params.ibufBytes < s.n → exec .rleDecompress s = .next (s.completeError .badLength)) ∧
  ∀ s, s.params.legal → s.n ≤ s.params.ibufBytes →
    (s.n = 0 → exec .rleDecompress s = .next (s.completeError .corruptHeader)) ∧
    (1 ≤ s.n → s.ibuf.read 0 ≠ Config.tagR → exec .rleDecompress s = .next (s.completeError .corruptHeader)) ∧
    (1 ≤ s.n → s.ibuf.read 0 = Config.tagR → s.n % 2 = 0 →
      exec .rleDecompress s = .next (s.completeError .corruptStream)) ∧
    (∀ ps : List (Byte × Byte), s.inputBytes = Config.tagR :: pairBytes ps →
      ((∃ p ∈ ps, p.1 = 0) → exec .rleDecompress s = .next (s.completeError .corruptStream)) ∧
      ((∀ p ∈ ps, p.1 ≠ 0) → s.params.obufBytes < (expandPairs ps).length →
        exec .rleDecompress s = .next (s.completeError .outputOverflow)) ∧
      ((∀ p ∈ ps, p.1 ≠ 0) → (expandPairs ps).length ≤ s.params.obufBytes →
        ∃ t, exec .rleDecompress s = .next t ∧ State.CompletedOk .rleDecompress s t ∧
          State.Produced (expandPairs ps) s t ∧ t.rpos = 8 * s.n ∧ t.res0.toNat = ps.length ∧ t.res1 = 0))

/-- 43_rle.md R253: the RLE round trip. -/
def Obligations.RleRoundTrip : Prop :=
  ∀ s t u, s.params.legal → s.err = false → s.n ≤ s.params.ibufBytes → exec .rleCompress s = .next t → t.err = false →
    u.params = s.params → u.err = false → u.inputBytes = t.outputBytes → u.n ≤ u.params.ibufBytes →
    s.n ≤ u.params.obufBytes →
    ∃ v, exec .rleDecompress u = .next v ∧ State.CompletedOk .rleDecompress u v ∧ v.outputBytes = s.inputBytes

/-! ## LZ77 -/

/-- 44_lz77.md R261, R260: LZ_MATCH reports the greatest length any distance in the window reaches, and the smallest distance
that reaches it. -/
def Obligations.LzMatchFindsTheLongestNearest : Prop :=
  encodeOpcode .lzMatch = 0x40#8 ∧
  (∀ s, s.params.ibufBytes < s.n → exec .lzMatch s = .next (s.completeError .badLength)) ∧
  ∀ s, s.n ≤ s.params.ibufBytes →
    let agree := fun d l => ∀ j, j < l → s.ibuf.read (s.a0 - d + j) = s.ibuf.read (s.a0 + j)
    (s.n ≤ s.a0 → exec .lzMatch s = .next (s.completeError .badArgument)) ∧
    (s.a0 < s.n → ∃ t d l, exec .lzMatch s = .next t ∧ State.CompletedOk .lzMatch s t ∧
      t.res0.toNat = d ∧ t.res1.toNat = l ∧ l ≤ min 255 (s.n - s.a0) ∧
      (l = 0 → d = 0) ∧ (0 < l → 1 ≤ d ∧ d ≤ min 4096 s.a0 ∧ agree d l) ∧
      ∀ d' l', 1 ≤ d' → d' ≤ min 4096 s.a0 → l' ≤ min 255 (s.n - s.a0) → agree d' l' →
        l' ≤ l ∧ (l' = l → 0 < l → d ≤ d'))

/-- 44_lz77.md R266, R265: LZ_EMIT, its checks in order and its effect. -/
def Obligations.LzEmitAppendsTheToken : Prop :=
  encodeOpcode .lzEmit = 0x41#8 ∧
  ∀ s, s.params.legal →
    let d := s.a0 % 65536
    let l := s.a0 / 65536
    (2 ≤ s.a1 → exec .lzEmit s = .next (s.completeError .badArgument)) ∧
    (s.a1 = 1 → (d < 1 ∨ 4096 < d ∨ l < 3 ∨ 255 < l) → exec .lzEmit s = .next (s.completeError .badArgument)) ∧
    (s.a1 = 0 → 8 * s.params.obufBytes < s.wpos + 16 → exec .lzEmit s = .next (s.completeError .outputOverflow)) ∧
    (s.a1 = 1 → 1 ≤ d → d ≤ 4096 → 3 ≤ l → l ≤ 255 → 8 * s.params.obufBytes < s.wpos + 40 →
      exec .lzEmit s = .next (s.completeError .outputOverflow)) ∧
    (s.a1 = 0 → s.wpos + 16 ≤ 8 * s.params.obufBytes →
      ∃ t, exec .lzEmit s = .next t ∧ State.CompletedOk .lzEmit s t ∧
        State.Appended (bytesBits (Token.literal (BitVec.ofNat 8 s.a0)).bytes) s t) ∧
    (s.a1 = 1 → 1 ≤ d → d ≤ 4096 → 3 ≤ l → l ≤ 255 → s.wpos + 40 ≤ 8 * s.params.obufBytes →
      ∃ t, exec .lzEmit s = .next t ∧ State.CompletedOk .lzEmit s t ∧
        State.Appended (bytesBits (Token.copy d l).bytes) s t)

/-- 44_lz77.md R270, 30_encoding.md R115, R116: LZ_COMPRESS writes the container of the greedy parse, or fails with
OUTPUT_OVERFLOW if it does not fit. -/
def Obligations.LzCompressWritesTheContainer : Prop :=
  encodeOpcode .lzCompress = 0x05#8 ∧
  (∀ s, s.params.ibufBytes < s.n → exec .lzCompress s = .next (s.completeError .badLength)) ∧
  ∀ s, s.params.legal → s.n ≤ s.params.ibufBytes →
    let ts := lzTokens s.ibuf.read s.n s.n 0
    let c := lzContainer s.n ts
    (c.length ≤ s.params.obufBytes → ∃ t, exec .lzCompress s = .next t ∧ State.CompletedOk .lzCompress s t ∧
      State.Produced c s t ∧ t.bsRpos = 0 ∧
      t.res0.toNat = ts.countP Token.isLiteral ∧ t.res1.toNat = ts.countP fun k => !k.isLiteral) ∧
    (s.params.obufBytes < c.length → ∃ t, exec .lzCompress s = .next t ∧
      State.FailedClassB .lzCompress .outputOverflow s t)

/-- 44_lz77.md R271: the tokens LZ_COMPRESS writes cover the input exactly, each match inside the window, within its bounds,
and of bytes already passed. -/
def Obligations.LzTokensCoverTheInput : Prop :=
  ∀ s t, s.params.legal → s.err = false → exec .lzCompress s = .next t → t.err = false →
    ∃ ts, t.outputBytes = lzContainer s.n ts ∧ tokensCover s.ibuf.read s.n 0 ts

/-- 44_lz77.md R272, R273, 60_exceptions.md R303, R306: LZ_DECOMPRESS on every input. The header checks are class A. Behind a
header that passes them, where tokens that pass the replay's checks give `out`, no more than the declared `total` bytes: it
completes with `out` if that is all that was declared and nothing follows; otherwise it reports, as class B errors,
CORRUPT_STREAM if bytes follow all that was declared, TRUNCATED_STREAM if the input ends inside the next token, and
CORRUPT_STREAM if the next token is one the replay refuses. -/
def Obligations.LzDecompressReplaysTheTokens : Prop :=
  encodeOpcode .lzDecompress = 0x06#8 ∧
  (∀ s, s.params.ibufBytes < s.n → exec .lzDecompress s = .next (s.completeError .badLength)) ∧
  ∀ s, s.params.legal → s.n ≤ s.params.ibufBytes →
    (s.n < 5 → exec .lzDecompress s = .next (s.completeError .corruptHeader)) ∧
    (5 ≤ s.n → s.ibuf.read 0 ≠ Config.tagL → exec .lzDecompress s = .next (s.completeError .corruptHeader)) ∧
    (5 ≤ s.n → s.ibuf.read 0 = Config.tagL → s.params.obufBytes < bigEndian s.ibuf.read 1 4 →
      exec .lzDecompress s = .next (s.completeError .outputOverflow)) ∧
    (∀ total ts out rest, s.inputBytes = lzContainer total ts ++ rest → total ≤ s.params.obufBytes →
      replayTokens out.length [] ts = some out →
      (out.length = total → rest = [] →
        ∃ t, exec .lzDecompress s = .next t ∧ State.CompletedOk .lzDecompress s t ∧ State.Produced out s t ∧
          t.rpos = 8 * s.n ∧ t.res0.toNat = ts.countP Token.isLiteral ∧
          t.res1.toNat = ts.countP fun k => !k.isLiteral) ∧
      (out.length = total → rest ≠ [] →
        ∃ t, exec .lzDecompress s = .next t ∧ State.FailedClassB .lzDecompress .corruptStream s t) ∧
      (out.length < total → tokenCut rest →
        ∃ t, exec .lzDecompress s = .next t ∧ State.FailedClassB .lzDecompress .truncatedStream s t) ∧
      (out.length < total → tokenRefused total out.length rest →
        ∃ t, exec .lzDecompress s = .next t ∧ State.FailedClassB .lzDecompress .corruptStream s t))

/-- 44_lz77.md R273, 60_exceptions.md R302: LZ_DECOMPRESS accepts nothing else: if it completes without error, the input is a
container of tokens that pass the replay's checks, and the output is what they produce, of the declared length. -/
def Obligations.LzDecompressAcceptsOnlyContainers : Prop :=
  ∀ s t, s.params.legal → s.err = false → exec .lzDecompress s = .next t → t.err = false →
    ∃ total ts out, s.inputBytes = lzContainer total ts ∧ replayTokens total [] ts = some out ∧ t.outputBytes = out ∧
      t.dstLen.toNat = total

/-- 44_lz77.md R274: the LZ77 round trip. -/
def Obligations.LzRoundTrip : Prop :=
  ∀ s t u, s.params.legal → s.err = false → s.n ≤ s.params.ibufBytes → exec .lzCompress s = .next t → t.err = false →
    u.params = s.params → u.err = false → u.inputBytes = t.outputBytes → u.n ≤ u.params.ibufBytes →
    s.n ≤ u.params.obufBytes →
    ∃ v, exec .lzDecompress u = .next v ∧ State.CompletedOk .lzDecompress u v ∧ v.outputBytes = s.inputBytes

/-! ## Huffman codec -/

/-- 42_huffman.md R220, 30_encoding.md R111 to R113: HUF_COMPRESS writes the container of the input and leaves its tables, or
fails with OUTPUT_OVERFLOW if the container does not fit. -/
def Obligations.HufCompressWritesTheContainer : Prop :=
  encodeOpcode .hufCompress = 0x01#8 ∧
  (∀ s, s.params.ibufBytes < s.n → exec .hufCompress s = .next (s.completeError .badLength)) ∧
  ∀ s, s.params.legal → s.n ≤ s.params.ibufBytes →
    let bits := hufContainerBits s.inputBytes
    (bits.length ≤ 8 * s.params.obufBytes → ∃ t, exec .hufCompress s = .next t ∧ State.CompletedOk .hufCompress s t ∧
      bytesBits t.outputBytes = bits ∧ t.wpos = bits.length ∧ t.dstLen.toNat = ceil8 t.wpos ∧
      (∀ a, t.dstLen.toNat ≤ a → t.obuf.read a = s.obuf.read a) ∧ t.bsRpos = 0 ∧ t.tableValid = true ∧
      tableEntries t.freq = freqOf s.inputBytes ∧ tableEntries t.len = buildLens (freqOf s.inputBytes) ∧
      tableEntries t.code = canonCodes (buildLens (freqOf s.inputBytes)) ∧
      t.res0.toNat = distinct (freqOf s.inputBytes) ∧ t.res1.toNat = (hufPayloadBits s.inputBytes).length) ∧
    (8 * s.params.obufBytes < bits.length → ∃ t, exec .hufCompress s = .next t ∧
      State.FailedClassB .hufCompress .outputOverflow s t)

/-- 42_huffman.md R225, R228, 60_exceptions.md R303, R306: HUF_DECOMPRESS on every input. A header that fails one of checks 1 to
6 gives CORRUPT_HEADER, a declared length above OBUF_BYTES OUTPUT_OVERFLOW, bytes missing or left over behind the header of an
empty or one-symbol container CORRUPT_STREAM, all class A. Behind a header of the frequencies `freq`, where the payload holds
the codes of `xs`, `xs` no longer than declared: it gives `xs`, whatever the padding bits, if that is all that was declared and
less than a byte follows; CORRUPT_STREAM (class B) if a whole byte or more follows; TRUNCATED_STREAM (class B) if more was
declared and no code begins the bits that are left. -/
def Obligations.HufDecompressDecodesTheContainer : Prop :=
  encodeOpcode .hufDecompress = 0x02#8 ∧
  (∀ s, s.params.ibufBytes < s.n → exec .hufDecompress s = .next (s.completeError .badLength)) ∧
  ∀ s, s.params.legal → s.n ≤ s.params.ibufBytes →
    let headerOk := HufHeaderOk s.ibuf.read s.n
    let k := bigEndian s.ibuf.read 1 2
    let total := bigEndian s.ibuf.read 3 4
    (¬headerOk → exec .hufDecompress s = .next (s.completeError .corruptHeader)) ∧
    (headerOk → s.params.obufBytes < total → exec .hufDecompress s = .next (s.completeError .outputOverflow)) ∧
    (headerOk → total ≤ s.params.obufBytes → (k = 0 ∧ s.n ≠ 7) ∨ (k = 1 ∧ s.n ≠ 12) →
      exec .hufDecompress s = .next (s.completeError .corruptStream)) ∧
    (∀ (freq : List Nat) (payload : List Byte), freq.length = 256 → freq.sum ≤ s.params.obufBytes →
      s.inputBytes = hufHeader (presentFrom 0 freq) freq.sum ++ payload →
      let lens := buildLens freq
      let codes := canonCodes lens
      let gives := fun (xs : List Byte) (p : Nat) => ∃ t, exec .hufDecompress s = .next t ∧
        State.CompletedOk .hufDecompress s t ∧ State.Produced xs s t ∧ t.tableValid = true ∧ tableEntries t.freq = freq ∧
        tableEntries t.len = lens ∧ tableEntries t.code = codes ∧ t.res0.toNat = distinct freq ∧ t.res1.toNat = p ∧
        t.rpos = 8 * (7 + 5 * distinct freq) + p
      (∀ xs, distinct freq ≤ 1 → freqOf xs = freq → payload = [] → gives xs 0) ∧
      (∀ (xs : List Byte) (rest : List Bool), 2 ≤ distinct freq → (∀ b ∈ xs, 0 < entry lens b) →
        bytesBits payload = codeBits lens codes xs ++ rest →
        (xs.length = freq.sum → rest.length < 8 → gives xs (codeBits lens codes xs).length) ∧
        (xs.length = freq.sum → 8 ≤ rest.length →
          ∃ t, exec .hufDecompress s = .next t ∧ State.FailedClassB .hufDecompress .corruptStream s t) ∧
        (xs.length < freq.sum → noCodeBegins lens codes rest →
          ∃ t, exec .hufDecompress s = .next t ∧ State.FailedClassB .hufDecompress .truncatedStream s t)))

/-- 42_huffman.md R227: the Huffman round trip. -/
def Obligations.HufRoundTrip : Prop :=
  ∀ s t u, s.params.legal → s.err = false → s.n ≤ s.params.ibufBytes → exec .hufCompress s = .next t → t.err = false →
    u.params = s.params → u.err = false → u.inputBytes = t.outputBytes → u.n ≤ u.params.ibufBytes →
    s.n ≤ u.params.obufBytes →
    ∃ v, exec .hufDecompress u = .next v ∧ State.CompletedOk .hufDecompress u v ∧ v.outputBytes = s.inputBytes

/-- 60_exceptions.md R302: a decompress command that completes without error gives as many bytes as its container declares:
the header's original length for Huffman and LZ77, the sum of the counts for RLE. -/
def Obligations.DecompressLengthIsTheDeclaredOne : Prop :=
  ∀ s t, s.params.legal → s.err = false →
    (exec .hufDecompress s = .next t → t.err = false → t.dstLen.toNat = bigEndian s.ibuf.read 3 4) ∧
    (exec .lzDecompress s = .next t → t.err = false → t.dstLen.toNat = bigEndian s.ibuf.read 1 4) ∧
    (exec .rleDecompress s = .next t → t.err = false →
      t.dstLen.toNat = ((List.range ((s.n - 1) / 2)).map (pairCount s.ibuf.read)).sum)
end

