-- ==== Sys2Proof/Laws/Memory.lean ====
section
/-!
SUPPORT. The laws of memories: a read after a write, the canonical form and the bound kept by every operation, and a table
read back as the list it was filled with.
-/

namespace Sys2Proof.Machine
namespace Memory

variable {w : Nat}

theorem lookup_store_self {α : Type} (cs : List (Nat × α)) (a : Nat) (v : α) : lookup (store cs a v) a = some v := by
  induction cs with
  | nil => simp [store, lookup]
  | cons c cs ih =>
    simp only [store]
    split
    · simp [lookup]
    · split
      · simp [lookup]
      · rename_i h
        simp [lookup, ih, Ne.symm h]

theorem lookup_store_ne {α : Type} (cs : List (Nat × α)) {a b : Nat} (v : α) (h : b ≠ a) :
    lookup (store cs a v) b = lookup cs b := by
  induction cs with
  | nil => simp [store, lookup, Ne.symm h]
  | cons c cs ih =>
    simp only [store]
    split
    · simp [lookup, Ne.symm h]
    · split
      · rename_i h'
        simp [lookup, Ne.symm h, ← h']
      · simp [lookup, ih]

/-- A read after a write to the same place gives the value written. -/
@[simp] theorem read_write_self (m : Memory w) (a : Nat) (v : BitVec w) : (m.write a v).read a = v := by
  simp [read, write, lookup_store_self]

/-- A write leaves every other place alone. -/
theorem read_write_ne (m : Memory w) {a b : Nat} (v : BitVec w) (h : b ≠ a) : (m.write a v).read b = m.read b := by
  simp [read, write, lookup_store_ne _ v h]

theorem read_write (m : Memory w) (a b : Nat) (v : BitVec w) :
    (m.write a v).read b = if b = a then v else m.read b := by
  split
  · subst b; simp
  · rename_i h; exact read_write_ne m v h

@[simp] theorem read_unspecified (d a : Nat) : (unspecified w d).read a = Config.unspec w d a := rfl

theorem lookup_cellsFrom {α : Type} (xs : List α) (i a : Nat) :
    lookup (cellsFrom i xs) a = if i ≤ a then xs[a - i]? else none := by
  induction xs generalizing i with
  | nil => simp [cellsFrom, lookup]
  | cons x xs ih =>
    simp only [cellsFrom, lookup, ih]
    by_cases h : i = a
    · simp [h]
    · by_cases h' : i ≤ a
      · rw [show a - i = (a - (i + 1)) + 1 by omega]
        simp [h, h', show i + 1 ≤ a by omega]
      · simp [h, h', show ¬i + 1 ≤ a by omega]

/-- A table read back is the list it was filled with. -/
theorem read_fill (m : Memory w) (xs : List Nat) {a : Nat} (h : a < xs.length) :
    (m.fill xs).read a = BitVec.ofNat w xs[a] := by
  simp [read, fill, lookup_cellsFrom, h]

/-! ## The canonical form -/

theorem store_keys {α : Type} (cs : List (Nat × α)) (a : Nat) (v : α) (c : Nat × α) (h : c ∈ store cs a v) :
    c.1 = a ∨ c ∈ cs := by
  induction cs with
  | nil => simp_all [store]
  | cons d cs ih =>
    simp only [store] at h
    split at h
    · rcases List.mem_cons.1 h with rfl | h
      · exact .inl rfl
      · exact .inr h
    · split at h
      · rcases List.mem_cons.1 h with rfl | h
        · exact .inl rfl
        · exact .inr (List.mem_cons_of_mem _ h)
      · rcases List.mem_cons.1 h with rfl | h
        · exact .inr List.mem_cons_self
        · exact (ih h).imp id (List.mem_cons_of_mem _)

theorem store_sorted {α : Type} (cs : List (Nat × α)) (a : Nat) (v : α) (h : (cs.map Prod.fst).Pairwise (· < ·)) :
    ((store cs a v).map Prod.fst).Pairwise (· < ·) := by
  induction cs with
  | nil => simp [store]
  | cons d cs ih =>
    simp only [List.map_cons, List.pairwise_cons] at h
    simp only [store]
    split
    · rename_i hlt
      simp only [List.map_cons, List.pairwise_cons]
      refine ⟨?_, h⟩
      intro b hb
      rcases List.mem_cons.1 hb with rfl | hb
      · exact hlt
      · exact hlt.trans (h.1 b hb)
    · split
      · rename_i _ heq
        simp only [List.map_cons, List.pairwise_cons]
        exact ⟨heq ▸ h.1, h.2⟩
      · simp only [List.map_cons, List.pairwise_cons]
        refine ⟨?_, ih h.2⟩
        intro b hb
        obtain ⟨c, hc, rfl⟩ := List.mem_map.1 hb
        rcases store_keys cs a v c hc with hca | hc
        · omega
        · exact h.1 _ (List.mem_map_of_mem hc)

theorem wf_write {m : Memory w} (h : m.wf) (a : Nat) (v : BitVec w) : (m.write a v).wf := store_sorted m.cells a v h

theorem within_write {m : Memory w} {size a : Nat} (h : m.within size) (ha : a < size) (v : BitVec w) :
    (m.write a v).within size := by
  intro c hc
  rcases store_keys m.cells a v c hc with h' | h'
  · omega
  · exact h c h'

theorem wf_unspecified (d : Nat) : (unspecified w d).wf := List.Pairwise.nil

theorem within_unspecified (d size : Nat) : (unspecified w d).within size := fun _ h => nomatch h

theorem cellsFrom_keys {α : Type} (xs : List α) (i : Nat) : (cellsFrom i xs).map Prod.fst = List.range' i xs.length := by
  induction xs generalizing i with
  | nil => rfl
  | cons x xs ih => simp [cellsFrom, ih, List.range'_succ]

theorem wf_fill (m : Memory w) (xs : List Nat) : (m.fill xs).wf := by
  simp [wf, fill, cellsFrom_keys, List.pairwise_lt_range']

theorem within_fill (m : Memory w) (xs : List Nat) : (m.fill xs).within xs.length := by
  intro c hc
  have : c.1 ∈ ((m.fill xs).cells.map Prod.fst) := List.mem_map_of_mem hc
  rw [fill, cellsFrom_keys, List.mem_range'] at this
  obtain ⟨i, hi, hc'⟩ := this
  rw [List.length_map] at hi
  omega

end Memory

/-! ## Tables as lists -/

theorem length_tableEntries {w : Nat} (m : Memory w) : (tableEntries m).length = 256 := by simp [tableEntries, Config.nsym]

theorem getElem_tableEntries {w : Nat} (m : Memory w) (s : Nat) (h : s < (tableEntries m).length) :
    (tableEntries m)[s] = (m.read s).toNat := by
  simp [tableEntries]

theorem tableEntries_lt {w : Nat} (m : Memory w) : ∀ x ∈ tableEntries m, x < 2 ^ w := by
  intro x hx
  obtain ⟨s, -, rfl⟩ := List.mem_map.1 hx
  exact (m.read s).isLt

/-- A table filled with 256 entries holds them, each reduced to the entry's width. -/
theorem tableEntries_fill {w : Nat} (m : Memory w) (xs : List Nat) (h : xs.length = 256) :
    tableEntries (m.fill xs) = xs.map (· % 2 ^ w) := by
  apply List.ext_getElem
  · simp [length_tableEntries, h]
  · intro s h₁ h₂
    rw [length_tableEntries] at h₁
    rw [getElem_tableEntries, Memory.read_fill m xs (h ▸ h₁)]
    simp

/-- If every entry fits, the table holds the list. -/
theorem tableEntries_fill_of_lt {w : Nat} (m : Memory w) (xs : List Nat) (h : xs.length = 256)
    (hx : ∀ x ∈ xs, x < 2 ^ w) : tableEntries (m.fill xs) = xs := by
  rw [tableEntries_fill m xs h]
  conv_rhs => rw [← List.map_id xs]
  exact List.map_congr_left fun x hx' => Nat.mod_eq_of_lt (hx x hx')

end Sys2Proof.Machine
end

