-- ==== Sys2Proof/Laws/BitStream.lean ====
section
/-!
SUPPORT. What the bit-stream writer and reader do, once: the writer appends a list of bits or reports OUTPUT_OVERFLOW
(`Emits`), the reader returns the bits at its cursor or reports TRUNCATED_STREAM (41_bitstream.md R170 to R174).
-/

namespace Sys2Proof.Machine

/-! ## Bits of a byte -/

theorem setBit_getLsbD (x : Byte) (k j : Nat) (b : Bool) (hk : k < 8) (hj : j < 8) :
    (setBit x k b).getLsbD j = if j = k then b else x.getLsbD j := by
  unfold setBit
  have hs : (1#8 <<< k).getLsbD j = decide (j = k) := by
    rw [BitVec.getLsbD_shiftLeft, BitVec.getLsbD_one, Bool.eq_iff_iff]
    simp only [Bool.and_eq_true, Bool.not_eq_true', decide_eq_true_eq, decide_eq_false_iff_not]
    omega
  cases b
  · simp only [Bool.false_eq_true, if_false, BitVec.getLsbD_and, BitVec.getLsbD_not, hs, hj]
    by_cases h : j = k <;> simp [h]
  · simp only [if_true, BitVec.getLsbD_or, hs]
    by_cases h : j = k <;> simp [h]

theorem streamBit_congr {rd rd' : Nat → Byte} {p : Nat} (h : rd (p / 8) = rd' (p / 8)) : streamBit rd p = streamBit rd' p := by
  simp [streamBit, h]

/-- A byte is determined by its eight stream bits. -/
theorem byte_eq_of_streamBit {rd rd' : Nat → Byte} {a : Nat} (h : ∀ p, p / 8 = a → streamBit rd p = streamBit rd' p) :
    rd a = rd' a := by
  apply BitVec.eq_of_getLsbD_eq
  intro i hi
  have := h (8 * a + (7 - i)) (by omega)
  simp only [streamBit] at this
  rwa [show (8 * a + (7 - i)) / 8 = a by omega, show 7 - (8 * a + (7 - i)) % 8 = i by omega] at this

@[simp] theorem length_bitsMSB (v m : Nat) : (bitsMSB v m).length = m := by
  induction m with
  | zero => rfl
  | succ m ih => simp [bitsMSB, ih]

@[simp] theorem length_streamBits (rd : Nat → Byte) (p k : Nat) : (streamBits rd p k).length = k := by simp [streamBits]

theorem streamBits_zero (rd : Nat → Byte) (p : Nat) : streamBits rd p 0 = [] := rfl

theorem streamBits_succ (rd : Nat → Byte) (p k : Nat) :
    streamBits rd p (k + 1) = streamBit rd p :: streamBits rd (p + 1) k := by
  simp only [streamBits, List.range_succ_eq_map, List.map_cons, List.map_map, Nat.add_zero, List.cons.injEq, true_and]
  apply List.map_congr_left
  intro j _
  simp only [Function.comp]
  congr 1
  omega

theorem streamBits_add (rd : Nat → Byte) (p j k : Nat) :
    streamBits rd p (j + k) = streamBits rd p j ++ streamBits rd (p + j) k := by
  induction j generalizing p with
  | zero => simp [streamBits]
  | succ j ih => rw [show j + 1 + k = (j + k) + 1 by omega, streamBits_succ, streamBits_succ, ih,
      show p + 1 + j = p + (j + 1) by omega, List.cons_append]

theorem streamBits_congr {rd rd' : Nat → Byte} {p k : Nat} (h : ∀ q, p ≤ q → q < p + k → streamBit rd q = streamBit rd' q) :
    streamBits rd p k = streamBits rd' p k := by
  apply List.map_congr_left
  intro j hj
  rw [List.mem_range] at hj
  exact h _ (by omega) (by omega)

theorem bytesBits_cons (b : Byte) (bs : List Byte) : bytesBits (b :: bs) = bitsMSB b.toNat 8 ++ bytesBits bs := rfl

@[simp] theorem bytesBits_nil : bytesBits [] = [] := rfl

@[simp] theorem bytesBits_append (as bs : List Byte) : bytesBits (as ++ bs) = bytesBits as ++ bytesBits bs := by
  simp [bytesBits]

@[simp] theorem length_bytesBits (bs : List Byte) : (bytesBits bs).length = 8 * bs.length := by
  induction bs with
  | nil => rfl
  | cons b bs ih => simp [bytesBits_cons, ih]; omega

/-- The eight stream bits of byte `a` are its bits, most significant first. -/
theorem streamBits_byte (rd : Nat → Byte) (a : Nat) : streamBits rd (8 * a) 8 = bitsMSB (rd a).toNat 8 := by
  have h : ∀ j, j < 8 → streamBit rd (8 * a + j) = (rd a).getLsbD (7 - j) := by
    intro j hj
    simp only [streamBit]
    rw [show (8 * a + j) / 8 = a by omega, show (8 * a + j) % 8 = j by omega]
  simp only [streamBits, List.range_succ, List.range_zero, List.nil_append, List.map_append, List.map_cons, List.map_nil,
    bitsMSB, BitVec.getLsbD] at h ⊢
  simp [h, show streamBit rd (8 * a) = (rd a).toNat.testBit 7 from h 0 (by omega)]

/-- The stream bits of whole bytes are the bits of these bytes. -/
theorem streamBits_bytes (rd : Nat → Byte) (a k : Nat) :
    streamBits rd (8 * a) (8 * k) = bytesBits ((List.range k).map fun i => rd (a + i)) := by
  induction k with
  | zero => rfl
  | succ k ih =>
    rw [show 8 * (k + 1) = 8 * k + 8 by omega, streamBits_add, ih, ← Nat.mul_add, streamBits_byte, List.range_succ,
      List.map_append, bytesBits_append]
    simp [bytesBits_cons]

theorem bitsMSB_injective {m v v' : Nat} (hv : v < 2 ^ m) (hv' : v' < 2 ^ m) (h : bitsMSB v m = bitsMSB v' m) : v = v' := by
  apply Nat.eq_of_testBit_eq
  intro i
  by_cases hi : i < m
  · clear hv hv'
    induction m with
    | zero => omega
    | succ m ih =>
      simp only [bitsMSB, List.cons.injEq] at h
      by_cases him : i = m
      · exact him ▸ h.1
      · exact ih h.2 (by omega)
  · rw [Nat.testBit_lt_two_pow (hv.trans_le (Nat.pow_le_pow_right (by omega) (by omega))),
      Nat.testBit_lt_two_pow (hv'.trans_le (Nat.pow_le_pow_right (by omega) (by omega)))]

theorem bytesBits_injective {as bs : List Byte} (h : bytesBits as = bytesBits bs) : as = bs := by
  induction as generalizing bs with
  | nil =>
    have := congrArg List.length h
    simp at this
    exact this ▸ rfl
  | cons a as ih =>
    cases bs with
    | nil => simpa using congrArg List.length h
    | cons b bs =>
      rw [bytesBits_cons, bytesBits_cons] at h
      obtain ⟨h₁, h₂⟩ := List.append_inj h (by simp)
      rw [BitVec.eq_of_toNat_eq (bitsMSB_injective a.isLt b.isLt h₁), ih h₂]

theorem bitsMSB_congr {m v v' : Nat} (h : ∀ i, i < m → v.testBit i = v'.testBit i) : bitsMSB v m = bitsMSB v' m := by
  induction m with
  | zero => rfl
  | succ m ih => simp only [bitsMSB]; rw [h m (by omega), ih fun i hi => h i (by omega)]

theorem bitsMSB_mod (v m : Nat) : bitsMSB (v % 2 ^ m) m = bitsMSB v m :=
  bitsMSB_congr fun i hi => by simp [Nat.testBit_mod_two_pow, hi]

theorem bitsMSB_add (v j k : Nat) : bitsMSB v (j + k) = bitsMSB (v / 2 ^ k) j ++ bitsMSB v k := by
  induction j with
  | zero => simp [bitsMSB]
  | succ j ih =>
    rw [show j + 1 + k = (j + k) + 1 by omega, bitsMSB, bitsMSB, ih, Nat.testBit_div_two_pow, List.cons_append, Nat.add_comm j k]

theorem length_beBytes (v k : Nat) : (beBytes v k).length = k := by
  induction k generalizing v with
  | zero => rfl
  | succ k ih => simp [beBytes, ih]

/-- A big-endian field is its bits, most significant first (20_memory.md R82). -/
theorem bytesBits_beBytes (v k : Nat) : bytesBits (beBytes v k) = bitsMSB v (8 * k) := by
  induction k generalizing v with
  | zero => rfl
  | succ k ih =>
    rw [beBytes, bytesBits_append, ih, show 8 * (k + 1) = 8 * k + 8 by omega, bitsMSB_add]
    simpa [bytesBits_cons] using bitsMSB_mod v 8

/-! ## The writer -/

/-- The bits of the last partial byte past the cursor are 0 (41_bitstream.md R171). -/
def Writer.Clean (w : Writer) : Prop := ∀ p, w.pos ≤ p → p < 8 * ceil8 w.pos → streamBit w.mem.read p = false

/-- From `w` to `w'` the writer appended `bits`, on an OBUF of `cap` bytes. -/
structure Writer.Wrote (cap : Nat) (bits : List Bool) (w w' : Writer) : Prop where
  pos    : w'.pos = w.pos + bits.length
  fits   : w'.pos ≤ 8 * cap
  fresh  : streamBits w'.mem.read w.pos bits.length = bits
  old    : ∀ p, p < w.pos → streamBit w'.mem.read p = streamBit w.mem.read p
  before : ∀ a, a < w.pos / 8 → w'.mem.read a = w.mem.read a
  beyond : ∀ a, ceil8 w'.pos ≤ a → w'.mem.read a = w.mem.read a
  clean  : w.Clean → w'.Clean
  wf     : w.mem.wf → w'.mem.wf
  within : w.mem.within cap → w'.mem.within cap

theorem Writer.Wrote.refl {cap : Nat} {w : Writer} (h : w.pos ≤ 8 * cap) : Writer.Wrote cap [] w w where
  pos := rfl
  fits := h
  fresh := rfl
  old _ _ := rfl
  before _ _ := rfl
  beyond _ _ := rfl
  clean h := h
  wf h := h
  within h := h

theorem Writer.Wrote.trans {cap : Nat} {bs cs : List Bool} {u v w : Writer} (h : Writer.Wrote cap bs u v)
    (k : Writer.Wrote cap cs v w) : Writer.Wrote cap (bs ++ cs) u w where
  pos := by rw [k.pos, h.pos, List.length_append, Nat.add_assoc]
  fits := k.fits
  fresh := by
    rw [List.length_append, streamBits_add, ← h.pos, k.fresh]
    congr 1
    rw [← h.fresh]
    conv_lhs => rw [h.fresh]
    refine streamBits_congr fun q _ hq => ?_
    have := h.pos
    exact k.old q (by omega)
  old p hp := by
    have := h.pos
    rw [k.old p (by omega), h.old p hp]
  before a ha := by
    have := h.pos
    rw [k.before a (by omega), h.before a ha]
  beyond a ha := by
    have := k.pos
    rw [k.beyond a ha, h.beyond a (by unfold ceil8 at *; omega)]
  clean c := k.clean (h.clean c)
  wf c := k.wf (h.wf c)
  within c := k.within (h.within c)

/-- `write_bit` with room left. -/
theorem writeBit_ok {cap : Nat} {b : Bool} {w : Writer} (h : w.pos < 8 * cap) :
    ∃ w', writeBit cap b w = .ok w' ∧ Writer.Wrote cap [b] w w' := by
  have hb : ∀ p, streamBit (w.mem.write (w.pos / 8)
      (setBit (if w.pos % 8 = 0 then 0#8 else w.mem.read (w.pos / 8)) (7 - w.pos % 8) b)).read p =
      if p = w.pos then b else if p / 8 = w.pos / 8 ∧ w.pos % 8 = 0 then false else streamBit w.mem.read p := by
    intro p
    simp only [streamBit, Memory.read_write]
    by_cases hp : p / 8 = w.pos / 8
    · rw [if_pos hp, setBit_getLsbD _ _ _ _ (by omega) (by omega)]
      by_cases hq : p = w.pos
      · rw [if_pos hq, if_pos (by rw [hq])]
      · rw [if_neg hq, if_neg (by omega)]
        by_cases h0 : w.pos % 8 = 0
        · simp [h0, hp]
        · simp [h0, hp]
    · rw [if_neg hp, if_neg (fun e => hp (by rw [e])), if_neg (fun e => hp e.1)]
  refine ⟨_, if_neg (by omega), ?_⟩
  constructor
  · rfl
  · simpa using h
  · simp only [List.length_singleton, streamBits_succ, streamBits_zero, hb, if_pos]
  · intro p hp
    simp only [hb]
    rw [if_neg (by omega), if_neg (by omega)]
  · intro a ha
    exact Memory.read_write_ne _ _ (by omega)
  · intro a ha
    refine Memory.read_write_ne _ _ ?_
    simp only [ceil8] at ha
    omega
  · intro c p hp hp'
    simp only [ceil8] at hp hp'
    simp only [hb]
    rw [if_neg (by omega)]
    split
    · rfl
    · exact c p (by omega) (by simp only [ceil8]; omega)
  · intro c; exact Memory.wf_write c _ _
  · intro c; exact Memory.within_write c (by omega) _

theorem writeBit_full {cap : Nat} {b : Bool} {w : Writer} (h : w.pos = 8 * cap) :
    writeBit cap b w = .error .outputOverflow := if_pos h

/-- A computation that appends `bits` at `w` and answers `k` of the writer after it if they fit, and otherwise reports
OUTPUT_OVERFLOW. -/
def Emits {α : Type} (cap : Nat) (x : Except ErrorCode α) (bits : List Bool) (w : Writer) (k : Writer → α) : Prop :=
  w.pos ≤ 8 * cap →
    (w.pos + bits.length ≤ 8 * cap → ∃ w', x = .ok (k w') ∧ Writer.Wrote cap bits w w') ∧
    (8 * cap < w.pos + bits.length → x = .error .outputOverflow)

theorem Emits.nil {α : Type} {cap : Nat} {w : Writer} {k : Writer → α} {x : Except ErrorCode α} (h : x = .ok (k w)) :
    Emits cap x [] w k := fun hw =>
  ⟨fun _ => ⟨w, h, .refl hw⟩, fun h' => absurd h' (by simpa using hw)⟩

/-- One computation after another appends the one's bits, then the other's. -/
theorem Emits.bind {α β : Type} {cap : Nat} {bs cs : List Bool} {w : Writer} {k : Writer → α} {l : Writer → β}
    {x : Except ErrorCode α} {f : α → Except ErrorCode β} (hx : Emits cap x bs w k)
    (hf : ∀ w', Writer.Wrote cap bs w w' → Emits cap (f (k w')) cs w' l) : Emits cap (x >>= f) (bs ++ cs) w l := by
  intro hw
  by_cases h : w.pos + bs.length ≤ 8 * cap
  · obtain ⟨w', rfl, hw'⟩ := (hx hw).1 h
    have hp := hw'.pos
    obtain ⟨h₁, h₂⟩ := hf w' hw' hw'.fits
    refine ⟨fun hl => ?_, fun hl => ?_⟩
    · obtain ⟨w'', e, hw''⟩ := h₁ (by rw [List.length_append] at hl; omega)
      exact ⟨w'', e, hw'.trans hw''⟩
    · exact h₂ (by rw [List.length_append] at hl; omega)
  · refine ⟨fun hl => absurd hl (by rw [List.length_append]; omega), fun _ => ?_⟩
    rw [(hx hw).2 (by omega)]
    rfl

theorem emits_writeBits (cap v m : Nat) (w : Writer) : Emits cap (writeBits cap v m w) (bitsMSB v m) w id := by
  induction m generalizing w with
  | zero => exact .nil rfl
  | succ m ih =>
    refine Emits.bind (bs := [v.testBit m]) (k := id) ?_ fun w' _ => ih w'
    intro hw
    refine ⟨fun h => writeBit_ok (by simpa using h), fun h => writeBit_full ?_⟩
    simp only [List.length_singleton] at h
    omega

theorem emits_writeCopies (cap : Nat) (b : Byte) (c : Nat) (w : Writer) :
    Emits cap (writeCopies cap b.toNat c w) (bytesBits (List.replicate c b)) w id := by
  induction c generalizing w with
  | zero => exact .nil rfl
  | succ c ih => exact (emits_writeBits cap b.toNat 8 w).bind fun w' _ => ih w'

/-- The bytes a byte-aligned writer appended are in OBUF at its cursor. -/
theorem Writer.Wrote.bytes {cap : Nat} {bs : List Byte} {w w' : Writer} (h : Writer.Wrote cap (bytesBits bs) w w') {a : Nat}
    (ha : w.pos = 8 * a) : (List.range bs.length).map (fun i => w'.mem.read (a + i)) = bs := by
  apply bytesBits_injective
  rw [← streamBits_bytes, ← ha]
  conv_rhs => rw [← h.fresh, length_bytesBits]

theorem Writer.Wrote.getElem {cap : Nat} {bs : List Byte} {w w' : Writer} (h : Writer.Wrote cap (bytesBits bs) w w')
    {a i : Nat} (ha : w.pos = 8 * a) (hi : i < bs.length) : w'.mem.read (a + i) = bs[i] := by
  have := congrArg (fun l : List Byte => l[i]?) (h.bytes ha)
  simpa [hi] using this

theorem Writer.flush_of_aligned {w : Writer} {a : Nat} (h : w.pos = 8 * a) : w.flush = w := by
  cases w with
  | mk mem pos =>
    simp only [Writer.flush, Writer.mk.injEq, true_and]
    simp only at h
    simp only [ceil8]
    omega

/-! ## The reader -/

theorem readBitsFrom_ok {rd : Nat → Byte} {n m r : Nat} (v : Nat) (h : r + m ≤ 8 * n) :
    ∃ u, u < 2 ^ m ∧ bitsMSB u m = streamBits rd r m ∧ readBitsFrom rd n m v r = .ok (v * 2 ^ m + u, r + m) := by
  induction m generalizing v r with
  | zero => exact ⟨0, by simp, rfl, by simp [readBitsFrom]⟩
  | succ m ih =>
    obtain ⟨u, hu, hb, he⟩ := ih (r := r + 1) (2 * v + (streamBit rd r).toNat) (by omega)
    have hs : readBit rd n r = .ok (streamBit rd r, r + 1) := if_neg (by omega)
    refine ⟨(streamBit rd r).toNat * 2 ^ m + u, ?_, ?_, ?_⟩
    · rw [Nat.pow_succ]
      cases streamBit rd r <;> simp <;> omega
    · rw [streamBits_succ, bitsMSB]
      congr 1
      · cases streamBit rd r
        · simp [Nat.testBit_lt_two_pow hu]
        · simp [Nat.testBit_two_pow_add_eq, Nat.testBit_lt_two_pow hu]
      · rw [← hb]
        refine bitsMSB_congr fun i hi => ?_
        cases streamBit rd r
        · simp
        · simp [Nat.testBit_two_pow_add_gt hi]
    · simp only [readBitsFrom, hs]
      show readBitsFrom rd n m (2 * v + (streamBit rd r).toNat) (r + 1) = _
      rw [he, Nat.pow_succ]
      congr 2
      · ring
      · omega

/-- `read_bits(m)` with the bits there. -/
theorem readBits_ok {rd : Nat → Byte} {n m r : Nat} (h : r + m ≤ 8 * n) :
    ∃ u, u < 2 ^ m ∧ bitsMSB u m = streamBits rd r m ∧ readBits rd n m r = .ok (u, r + m) := by
  obtain ⟨u, hu, hb, he⟩ := readBitsFrom_ok 0 h
  exact ⟨u, hu, hb, by simpa [readBits] using he⟩

/-- `read_bits(m)` past the end. -/
theorem readBits_truncated {rd : Nat → Byte} {n m r : Nat} (h : 8 * n < r + m) (hm : 0 < m) :
    readBits rd n m r = .error .truncatedStream := by
  suffices ∀ v, readBitsFrom rd n m v r = .error .truncatedStream from this 0
  induction m generalizing r with
  | zero => omega
  | succ m ih =>
    intro v
    simp only [readBitsFrom, readBit]
    split
    · rfl
    · exact ih (by omega) (by omega) _

/-- Reading a value that stands at the cursor. -/
theorem readBits_eq {rd : Nat → Byte} {n m r v : Nat} (h : r + m ≤ 8 * n) (hv : v < 2 ^ m)
    (hb : streamBits rd r m = bitsMSB v m) : readBits rd n m r = .ok (v, r + m) := by
  obtain ⟨u, hu, hu', he⟩ := readBits_ok (rd := rd) h
  rw [he, bitsMSB_injective hu hv (hu'.trans hb)]

/-- Reading a whole byte at a byte boundary. -/
theorem readBits_byte {rd : Nat → Byte} {n a : Nat} (h : a < n) :
    readBits rd n 8 (8 * a) = .ok ((rd a).toNat, 8 * (a + 1)) := by
  rw [readBits_eq (by omega) (rd a).isLt (streamBits_byte rd a)]
  congr 2

end Sys2Proof.Machine
end

