-- ==== Sys2Proof/Laws/State.lean ====
section
/-!
SUPPORT. One lemma per field per named update of the state, true by rfl, so that no later proof unfolds a record update.
-/

namespace Sys2Proof.Machine

/-! ## setWriter -/

@[simp] theorem State.setWriter_params (w : Writer) (s : State) : (s.setWriter w).params = s.params := rfl
@[simp] theorem State.setWriter_irqEn (w : Writer) (s : State) : (s.setWriter w).irqEn = s.irqEn := rfl
@[simp] theorem State.setWriter_opcode (w : Writer) (s : State) : (s.setWriter w).opcode = s.opcode := rfl
@[simp] theorem State.setWriter_done (w : Writer) (s : State) : (s.setWriter w).done = s.done := rfl
@[simp] theorem State.setWriter_err (w : Writer) (s : State) : (s.setWriter w).err = s.err := rfl
@[simp] theorem State.setWriter_errcode (w : Writer) (s : State) : (s.setWriter w).errcode = s.errcode := rfl
@[simp] theorem State.setWriter_tableValid (w : Writer) (s : State) : (s.setWriter w).tableValid = s.tableValid := rfl
@[simp] theorem State.setWriter_srcLen (w : Writer) (s : State) : (s.setWriter w).srcLen = s.srcLen := rfl
@[simp] theorem State.setWriter_dstLen (w : Writer) (s : State) : (s.setWriter w).dstLen = s.dstLen := rfl
@[simp] theorem State.setWriter_arg0 (w : Writer) (s : State) : (s.setWriter w).arg0 = s.arg0 := rfl
@[simp] theorem State.setWriter_arg1 (w : Writer) (s : State) : (s.setWriter w).arg1 = s.arg1 := rfl
@[simp] theorem State.setWriter_res0 (w : Writer) (s : State) : (s.setWriter w).res0 = s.res0 := rfl
@[simp] theorem State.setWriter_res1 (w : Writer) (s : State) : (s.setWriter w).res1 = s.res1 := rfl
@[simp] theorem State.setWriter_bsWbits (w : Writer) (s : State) : (s.setWriter w).bsWbits = BitVec.ofNat 32 w.pos := rfl
@[simp] theorem State.setWriter_bsRpos (w : Writer) (s : State) : (s.setWriter w).bsRpos = s.bsRpos := rfl
@[simp] theorem State.setWriter_ibuf (w : Writer) (s : State) : (s.setWriter w).ibuf = s.ibuf := rfl
@[simp] theorem State.setWriter_obuf (w : Writer) (s : State) : (s.setWriter w).obuf = w.mem := rfl
@[simp] theorem State.setWriter_freq (w : Writer) (s : State) : (s.setWriter w).freq = s.freq := rfl
@[simp] theorem State.setWriter_len (w : Writer) (s : State) : (s.setWriter w).len = s.len := rfl
@[simp] theorem State.setWriter_code (w : Writer) (s : State) : (s.setWriter w).code = s.code := rfl
@[simp] theorem State.setWriter_arena (w : Writer) (s : State) : (s.setWriter w).arena = s.arena := rfl
@[simp] theorem State.setWriter_seq (w : Writer) (s : State) : (s.setWriter w).seq = s.seq := rfl
@[simp] theorem State.setWriter_pending (w : Writer) (s : State) : (s.setWriter w).pending = s.pending := rfl
@[simp] theorem State.setWriter_resp (w : Writer) (s : State) : (s.setWriter w).resp = s.resp := rfl
@[simp] theorem State.setWriter_draw (w : Writer) (s : State) : (s.setWriter w).draw = s.draw := rfl
@[simp] theorem State.setWriter_latched (w : Writer) (s : State) : (s.setWriter w).latched = s.latched := rfl
@[simp] theorem State.setWriter_rpos (w : Writer) (s : State) : (s.setWriter w).rpos = s.rpos := rfl
@[simp] theorem State.setWriter_busy (w : Writer) (s : State) : (s.setWriter w).busy = s.busy := rfl
@[simp] theorem State.setWriter_inputArray (w : Writer) (s : State) : (s.setWriter w).inputArray = s.inputArray := rfl
@[simp] theorem State.setWriter_n (w : Writer) (s : State) : (s.setWriter w).n = s.n := rfl
@[simp] theorem State.setWriter_a0 (w : Writer) (s : State) : (s.setWriter w).a0 = s.a0 := rfl
@[simp] theorem State.setWriter_a1 (w : Writer) (s : State) : (s.setWriter w).a1 = s.a1 := rfl

/-! ## setRpos -/

@[simp] theorem State.setRpos_params (r : Nat) (s : State) : (s.setRpos r).params = s.params := rfl
@[simp] theorem State.setRpos_irqEn (r : Nat) (s : State) : (s.setRpos r).irqEn = s.irqEn := rfl
@[simp] theorem State.setRpos_opcode (r : Nat) (s : State) : (s.setRpos r).opcode = s.opcode := rfl
@[simp] theorem State.setRpos_done (r : Nat) (s : State) : (s.setRpos r).done = s.done := rfl
@[simp] theorem State.setRpos_err (r : Nat) (s : State) : (s.setRpos r).err = s.err := rfl
@[simp] theorem State.setRpos_errcode (r : Nat) (s : State) : (s.setRpos r).errcode = s.errcode := rfl
@[simp] theorem State.setRpos_tableValid (r : Nat) (s : State) : (s.setRpos r).tableValid = s.tableValid := rfl
@[simp] theorem State.setRpos_srcLen (r : Nat) (s : State) : (s.setRpos r).srcLen = s.srcLen := rfl
@[simp] theorem State.setRpos_dstLen (r : Nat) (s : State) : (s.setRpos r).dstLen = s.dstLen := rfl
@[simp] theorem State.setRpos_arg0 (r : Nat) (s : State) : (s.setRpos r).arg0 = s.arg0 := rfl
@[simp] theorem State.setRpos_arg1 (r : Nat) (s : State) : (s.setRpos r).arg1 = s.arg1 := rfl
@[simp] theorem State.setRpos_res0 (r : Nat) (s : State) : (s.setRpos r).res0 = s.res0 := rfl
@[simp] theorem State.setRpos_res1 (r : Nat) (s : State) : (s.setRpos r).res1 = s.res1 := rfl
@[simp] theorem State.setRpos_bsWbits (r : Nat) (s : State) : (s.setRpos r).bsWbits = s.bsWbits := rfl
@[simp] theorem State.setRpos_bsRpos (r : Nat) (s : State) : (s.setRpos r).bsRpos = BitVec.ofNat 32 r := rfl
@[simp] theorem State.setRpos_ibuf (r : Nat) (s : State) : (s.setRpos r).ibuf = s.ibuf := rfl
@[simp] theorem State.setRpos_obuf (r : Nat) (s : State) : (s.setRpos r).obuf = s.obuf := rfl
@[simp] theorem State.setRpos_freq (r : Nat) (s : State) : (s.setRpos r).freq = s.freq := rfl
@[simp] theorem State.setRpos_len (r : Nat) (s : State) : (s.setRpos r).len = s.len := rfl
@[simp] theorem State.setRpos_code (r : Nat) (s : State) : (s.setRpos r).code = s.code := rfl
@[simp] theorem State.setRpos_arena (r : Nat) (s : State) : (s.setRpos r).arena = s.arena := rfl
@[simp] theorem State.setRpos_seq (r : Nat) (s : State) : (s.setRpos r).seq = s.seq := rfl
@[simp] theorem State.setRpos_pending (r : Nat) (s : State) : (s.setRpos r).pending = s.pending := rfl
@[simp] theorem State.setRpos_resp (r : Nat) (s : State) : (s.setRpos r).resp = s.resp := rfl
@[simp] theorem State.setRpos_draw (r : Nat) (s : State) : (s.setRpos r).draw = s.draw := rfl
@[simp] theorem State.setRpos_latched (r : Nat) (s : State) : (s.setRpos r).latched = s.latched := rfl
@[simp] theorem State.setRpos_wpos (r : Nat) (s : State) : (s.setRpos r).wpos = s.wpos := rfl
@[simp] theorem State.setRpos_busy (r : Nat) (s : State) : (s.setRpos r).busy = s.busy := rfl
@[simp] theorem State.setRpos_inputArray (r : Nat) (s : State) : (s.setRpos r).inputArray = s.inputArray := rfl
@[simp] theorem State.setRpos_n (r : Nat) (s : State) : (s.setRpos r).n = s.n := rfl
@[simp] theorem State.setRpos_a0 (r : Nat) (s : State) : (s.setRpos r).a0 = s.a0 := rfl
@[simp] theorem State.setRpos_a1 (r : Nat) (s : State) : (s.setRpos r).a1 = s.a1 := rfl

/-! ## setRes -/

@[simp] theorem State.setRes_params (a b : Nat) (s : State) : (s.setRes a b).params = s.params := rfl
@[simp] theorem State.setRes_irqEn (a b : Nat) (s : State) : (s.setRes a b).irqEn = s.irqEn := rfl
@[simp] theorem State.setRes_opcode (a b : Nat) (s : State) : (s.setRes a b).opcode = s.opcode := rfl
@[simp] theorem State.setRes_done (a b : Nat) (s : State) : (s.setRes a b).done = s.done := rfl
@[simp] theorem State.setRes_err (a b : Nat) (s : State) : (s.setRes a b).err = s.err := rfl
@[simp] theorem State.setRes_errcode (a b : Nat) (s : State) : (s.setRes a b).errcode = s.errcode := rfl
@[simp] theorem State.setRes_tableValid (a b : Nat) (s : State) : (s.setRes a b).tableValid = s.tableValid := rfl
@[simp] theorem State.setRes_srcLen (a b : Nat) (s : State) : (s.setRes a b).srcLen = s.srcLen := rfl
@[simp] theorem State.setRes_dstLen (a b : Nat) (s : State) : (s.setRes a b).dstLen = s.dstLen := rfl
@[simp] theorem State.setRes_arg0 (a b : Nat) (s : State) : (s.setRes a b).arg0 = s.arg0 := rfl
@[simp] theorem State.setRes_arg1 (a b : Nat) (s : State) : (s.setRes a b).arg1 = s.arg1 := rfl
@[simp] theorem State.setRes_res0 (a b : Nat) (s : State) : (s.setRes a b).res0 = BitVec.ofNat 32 a := rfl
@[simp] theorem State.setRes_res1 (a b : Nat) (s : State) : (s.setRes a b).res1 = BitVec.ofNat 32 b := rfl
@[simp] theorem State.setRes_bsWbits (a b : Nat) (s : State) : (s.setRes a b).bsWbits = s.bsWbits := rfl
@[simp] theorem State.setRes_bsRpos (a b : Nat) (s : State) : (s.setRes a b).bsRpos = s.bsRpos := rfl
@[simp] theorem State.setRes_ibuf (a b : Nat) (s : State) : (s.setRes a b).ibuf = s.ibuf := rfl
@[simp] theorem State.setRes_obuf (a b : Nat) (s : State) : (s.setRes a b).obuf = s.obuf := rfl
@[simp] theorem State.setRes_freq (a b : Nat) (s : State) : (s.setRes a b).freq = s.freq := rfl
@[simp] theorem State.setRes_len (a b : Nat) (s : State) : (s.setRes a b).len = s.len := rfl
@[simp] theorem State.setRes_code (a b : Nat) (s : State) : (s.setRes a b).code = s.code := rfl
@[simp] theorem State.setRes_arena (a b : Nat) (s : State) : (s.setRes a b).arena = s.arena := rfl
@[simp] theorem State.setRes_seq (a b : Nat) (s : State) : (s.setRes a b).seq = s.seq := rfl
@[simp] theorem State.setRes_pending (a b : Nat) (s : State) : (s.setRes a b).pending = s.pending := rfl
@[simp] theorem State.setRes_resp (a b : Nat) (s : State) : (s.setRes a b).resp = s.resp := rfl
@[simp] theorem State.setRes_draw (a b : Nat) (s : State) : (s.setRes a b).draw = s.draw := rfl
@[simp] theorem State.setRes_latched (a b : Nat) (s : State) : (s.setRes a b).latched = s.latched := rfl
@[simp] theorem State.setRes_wpos (a b : Nat) (s : State) : (s.setRes a b).wpos = s.wpos := rfl
@[simp] theorem State.setRes_rpos (a b : Nat) (s : State) : (s.setRes a b).rpos = s.rpos := rfl
@[simp] theorem State.setRes_busy (a b : Nat) (s : State) : (s.setRes a b).busy = s.busy := rfl
@[simp] theorem State.setRes_inputArray (a b : Nat) (s : State) : (s.setRes a b).inputArray = s.inputArray := rfl
@[simp] theorem State.setRes_n (a b : Nat) (s : State) : (s.setRes a b).n = s.n := rfl
@[simp] theorem State.setRes_a0 (a b : Nat) (s : State) : (s.setRes a b).a0 = s.a0 := rfl
@[simp] theorem State.setRes_a1 (a b : Nat) (s : State) : (s.setRes a b).a1 = s.a1 := rfl

/-! ## setDstLen -/

@[simp] theorem State.setDstLen_params (d : Nat) (s : State) : (s.setDstLen d).params = s.params := rfl
@[simp] theorem State.setDstLen_irqEn (d : Nat) (s : State) : (s.setDstLen d).irqEn = s.irqEn := rfl
@[simp] theorem State.setDstLen_opcode (d : Nat) (s : State) : (s.setDstLen d).opcode = s.opcode := rfl
@[simp] theorem State.setDstLen_done (d : Nat) (s : State) : (s.setDstLen d).done = s.done := rfl
@[simp] theorem State.setDstLen_err (d : Nat) (s : State) : (s.setDstLen d).err = s.err := rfl
@[simp] theorem State.setDstLen_errcode (d : Nat) (s : State) : (s.setDstLen d).errcode = s.errcode := rfl
@[simp] theorem State.setDstLen_tableValid (d : Nat) (s : State) : (s.setDstLen d).tableValid = s.tableValid := rfl
@[simp] theorem State.setDstLen_srcLen (d : Nat) (s : State) : (s.setDstLen d).srcLen = s.srcLen := rfl
@[simp] theorem State.setDstLen_dstLen (d : Nat) (s : State) : (s.setDstLen d).dstLen = BitVec.ofNat 32 d := rfl
@[simp] theorem State.setDstLen_arg0 (d : Nat) (s : State) : (s.setDstLen d).arg0 = s.arg0 := rfl
@[simp] theorem State.setDstLen_arg1 (d : Nat) (s : State) : (s.setDstLen d).arg1 = s.arg1 := rfl
@[simp] theorem State.setDstLen_res0 (d : Nat) (s : State) : (s.setDstLen d).res0 = s.res0 := rfl
@[simp] theorem State.setDstLen_res1 (d : Nat) (s : State) : (s.setDstLen d).res1 = s.res1 := rfl
@[simp] theorem State.setDstLen_bsWbits (d : Nat) (s : State) : (s.setDstLen d).bsWbits = s.bsWbits := rfl
@[simp] theorem State.setDstLen_bsRpos (d : Nat) (s : State) : (s.setDstLen d).bsRpos = s.bsRpos := rfl
@[simp] theorem State.setDstLen_ibuf (d : Nat) (s : State) : (s.setDstLen d).ibuf = s.ibuf := rfl
@[simp] theorem State.setDstLen_obuf (d : Nat) (s : State) : (s.setDstLen d).obuf = s.obuf := rfl
@[simp] theorem State.setDstLen_freq (d : Nat) (s : State) : (s.setDstLen d).freq = s.freq := rfl
@[simp] theorem State.setDstLen_len (d : Nat) (s : State) : (s.setDstLen d).len = s.len := rfl
@[simp] theorem State.setDstLen_code (d : Nat) (s : State) : (s.setDstLen d).code = s.code := rfl
@[simp] theorem State.setDstLen_arena (d : Nat) (s : State) : (s.setDstLen d).arena = s.arena := rfl
@[simp] theorem State.setDstLen_seq (d : Nat) (s : State) : (s.setDstLen d).seq = s.seq := rfl
@[simp] theorem State.setDstLen_pending (d : Nat) (s : State) : (s.setDstLen d).pending = s.pending := rfl
@[simp] theorem State.setDstLen_resp (d : Nat) (s : State) : (s.setDstLen d).resp = s.resp := rfl
@[simp] theorem State.setDstLen_draw (d : Nat) (s : State) : (s.setDstLen d).draw = s.draw := rfl
@[simp] theorem State.setDstLen_latched (d : Nat) (s : State) : (s.setDstLen d).latched = s.latched := rfl
@[simp] theorem State.setDstLen_wpos (d : Nat) (s : State) : (s.setDstLen d).wpos = s.wpos := rfl
@[simp] theorem State.setDstLen_rpos (d : Nat) (s : State) : (s.setDstLen d).rpos = s.rpos := rfl
@[simp] theorem State.setDstLen_busy (d : Nat) (s : State) : (s.setDstLen d).busy = s.busy := rfl
@[simp] theorem State.setDstLen_inputArray (d : Nat) (s : State) : (s.setDstLen d).inputArray = s.inputArray := rfl
@[simp] theorem State.setDstLen_n (d : Nat) (s : State) : (s.setDstLen d).n = s.n := rfl
@[simp] theorem State.setDstLen_a0 (d : Nat) (s : State) : (s.setDstLen d).a0 = s.a0 := rfl
@[simp] theorem State.setDstLen_a1 (d : Nat) (s : State) : (s.setDstLen d).a1 = s.a1 := rfl

/-! ## setFreq -/

@[simp] theorem State.setFreq_params (xs : List Nat) (s : State) : (s.setFreq xs).params = s.params := rfl
@[simp] theorem State.setFreq_irqEn (xs : List Nat) (s : State) : (s.setFreq xs).irqEn = s.irqEn := rfl
@[simp] theorem State.setFreq_opcode (xs : List Nat) (s : State) : (s.setFreq xs).opcode = s.opcode := rfl
@[simp] theorem State.setFreq_done (xs : List Nat) (s : State) : (s.setFreq xs).done = s.done := rfl
@[simp] theorem State.setFreq_err (xs : List Nat) (s : State) : (s.setFreq xs).err = s.err := rfl
@[simp] theorem State.setFreq_errcode (xs : List Nat) (s : State) : (s.setFreq xs).errcode = s.errcode := rfl
@[simp] theorem State.setFreq_tableValid (xs : List Nat) (s : State) : (s.setFreq xs).tableValid = s.tableValid := rfl
@[simp] theorem State.setFreq_srcLen (xs : List Nat) (s : State) : (s.setFreq xs).srcLen = s.srcLen := rfl
@[simp] theorem State.setFreq_dstLen (xs : List Nat) (s : State) : (s.setFreq xs).dstLen = s.dstLen := rfl
@[simp] theorem State.setFreq_arg0 (xs : List Nat) (s : State) : (s.setFreq xs).arg0 = s.arg0 := rfl
@[simp] theorem State.setFreq_arg1 (xs : List Nat) (s : State) : (s.setFreq xs).arg1 = s.arg1 := rfl
@[simp] theorem State.setFreq_res0 (xs : List Nat) (s : State) : (s.setFreq xs).res0 = s.res0 := rfl
@[simp] theorem State.setFreq_res1 (xs : List Nat) (s : State) : (s.setFreq xs).res1 = s.res1 := rfl
@[simp] theorem State.setFreq_bsWbits (xs : List Nat) (s : State) : (s.setFreq xs).bsWbits = s.bsWbits := rfl
@[simp] theorem State.setFreq_bsRpos (xs : List Nat) (s : State) : (s.setFreq xs).bsRpos = s.bsRpos := rfl
@[simp] theorem State.setFreq_ibuf (xs : List Nat) (s : State) : (s.setFreq xs).ibuf = s.ibuf := rfl
@[simp] theorem State.setFreq_obuf (xs : List Nat) (s : State) : (s.setFreq xs).obuf = s.obuf := rfl
@[simp] theorem State.setFreq_freq (xs : List Nat) (s : State) : (s.setFreq xs).freq = s.freq.fill xs := rfl
@[simp] theorem State.setFreq_len (xs : List Nat) (s : State) : (s.setFreq xs).len = s.len := rfl
@[simp] theorem State.setFreq_code (xs : List Nat) (s : State) : (s.setFreq xs).code = s.code := rfl
@[simp] theorem State.setFreq_arena (xs : List Nat) (s : State) : (s.setFreq xs).arena = s.arena := rfl
@[simp] theorem State.setFreq_seq (xs : List Nat) (s : State) : (s.setFreq xs).seq = s.seq := rfl
@[simp] theorem State.setFreq_pending (xs : List Nat) (s : State) : (s.setFreq xs).pending = s.pending := rfl
@[simp] theorem State.setFreq_resp (xs : List Nat) (s : State) : (s.setFreq xs).resp = s.resp := rfl
@[simp] theorem State.setFreq_draw (xs : List Nat) (s : State) : (s.setFreq xs).draw = s.draw := rfl
@[simp] theorem State.setFreq_latched (xs : List Nat) (s : State) : (s.setFreq xs).latched = s.latched := rfl
@[simp] theorem State.setFreq_wpos (xs : List Nat) (s : State) : (s.setFreq xs).wpos = s.wpos := rfl
@[simp] theorem State.setFreq_rpos (xs : List Nat) (s : State) : (s.setFreq xs).rpos = s.rpos := rfl
@[simp] theorem State.setFreq_busy (xs : List Nat) (s : State) : (s.setFreq xs).busy = s.busy := rfl
@[simp] theorem State.setFreq_inputArray (xs : List Nat) (s : State) : (s.setFreq xs).inputArray = s.inputArray := rfl
@[simp] theorem State.setFreq_n (xs : List Nat) (s : State) : (s.setFreq xs).n = s.n := rfl
@[simp] theorem State.setFreq_a0 (xs : List Nat) (s : State) : (s.setFreq xs).a0 = s.a0 := rfl
@[simp] theorem State.setFreq_a1 (xs : List Nat) (s : State) : (s.setFreq xs).a1 = s.a1 := rfl

/-! ## setLen -/

@[simp] theorem State.setLen_params (xs : List Nat) (s : State) : (s.setLen xs).params = s.params := rfl
@[simp] theorem State.setLen_irqEn (xs : List Nat) (s : State) : (s.setLen xs).irqEn = s.irqEn := rfl
@[simp] theorem State.setLen_opcode (xs : List Nat) (s : State) : (s.setLen xs).opcode = s.opcode := rfl
@[simp] theorem State.setLen_done (xs : List Nat) (s : State) : (s.setLen xs).done = s.done := rfl
@[simp] theorem State.setLen_err (xs : List Nat) (s : State) : (s.setLen xs).err = s.err := rfl
@[simp] theorem State.setLen_errcode (xs : List Nat) (s : State) : (s.setLen xs).errcode = s.errcode := rfl
@[simp] theorem State.setLen_tableValid (xs : List Nat) (s : State) : (s.setLen xs).tableValid = s.tableValid := rfl
@[simp] theorem State.setLen_srcLen (xs : List Nat) (s : State) : (s.setLen xs).srcLen = s.srcLen := rfl
@[simp] theorem State.setLen_dstLen (xs : List Nat) (s : State) : (s.setLen xs).dstLen = s.dstLen := rfl
@[simp] theorem State.setLen_arg0 (xs : List Nat) (s : State) : (s.setLen xs).arg0 = s.arg0 := rfl
@[simp] theorem State.setLen_arg1 (xs : List Nat) (s : State) : (s.setLen xs).arg1 = s.arg1 := rfl
@[simp] theorem State.setLen_res0 (xs : List Nat) (s : State) : (s.setLen xs).res0 = s.res0 := rfl
@[simp] theorem State.setLen_res1 (xs : List Nat) (s : State) : (s.setLen xs).res1 = s.res1 := rfl
@[simp] theorem State.setLen_bsWbits (xs : List Nat) (s : State) : (s.setLen xs).bsWbits = s.bsWbits := rfl
@[simp] theorem State.setLen_bsRpos (xs : List Nat) (s : State) : (s.setLen xs).bsRpos = s.bsRpos := rfl
@[simp] theorem State.setLen_ibuf (xs : List Nat) (s : State) : (s.setLen xs).ibuf = s.ibuf := rfl
@[simp] theorem State.setLen_obuf (xs : List Nat) (s : State) : (s.setLen xs).obuf = s.obuf := rfl
@[simp] theorem State.setLen_freq (xs : List Nat) (s : State) : (s.setLen xs).freq = s.freq := rfl
@[simp] theorem State.setLen_len (xs : List Nat) (s : State) : (s.setLen xs).len = s.len.fill xs := rfl
@[simp] theorem State.setLen_code (xs : List Nat) (s : State) : (s.setLen xs).code = s.code := rfl
@[simp] theorem State.setLen_arena (xs : List Nat) (s : State) : (s.setLen xs).arena = s.arena := rfl
@[simp] theorem State.setLen_seq (xs : List Nat) (s : State) : (s.setLen xs).seq = s.seq := rfl
@[simp] theorem State.setLen_pending (xs : List Nat) (s : State) : (s.setLen xs).pending = s.pending := rfl
@[simp] theorem State.setLen_resp (xs : List Nat) (s : State) : (s.setLen xs).resp = s.resp := rfl
@[simp] theorem State.setLen_draw (xs : List Nat) (s : State) : (s.setLen xs).draw = s.draw := rfl
@[simp] theorem State.setLen_latched (xs : List Nat) (s : State) : (s.setLen xs).latched = s.latched := rfl
@[simp] theorem State.setLen_wpos (xs : List Nat) (s : State) : (s.setLen xs).wpos = s.wpos := rfl
@[simp] theorem State.setLen_rpos (xs : List Nat) (s : State) : (s.setLen xs).rpos = s.rpos := rfl
@[simp] theorem State.setLen_busy (xs : List Nat) (s : State) : (s.setLen xs).busy = s.busy := rfl
@[simp] theorem State.setLen_inputArray (xs : List Nat) (s : State) : (s.setLen xs).inputArray = s.inputArray := rfl
@[simp] theorem State.setLen_n (xs : List Nat) (s : State) : (s.setLen xs).n = s.n := rfl
@[simp] theorem State.setLen_a0 (xs : List Nat) (s : State) : (s.setLen xs).a0 = s.a0 := rfl
@[simp] theorem State.setLen_a1 (xs : List Nat) (s : State) : (s.setLen xs).a1 = s.a1 := rfl

/-! ## setCode -/

@[simp] theorem State.setCode_params (xs : List Nat) (s : State) : (s.setCode xs).params = s.params := rfl
@[simp] theorem State.setCode_irqEn (xs : List Nat) (s : State) : (s.setCode xs).irqEn = s.irqEn := rfl
@[simp] theorem State.setCode_opcode (xs : List Nat) (s : State) : (s.setCode xs).opcode = s.opcode := rfl
@[simp] theorem State.setCode_done (xs : List Nat) (s : State) : (s.setCode xs).done = s.done := rfl
@[simp] theorem State.setCode_err (xs : List Nat) (s : State) : (s.setCode xs).err = s.err := rfl
@[simp] theorem State.setCode_errcode (xs : List Nat) (s : State) : (s.setCode xs).errcode = s.errcode := rfl
@[simp] theorem State.setCode_tableValid (xs : List Nat) (s : State) : (s.setCode xs).tableValid = s.tableValid := rfl
@[simp] theorem State.setCode_srcLen (xs : List Nat) (s : State) : (s.setCode xs).srcLen = s.srcLen := rfl
@[simp] theorem State.setCode_dstLen (xs : List Nat) (s : State) : (s.setCode xs).dstLen = s.dstLen := rfl
@[simp] theorem State.setCode_arg0 (xs : List Nat) (s : State) : (s.setCode xs).arg0 = s.arg0 := rfl
@[simp] theorem State.setCode_arg1 (xs : List Nat) (s : State) : (s.setCode xs).arg1 = s.arg1 := rfl
@[simp] theorem State.setCode_res0 (xs : List Nat) (s : State) : (s.setCode xs).res0 = s.res0 := rfl
@[simp] theorem State.setCode_res1 (xs : List Nat) (s : State) : (s.setCode xs).res1 = s.res1 := rfl
@[simp] theorem State.setCode_bsWbits (xs : List Nat) (s : State) : (s.setCode xs).bsWbits = s.bsWbits := rfl
@[simp] theorem State.setCode_bsRpos (xs : List Nat) (s : State) : (s.setCode xs).bsRpos = s.bsRpos := rfl
@[simp] theorem State.setCode_ibuf (xs : List Nat) (s : State) : (s.setCode xs).ibuf = s.ibuf := rfl
@[simp] theorem State.setCode_obuf (xs : List Nat) (s : State) : (s.setCode xs).obuf = s.obuf := rfl
@[simp] theorem State.setCode_freq (xs : List Nat) (s : State) : (s.setCode xs).freq = s.freq := rfl
@[simp] theorem State.setCode_len (xs : List Nat) (s : State) : (s.setCode xs).len = s.len := rfl
@[simp] theorem State.setCode_code (xs : List Nat) (s : State) : (s.setCode xs).code = s.code.fill xs := rfl
@[simp] theorem State.setCode_arena (xs : List Nat) (s : State) : (s.setCode xs).arena = s.arena := rfl
@[simp] theorem State.setCode_seq (xs : List Nat) (s : State) : (s.setCode xs).seq = s.seq := rfl
@[simp] theorem State.setCode_pending (xs : List Nat) (s : State) : (s.setCode xs).pending = s.pending := rfl
@[simp] theorem State.setCode_resp (xs : List Nat) (s : State) : (s.setCode xs).resp = s.resp := rfl
@[simp] theorem State.setCode_draw (xs : List Nat) (s : State) : (s.setCode xs).draw = s.draw := rfl
@[simp] theorem State.setCode_latched (xs : List Nat) (s : State) : (s.setCode xs).latched = s.latched := rfl
@[simp] theorem State.setCode_wpos (xs : List Nat) (s : State) : (s.setCode xs).wpos = s.wpos := rfl
@[simp] theorem State.setCode_rpos (xs : List Nat) (s : State) : (s.setCode xs).rpos = s.rpos := rfl
@[simp] theorem State.setCode_busy (xs : List Nat) (s : State) : (s.setCode xs).busy = s.busy := rfl
@[simp] theorem State.setCode_inputArray (xs : List Nat) (s : State) : (s.setCode xs).inputArray = s.inputArray := rfl
@[simp] theorem State.setCode_n (xs : List Nat) (s : State) : (s.setCode xs).n = s.n := rfl
@[simp] theorem State.setCode_a0 (xs : List Nat) (s : State) : (s.setCode xs).a0 = s.a0 := rfl
@[simp] theorem State.setCode_a1 (xs : List Nat) (s : State) : (s.setCode xs).a1 = s.a1 := rfl

/-! ## setTableValid -/

@[simp] theorem State.setTableValid_params (b : Bool) (s : State) : (s.setTableValid b).params = s.params := rfl
@[simp] theorem State.setTableValid_irqEn (b : Bool) (s : State) : (s.setTableValid b).irqEn = s.irqEn := rfl
@[simp] theorem State.setTableValid_opcode (b : Bool) (s : State) : (s.setTableValid b).opcode = s.opcode := rfl
@[simp] theorem State.setTableValid_done (b : Bool) (s : State) : (s.setTableValid b).done = s.done := rfl
@[simp] theorem State.setTableValid_err (b : Bool) (s : State) : (s.setTableValid b).err = s.err := rfl
@[simp] theorem State.setTableValid_errcode (b : Bool) (s : State) : (s.setTableValid b).errcode = s.errcode := rfl
@[simp] theorem State.setTableValid_tableValid (b : Bool) (s : State) : (s.setTableValid b).tableValid = b := rfl
@[simp] theorem State.setTableValid_srcLen (b : Bool) (s : State) : (s.setTableValid b).srcLen = s.srcLen := rfl
@[simp] theorem State.setTableValid_dstLen (b : Bool) (s : State) : (s.setTableValid b).dstLen = s.dstLen := rfl
@[simp] theorem State.setTableValid_arg0 (b : Bool) (s : State) : (s.setTableValid b).arg0 = s.arg0 := rfl
@[simp] theorem State.setTableValid_arg1 (b : Bool) (s : State) : (s.setTableValid b).arg1 = s.arg1 := rfl
@[simp] theorem State.setTableValid_res0 (b : Bool) (s : State) : (s.setTableValid b).res0 = s.res0 := rfl
@[simp] theorem State.setTableValid_res1 (b : Bool) (s : State) : (s.setTableValid b).res1 = s.res1 := rfl
@[simp] theorem State.setTableValid_bsWbits (b : Bool) (s : State) : (s.setTableValid b).bsWbits = s.bsWbits := rfl
@[simp] theorem State.setTableValid_bsRpos (b : Bool) (s : State) : (s.setTableValid b).bsRpos = s.bsRpos := rfl
@[simp] theorem State.setTableValid_ibuf (b : Bool) (s : State) : (s.setTableValid b).ibuf = s.ibuf := rfl
@[simp] theorem State.setTableValid_obuf (b : Bool) (s : State) : (s.setTableValid b).obuf = s.obuf := rfl
@[simp] theorem State.setTableValid_freq (b : Bool) (s : State) : (s.setTableValid b).freq = s.freq := rfl
@[simp] theorem State.setTableValid_len (b : Bool) (s : State) : (s.setTableValid b).len = s.len := rfl
@[simp] theorem State.setTableValid_code (b : Bool) (s : State) : (s.setTableValid b).code = s.code := rfl
@[simp] theorem State.setTableValid_arena (b : Bool) (s : State) : (s.setTableValid b).arena = s.arena := rfl
@[simp] theorem State.setTableValid_seq (b : Bool) (s : State) : (s.setTableValid b).seq = s.seq := rfl
@[simp] theorem State.setTableValid_pending (b : Bool) (s : State) : (s.setTableValid b).pending = s.pending := rfl
@[simp] theorem State.setTableValid_resp (b : Bool) (s : State) : (s.setTableValid b).resp = s.resp := rfl
@[simp] theorem State.setTableValid_draw (b : Bool) (s : State) : (s.setTableValid b).draw = s.draw := rfl
@[simp] theorem State.setTableValid_latched (b : Bool) (s : State) : (s.setTableValid b).latched = s.latched := rfl
@[simp] theorem State.setTableValid_wpos (b : Bool) (s : State) : (s.setTableValid b).wpos = s.wpos := rfl
@[simp] theorem State.setTableValid_rpos (b : Bool) (s : State) : (s.setTableValid b).rpos = s.rpos := rfl
@[simp] theorem State.setTableValid_busy (b : Bool) (s : State) : (s.setTableValid b).busy = s.busy := rfl
@[simp] theorem State.setTableValid_inputArray (b : Bool) (s : State) : (s.setTableValid b).inputArray = s.inputArray := rfl
@[simp] theorem State.setTableValid_n (b : Bool) (s : State) : (s.setTableValid b).n = s.n := rfl
@[simp] theorem State.setTableValid_a0 (b : Bool) (s : State) : (s.setTableValid b).a0 = s.a0 := rfl
@[simp] theorem State.setTableValid_a1 (b : Bool) (s : State) : (s.setTableValid b).a1 = s.a1 := rfl

/-! ## touchArena -/

@[simp] theorem State.touchArena_params (s : State) : (s.touchArena).params = s.params := rfl
@[simp] theorem State.touchArena_irqEn (s : State) : (s.touchArena).irqEn = s.irqEn := rfl
@[simp] theorem State.touchArena_opcode (s : State) : (s.touchArena).opcode = s.opcode := rfl
@[simp] theorem State.touchArena_done (s : State) : (s.touchArena).done = s.done := rfl
@[simp] theorem State.touchArena_err (s : State) : (s.touchArena).err = s.err := rfl
@[simp] theorem State.touchArena_errcode (s : State) : (s.touchArena).errcode = s.errcode := rfl
@[simp] theorem State.touchArena_tableValid (s : State) : (s.touchArena).tableValid = s.tableValid := rfl
@[simp] theorem State.touchArena_srcLen (s : State) : (s.touchArena).srcLen = s.srcLen := rfl
@[simp] theorem State.touchArena_dstLen (s : State) : (s.touchArena).dstLen = s.dstLen := rfl
@[simp] theorem State.touchArena_arg0 (s : State) : (s.touchArena).arg0 = s.arg0 := rfl
@[simp] theorem State.touchArena_arg1 (s : State) : (s.touchArena).arg1 = s.arg1 := rfl
@[simp] theorem State.touchArena_res0 (s : State) : (s.touchArena).res0 = s.res0 := rfl
@[simp] theorem State.touchArena_res1 (s : State) : (s.touchArena).res1 = s.res1 := rfl
@[simp] theorem State.touchArena_bsWbits (s : State) : (s.touchArena).bsWbits = s.bsWbits := rfl
@[simp] theorem State.touchArena_bsRpos (s : State) : (s.touchArena).bsRpos = s.bsRpos := rfl
@[simp] theorem State.touchArena_ibuf (s : State) : (s.touchArena).ibuf = s.ibuf := rfl
@[simp] theorem State.touchArena_obuf (s : State) : (s.touchArena).obuf = s.obuf := rfl
@[simp] theorem State.touchArena_freq (s : State) : (s.touchArena).freq = s.freq := rfl
@[simp] theorem State.touchArena_len (s : State) : (s.touchArena).len = s.len := rfl
@[simp] theorem State.touchArena_code (s : State) : (s.touchArena).code = s.code := rfl
@[simp] theorem State.touchArena_arena (s : State) : (s.touchArena).arena = { draw := s.draw } := rfl
@[simp] theorem State.touchArena_seq (s : State) : (s.touchArena).seq = s.seq := rfl
@[simp] theorem State.touchArena_pending (s : State) : (s.touchArena).pending = s.pending := rfl
@[simp] theorem State.touchArena_resp (s : State) : (s.touchArena).resp = s.resp := rfl
@[simp] theorem State.touchArena_draw (s : State) : (s.touchArena).draw = s.draw + 1 := rfl
@[simp] theorem State.touchArena_latched (s : State) : (s.touchArena).latched = s.latched := rfl
@[simp] theorem State.touchArena_wpos (s : State) : (s.touchArena).wpos = s.wpos := rfl
@[simp] theorem State.touchArena_rpos (s : State) : (s.touchArena).rpos = s.rpos := rfl
@[simp] theorem State.touchArena_busy (s : State) : (s.touchArena).busy = s.busy := rfl
@[simp] theorem State.touchArena_inputArray (s : State) : (s.touchArena).inputArray = s.inputArray := rfl
@[simp] theorem State.touchArena_n (s : State) : (s.touchArena).n = s.n := rfl
@[simp] theorem State.touchArena_a0 (s : State) : (s.touchArena).a0 = s.a0 := rfl
@[simp] theorem State.touchArena_a1 (s : State) : (s.touchArena).a1 = s.a1 := rfl

/-! ## clearFlags -/

@[simp] theorem State.clearFlags_params (s : State) : (s.clearFlags).params = s.params := rfl
@[simp] theorem State.clearFlags_irqEn (s : State) : (s.clearFlags).irqEn = s.irqEn := rfl
@[simp] theorem State.clearFlags_opcode (s : State) : (s.clearFlags).opcode = s.opcode := rfl
@[simp] theorem State.clearFlags_done (s : State) : (s.clearFlags).done = false := rfl
@[simp] theorem State.clearFlags_err (s : State) : (s.clearFlags).err = false := rfl
@[simp] theorem State.clearFlags_errcode (s : State) : (s.clearFlags).errcode = 0#4 := rfl
@[simp] theorem State.clearFlags_tableValid (s : State) : (s.clearFlags).tableValid = s.tableValid := rfl
@[simp] theorem State.clearFlags_srcLen (s : State) : (s.clearFlags).srcLen = s.srcLen := rfl
@[simp] theorem State.clearFlags_dstLen (s : State) : (s.clearFlags).dstLen = s.dstLen := rfl
@[simp] theorem State.clearFlags_arg0 (s : State) : (s.clearFlags).arg0 = s.arg0 := rfl
@[simp] theorem State.clearFlags_arg1 (s : State) : (s.clearFlags).arg1 = s.arg1 := rfl
@[simp] theorem State.clearFlags_res0 (s : State) : (s.clearFlags).res0 = s.res0 := rfl
@[simp] theorem State.clearFlags_res1 (s : State) : (s.clearFlags).res1 = s.res1 := rfl
@[simp] theorem State.clearFlags_bsWbits (s : State) : (s.clearFlags).bsWbits = s.bsWbits := rfl
@[simp] theorem State.clearFlags_bsRpos (s : State) : (s.clearFlags).bsRpos = s.bsRpos := rfl
@[simp] theorem State.clearFlags_ibuf (s : State) : (s.clearFlags).ibuf = s.ibuf := rfl
@[simp] theorem State.clearFlags_obuf (s : State) : (s.clearFlags).obuf = s.obuf := rfl
@[simp] theorem State.clearFlags_freq (s : State) : (s.clearFlags).freq = s.freq := rfl
@[simp] theorem State.clearFlags_len (s : State) : (s.clearFlags).len = s.len := rfl
@[simp] theorem State.clearFlags_code (s : State) : (s.clearFlags).code = s.code := rfl
@[simp] theorem State.clearFlags_arena (s : State) : (s.clearFlags).arena = s.arena := rfl
@[simp] theorem State.clearFlags_seq (s : State) : (s.clearFlags).seq = s.seq := rfl
@[simp] theorem State.clearFlags_pending (s : State) : (s.clearFlags).pending = s.pending := rfl
@[simp] theorem State.clearFlags_resp (s : State) : (s.clearFlags).resp = s.resp := rfl
@[simp] theorem State.clearFlags_draw (s : State) : (s.clearFlags).draw = s.draw := rfl
@[simp] theorem State.clearFlags_latched (s : State) : (s.clearFlags).latched = s.latched := rfl
@[simp] theorem State.clearFlags_wpos (s : State) : (s.clearFlags).wpos = s.wpos := rfl
@[simp] theorem State.clearFlags_rpos (s : State) : (s.clearFlags).rpos = s.rpos := rfl
@[simp] theorem State.clearFlags_busy (s : State) : (s.clearFlags).busy = s.busy := rfl
@[simp] theorem State.clearFlags_inputArray (s : State) : (s.clearFlags).inputArray = s.inputArray := rfl
@[simp] theorem State.clearFlags_n (s : State) : (s.clearFlags).n = s.n := rfl
@[simp] theorem State.clearFlags_a0 (s : State) : (s.clearFlags).a0 = s.a0 := rfl
@[simp] theorem State.clearFlags_a1 (s : State) : (s.clearFlags).a1 = s.a1 := rfl

/-! ## acknowledge -/

@[simp] theorem State.acknowledge_params (v : Word) (s : State) : (s.acknowledge v).params = s.params := rfl
@[simp] theorem State.acknowledge_irqEn (v : Word) (s : State) : (s.acknowledge v).irqEn = s.irqEn := rfl
@[simp] theorem State.acknowledge_opcode (v : Word) (s : State) : (s.acknowledge v).opcode = s.opcode := rfl
@[simp] theorem State.acknowledge_done (v : Word) (s : State) : (s.acknowledge v).done = if v.getLsbD 1 then false else s.done := rfl
@[simp] theorem State.acknowledge_err (v : Word) (s : State) : (s.acknowledge v).err = if v.getLsbD 2 then false else s.err := rfl
@[simp] theorem State.acknowledge_errcode (v : Word) (s : State) : (s.acknowledge v).errcode = if v.getLsbD 2 then 0#4 else s.errcode := rfl
@[simp] theorem State.acknowledge_tableValid (v : Word) (s : State) : (s.acknowledge v).tableValid = s.tableValid := rfl
@[simp] theorem State.acknowledge_srcLen (v : Word) (s : State) : (s.acknowledge v).srcLen = s.srcLen := rfl
@[simp] theorem State.acknowledge_dstLen (v : Word) (s : State) : (s.acknowledge v).dstLen = s.dstLen := rfl
@[simp] theorem State.acknowledge_arg0 (v : Word) (s : State) : (s.acknowledge v).arg0 = s.arg0 := rfl
@[simp] theorem State.acknowledge_arg1 (v : Word) (s : State) : (s.acknowledge v).arg1 = s.arg1 := rfl
@[simp] theorem State.acknowledge_res0 (v : Word) (s : State) : (s.acknowledge v).res0 = s.res0 := rfl
@[simp] theorem State.acknowledge_res1 (v : Word) (s : State) : (s.acknowledge v).res1 = s.res1 := rfl
@[simp] theorem State.acknowledge_bsWbits (v : Word) (s : State) : (s.acknowledge v).bsWbits = s.bsWbits := rfl
@[simp] theorem State.acknowledge_bsRpos (v : Word) (s : State) : (s.acknowledge v).bsRpos = s.bsRpos := rfl
@[simp] theorem State.acknowledge_ibuf (v : Word) (s : State) : (s.acknowledge v).ibuf = s.ibuf := rfl
@[simp] theorem State.acknowledge_obuf (v : Word) (s : State) : (s.acknowledge v).obuf = s.obuf := rfl
@[simp] theorem State.acknowledge_freq (v : Word) (s : State) : (s.acknowledge v).freq = s.freq := rfl
@[simp] theorem State.acknowledge_len (v : Word) (s : State) : (s.acknowledge v).len = s.len := rfl
@[simp] theorem State.acknowledge_code (v : Word) (s : State) : (s.acknowledge v).code = s.code := rfl
@[simp] theorem State.acknowledge_arena (v : Word) (s : State) : (s.acknowledge v).arena = s.arena := rfl
@[simp] theorem State.acknowledge_seq (v : Word) (s : State) : (s.acknowledge v).seq = s.seq := rfl
@[simp] theorem State.acknowledge_pending (v : Word) (s : State) : (s.acknowledge v).pending = s.pending := rfl
@[simp] theorem State.acknowledge_resp (v : Word) (s : State) : (s.acknowledge v).resp = s.resp := rfl
@[simp] theorem State.acknowledge_draw (v : Word) (s : State) : (s.acknowledge v).draw = s.draw := rfl
@[simp] theorem State.acknowledge_latched (v : Word) (s : State) : (s.acknowledge v).latched = s.latched := rfl
@[simp] theorem State.acknowledge_wpos (v : Word) (s : State) : (s.acknowledge v).wpos = s.wpos := rfl
@[simp] theorem State.acknowledge_rpos (v : Word) (s : State) : (s.acknowledge v).rpos = s.rpos := rfl
@[simp] theorem State.acknowledge_busy (v : Word) (s : State) : (s.acknowledge v).busy = s.busy := rfl
@[simp] theorem State.acknowledge_inputArray (v : Word) (s : State) : (s.acknowledge v).inputArray = s.inputArray := rfl
@[simp] theorem State.acknowledge_n (v : Word) (s : State) : (s.acknowledge v).n = s.n := rfl
@[simp] theorem State.acknowledge_a0 (v : Word) (s : State) : (s.acknowledge v).a0 = s.a0 := rfl
@[simp] theorem State.acknowledge_a1 (v : Word) (s : State) : (s.acknowledge v).a1 = s.a1 := rfl

/-! ## completeOk -/

@[simp] theorem State.completeOk_params (s : State) : (s.completeOk).params = s.params := rfl
@[simp] theorem State.completeOk_irqEn (s : State) : (s.completeOk).irqEn = s.irqEn := rfl
@[simp] theorem State.completeOk_opcode (s : State) : (s.completeOk).opcode = s.opcode := rfl
@[simp] theorem State.completeOk_done (s : State) : (s.completeOk).done = true := rfl
@[simp] theorem State.completeOk_err (s : State) : (s.completeOk).err = s.err := rfl
@[simp] theorem State.completeOk_errcode (s : State) : (s.completeOk).errcode = s.errcode := rfl
@[simp] theorem State.completeOk_tableValid (s : State) : (s.completeOk).tableValid = s.tableValid := rfl
@[simp] theorem State.completeOk_srcLen (s : State) : (s.completeOk).srcLen = s.srcLen := rfl
@[simp] theorem State.completeOk_dstLen (s : State) : (s.completeOk).dstLen = s.dstLen := rfl
@[simp] theorem State.completeOk_arg0 (s : State) : (s.completeOk).arg0 = s.arg0 := rfl
@[simp] theorem State.completeOk_arg1 (s : State) : (s.completeOk).arg1 = s.arg1 := rfl
@[simp] theorem State.completeOk_res0 (s : State) : (s.completeOk).res0 = s.res0 := rfl
@[simp] theorem State.completeOk_res1 (s : State) : (s.completeOk).res1 = s.res1 := rfl
@[simp] theorem State.completeOk_bsWbits (s : State) : (s.completeOk).bsWbits = s.bsWbits := rfl
@[simp] theorem State.completeOk_bsRpos (s : State) : (s.completeOk).bsRpos = s.bsRpos := rfl
@[simp] theorem State.completeOk_ibuf (s : State) : (s.completeOk).ibuf = s.ibuf := rfl
@[simp] theorem State.completeOk_obuf (s : State) : (s.completeOk).obuf = s.obuf := rfl
@[simp] theorem State.completeOk_freq (s : State) : (s.completeOk).freq = s.freq := rfl
@[simp] theorem State.completeOk_len (s : State) : (s.completeOk).len = s.len := rfl
@[simp] theorem State.completeOk_code (s : State) : (s.completeOk).code = s.code := rfl
@[simp] theorem State.completeOk_arena (s : State) : (s.completeOk).arena = s.arena := rfl
@[simp] theorem State.completeOk_seq (s : State) : (s.completeOk).seq = .idle := rfl
@[simp] theorem State.completeOk_pending (s : State) : (s.completeOk).pending = s.pending := rfl
@[simp] theorem State.completeOk_resp (s : State) : (s.completeOk).resp = s.resp := rfl
@[simp] theorem State.completeOk_draw (s : State) : (s.completeOk).draw = s.draw := rfl
@[simp] theorem State.completeOk_wpos (s : State) : (s.completeOk).wpos = s.wpos := rfl
@[simp] theorem State.completeOk_rpos (s : State) : (s.completeOk).rpos = s.rpos := rfl

/-! ## completeError -/

@[simp] theorem State.completeError_params (c : ErrorCode) (s : State) : (s.completeError c).params = s.params := rfl
@[simp] theorem State.completeError_irqEn (c : ErrorCode) (s : State) : (s.completeError c).irqEn = s.irqEn := rfl
@[simp] theorem State.completeError_opcode (c : ErrorCode) (s : State) : (s.completeError c).opcode = s.opcode := rfl
@[simp] theorem State.completeError_done (c : ErrorCode) (s : State) : (s.completeError c).done = true := rfl
@[simp] theorem State.completeError_err (c : ErrorCode) (s : State) : (s.completeError c).err = true := rfl
@[simp] theorem State.completeError_errcode (c : ErrorCode) (s : State) : (s.completeError c).errcode = c.toBits := rfl
@[simp] theorem State.completeError_tableValid (c : ErrorCode) (s : State) : (s.completeError c).tableValid = s.tableValid := rfl
@[simp] theorem State.completeError_srcLen (c : ErrorCode) (s : State) : (s.completeError c).srcLen = s.srcLen := rfl
@[simp] theorem State.completeError_dstLen (c : ErrorCode) (s : State) : (s.completeError c).dstLen = s.dstLen := rfl
@[simp] theorem State.completeError_arg0 (c : ErrorCode) (s : State) : (s.completeError c).arg0 = s.arg0 := rfl
@[simp] theorem State.completeError_arg1 (c : ErrorCode) (s : State) : (s.completeError c).arg1 = s.arg1 := rfl
@[simp] theorem State.completeError_res0 (c : ErrorCode) (s : State) : (s.completeError c).res0 = s.res0 := rfl
@[simp] theorem State.completeError_res1 (c : ErrorCode) (s : State) : (s.completeError c).res1 = s.res1 := rfl
@[simp] theorem State.completeError_bsWbits (c : ErrorCode) (s : State) : (s.completeError c).bsWbits = s.bsWbits := rfl
@[simp] theorem State.completeError_bsRpos (c : ErrorCode) (s : State) : (s.completeError c).bsRpos = s.bsRpos := rfl
@[simp] theorem State.completeError_ibuf (c : ErrorCode) (s : State) : (s.completeError c).ibuf = s.ibuf := rfl
@[simp] theorem State.completeError_obuf (c : ErrorCode) (s : State) : (s.completeError c).obuf = s.obuf := rfl
@[simp] theorem State.completeError_freq (c : ErrorCode) (s : State) : (s.completeError c).freq = s.freq := rfl
@[simp] theorem State.completeError_len (c : ErrorCode) (s : State) : (s.completeError c).len = s.len := rfl
@[simp] theorem State.completeError_code (c : ErrorCode) (s : State) : (s.completeError c).code = s.code := rfl
@[simp] theorem State.completeError_arena (c : ErrorCode) (s : State) : (s.completeError c).arena = s.arena := rfl
@[simp] theorem State.completeError_seq (c : ErrorCode) (s : State) : (s.completeError c).seq = .idle := rfl
@[simp] theorem State.completeError_pending (c : ErrorCode) (s : State) : (s.completeError c).pending = s.pending := rfl
@[simp] theorem State.completeError_resp (c : ErrorCode) (s : State) : (s.completeError c).resp = s.resp := rfl
@[simp] theorem State.completeError_draw (c : ErrorCode) (s : State) : (s.completeError c).draw = s.draw := rfl
@[simp] theorem State.completeError_wpos (c : ErrorCode) (s : State) : (s.completeError c).wpos = s.wpos := rfl
@[simp] theorem State.completeError_rpos (c : ErrorCode) (s : State) : (s.completeError c).rpos = s.rpos := rfl

/-! ## start -/

@[simp] theorem State.start_params (v : Word) (s : State) : (s.start v).params = s.params := rfl
@[simp] theorem State.start_irqEn (v : Word) (s : State) : (s.start v).irqEn = v.getLsbD 1 := rfl
@[simp] theorem State.start_opcode (v : Word) (s : State) : (s.start v).opcode = s.opcode := rfl
@[simp] theorem State.start_done (v : Word) (s : State) : (s.start v).done = false := rfl
@[simp] theorem State.start_err (v : Word) (s : State) : (s.start v).err = false := rfl
@[simp] theorem State.start_errcode (v : Word) (s : State) : (s.start v).errcode = 0#4 := rfl
@[simp] theorem State.start_tableValid (v : Word) (s : State) : (s.start v).tableValid = s.tableValid := rfl
@[simp] theorem State.start_srcLen (v : Word) (s : State) : (s.start v).srcLen = s.srcLen := rfl
@[simp] theorem State.start_dstLen (v : Word) (s : State) : (s.start v).dstLen = s.dstLen := rfl
@[simp] theorem State.start_arg0 (v : Word) (s : State) : (s.start v).arg0 = s.arg0 := rfl
@[simp] theorem State.start_arg1 (v : Word) (s : State) : (s.start v).arg1 = s.arg1 := rfl
@[simp] theorem State.start_res0 (v : Word) (s : State) : (s.start v).res0 = s.res0 := rfl
@[simp] theorem State.start_res1 (v : Word) (s : State) : (s.start v).res1 = s.res1 := rfl
@[simp] theorem State.start_bsWbits (v : Word) (s : State) : (s.start v).bsWbits = s.bsWbits := rfl
@[simp] theorem State.start_bsRpos (v : Word) (s : State) : (s.start v).bsRpos = s.bsRpos := rfl
@[simp] theorem State.start_ibuf (v : Word) (s : State) : (s.start v).ibuf = s.ibuf := rfl
@[simp] theorem State.start_obuf (v : Word) (s : State) : (s.start v).obuf = s.obuf := rfl
@[simp] theorem State.start_freq (v : Word) (s : State) : (s.start v).freq = s.freq := rfl
@[simp] theorem State.start_len (v : Word) (s : State) : (s.start v).len = s.len := rfl
@[simp] theorem State.start_code (v : Word) (s : State) : (s.start v).code = s.code := rfl
@[simp] theorem State.start_arena (v : Word) (s : State) : (s.start v).arena = s.arena := rfl
@[simp] theorem State.start_seq (v : Word) (s : State) : (s.start v).seq = .busy { op := s.opcode, srcLen := s.srcLen, arg0 := s.arg0, arg1 := s.arg1 } := rfl
@[simp] theorem State.start_pending (v : Word) (s : State) : (s.start v).pending = s.pending := rfl
@[simp] theorem State.start_resp (v : Word) (s : State) : (s.start v).resp = s.resp := rfl
@[simp] theorem State.start_draw (v : Word) (s : State) : (s.start v).draw = s.draw := rfl
@[simp] theorem State.start_wpos (v : Word) (s : State) : (s.start v).wpos = s.wpos := rfl
@[simp] theorem State.start_rpos (v : Word) (s : State) : (s.start v).rpos = s.rpos := rfl

/-! ## unspecify -/

@[simp] theorem State.unspecify_params (ws : WriteSet) (s : State) : (s.unspecify ws).params = s.params := rfl
@[simp] theorem State.unspecify_irqEn (ws : WriteSet) (s : State) : (s.unspecify ws).irqEn = s.irqEn := rfl
@[simp] theorem State.unspecify_opcode (ws : WriteSet) (s : State) : (s.unspecify ws).opcode = s.opcode := rfl
@[simp] theorem State.unspecify_done (ws : WriteSet) (s : State) : (s.unspecify ws).done = s.done := rfl
@[simp] theorem State.unspecify_err (ws : WriteSet) (s : State) : (s.unspecify ws).err = s.err := rfl
@[simp] theorem State.unspecify_errcode (ws : WriteSet) (s : State) : (s.unspecify ws).errcode = s.errcode := rfl
@[simp] theorem State.unspecify_tableValid (ws : WriteSet) (s : State) : (s.unspecify ws).tableValid = if ws.tableValid then (Config.unspec 1 (s.draw + 5) 5).getLsbD 0 else s.tableValid := rfl
@[simp] theorem State.unspecify_srcLen (ws : WriteSet) (s : State) : (s.unspecify ws).srcLen = s.srcLen := rfl
@[simp] theorem State.unspecify_dstLen (ws : WriteSet) (s : State) : (s.unspecify ws).dstLen = if ws.dstLen then Config.unspec 32 (s.draw + 5) 1 else s.dstLen := rfl
@[simp] theorem State.unspecify_arg0 (ws : WriteSet) (s : State) : (s.unspecify ws).arg0 = s.arg0 := rfl
@[simp] theorem State.unspecify_arg1 (ws : WriteSet) (s : State) : (s.unspecify ws).arg1 = s.arg1 := rfl
@[simp] theorem State.unspecify_res0 (ws : WriteSet) (s : State) : (s.unspecify ws).res0 = if ws.res then Config.unspec 32 (s.draw + 5) 3 else s.res0 := rfl
@[simp] theorem State.unspecify_res1 (ws : WriteSet) (s : State) : (s.unspecify ws).res1 = if ws.res then Config.unspec 32 (s.draw + 5) 4 else s.res1 := rfl
@[simp] theorem State.unspecify_bsWbits (ws : WriteSet) (s : State) : (s.unspecify ws).bsWbits = if ws.bsWbits then Config.unspec 32 (s.draw + 5) 0 else s.bsWbits := rfl
@[simp] theorem State.unspecify_bsRpos (ws : WriteSet) (s : State) : (s.unspecify ws).bsRpos = if ws.bsRpos then Config.unspec 32 (s.draw + 5) 2 else s.bsRpos := rfl
@[simp] theorem State.unspecify_ibuf (ws : WriteSet) (s : State) : (s.unspecify ws).ibuf = s.ibuf := rfl
@[simp] theorem State.unspecify_obuf (ws : WriteSet) (s : State) : (s.unspecify ws).obuf = if ws.obuf then Memory.unspecified 8 s.draw else s.obuf := rfl
@[simp] theorem State.unspecify_freq (ws : WriteSet) (s : State) : (s.unspecify ws).freq = if ws.freq then Memory.unspecified 32 (s.draw + 1) else s.freq := rfl
@[simp] theorem State.unspecify_len (ws : WriteSet) (s : State) : (s.unspecify ws).len = if ws.len then Memory.unspecified 8 (s.draw + 2) else s.len := rfl
@[simp] theorem State.unspecify_code (ws : WriteSet) (s : State) : (s.unspecify ws).code = if ws.code then Memory.unspecified 64 (s.draw + 3) else s.code := rfl
@[simp] theorem State.unspecify_arena (ws : WriteSet) (s : State) : (s.unspecify ws).arena = if ws.arena then { draw := s.draw + 4 } else s.arena := rfl
@[simp] theorem State.unspecify_seq (ws : WriteSet) (s : State) : (s.unspecify ws).seq = s.seq := rfl
@[simp] theorem State.unspecify_pending (ws : WriteSet) (s : State) : (s.unspecify ws).pending = s.pending := rfl
@[simp] theorem State.unspecify_resp (ws : WriteSet) (s : State) : (s.unspecify ws).resp = s.resp := rfl
@[simp] theorem State.unspecify_draw (ws : WriteSet) (s : State) : (s.unspecify ws).draw = s.draw + 6 := rfl
@[simp] theorem State.unspecify_latched (ws : WriteSet) (s : State) : (s.unspecify ws).latched = s.latched := rfl
@[simp] theorem State.unspecify_busy (ws : WriteSet) (s : State) : (s.unspecify ws).busy = s.busy := rfl
@[simp] theorem State.unspecify_inputArray (ws : WriteSet) (s : State) : (s.unspecify ws).inputArray = s.inputArray := rfl
@[simp] theorem State.unspecify_n (ws : WriteSet) (s : State) : (s.unspecify ws).n = s.n := rfl
@[simp] theorem State.unspecify_a0 (ws : WriteSet) (s : State) : (s.unspecify ws).a0 = s.a0 := rfl
@[simp] theorem State.unspecify_a1 (ws : WriteSet) (s : State) : (s.unspecify ws).a1 = s.a1 := rfl

/-! ## classB -/

@[simp] theorem State.classB_params (ws : WriteSet) (s : State) : (s.classB ws).params = s.params := rfl
@[simp] theorem State.classB_irqEn (ws : WriteSet) (s : State) : (s.classB ws).irqEn = s.irqEn := rfl
@[simp] theorem State.classB_opcode (ws : WriteSet) (s : State) : (s.classB ws).opcode = s.opcode := rfl
@[simp] theorem State.classB_done (ws : WriteSet) (s : State) : (s.classB ws).done = s.done := rfl
@[simp] theorem State.classB_err (ws : WriteSet) (s : State) : (s.classB ws).err = s.err := rfl
@[simp] theorem State.classB_errcode (ws : WriteSet) (s : State) : (s.classB ws).errcode = s.errcode := rfl
@[simp] theorem State.classB_tableValid (ws : WriteSet) (s : State) : (s.classB ws).tableValid = if ws.len || ws.code then false else (s.unspecify ws).tableValid := rfl
@[simp] theorem State.classB_srcLen (ws : WriteSet) (s : State) : (s.classB ws).srcLen = s.srcLen := rfl
@[simp] theorem State.classB_dstLen (ws : WriteSet) (s : State) : (s.classB ws).dstLen = if ws.obuf then 0#32 else (s.unspecify ws).dstLen := rfl
@[simp] theorem State.classB_arg0 (ws : WriteSet) (s : State) : (s.classB ws).arg0 = s.arg0 := rfl
@[simp] theorem State.classB_arg1 (ws : WriteSet) (s : State) : (s.classB ws).arg1 = s.arg1 := rfl
@[simp] theorem State.classB_res0 (ws : WriteSet) (s : State) : (s.classB ws).res0 = if ws.res then Config.unspec 32 (s.draw + 5) 3 else s.res0 := rfl
@[simp] theorem State.classB_res1 (ws : WriteSet) (s : State) : (s.classB ws).res1 = if ws.res then Config.unspec 32 (s.draw + 5) 4 else s.res1 := rfl
@[simp] theorem State.classB_bsWbits (ws : WriteSet) (s : State) : (s.classB ws).bsWbits = if ws.obuf then 0#32 else (s.unspecify ws).bsWbits := rfl
@[simp] theorem State.classB_bsRpos (ws : WriteSet) (s : State) : (s.classB ws).bsRpos = if ws.bsRpos then Config.unspec 32 (s.draw + 5) 2 else s.bsRpos := rfl
@[simp] theorem State.classB_ibuf (ws : WriteSet) (s : State) : (s.classB ws).ibuf = s.ibuf := rfl
@[simp] theorem State.classB_obuf (ws : WriteSet) (s : State) : (s.classB ws).obuf = if ws.obuf then Memory.unspecified 8 s.draw else s.obuf := rfl
@[simp] theorem State.classB_freq (ws : WriteSet) (s : State) : (s.classB ws).freq = if ws.freq then Memory.unspecified 32 (s.draw + 1) else s.freq := rfl
@[simp] theorem State.classB_len (ws : WriteSet) (s : State) : (s.classB ws).len = if ws.len then Memory.unspecified 8 (s.draw + 2) else s.len := rfl
@[simp] theorem State.classB_code (ws : WriteSet) (s : State) : (s.classB ws).code = if ws.code then Memory.unspecified 64 (s.draw + 3) else s.code := rfl
@[simp] theorem State.classB_arena (ws : WriteSet) (s : State) : (s.classB ws).arena = if ws.arena then { draw := s.draw + 4 } else s.arena := rfl
@[simp] theorem State.classB_seq (ws : WriteSet) (s : State) : (s.classB ws).seq = s.seq := rfl
@[simp] theorem State.classB_pending (ws : WriteSet) (s : State) : (s.classB ws).pending = s.pending := rfl
@[simp] theorem State.classB_resp (ws : WriteSet) (s : State) : (s.classB ws).resp = s.resp := rfl
@[simp] theorem State.classB_draw (ws : WriteSet) (s : State) : (s.classB ws).draw = s.draw + 6 := rfl
@[simp] theorem State.classB_latched (ws : WriteSet) (s : State) : (s.classB ws).latched = s.latched := rfl
@[simp] theorem State.classB_busy (ws : WriteSet) (s : State) : (s.classB ws).busy = s.busy := rfl
@[simp] theorem State.classB_inputArray (ws : WriteSet) (s : State) : (s.classB ws).inputArray = s.inputArray := rfl
@[simp] theorem State.classB_n (ws : WriteSet) (s : State) : (s.classB ws).n = s.n := rfl
@[simp] theorem State.classB_a0 (ws : WriteSet) (s : State) : (s.classB ws).a0 = s.a0 := rfl
@[simp] theorem State.classB_a1 (ws : WriteSet) (s : State) : (s.classB ws).a1 = s.a1 := rfl

/-! ## hardwareReset -/

@[simp] theorem State.hardwareReset_params (s : State) : (s.hardwareReset).params = s.params := rfl
@[simp] theorem State.hardwareReset_irqEn (s : State) : (s.hardwareReset).irqEn = false := rfl
@[simp] theorem State.hardwareReset_opcode (s : State) : (s.hardwareReset).opcode = 0 := rfl
@[simp] theorem State.hardwareReset_done (s : State) : (s.hardwareReset).done = false := rfl
@[simp] theorem State.hardwareReset_err (s : State) : (s.hardwareReset).err = false := rfl
@[simp] theorem State.hardwareReset_errcode (s : State) : (s.hardwareReset).errcode = 0 := rfl
@[simp] theorem State.hardwareReset_tableValid (s : State) : (s.hardwareReset).tableValid = false := rfl
@[simp] theorem State.hardwareReset_srcLen (s : State) : (s.hardwareReset).srcLen = 0 := rfl
@[simp] theorem State.hardwareReset_dstLen (s : State) : (s.hardwareReset).dstLen = 0 := rfl
@[simp] theorem State.hardwareReset_arg0 (s : State) : (s.hardwareReset).arg0 = 0 := rfl
@[simp] theorem State.hardwareReset_arg1 (s : State) : (s.hardwareReset).arg1 = 0 := rfl
@[simp] theorem State.hardwareReset_res0 (s : State) : (s.hardwareReset).res0 = 0 := rfl
@[simp] theorem State.hardwareReset_res1 (s : State) : (s.hardwareReset).res1 = 0 := rfl
@[simp] theorem State.hardwareReset_bsWbits (s : State) : (s.hardwareReset).bsWbits = 0 := rfl
@[simp] theorem State.hardwareReset_bsRpos (s : State) : (s.hardwareReset).bsRpos = 0 := rfl
@[simp] theorem State.hardwareReset_ibuf (s : State) : (s.hardwareReset).ibuf = Memory.unspecified 8 s.draw := rfl
@[simp] theorem State.hardwareReset_obuf (s : State) : (s.hardwareReset).obuf = Memory.unspecified 8 (s.draw + 1) := rfl
@[simp] theorem State.hardwareReset_freq (s : State) : (s.hardwareReset).freq = Memory.unspecified 32 (s.draw + 2) := rfl
@[simp] theorem State.hardwareReset_len (s : State) : (s.hardwareReset).len = Memory.unspecified 8 (s.draw + 3) := rfl
@[simp] theorem State.hardwareReset_code (s : State) : (s.hardwareReset).code = Memory.unspecified 64 (s.draw + 4) := rfl
@[simp] theorem State.hardwareReset_arena (s : State) : (s.hardwareReset).arena = { draw := s.draw + 5 } := rfl
@[simp] theorem State.hardwareReset_seq (s : State) : (s.hardwareReset).seq = .idle := rfl
@[simp] theorem State.hardwareReset_pending (s : State) : (s.hardwareReset).pending = s.pending := rfl
@[simp] theorem State.hardwareReset_resp (s : State) : (s.hardwareReset).resp = s.resp := rfl
@[simp] theorem State.hardwareReset_draw (s : State) : (s.hardwareReset).draw = s.draw + 6 := rfl

end Sys2Proof.Machine
end

