-- ==== Sys2Proof/Laws/Commands.lean ====
section
/-!
SUPPORT. What running a command does, once: `exec` is the command's own rule between the checks and the completion of
40_control.md R142 to R149, the rule either fails or leaves a state of one of ten shapes (`body_ok`), and what each outcome
leaves unchanged.
-/

namespace Sys2Proof.Machine

/-! ## Except -/

theorem except_bind_ok {ε α β : Type} {x : Except ε α} {f : α → Except ε β} {b : β} :
    (x >>= f) = .ok b ↔ ∃ a, x = .ok a ∧ f a = .ok b := by
  cases x with
  | ok a => exact ⟨fun h => ⟨a, rfl, h⟩, fun ⟨_, h, k⟩ => by cases h; exact k⟩
  | error e => exact ⟨fun h => (nomatch h), fun ⟨_, h, _⟩ => nomatch h⟩

theorem except_bind_error {ε α β : Type} {x : Except ε α} {f : α → Except ε β} {e : ε} :
    (x >>= f) = .error e ↔ x = .error e ∨ ∃ a, x = .ok a ∧ f a = .error e := by
  cases x with
  | ok a => exact ⟨fun h => .inr ⟨a, rfl, h⟩, fun | .inl h => nomatch h | .inr ⟨_, h, k⟩ => by cases h; exact k⟩
  | error e' =>
    exact ⟨fun h => .inl (by cases h; rfl), fun | .inl h => by cases h; rfl | .inr ⟨_, h, _⟩ => nomatch h⟩

theorem ofBody_ok {x : Except ErrorCode State} {t : State} : CmdOutcome.ofBody x = .ok t ↔ x = .ok t := by
  cases x <;> simp [CmdOutcome.ofBody]

theorem ofBody_ne_errA {x : Except ErrorCode State} {c : ErrorCode} : CmdOutcome.ofBody x ≠ .errA c := by
  cases x <;> simp [CmdOutcome.ofBody]

theorem ofBody_errB {x : Except ErrorCode State} {c : ErrorCode} : CmdOutcome.ofBody x = .errB c ↔ x = .error c := by
  cases x <;> simp [CmdOutcome.ofBody]

/-! ## exec -/

/-- The command's own rule. -/
def bodyOf : Instr → State → CmdOutcome
  | .hufCompress   => hufCompress
  | .hufDecompress => hufDecompress
  | .rleCompress   => rleCompress
  | .rleDecompress => rleDecompress
  | .lzCompress    => lzCompress
  | .lzDecompress  => lzDecompress
  | .bsReset       => bsReset
  | .bsWrite       => bsWrite
  | .bsFlush       => bsFlush
  | .bsRead        => bsRead
  | .hufCount      => hufCount
  | .hufBuild      => hufBuild
  | .hufCanon      => hufCanon
  | .hufEncode     => hufEncode
  | .hufDecode     => hufDecode
  | .rleScan       => rleScan
  | .rleEmit       => rleEmit
  | .lzMatch       => lzMatch
  | .lzEmit        => lzEmit

theorem exec_eq (i : Instr) (s : State) : exec i s = .next (runCommand i (bodyOf i) s) := by cases i <;> rfl

theorem exec_next {i : Instr} {s t : State} : exec i s = .next t ↔ t = runCommand i (bodyOf i) s := by
  rw [exec_eq]
  exact ⟨fun h => by cases h; rfl, fun h => by rw [h]⟩

theorem runCommand_badLength {i : Instr} {s : State} (body : State → CmdOutcome) (h : readsSrcLen i = true)
    (hn : s.params.ibufBytes < s.n) : runCommand i body s = s.completeError .badLength := by
  simp [runCommand, h, hn, complete]

theorem runCommand_body {i : Instr} {s : State} (body : State → CmdOutcome)
    (h : readsSrcLen i = false ∨ s.n ≤ s.params.ibufBytes) : runCommand i body s = complete i s (body s) := by
  rw [runCommand, if_neg]
  rcases h with h | h
  · simp [h]
  · rintro ⟨-, h'⟩
    omega

/-- The outcome of the checks and the command's own rule. -/
def outcomeOf (i : Instr) (s : State) : CmdOutcome :=
  if readsSrcLen i ∧ s.params.ibufBytes < s.n then .errA .badLength else bodyOf i s

theorem exec_outcome (i : Instr) (s : State) : exec i s = .next (complete i s (outcomeOf i s)) := exec_eq i s

/-! ## What a completed rule leaves -/

/-- The states a command's own rule can leave. -/
inductive Left (s : State) : Instr → State → Prop
  | bsReset : Left s .bsReset (((s.setWriter s.freshWriter).setRpos 0).setDstLen 0)
  | bsWrite (w : Writer) : Left s .bsWrite (s.setWriter w)
  | lzEmit (w : Writer) : Left s .lzEmit (s.setWriter w)
  | bsFlush : Left s .bsFlush ((s.setWriter s.writer.flush).setDstLen (ceil8 s.wpos))
  | bsRead (v r : Nat) : Left s .bsRead ((s.setRpos r).setRes v s.a1)
  | hufCount (xs : List Nat) (a : Nat) : Left s .hufCount ((s.setFreq xs).setRes a 0)
  | hufBuild (xs : List Nat) (a b : Nat) :
      Left s .hufBuild ((((s.setLen xs).setTableValid false).touchArena).setRes a b)
  | hufCanon (a b : Nat) :
      Left s .hufCanon (((s.setCode (canonCodes (tableEntries s.len))).setTableValid true).setRes a b)
  | hufEncode (w : Writer) (a : Nat) : Left s .hufEncode ((s.setWriter w).setRes a 0)
  | rleEmit (w : Writer) (a : Nat) : Left s .rleEmit ((s.setWriter w).setRes a 0)
  | hufDecode (w : Writer) (r a : Nat) : Left s .hufDecode (((s.setWriter w).setRpos r).setRes a 0)
  | rleScan (a b : Nat) : Left s .rleScan (s.setRes a b)
  | lzMatch (a b : Nat) : Left s .lzMatch (s.setRes a b)
  | codec (i : Instr) (w : Writer) (r a b : Nat)
      (h : i = .rleCompress ∨ i = .rleDecompress ∨ i = .lzCompress ∨ i = .lzDecompress) :
      Left s i (((s.setWriter w).setRpos r).setRes a b)
  | huffman (i : Instr) (freq lens : List Nat) (w : Writer) (r a b : Nat) (h : i = .hufCompress ∨ i = .hufDecompress) :
      Left s i ((((((((s.setFreq freq).setLen lens).setCode (canonCodes lens)).setTableValid true).touchArena).setWriter
        w).setRpos r).setRes a b)

theorem body_ok {i : Instr} {s t : State} (h : bodyOf i s = .ok t) : Left s i t := by
  cases i <;> simp only [bodyOf] at h
  case hufCompress =>
    simp only [hufCompress, ofBody_ok, except_bind_ok] at h
    obtain ⟨w₁, -, w₂, -, w₃, -, w₄, -, h⟩ := h
    split at h
    · cases h
    · obtain ⟨w₅, -, h⟩ := except_bind_ok.1 h
      cases h
      exact .huffman _ _ _ _ _ _ _ (.inl rfl)
  case hufDecompress =>
    unfold hufDecompress at h
    extract_lets at h
    split at h; · cases h
    split at h; · cases h
    split at h; · cases h
    split at h; · cases h
    split at h; · cases h
    split at h; · cases h
    split at h; · cases h
    split at h; · cases h
    split at h; · cases h
    split at h; · cases h
    obtain ⟨x, -, h⟩ := except_bind_ok.1 (ofBody_ok.1 h)
    cases h
    exact .huffman _ _ _ _ _ _ _ (.inr rfl)
  case rleCompress =>
    obtain ⟨w, -, h⟩ := except_bind_ok.1 (ofBody_ok.1 h)
    obtain ⟨x, -, h⟩ := except_bind_ok.1 h
    cases h
    exact .codec _ _ _ _ _ (by simp)
  case rleDecompress =>
    simp only [rleDecompress] at h
    split at h; · cases h
    split at h; · cases h
    split at h; · cases h
    split at h; · cases h
    split at h; · cases h
    obtain ⟨x, -, h⟩ := except_bind_ok.1 (ofBody_ok.1 h)
    obtain ⟨y, -, h⟩ := except_bind_ok.1 h
    cases h
    exact .codec _ _ _ _ _ (by simp)
  case lzCompress =>
    obtain ⟨w, -, h⟩ := except_bind_ok.1 (ofBody_ok.1 h)
    obtain ⟨w', -, h⟩ := except_bind_ok.1 h
    obtain ⟨x, -, h⟩ := except_bind_ok.1 h
    cases h
    exact .codec _ _ _ _ _ (by simp)
  case lzDecompress =>
    simp only [lzDecompress] at h
    split at h; · cases h
    split at h; · cases h
    split at h; · cases h
    obtain ⟨x, -, h⟩ := except_bind_ok.1 (ofBody_ok.1 h)
    split at h
    · cases h
    · cases h
      exact .codec _ _ _ _ _ (by simp)
  case bsReset => cases h; exact .bsReset
  case bsWrite =>
    simp only [bsWrite] at h
    split at h; · cases h
    split at h; · cases h
    obtain ⟨w, -, h⟩ := except_bind_ok.1 (ofBody_ok.1 h)
    cases h
    exact .bsWrite _
  case bsFlush => cases h; exact .bsFlush
  case bsRead =>
    simp only [bsRead] at h
    split at h; · cases h
    split at h; · cases h
    obtain ⟨x, -, h⟩ := except_bind_ok.1 (ofBody_ok.1 h)
    cases h
    exact .bsRead _ _
  case hufCount => cases h; exact .hufCount _ _
  case hufBuild =>
    simp only [hufBuild] at h
    split at h; · cases h
    cases h
    exact .hufBuild _ _ _
  case hufCanon =>
    simp only [hufCanon] at h
    split at h; · cases h
    split at h; · cases h
    cases h
    exact .hufCanon _ _
  case hufEncode =>
    simp only [hufEncode] at h
    split at h; · cases h
    split at h; · cases h
    split at h; · cases h
    obtain ⟨w, -, h⟩ := except_bind_ok.1 (ofBody_ok.1 h)
    cases h
    exact .hufEncode _ _
  case hufDecode =>
    simp only [hufDecode] at h
    split at h; · cases h
    obtain ⟨x, -, h⟩ := except_bind_ok.1 (ofBody_ok.1 h)
    cases h
    exact .hufDecode _ _ _
  case rleScan =>
    simp only [rleScan] at h
    split at h; · cases h
    cases h
    exact .rleScan _ _
  case rleEmit =>
    simp only [rleEmit] at h
    split at h; · cases h
    split at h; · cases h
    obtain ⟨x, -, h⟩ := except_bind_ok.1 (ofBody_ok.1 h)
    cases h
    exact .rleEmit _ _
  case lzMatch =>
    simp only [lzMatch] at h
    split at h; · cases h
    cases h
    exact .lzMatch _ _
  case lzEmit =>
    simp only [lzEmit] at h
    split at h; · cases h
    split at h; · cases h
    split at h; · cases h
    obtain ⟨w, -, h⟩ := except_bind_ok.1 (ofBody_ok.1 h)
    cases h
    exact .lzEmit _

/-! ## What stays as it was -/

/-- What every command leaves: the fields of `SameOutside`, and until completion the sequencer and the flags. -/
theorem Left.sameOutside {i : Instr} {s t : State} (h : Left s i t) :
    State.SameOutside (writeSet i) s t ∧ t.err = s.err ∧ t.errcode = s.errcode := by
  cases h
  case codec w r a b h =>
    rcases h with rfl | rfl | rfl | rfl <;> exact ⟨by constructor <;> simp [writeSet], by simp, by simp⟩
  case huffman freq lens w r a b h =>
    rcases h with rfl | rfl <;> exact ⟨by constructor <;> simp [writeSet], by simp, by simp⟩
  all_goals exact ⟨by constructor <;> simp [writeSet, State.freshWriter, State.writer, Writer.flush], by simp, by simp⟩

theorem State.SameOutside.completeError (ws : WriteSet) (s : State) (c : ErrorCode) :
    State.SameOutside ws s (s.completeError c) := by constructor <;> simp

theorem State.SameOutside.classB (i : Instr) (s : State) (c : ErrorCode) :
    State.SameOutside (writeSet i) s ((s.classB (writeSet i)).completeError c) := by
  cases i <;> constructor <;> simp [writeSet, State.classB, State.unspecify]

theorem State.SameOutside.complete {i : Instr} {s t : State} (h : State.SameOutside (writeSet i) s t)
    (hd : (writeSet i).obuf = true → (writeSet i).dstLen = true) :
    State.SameOutside (writeSet i) s (complete i s (.ok t)) := by
  cases ho : (writeSet i).obuf
  · simp only [Machine.complete, ho]
    exact ⟨h.1, h.2, h.3, h.4, h.5, h.6, h.7, h.8, h.9, h.10, h.11, h.12, h.13, h.14, h.15, h.16, h.17, h.18, h.19, h.20⟩
  · simp only [Machine.complete, ho, if_true]
    have hd := hd ho
    exact ⟨h.1, h.2, h.3, h.4, h.5, h.6, h.7, h.8, h.9, h.10, h.11, fun e => absurd (hd.symm.trans e) (by simp), h.13, h.14,
      h.15, h.16, h.17, h.18, h.19, h.20⟩

theorem writeSet_dstLen (i : Instr) (h : (writeSet i).obuf = true) : (writeSet i).dstLen = true := by
  cases i <;> simp_all [writeSet]

/-- A command that ends `Ok`, as a claim sees it. -/
theorem completedOk {i : Instr} {s t : State} (h : Left s i t) : State.CompletedOk i s (complete i s (.ok t)) := by
  obtain ⟨hs, he, hc⟩ := h.sameOutside
  refine ⟨?_, ?_, ?_, ?_, hs.complete (writeSet_dstLen i)⟩ <;>
    · simp only [complete]
      split <;> simp [he, hc]

/-- A command that ends with a class B error, as a claim sees it. -/
theorem failedClassB (i : Instr) (s : State) (c : ErrorCode) :
    State.FailedClassB i c s (complete i s (.errB c)) := by
  refine ⟨?_, ?_, ?_, ?_, .classB i s c, ?_, ?_⟩
  · simp [complete]
  · simp [complete]
  · simp [complete]
  · simp [complete]
  · intro h; simp [complete, State.classB, h]
  · rintro (h | h) <;> simp [complete, State.classB, h]

end Sys2Proof.Machine
end

