-- ==== Sys2Proof/Laws/Errors.lean ====
section
/-!
SUPPORT. Which errors each command can report, class A and class B (60_exceptions.md R300), whatever the state.
-/

namespace Sys2Proof.Machine

/-- `x` reports no error outside `cs`. -/
def Raises {α : Type} (cs : List ErrorCode) (x : Except ErrorCode α) : Prop := ∀ e, x = .error e → e ∈ cs

theorem Raises.ok {α : Type} {cs : List ErrorCode} (a : α) : Raises cs (.ok a : Except ErrorCode α) := fun _ h => nomatch h

theorem Raises.error {α : Type} {cs : List ErrorCode} {c : ErrorCode} (h : c ∈ cs) :
    Raises cs (.error c : Except ErrorCode α) := fun _ h' => by cases h'; exact h

theorem Raises.bind {α β : Type} {cs : List ErrorCode} {x : Except ErrorCode α} {f : α → Except ErrorCode β}
    (hx : Raises cs x) (hf : ∀ a, Raises cs (f a)) : Raises cs (x >>= f) := by
  intro e h
  rcases except_bind_error.1 h with h | ⟨a, -, h⟩
  · exact hx e h
  · exact hf a e h

theorem Raises.ite {α : Type} {cs : List ErrorCode} {p : Prop} [Decidable p] {x y : Except ErrorCode α}
    (hx : Raises cs x) (hy : Raises cs y) : Raises cs (if p then x else y) := by split <;> assumption

theorem Raises.mono {α : Type} {cs ds : List ErrorCode} {x : Except ErrorCode α} (h : Raises cs x) (hs : cs ⊆ ds) :
    Raises ds x := fun e he => hs (h e he)

/-! ## The primitives and the loops -/

theorem raises_writeBits (cap v m : Nat) (w : Writer) : Raises [.outputOverflow] (writeBits cap v m w) := by
  induction m generalizing w with
  | zero => exact .ok _
  | succ m ih => exact .bind (.ite (.error (by simp)) (.ok _)) fun w => ih w

theorem raises_writeCopies (cap v c : Nat) (w : Writer) : Raises [.outputOverflow] (writeCopies cap v c w) := by
  induction c generalizing w with
  | zero => exact .ok _
  | succ c ih => exact .bind (raises_writeBits _ _ _ _) fun w => ih w

theorem raises_readBits (rd : Nat → Byte) (n m r : Nat) : Raises [.truncatedStream] (readBits rd n m r) := by
  suffices ∀ v, Raises [.truncatedStream] (readBitsFrom rd n m v r) from this 0
  induction m generalizing r with
  | zero => exact fun _ => .ok _
  | succ m ih => exact fun v => .bind (.ite (.error (by simp)) (.ok _)) fun x => ih _ _

theorem raises_emitRun (cap : Nat) (b : Byte) (c : Nat) (w : Writer) : Raises [.outputOverflow] (emitRun cap b c w) := by
  suffices ∀ f c m w, Raises [.outputOverflow] (emitRunLoop cap b f c m w) from this _ _ _ _
  intro f
  induction f with
  | zero => exact fun _ _ _ => .ok _
  | succ f ih =>
    exact fun c m w => .ite (.ok _) (.bind (raises_writeBits _ _ _ _) fun w => .bind (raises_writeBits _ _ _ _) fun w => ih _ _ _)

theorem raises_rleCompressLoop (cap : Nat) (rd : Nat → Byte) (n f p m : Nat) (w : Writer) :
    Raises [.outputOverflow] (rleCompressLoop cap rd n f p m w) := by
  induction f generalizing p m w with
  | zero => exact .ok _
  | succ f ih => exact .ite (.bind (raises_emitRun _ _ _ _) fun x => ih _ _ _) (.ok _)

theorem raises_emitLiteral (cap : Nat) (b : Byte) (w : Writer) : Raises [.outputOverflow] (emitLiteral cap b w) :=
  .bind (raises_writeBits _ _ _ _) fun _ => raises_writeBits _ _ _ _

theorem raises_emitMatch (cap d l : Nat) (w : Writer) : Raises [.outputOverflow] (emitMatch cap d l w) :=
  .bind (raises_writeBits _ _ _ _) fun _ => .bind (raises_writeBits _ _ _ _) fun _ => raises_writeBits _ _ _ _

theorem raises_lzCompressLoop (cap : Nat) (rd : Nat → Byte) (n f p : Nat) (k : Tokens) :
    Raises [.outputOverflow] (lzCompressLoop cap rd n f p k) := by
  induction f generalizing p k with
  | zero => exact .ok _
  | succ f ih =>
    exact .ite (.ite (.bind (raises_emitMatch _ _ _ _) fun w => ih _ _) (.bind (raises_emitLiteral _ _ _) fun w => ih _ _)) (.ok _)

theorem raises_copyMatch (cap d l out : Nat) (w : Writer) : Raises [.outputOverflow] (copyMatch cap d l out w) := by
  induction l generalizing out w with
  | zero => exact .ok _
  | succ l ih => exact .bind (raises_writeBits _ _ _ _) fun w => ih _ _

theorem raises_lzReplay (cap : Nat) (rd : Nat → Byte) (n total f r out : Nat) (k : Tokens) :
    Raises [.truncatedStream, .corruptStream, .outputOverflow] (lzReplay cap rd n total f r out k) := by
  induction f generalizing r out k with
  | zero => exact .ok _
  | succ f ih =>
    have hr : ∀ m r, Raises [.truncatedStream, .corruptStream, .outputOverflow] (readBits rd n m r) :=
      fun m r => (raises_readBits rd n m r).mono (by simp)
    refine .ite (.bind (hr _ _) fun x => .ite (.bind (hr _ _) fun y => .bind ((raises_writeBits _ _ _ _).mono (by simp))
      fun w => ih _ _ _) (.ite (.bind (hr _ _) fun y => .bind (hr _ _) fun z => .ite (.error (by simp)) (.ite (.error (by simp))
      (.bind ((raises_copyMatch _ _ _ _ _).mono (by simp)) fun w => ih _ _ _))) (.error (by simp)))) (.ok _)

theorem raises_encodeFrom (cap : Nat) (lens codes : List Nat) (rd : Nat → Byte) (k i : Nat) (w : Writer) :
    Raises [.outputOverflow] (encodeFrom cap lens codes rd k i w) := by
  induction k generalizing i w with
  | zero => exact .ok _
  | succ k ih => exact .bind (raises_writeBits _ _ _ _) fun w => ih _ _

theorem raises_writeEntries (cap : Nat) (ps : List (Nat × Nat)) (w : Writer) :
    Raises [.outputOverflow] (writeEntries cap ps w) := by
  induction ps generalizing w with
  | nil => exact .ok _
  | cons p ps ih => exact .bind (raises_writeBits _ _ _ _) fun w => .bind (raises_writeBits _ _ _ _) fun w => ih w

theorem raises_decodeSymbolFrom (table : List (Nat × Nat × Nat)) (rd : Nat → Byte) (n left code len r : Nat) :
    Raises [.truncatedStream, .corruptStream] (decodeSymbolFrom table rd n left code len r) := by
  induction left generalizing code len r with
  | zero => exact .error (by simp)
  | succ left ih =>
    refine .bind (.ite (.error (by simp)) (.ok _)) fun x => ?_
    dsimp only
    split
    · exact .ok _
    · exact ih _ _ _

theorem raises_decodeLoop (cap : Nat) (table : List (Nat × Nat × Nat)) (maxlen : Nat) (rd : Nat → Byte) (n k r : Nat)
    (w : Writer) : Raises [.truncatedStream, .corruptStream, .outputOverflow] (decodeLoop cap table maxlen rd n k r w) := by
  induction k generalizing r w with
  | zero => exact .ok _
  | succ k ih =>
    exact .bind ((raises_decodeSymbolFrom _ _ _ _ _ _ _).mono (by simp)) fun x =>
      .bind ((raises_writeBits _ _ _ _).mono (by simp)) fun w => ih _ _

theorem raises_hufPayload (cap : Nat) (lens codes : List Nat) (rd : Nat → Byte) (n k total : Nat) (w : Writer) :
    Raises [.truncatedStream, .corruptStream, .outputOverflow] (hufPayload cap lens codes rd n k total w) := by
  refine .ite (.bind ((raises_writeCopies _ _ _ _).mono (by simp)) fun w => .ok _) (.ite ?_ (.ok _))
  exact .bind (raises_decodeLoop _ _ _ _ _ _ _ _) fun x => .ite (.error (by simp)) (.ok _)

theorem raises_rleDecompressLoop (cap : Nat) (rd : Nat → Byte) (n q r : Nat) (w : Writer) :
    Raises [.truncatedStream, .outputOverflow] (rleDecompressLoop cap rd n q r w) := by
  induction q generalizing r w with
  | zero => exact .ok _
  | succ q ih =>
    exact .bind ((raises_readBits _ _ _ _).mono (by simp)) fun x => .bind ((raises_readBits _ _ _ _).mono (by simp)) fun y =>
      .bind ((raises_writeCopies _ _ _ _).mono (by simp)) fun w => ih _ _

/-! ## The commands -/

/-- The class A errors of each command's own rule. -/
def classACodes : Instr → List ErrorCode
  | .hufDecompress => [.corruptHeader, .outputOverflow, .corruptStream]
  | .rleDecompress => [.corruptHeader, .corruptStream, .outputOverflow]
  | .lzDecompress => [.corruptHeader, .outputOverflow]
  | .bsWrite | .rleEmit | .lzEmit => [.badArgument, .outputOverflow]
  | .bsRead => [.badArgument, .truncatedStream]
  | .hufCanon => [.badCodeLengths]
  | .hufEncode => [.noCodeTable, .unencodableSymbol, .outputOverflow]
  | .hufDecode => [.noCodeTable]
  | .rleScan | .lzMatch => [.badArgument]
  | .hufCompress | .rleCompress | .lzCompress | .bsReset | .bsFlush | .hufCount | .hufBuild => []

theorem body_errA {i : Instr} {s : State} {c : ErrorCode} (h : bodyOf i s = .errA c) : c ∈ classACodes i := by
  cases i <;> simp only [bodyOf] at h
  case hufCompress => exact absurd h ofBody_ne_errA
  case hufDecompress =>
    unfold hufDecompress at h
    extract_lets at h
    repeat' split at h
    all_goals first
      | (cases h; done)
      | (cases h; simp [classACodes]; done)
      | exact absurd h ofBody_ne_errA
  case rleCompress => exact absurd h ofBody_ne_errA
  case rleDecompress =>
    unfold rleDecompress at h
    extract_lets at h
    repeat' split at h
    all_goals first
      | (cases h; done)
      | (cases h; simp [classACodes]; done)
      | exact absurd h ofBody_ne_errA
  case lzCompress => exact absurd h ofBody_ne_errA
  case lzDecompress =>
    unfold lzDecompress at h
    extract_lets at h
    split at h; · cases h; simp [classACodes]
    split at h; · cases h; simp [classACodes]
    split at h; · cases h; simp [classACodes]
    exact absurd h ofBody_ne_errA
  case bsReset => cases h
  case bsFlush => cases h
  case hufCount => cases h
  case hufBuild => simp only [hufBuild] at h; split at h <;> cases h
  all_goals
    first
      | (simp only [bsWrite] at h)
      | (simp only [bsRead] at h)
      | (simp only [hufCanon] at h)
      | (simp only [hufEncode] at h)
      | (simp only [hufDecode] at h)
      | (simp only [rleScan] at h)
      | (simp only [rleEmit] at h)
      | (simp only [lzMatch] at h)
      | (simp only [lzEmit] at h)
    repeat' split at h
    all_goals first
      | (cases h; done)
      | (cases h; simp [classACodes]; done)
      | exact absurd h ofBody_ne_errA

/-- The class B errors of each command's own rule, as its pseudocode reads. -/
def classBCodes : Instr → List ErrorCode
  | .hufCompress => [.outputOverflow, .codeTooLong]
  | .rleCompress | .lzCompress | .hufEncode | .bsWrite | .rleEmit | .lzEmit => [.outputOverflow]
  | .hufDecompress => [.truncatedStream, .corruptStream, .outputOverflow, .codeTooLong]
  | .lzDecompress | .hufDecode => [.truncatedStream, .corruptStream, .outputOverflow]
  | .rleDecompress => [.truncatedStream, .outputOverflow]
  | .bsRead => [.truncatedStream]
  | .hufBuild => [.codeTooLong]
  | .bsReset | .bsFlush | .hufCount | .hufCanon | .rleScan | .lzMatch => []

theorem body_errB {i : Instr} {s : State} {c : ErrorCode} (h : bodyOf i s = .errB c) : c ∈ classBCodes i := by
  cases i <;> simp only [bodyOf] at h
  case hufCompress =>
    refine Raises.bind (cs := classBCodes .hufCompress) ((raises_writeBits _ _ _ _).mono (by simp [classBCodes])) (fun w => ?_) c
      (ofBody_errB.1 h)
    refine .bind ((raises_writeBits _ _ _ _).mono (by simp [classBCodes])) fun w => ?_
    refine .bind ((raises_writeBits _ _ _ _).mono (by simp [classBCodes])) fun w => ?_
    refine .bind ((raises_writeEntries _ _ _).mono (by simp [classBCodes])) fun w => ?_
    refine .ite (.error (by simp [classBCodes])) (.bind (.mono (cs := [.outputOverflow]) ?_ (by simp [classBCodes])) fun w => .ok _)
    exact .ite (raises_encodeFrom _ _ _ _ _ _ _) (.ok _)
  case hufDecompress =>
    unfold hufDecompress at h
    extract_lets at h
    repeat' split at h
    all_goals first
      | (cases h; done)
      | (cases h; simp [classBCodes]; done)
      | skip
    exact Raises.bind (cs := classBCodes .hufDecompress) ((raises_hufPayload _ _ _ _ _ _ _ _).mono (by simp [classBCodes]))
      (fun x => .ok _) c (ofBody_errB.1 h)
  case rleCompress =>
    exact Raises.bind (cs := classBCodes .rleCompress) ((raises_writeBits _ _ _ _).mono (by simp [classBCodes]))
      (fun w => .bind ((raises_rleCompressLoop _ _ _ _ _ _ _).mono (by simp [classBCodes])) fun x => .ok _) c (ofBody_errB.1 h)
  case rleDecompress =>
    unfold rleDecompress at h
    extract_lets at h
    repeat' split at h
    all_goals first
      | (cases h; done)
      | skip
    exact Raises.bind (cs := classBCodes .rleDecompress) ((raises_readBits _ _ _ _).mono (by simp [classBCodes]))
      (fun w => .bind ((raises_rleDecompressLoop _ _ _ _ _ _).mono (by simp [classBCodes])) fun x => .ok _) c (ofBody_errB.1 h)
  case lzCompress =>
    exact Raises.bind (cs := classBCodes .lzCompress) ((raises_writeBits _ _ _ _).mono (by simp [classBCodes]))
      (fun w => .bind ((raises_writeBits _ _ _ _).mono (by simp [classBCodes])) fun w =>
        .bind ((raises_lzCompressLoop _ _ _ _ _ _).mono (by simp [classBCodes])) fun x => .ok _) c (ofBody_errB.1 h)
  case lzDecompress =>
    unfold lzDecompress at h
    extract_lets at h
    split at h; · cases h
    split at h; · cases h
    split at h; · cases h
    exact Raises.bind (cs := classBCodes .lzDecompress) ((raises_lzReplay _ _ _ _ _ _ _ _).mono (by simp [classBCodes]))
      (fun x => .ite (.error (by simp [classBCodes])) (.ok _)) c (ofBody_errB.1 h)
  case bsReset => cases h
  case bsFlush => cases h
  case hufCount => cases h
  case hufBuild =>
    simp only [hufBuild] at h
    split at h
    · cases h; simp [classBCodes]
    · cases h
  case hufCanon => simp only [hufCanon] at h; (split at h; · cases h); split at h <;> cases h
  case rleScan => simp only [rleScan] at h; split at h <;> cases h
  case lzMatch => simp only [lzMatch] at h; split at h <;> cases h
  case bsWrite =>
    simp only [bsWrite] at h
    split at h; · cases h
    split at h; · cases h
    exact Raises.bind (cs := classBCodes .bsWrite) (raises_writeBits _ _ _ _) (fun w => .ok _) c (ofBody_errB.1 h)
  case bsRead =>
    simp only [bsRead] at h
    split at h; · cases h
    split at h; · cases h
    exact Raises.bind (cs := classBCodes .bsRead) (raises_readBits _ _ _ _) (fun w => .ok _) c (ofBody_errB.1 h)
  case hufEncode =>
    simp only [hufEncode] at h
    split at h; · cases h
    split at h; · cases h
    split at h; · cases h
    exact Raises.bind (cs := classBCodes .hufEncode) (raises_encodeFrom _ _ _ _ _ _ _) (fun w => .ok _) c (ofBody_errB.1 h)
  case hufDecode =>
    simp only [hufDecode] at h
    split at h; · cases h
    exact Raises.bind (cs := classBCodes .hufDecode) (raises_decodeLoop _ _ _ _ _ _ _ _) (fun w => .ok _) c (ofBody_errB.1 h)
  case rleEmit =>
    simp only [rleEmit] at h
    split at h; · cases h
    split at h; · cases h
    exact Raises.bind (cs := classBCodes .rleEmit) (raises_emitRun _ _ _ _) (fun w => .ok _) c (ofBody_errB.1 h)
  case lzEmit =>
    simp only [lzEmit] at h
    split at h; · cases h
    split at h; · cases h
    split at h; · cases h
    exact Raises.bind (cs := classBCodes .lzEmit) (.ite (raises_emitLiteral _ _ _) (raises_emitMatch _ _ _ _)) (fun w => .ok _) c
      (ofBody_errB.1 h)

end Sys2Proof.Machine
end

