-- ==== Sys2Proof/Laws/Rle.lean ====
section
/-!
SUPPORT. What the RLE loops do: the run scanner finds the maximal run, the run encoder appends the pairs of a run, the
compressor's loop appends the pairs of the maximal runs, the decompressor's loop appends what the pairs stand for
(43_rle.md).
-/

namespace Sys2Proof.Machine

/-! ## The input -/

theorem byteAt_inputArray (s : State) {i : Nat} (h : i < s.n) : byteAt s.inputArray i = s.ibuf.read i := by
  simp [byteAt, State.inputArray, Array.getD_eq_getD_getElem?, h]

@[simp] theorem length_inputBytes (s : State) : s.inputBytes.length = s.n := by simp [State.inputBytes]

/-- The `k` bytes of `rd` from `i` on. -/
def slice (rd : Nat → Byte) (i k : Nat) : List Byte := (List.range k).map fun j => rd (i + j)

@[simp] theorem length_slice (rd : Nat → Byte) (i k : Nat) : (slice rd i k).length = k := by simp [slice]

@[simp] theorem slice_zero (rd : Nat → Byte) (i : Nat) : slice rd i 0 = [] := rfl

theorem slice_succ (rd : Nat → Byte) (i k : Nat) : slice rd i (k + 1) = rd i :: slice rd (i + 1) k := by
  simp only [slice, List.range_succ_eq_map, List.map_cons, List.map_map, Nat.add_zero, List.cons.injEq, true_and]
  exact List.map_congr_left fun j _ => by simp only [Function.comp]; congr 1; omega

theorem slice_add (rd : Nat → Byte) (i j k : Nat) : slice rd i (j + k) = slice rd i j ++ slice rd (i + j) k := by
  induction j generalizing i with
  | zero => simp
  | succ j ih => rw [show j + 1 + k = (j + k) + 1 by omega, slice_succ, slice_succ, ih, List.cons_append,
      show i + 1 + j = i + (j + 1) by omega]

theorem slice_congr {rd rd' : Nat → Byte} {i k : Nat} (h : ∀ j, i ≤ j → j < i + k → rd j = rd' j) :
    slice rd i k = slice rd' i k :=
  List.map_congr_left fun j hj => h _ (by omega) (by rw [List.mem_range] at hj; omega)

theorem slice_input (s : State) : slice (byteAt s.inputArray) 0 s.n = s.inputBytes := by
  refine List.map_congr_left fun j hj => ?_
  rw [Nat.zero_add]
  exact byteAt_inputArray s (by simpa using hj)

theorem getElem?_slice (rd : Nat → Byte) (i k j : Nat) (h : j < k) : (slice rd i k)[j]? = some (rd (i + j)) := by
  simp [slice, h]

theorem getElem_slice (rd : Nat → Byte) (i k j : Nat) (h : j < (slice rd i k).length) : (slice rd i k)[j] = rd (i + j) := by
  simp [slice]

theorem bigEndian_lt (rd : Nat → Byte) (a k : Nat) : bigEndian rd a k < 256 ^ k := by
  induction k with
  | zero => simp [bigEndian]
  | succ k ih => have := (rd (a + k)).isLt; rw [bigEndian, Nat.pow_succ]; omega

theorem bigEndian_congr {rd rd' : Nat → Byte} {a k : Nat} (h : ∀ i, a ≤ i → i < a + k → rd i = rd' i) :
    bigEndian rd a k = bigEndian rd' a k := by
  induction k with
  | zero => rfl
  | succ k ih => rw [bigEndian, bigEndian, ih fun i h₁ h₂ => h i h₁ (by omega), h (a + k) (by omega) (by omega)]

/-- A field of the input, read as a number, is what it was written from. -/
theorem bigEndian_of_slice {rd : Nat → Byte} {a k v : Nat} (h : slice rd a k = beBytes v k) :
    bigEndian rd a k = v % 256 ^ k := by
  induction k generalizing v with
  | zero => simp [bigEndian, Nat.mod_one]
  | succ k ih =>
    rw [slice_add, beBytes] at h
    obtain ⟨h₁, h₂⟩ := List.append_inj h (by simp [length_beBytes])
    simp only [slice_succ, slice_zero, List.cons.injEq, and_true] at h₂
    rw [bigEndian, ih h₁, h₂, BitVec.toNat_ofNat, show 256 ^ (k + 1) = 256 * 256 ^ k by rw [Nat.pow_succ, Nat.mul_comm], Nat.mod_mul]
    omega

/-- The bytes of the input are the number they are read as. -/
theorem slice_bigEndian (rd : Nat → Byte) (a k : Nat) : slice rd a k = beBytes (bigEndian rd a k) k := by
  induction k with
  | zero => rfl
  | succ k ih =>
    have hlt := (rd (a + k)).isLt
    rw [slice_add, ih, beBytes, bigEndian, show (bigEndian rd a k * 256 + (rd (a + k)).toNat) / 256 = bigEndian rd a k by omega]
    congr 1
    simp only [slice_succ, slice_zero, List.cons.injEq, and_true]
    apply BitVec.eq_of_toNat_eq
    rw [BitVec.toNat_ofNat]
    omega

theorem slice_append {rd : Nat → Byte} {a : Nat} {xs ys : List Byte} (h : slice rd a (xs ++ ys).length = xs ++ ys) :
    slice rd a xs.length = xs ∧ slice rd (a + xs.length) ys.length = ys := by
  rw [List.length_append, slice_add] at h
  exact List.append_inj h (by simp)

/-! ## The run scanner -/

theorem sameCount_eq (rd : Nat → Byte) (v : Byte) (q k : Nat) :
    sameCount rd v q k = ((slice rd q k).takeWhile (· = v)).length := by
  induction k generalizing q with
  | zero => rfl
  | succ k ih =>
    rw [slice_succ, sameCount, List.takeWhile_cons]
    by_cases h : rd q = v <;> simp [h, ih]

theorem sameCount_le (rd : Nat → Byte) (v : Byte) (q k : Nat) : sameCount rd v q k ≤ k := by
  induction k generalizing q with
  | zero => exact Nat.le_refl _
  | succ k ih => simp only [sameCount]; have := ih (q + 1); split <;> omega

theorem sameCount_same (rd : Nat → Byte) (v : Byte) (q k : Nat) : ∀ j, j < sameCount rd v q k → rd (q + j) = v := by
  induction k generalizing q with
  | zero => exact fun j hj => absurd hj (Nat.not_lt_zero j)
  | succ k ih =>
    intro j hj
    simp only [sameCount] at hj
    split at hj
    · rename_i h
      cases j with
      | zero => exact h
      | succ j => rw [show q + (j + 1) = q + 1 + j by omega]; exact ih (q + 1) j (by omega)
    · omega

theorem sameCount_stop (rd : Nat → Byte) (v : Byte) (q k : Nat) (h : sameCount rd v q k < k) :
    rd (q + sameCount rd v q k) ≠ v := by
  induction k generalizing q with
  | zero => omega
  | succ k ih =>
    by_cases hv : rd q = v
    · have e : sameCount rd v q (k + 1) = sameCount rd v (q + 1) k + 1 := if_pos hv
      rw [e] at h ⊢
      rw [show q + (sameCount rd v (q + 1) k + 1) = q + 1 + sameCount rd v (q + 1) k by omega]
      exact ih (q + 1) (by omega)
    · rw [show sameCount rd v q (k + 1) = 0 from if_neg hv]
      exact hv

/-- `run(p)` is the maximal run from `p` on (43_rle.md R240). -/
theorem runLength_spec (rd : Nat → Byte) {n p : Nat} (h : p < n) :
    1 ≤ runLength rd n p ∧ runLength rd n p ≤ n - p ∧ (∀ j, j < runLength rd n p → rd (p + j) = rd p) ∧
      (p + runLength rd n p = n ∨ rd (p + runLength rd n p) ≠ rd p) := by
  have hle := sameCount_le rd (rd p) (p + 1) (n - (p + 1))
  refine ⟨by simp [runLength], by simp only [runLength]; omega, ?_, ?_⟩
  · intro j hj
    cases j with
    | zero => rfl
    | succ j =>
      simp only [runLength] at hj
      rw [show p + (j + 1) = p + 1 + j by omega]
      exact sameCount_same rd (rd p) (p + 1) (n - (p + 1)) j (by omega)
  · by_cases he : sameCount rd (rd p) (p + 1) (n - (p + 1)) < n - (p + 1)
    · right
      have := sameCount_stop rd (rd p) (p + 1) (n - (p + 1)) he
      simp only [runLength]
      rwa [show p + (1 + sameCount rd (rd p) (p + 1) (n - (p + 1))) =
        p + 1 + sameCount rd (rd p) (p + 1) (n - (p + 1)) by omega]
    · left
      simp only [runLength]
      omega

/-- The runs of a list that begins with a run. -/
theorem runs_cons (x : Byte) (ys : List Byte) :
    runs (x :: ys) = (x, 1 + (ys.takeWhile (· = x)).length) :: runs (ys.dropWhile (· = x)) := by
  induction ys generalizing x with
  | nil => rfl
  | cons y ys ih =>
    have e : runs (x :: y :: ys) = match runs (y :: ys) with
      | [] => [(x, 1)]
      | (z, c) :: rest => if x = z then (z, c + 1) :: rest else (x, 1) :: (z, c) :: rest := rfl
    rw [e, ih]
    by_cases h : x = y
    · subst h
      simp [Nat.add_comm]
    · have h' : ¬y = x := fun e => h e.symm
      simp only [List.takeWhile_cons, List.dropWhile_cons, h, h', if_false, decide_false, Bool.false_eq_true]
      rw [← ih]
      rfl

theorem slice_dropWhile (rd : Nat → Byte) (v : Byte) (q k : Nat) :
    (slice rd q k).dropWhile (· = v) = slice rd (q + sameCount rd v q k) (k - sameCount rd v q k) := by
  induction k generalizing q with
  | zero => rfl
  | succ k ih =>
    rw [slice_succ, List.dropWhile_cons, sameCount]
    by_cases h : rd q = v
    · simp only [h, if_true, ih, decide_true]
      rw [show q + (sameCount rd v (q + 1) k + 1) = q + 1 + sameCount rd v (q + 1) k by omega,
        show k + 1 - (sameCount rd v (q + 1) k + 1) = k - sameCount rd v (q + 1) k by omega]
    · simp [h, slice_succ]

/-- The runs of the input from `p` on: the run at `p`, then those behind it. -/
theorem runs_slice (rd : Nat → Byte) {n p : Nat} (h : p < n) :
    runs (slice rd p (n - p)) =
      (rd p, runLength rd n p) :: runs (slice rd (p + runLength rd n p) (n - (p + runLength rd n p))) := by
  rw [show n - p = (n - (p + 1)) + 1 by omega, slice_succ, runs_cons, ← sameCount_eq, slice_dropWhile]
  simp only [runLength]
  rw [show p + 1 + sameCount rd (rd p) (p + 1) (n - (p + 1)) = p + (1 + sameCount rd (rd p) (p + 1) (n - (p + 1))) by omega,
    show n - (p + 1) - sameCount rd (rd p) (p + 1) (n - (p + 1)) =
      n - (p + (1 + sameCount rd (rd p) (p + 1) (n - (p + 1)))) by omega]

/-! ## The run encoder -/

@[simp] theorem runPairs_zero (b : Byte) : runPairs b 0 = [] := rfl

theorem runPairs_small (b : Byte) {c : Nat} (h : 0 < c) (h' : c < 255) : runPairs b c = [BitVec.ofNat 8 c, b] := by
  simp [runPairs, Nat.div_eq_of_lt h', Nat.mod_eq_of_lt h', Nat.pos_iff_ne_zero.1 h]

theorem runPairs_full (b : Byte) (c : Nat) : runPairs b (c + 255) = [255#8, b] ++ runPairs b c := by
  simp only [runPairs, Nat.add_mod_right, Nat.add_div_right c (show 0 < 255 by omega), List.replicate_succ, List.flatten_cons,
    List.append_assoc]

theorem length_runPairs (b : Byte) (c : Nat) : (runPairs b c).length = 2 * ((c + 254) / 255) := by
  have h : ((List.replicate (c / 255) [255#8, b]).flatten).length = 2 * (c / 255) := by
    simp [List.length_flatten, Nat.mul_comm]
  simp only [runPairs, List.length_append, h]
  split
  · simp only [List.length_nil]; omega
  · simp only [List.length_cons, List.length_nil]; omega

theorem emits_emitRunLoop (cap : Nat) (b : Byte) (f c m : Nat) (w : Writer) (h : c ≤ f) :
    Emits cap (emitRunLoop cap b f c m w) (bytesBits (runPairs b c)) w fun w' => (m + (c + 254) / 255, w') := by
  induction f generalizing c m w with
  | zero =>
    obtain rfl : c = 0 := by omega
    exact .nil rfl
  | succ f ih =>
    by_cases hc : c = 0
    · subst hc; exact .nil rfl
    · have e : runPairs b c = [BitVec.ofNat 8 (min c 255), b] ++ runPairs b (c - min c 255) := by
        by_cases h255 : c < 255
        · rw [Nat.min_eq_left (by omega), Nat.sub_self, runPairs_zero, List.append_nil, runPairs_small b (by omega) h255]
        · obtain ⟨d, rfl⟩ : ∃ d, c = d + 255 := ⟨c - 255, by omega⟩
          rw [Nat.min_eq_right (by omega), Nat.add_sub_cancel, runPairs_full]
      have hm : (BitVec.ofNat 8 (min c 255)).toNat = min c 255 := by
        rw [BitVec.toNat_ofNat]; exact Nat.mod_eq_of_lt (by omega)
      rw [emitRunLoop, if_neg hc, e, bytesBits_append, bytesBits_cons, bytesBits_cons, hm, bytesBits_nil, List.append_nil,
        List.append_assoc]
      have hn : m + (c + 254) / 255 = m + 1 + (c - min c 255 + 254) / 255 := by omega
      rw [hn]
      exact (emits_writeBits _ _ _ _).bind fun w₁ _ => (emits_writeBits _ _ _ _).bind fun w₂ _ =>
        ih _ _ _ (show c - min c 255 ≤ f by omega)

theorem emits_emitRun (cap : Nat) (b : Byte) (c : Nat) (w : Writer) :
    Emits cap (emitRun cap b c w) (bytesBits (runPairs b c)) w fun w' => ((c + 254) / 255, w') := by
  simpa [emitRun] using emits_emitRunLoop cap b c c 0 w (Nat.le_refl _)

/-- How many pairs runs take. -/
def pairsOf (rs : List (Byte × Nat)) : Nat := (rs.map fun r => (r.2 + 254) / 255).sum

theorem emits_rleCompressLoop (cap : Nat) (rd : Nat → Byte) (n f p m : Nat) (w : Writer) (h : n - p ≤ f) :
    Emits cap (rleCompressLoop cap rd n f p m w)
      (bytesBits ((runs (slice rd p (n - p))).flatMap fun r => runPairs r.1 r.2)) w
      fun w' => (m + pairsOf (runs (slice rd p (n - p))), w') := by
  induction f generalizing p m w with
  | zero =>
    rw [show n - p = 0 by omega]
    exact .nil rfl
  | succ f ih =>
    by_cases hp : p < n
    · have hr := runLength_spec rd hp
      rw [rleCompressLoop, if_pos hp, runs_slice rd hp, List.flatMap_cons, bytesBits_append]
      refine (emits_emitRun _ _ _ _).bind fun w₁ _ => ?_
      have := ih (p + runLength rd n p) (m + (runLength rd n p + 254) / 255) w₁ (by omega)
      simpa [pairsOf, Nat.add_assoc] using this
    · rw [rleCompressLoop, if_neg hp, show n - p = 0 by omega]
      exact .nil rfl

theorem length_pairs (rs : List (Byte × Nat)) :
    (rs.flatMap fun r => runPairs r.1 r.2).length = 2 * pairsOf rs := by
  induction rs with
  | nil => rfl
  | cons r rs ih => simp only [List.flatMap_cons, List.length_append, ih, length_runPairs, pairsOf, List.map_cons,
      List.sum_cons]; omega

/-! ## The decompressor -/

/-- Pairs `i` to `i + q - 1` of the input. -/
def inputPairs (rd : Nat → Byte) (i q : Nat) : List (Byte × Byte) :=
  (List.range q).map fun j => (rd (1 + 2 * (i + j)), rd (2 + 2 * (i + j)))

theorem inputPairs_succ (rd : Nat → Byte) (i q : Nat) :
    inputPairs rd i (q + 1) = (rd (1 + 2 * i), rd (2 + 2 * i)) :: inputPairs rd (i + 1) q := by
  simp only [inputPairs, List.range_succ_eq_map, List.map_cons, List.map_map, Nat.add_zero, List.cons.injEq, true_and]
  exact List.map_congr_left fun j _ => by
    simp only [Function.comp]
    rw [show i + (j + 1) = i + 1 + j by omega]

theorem emits_rleDecompressLoop (cap : Nat) (rd : Nat → Byte) (n q i : Nat) (w : Writer) (h : 1 + 2 * (i + q) ≤ n) :
    Emits cap (rleDecompressLoop cap rd n q (8 * (1 + 2 * i)) w) (bytesBits (expandPairs (inputPairs rd i q))) w
      fun w' => (8 * (1 + 2 * (i + q)), w') := by
  induction q generalizing i w with
  | zero => exact .nil rfl
  | succ q ih =>
    rw [rleDecompressLoop, readBits_byte (by omega), inputPairs_succ, expandPairs, bytesBits_append]
    have e : readBits rd n 8 (8 * (1 + 2 * i + 1)) = .ok ((rd (2 + 2 * i)).toNat, 8 * (1 + 2 * (i + 1))) := by
      rw [readBits_byte (by omega), show 1 + 2 * i + 1 = 2 + 2 * i by omega, show 2 + 2 * i + 1 = 1 + 2 * (i + 1) by omega]
    show Emits cap (readBits rd n 8 (8 * (1 + 2 * i + 1)) >>= _) _ w _
    rw [e]
    have := (emits_writeCopies cap (rd (2 + 2 * i)) (rd (1 + 2 * i)).toNat w).bind
      (f := fun w => rleDecompressLoop cap rd n q (8 * (1 + 2 * (i + 1))) w) fun w' _ => ih (i + 1) w' (by omega)
    rw [show i + 1 + q = i + (q + 1) by omega] at this
    exact this

/-- The bytes behind the tag are the pairs. -/
theorem slice_pairs (rd : Nat → Byte) (i q : Nat) :
    slice rd (1 + 2 * i) (2 * q) = pairBytes (inputPairs rd i q) := by
  induction q generalizing i with
  | zero => rfl
  | succ q ih =>
    rw [show 2 * (q + 1) = 2 * q + 1 + 1 by omega, slice_succ, slice_succ, inputPairs_succ,
      show 1 + 2 * i + 1 + 1 = 1 + 2 * (i + 1) by omega, ih, show 1 + 2 * i + 1 = 2 + 2 * i by omega]
    rfl

theorem pairBytes_injective {ps qs : List (Byte × Byte)} (h : pairBytes ps = pairBytes qs) : ps = qs := by
  induction ps generalizing qs with
  | nil =>
    cases qs with
    | nil => rfl
    | cons q qs => simp [pairBytes] at h
  | cons p ps ih =>
    cases qs with
    | nil => simp [pairBytes] at h
    | cons q qs =>
      simp only [pairBytes, List.flatMap_cons, List.cons_append, List.nil_append, List.cons.injEq] at h
      rw [Prod.ext h.1 h.2.1, ih h.2.2]

theorem length_expandPairs (ps : List (Byte × Byte)) : (expandPairs ps).length = (ps.map fun p => p.1.toNat).sum := by
  induction ps with
  | nil => rfl
  | cons p ps ih => simp [expandPairs, ih]

/-- The pairs of a run expand to the run. -/
theorem expandPairs_runPairs (b : Byte) (c : Nat) :
    ∃ ps, runPairs b c = pairBytes ps ∧ expandPairs ps = List.replicate c b ∧ (∀ p ∈ ps, p.1 ≠ 0) := by
  induction c using Nat.strong_induction_on with
  | _ c ih =>
    by_cases h0 : c = 0
    · exact ⟨[], by subst h0; rfl, by subst h0; rfl, by simp⟩
    · by_cases h255 : c < 255
      · refine ⟨[(BitVec.ofNat 8 c, b)], by rw [runPairs_small b (by omega) h255]; rfl, ?_, ?_⟩
        · simp [expandPairs, Nat.mod_eq_of_lt (show c < 256 by omega)]
        · simp only [List.mem_singleton, forall_eq]
          intro e
          have := congrArg BitVec.toNat e
          rw [BitVec.toNat_ofNat, Nat.mod_eq_of_lt (by omega)] at this
          exact h0 this
      · obtain ⟨d, rfl⟩ : ∃ d, c = d + 255 := ⟨c - 255, by omega⟩
        obtain ⟨ps, h₁, h₂, h₃⟩ := ih d (by omega)
        refine ⟨(255#8, b) :: ps, ?_, ?_, ?_⟩
        · rw [runPairs_full, h₁]; rfl
        · rw [expandPairs, h₂, Nat.add_comm d 255, List.replicate_add]; rfl
        · intro p hp
          rcases List.mem_cons.1 hp with rfl | hp
          · exact (by decide : (255#8 : Byte) ≠ 0)
          · exact h₃ p hp

theorem expandPairs_append (ps qs : List (Byte × Byte)) : expandPairs (ps ++ qs) = expandPairs ps ++ expandPairs qs := by
  induction ps with
  | nil => rfl
  | cons p ps ih => simp [expandPairs, ih]

theorem runs_expand (xs : List Byte) : (runs xs).flatMap (fun r => List.replicate r.2 r.1) = xs := by
  induction xs with
  | nil => rfl
  | cons x xs ih =>
    have e : runs (x :: xs) = match runs xs with
      | [] => [(x, 1)]
      | (z, c) :: rest => if x = z then (z, c + 1) :: rest else (x, 1) :: (z, c) :: rest := rfl
    rw [e]
    revert ih
    cases runs xs with
    | nil => intro ih; simp only [List.flatMap_nil] at ih; subst ih; rfl
    | cons r rs =>
      obtain ⟨z, c⟩ := r
      intro ih
      dsimp only
      split
      · rename_i h
        subst h
        rw [List.flatMap_cons] at ih ⊢
        rw [List.replicate_succ, List.cons_append, ih]
      · rw [List.flatMap_cons, ih]; rfl

/-- The pairs of the runs of a sequence expand to it. -/
theorem expandPairs_runs (xs : List Byte) :
    ∃ ps, (runs xs).flatMap (fun r => runPairs r.1 r.2) = pairBytes ps ∧ expandPairs ps = xs ∧ (∀ p ∈ ps, p.1 ≠ 0) := by
  suffices ∀ rs : List (Byte × Nat), ∃ ps, rs.flatMap (fun r => runPairs r.1 r.2) = pairBytes ps ∧
      expandPairs ps = rs.flatMap (fun r => List.replicate r.2 r.1) ∧ (∀ p ∈ ps, p.1 ≠ 0) by
    obtain ⟨ps, h₁, h₂, h₃⟩ := this (runs xs)
    exact ⟨ps, h₁, h₂.trans (runs_expand xs), h₃⟩
  intro rs
  induction rs with
  | nil => exact ⟨[], rfl, rfl, by simp⟩
  | cons r rs ih =>
    obtain ⟨ps, h₁, h₂, h₃⟩ := expandPairs_runPairs r.1 r.2
    obtain ⟨qs, k₁, k₂, k₃⟩ := ih
    refine ⟨ps ++ qs, ?_, ?_, ?_⟩
    · rw [List.flatMap_cons, h₁, k₁]; simp [pairBytes]
    · rw [expandPairs_append, h₂, k₂, List.flatMap_cons]
    · intro p hp
      rcases List.mem_append.1 hp with hp | hp
      · exact h₃ p hp
      · exact k₃ p hp

end Sys2Proof.Machine
end

