-- ==== Sys2Proof/Laws/Output.lean ====
section
/-!
SUPPORT. From what the writer did to what a claim says of OBUF, BS_WBITS and DST_LEN, and how a command that emits bits
ends.
-/

namespace Sys2Proof.Machine

theorem ceil8_le {cap p : Nat} (h : p ≤ 8 * cap) : ceil8 p ≤ cap := by unfold ceil8; omega

theorem ceil8_mul (a : Nat) : ceil8 (8 * a) = a := by unfold ceil8; omega

theorem toNat_ofNat_of_le {x : Nat} (h : x ≤ 2 ^ 23) : (BitVec.ofNat 32 x).toNat = x := by
  rw [BitVec.toNat_ofNat]
  exact Nat.mod_eq_of_lt (by omega)

theorem appended_of_wrote {s t : State} {bits : List Bool} {w : Writer} (hl : s.params.legal)
    (h : Writer.Wrote s.params.obufBytes bits s.writer w) (ho : t.obuf = w.mem) (hb : t.bsWbits = BitVec.ofNat 32 w.pos)
    (hd : t.dstLen = BitVec.ofNat 32 (ceil8 w.pos)) : State.Appended bits s t := by
  have hf := h.fits
  have hcap : s.params.obufBytes ≤ 2 ^ 20 := hl.2.2.2.1
  have hw : t.wpos = w.pos := by rw [State.wpos, hb, toNat_ofNat_of_le (by omega)]
  have hc := ceil8_le hf
  constructor
  · rw [hw]; exact h.pos
  · rw [hw, hd, toNat_ofNat_of_le (by omega)]
  · rw [ho]; exact h.fresh
  · rw [ho]; exact h.old
  · rw [ho]; exact h.before
  · rw [ho, hw]; exact h.beyond

theorem produced_of_wrote {s t : State} {bs : List Byte} {w : Writer} (hl : s.params.legal)
    (h : Writer.Wrote s.params.obufBytes (bytesBits bs) s.freshWriter w) (ho : t.obuf = w.mem)
    (hb : t.bsWbits = BitVec.ofNat 32 w.pos) (hd : t.dstLen = BitVec.ofNat 32 (ceil8 w.pos)) : State.Produced bs s t := by
  have hf := h.fits
  have hcap : s.params.obufBytes ≤ 2 ^ 20 := hl.2.2.2.1
  have hp : w.pos = 8 * bs.length := by rw [h.pos, length_bytesBits]; exact Nat.zero_add _
  have hlen : t.dstLen.toNat = bs.length := by rw [hd, hp, ceil8_mul, toNat_ofNat_of_le (by omega)]
  refine ⟨hlen, ?_, ?_, ?_⟩
  · rw [State.wpos, hb, toNat_ofNat_of_le (by omega), hp]
  · have := h.bytes (a := 0) rfl
    simp only [Nat.zero_add] at this
    rw [State.outputBytes, hlen, ho, this]
  · intro a ha
    rw [ho, h.beyond a (by rw [hp, ceil8_mul]; exact ha)]
    rfl

theorem fresh_fits (s : State) : s.freshWriter.pos ≤ 8 * s.params.obufBytes := Nat.zero_le _

end Sys2Proof.Machine
end

