-- ==== Sys2Proof/Laws/Writer.lean ====
section
/-!
SUPPORT. Whatever a command appends: it stays inside OBUF, leaves the bytes beyond its cursor alone, keeps the padding bits 0
and the memory in canonical form (41_bitstream.md R171, 40_control.md R150).
-/

namespace Sys2Proof.Machine

/-- From `w` the writer has come to `w'` by appending and flushing, on an OBUF of `cap` bytes. -/
structure Writer.Follows (cap : Nat) (w w' : Writer) : Prop where
  le     : w.pos ≤ w'.pos
  fits   : w'.pos ≤ 8 * cap
  beyond : ∀ a, ceil8 w'.pos ≤ a → w'.mem.read a = w.mem.read a
  clean  : w.Clean → w'.Clean
  wf     : w.mem.wf → w'.mem.wf
  within : w.mem.within cap → w'.mem.within cap

theorem Writer.Wrote.follows {cap : Nat} {bits : List Bool} {w w' : Writer} (h : Writer.Wrote cap bits w w') :
    Writer.Follows cap w w' :=
  ⟨by rw [h.pos]; omega, h.fits, h.beyond, h.clean, h.wf, h.within⟩

theorem Writer.Follows.refl {cap : Nat} {w : Writer} (h : w.pos ≤ 8 * cap) : Writer.Follows cap w w :=
  ⟨Nat.le_refl _, h, fun _ _ => rfl, id, id, id⟩

theorem Writer.Follows.trans {cap : Nat} {u v w : Writer} (h : Writer.Follows cap u v) (k : Writer.Follows cap v w) :
    Writer.Follows cap u w :=
  ⟨h.le.trans k.le, k.fits, fun a ha => by
      have := k.le
      rw [k.beyond a ha, h.beyond a (by unfold ceil8 at *; omega)],
    k.clean ∘ h.clean, k.wf ∘ h.wf, k.within ∘ h.within⟩

theorem Writer.Follows.flush {cap : Nat} {w w' : Writer} (h : Writer.Follows cap w w') : Writer.Follows cap w w'.flush := by
  have hf := h.fits
  refine ⟨?_, ?_, ?_, ?_, h.wf, h.within⟩
  · have := h.le
    simp only [Writer.flush, ceil8]
    omega
  · simp only [Writer.flush, ceil8]
    omega
  · intro a ha
    simp only [Writer.flush, ceil8_mul] at ha
    exact h.beyond a ha
  · intro _ p hp hp'
    simp only [Writer.flush, ceil8_mul] at hp hp'
    omega

/-- Whatever `x` answers, its writer follows `w`. -/
def Appends {α : Type} (cap : Nat) (w : Writer) (x : Except ErrorCode α) (out : α → Writer) : Prop :=
  w.pos ≤ 8 * cap → ∀ a, x = .ok a → Writer.Follows cap w (out a)

theorem Appends.ok {α : Type} {cap : Nat} {w : Writer} {out : α → Writer} {a : α} (h : out a = w) :
    Appends cap w (.ok a) out := fun hw b hb => by cases hb; rw [h]; exact .refl hw

theorem Appends.error {α : Type} {cap : Nat} {w : Writer} {out : α → Writer} {e : ErrorCode} :
    Appends cap w (.error e) out := fun _ _ h => nomatch h

theorem Appends.bind {α β : Type} {cap : Nat} {w : Writer} {x : Except ErrorCode α} {f : α → Except ErrorCode β}
    {out : α → Writer} {out' : β → Writer} (hx : Appends cap w x out) (hf : ∀ a, Appends cap (out a) (f a) out') :
    Appends cap w (x >>= f) out' := by
  intro hw b hb
  obtain ⟨a, ha, hb⟩ := except_bind_ok.1 hb
  have h := hx hw a ha
  exact h.trans (hf a h.fits b hb)

/-- A computation that does not write before one that does. -/
theorem Appends.after {α β : Type} {cap : Nat} {w : Writer} {x : Except ErrorCode α} {f : α → Except ErrorCode β}
    {out : β → Writer} (hf : ∀ a, Appends cap w (f a) out) : Appends cap w (x >>= f) out := by
  intro hw b hb
  obtain ⟨a, -, hb⟩ := except_bind_ok.1 hb
  exact hf a hw b hb

theorem Appends.ite {α : Type} {cap : Nat} {w : Writer} {p : Prop} [Decidable p] {x y : Except ErrorCode α}
    {out : α → Writer} (hx : Appends cap w x out) (hy : Appends cap w y out) : Appends cap w (if p then x else y) out := by
  split <;> assumption

theorem Emits.appends {α : Type} {cap : Nat} {x : Except ErrorCode α} {bits : List Bool} {w : Writer} {k : Writer → α}
    {out : α → Writer} (h : Emits cap x bits w k) (hk : ∀ w, out (k w) = w) : Appends cap w x out := by
  intro hw a ha
  by_cases hl : w.pos + bits.length ≤ 8 * cap
  · obtain ⟨w', e, hw'⟩ := (h hw).1 hl
    rw [ha] at e
    cases e
    rw [hk]
    exact hw'.follows
  · rw [(h hw).2 (by omega)] at ha
    cases ha

theorem appends_writeBits (cap v m : Nat) (w : Writer) : Appends cap w (writeBits cap v m w) id :=
  (emits_writeBits cap v m w).appends fun _ => rfl

theorem appends_writeCopies (cap v c : Nat) (w : Writer) : Appends cap w (writeCopies cap v c w) id := by
  induction c generalizing w with
  | zero => exact .ok rfl
  | succ c ih => exact .bind (appends_writeBits _ _ _ _) fun w => ih w

theorem appends_copyMatch (cap d l out : Nat) (w : Writer) : Appends cap w (copyMatch cap d l out w) id := by
  induction l generalizing out w with
  | zero => exact .ok rfl
  | succ l ih => exact .bind (appends_writeBits _ _ _ _) fun w => ih _ w

theorem appends_emitLiteral (cap : Nat) (b : Byte) (w : Writer) : Appends cap w (emitLiteral cap b w) id :=
  .bind (appends_writeBits _ _ _ _) fun w => appends_writeBits _ _ _ w

theorem appends_emitMatch (cap d l : Nat) (w : Writer) : Appends cap w (emitMatch cap d l w) id :=
  .bind (appends_writeBits _ _ _ _) fun w => .bind (appends_writeBits _ _ _ w) fun w => appends_writeBits _ _ _ w

theorem appends_lzCompressLoop (cap : Nat) (rd : Nat → Byte) (n f p : Nat) (k : Tokens) :
    Appends cap k.out (lzCompressLoop cap rd n f p k) Tokens.out := by
  induction f generalizing p k with
  | zero => exact .ok rfl
  | succ f ih =>
    refine .ite (.ite (.bind (appends_emitMatch _ _ _ _) fun w => ?_) (.bind (appends_emitLiteral _ _ _) fun w => ?_)) (.ok rfl)
    · exact ih _ { k with ms := k.ms + 1, out := w }
    · exact ih _ { k with lits := k.lits + 1, out := w }

theorem appends_lzReplay (cap : Nat) (rd : Nat → Byte) (n total f r out : Nat) (k : Tokens) :
    Appends cap k.out (lzReplay cap rd n total f r out k) fun x => x.2.out := by
  induction f generalizing r out k with
  | zero => exact .ok rfl
  | succ f ih =>
    refine .ite (.after fun x => .ite (.after fun y => .bind (appends_writeBits _ _ _ _) fun w => ?_)
      (.ite (.after fun y => .after fun z => .ite .error (.ite .error (.bind (appends_copyMatch _ _ _ _ _) fun w => ?_)))
      .error)) (.ok rfl)
    · exact ih _ _ { k with lits := k.lits + 1, out := w }
    · exact ih _ _ { k with ms := k.ms + 1, out := w }

theorem appends_encodeFrom (cap : Nat) (lens codes : List Nat) (rd : Nat → Byte) (k i : Nat) (w : Writer) :
    Appends cap w (encodeFrom cap lens codes rd k i w) id := by
  induction k generalizing i w with
  | zero => exact .ok rfl
  | succ k ih => exact .bind (appends_writeBits _ _ _ _) fun w => ih _ w

theorem appends_writeEntries (cap : Nat) (ps : List (Nat × Nat)) (w : Writer) :
    Appends cap w (writeEntries cap ps w) id := by
  induction ps generalizing w with
  | nil => exact .ok rfl
  | cons p ps ih => exact .bind (appends_writeBits _ _ _ _) fun w => .bind (appends_writeBits _ _ _ w) fun w => ih w

theorem appends_decodeLoop (cap : Nat) (table : List (Nat × Nat × Nat)) (maxlen : Nat) (rd : Nat → Byte) (n k r : Nat)
    (w : Writer) : Appends cap w (decodeLoop cap table maxlen rd n k r w) Prod.snd := by
  induction k generalizing r w with
  | zero => exact .ok rfl
  | succ k ih => exact .after fun x => .bind (appends_writeBits _ _ _ _) fun w => ih _ w

theorem appends_hufPayload (cap : Nat) (lens codes : List Nat) (rd : Nat → Byte) (n k total : Nat) (w : Writer) :
    Appends cap w (hufPayload cap lens codes rd n k total w) fun x => x.2.1 := by
  refine .ite (.bind (appends_writeCopies _ _ _ _) fun w => .ok rfl) (.ite ?_ (.ok rfl))
  exact .bind (appends_decodeLoop _ _ _ _ _ _ _ _) fun x => .ite .error (.ok rfl)

theorem appends_emitRun (cap : Nat) (b : Byte) (c : Nat) (w : Writer) : Appends cap w (emitRun cap b c w) Prod.snd :=
  (emits_emitRun cap b c w).appends fun _ => rfl

theorem appends_rleCompressLoop (cap : Nat) (rd : Nat → Byte) (n f p m : Nat) (w : Writer) :
    Appends cap w (rleCompressLoop cap rd n f p m w) Prod.snd := by
  induction f generalizing p m w with
  | zero => exact .ok rfl
  | succ f ih => exact .ite (.bind (appends_emitRun _ _ _ _) fun x => ih _ _ x.2) (.ok rfl)

theorem appends_rleDecompressLoop (cap : Nat) (rd : Nat → Byte) (n q r : Nat) (w : Writer) :
    Appends cap w (rleDecompressLoop cap rd n q r w) Prod.snd := by
  induction q generalizing r w with
  | zero => exact .ok rfl
  | succ q ih => exact .after fun x => .after fun y => .bind (appends_writeCopies _ _ _ _) fun w => ih _ w

/-- Where a successful command leaves the writer. -/
structure LeftWriter (s t : State) : Prop where
  writer : ∃ w', t.obuf = w'.mem ∧ t.bsWbits = BitVec.ofNat 32 w'.pos ∧
    (Writer.Follows s.params.obufBytes s.writer w' ∨ Writer.Follows s.params.obufBytes s.freshWriter w')

theorem leftWriter_of {s t : State} {w : Writer} (ho : t.obuf = w.mem) (hb : t.bsWbits = BitVec.ofNat 32 w.pos)
    (h : Writer.Follows s.params.obufBytes s.writer w) : LeftWriter s t := ⟨w, ho, hb, .inl h⟩

theorem leftWriter_fresh {s t : State} {w : Writer} (ho : t.obuf = w.mem) (hb : t.bsWbits = BitVec.ofNat 32 w.pos)
    (h : Writer.Follows s.params.obufBytes s.freshWriter w) : LeftWriter s t := ⟨w, ho, hb, .inr h⟩

/-- A successful command's writer follows the one it began with, or a fresh one. -/
theorem body_writer {i : Instr} {s t : State} (h : bodyOf i s = .ok t) (hw : s.wpos ≤ 8 * s.params.obufBytes) :
    LeftWriter s t := by
  have hw' : s.writer.pos ≤ 8 * s.params.obufBytes := hw
  have h0 := fresh_fits s
  have same : ∀ {t : State}, t.obuf = s.obuf → t.bsWbits = s.bsWbits → LeftWriter s t := fun ho hb =>
    leftWriter_of (w := s.writer) ho (by rw [hb]; simp [State.writer, State.wpos]) (.refl hw')
  cases i <;> simp only [bodyOf] at h
  case hufCompress =>
    simp only [hufCompress, ofBody_ok, except_bind_ok] at h
    obtain ⟨w₁, h₁, w₂, h₂, w₃, h₃, w₄, h₄, h⟩ := h
    split at h
    · cases h
    · obtain ⟨w₅, h₅, h⟩ := except_bind_ok.1 h
      cases h
      have f₁ := appends_writeBits _ _ _ _ h0 _ h₁
      have f₂ := f₁.trans (appends_writeBits _ _ _ _ f₁.fits _ h₂)
      have f₃ := f₂.trans (appends_writeBits _ _ _ _ f₂.fits _ h₃)
      have f₄ := f₃.trans (appends_writeEntries _ _ _ f₃.fits _ h₄)
      have f₅ := f₄.trans (Appends.ite (appends_encodeFrom _ _ _ _ _ _ _) (.ok rfl) f₄.fits _ h₅)
      exact leftWriter_fresh (by simp) (by simp) f₅.flush
  case hufDecompress =>
    unfold hufDecompress at h
    extract_lets at h
    split at h; · cases h
    split at h; · cases h
    split at h; · cases h
    split at h; · cases h
    split at h; · cases h
    split at h; · cases h
    split at h; · cases h
    split at h; · cases h
    split at h; · cases h
    split at h; · cases h
    obtain ⟨x, hx, h⟩ := except_bind_ok.1 (ofBody_ok.1 h)
    cases h
    exact leftWriter_fresh (by simp) (by simp) (appends_hufPayload _ _ _ _ _ _ _ _ h0 _ hx).flush
  case rleCompress =>
    obtain ⟨w, hw₁, h⟩ := except_bind_ok.1 (ofBody_ok.1 h)
    obtain ⟨x, hx, h⟩ := except_bind_ok.1 h
    cases h
    have f₁ := appends_writeBits _ _ _ _ h0 _ hw₁
    exact leftWriter_fresh (by simp) (by simp) (f₁.trans (appends_rleCompressLoop _ _ _ _ _ _ _ f₁.fits _ hx)).flush
  case rleDecompress =>
    simp only [rleDecompress] at h
    split at h; · cases h
    split at h; · cases h
    split at h; · cases h
    split at h; · cases h
    split at h; · cases h
    obtain ⟨x, -, h⟩ := except_bind_ok.1 (ofBody_ok.1 h)
    obtain ⟨y, hy, h⟩ := except_bind_ok.1 h
    cases h
    exact leftWriter_fresh (by simp) (by simp) (appends_rleDecompressLoop _ _ _ _ _ _ h0 _ hy).flush
  case lzCompress =>
    obtain ⟨w, hw₁, h⟩ := except_bind_ok.1 (ofBody_ok.1 h)
    obtain ⟨w', hw₂, h⟩ := except_bind_ok.1 h
    obtain ⟨x, hx, h⟩ := except_bind_ok.1 h
    cases h
    have f₁ := appends_writeBits _ _ _ _ h0 _ hw₁
    have f₂ := f₁.trans (appends_writeBits _ _ _ _ f₁.fits _ hw₂)
    have f₃ := appends_lzCompressLoop s.params.obufBytes _ _ _ _ { lits := 0, ms := 0, out := w' } f₂.fits _ hx
    exact leftWriter_fresh (by simp) (by simp) (f₂.trans f₃).flush
  case lzDecompress =>
    simp only [lzDecompress] at h
    split at h; · cases h
    split at h; · cases h
    split at h; · cases h
    obtain ⟨x, hx, h⟩ := except_bind_ok.1 (ofBody_ok.1 h)
    split at h
    · cases h
    · cases h
      have f := appends_lzReplay s.params.obufBytes _ _ _ _ _ _ { lits := 0, ms := 0, out := s.freshWriter } h0 _ hx
      exact leftWriter_fresh (by simp) (by simp) f.flush
  case bsReset =>
    cases h
    exact leftWriter_fresh (by simp) (by simp) (.refl h0)
  case bsWrite =>
    simp only [bsWrite] at h
    split at h; · cases h
    split at h; · cases h
    obtain ⟨w, hx, h⟩ := except_bind_ok.1 (ofBody_ok.1 h)
    cases h
    exact leftWriter_of (by simp) (by simp) (appends_writeBits _ _ _ _ hw' _ hx)
  case bsFlush =>
    cases h
    exact leftWriter_of (by simp) (by simp) (Writer.Follows.refl hw').flush
  case bsRead =>
    simp only [bsRead] at h
    split at h; · cases h
    split at h; · cases h
    obtain ⟨x, -, h⟩ := except_bind_ok.1 (ofBody_ok.1 h)
    cases h
    exact same (by simp) (by simp)
  case hufCount => cases h; exact same (by simp) (by simp)
  case hufBuild =>
    simp only [hufBuild] at h
    split at h; · cases h
    cases h
    exact same (by simp) (by simp)
  case hufCanon =>
    simp only [hufCanon] at h
    split at h; · cases h
    split at h; · cases h
    cases h
    exact same (by simp) (by simp)
  case hufEncode =>
    simp only [hufEncode] at h
    split at h; · cases h
    split at h; · cases h
    split at h; · cases h
    obtain ⟨w, hx, h⟩ := except_bind_ok.1 (ofBody_ok.1 h)
    cases h
    exact leftWriter_of (by simp) (by simp) (appends_encodeFrom _ _ _ _ _ _ _ hw' _ hx)
  case hufDecode =>
    simp only [hufDecode] at h
    split at h; · cases h
    obtain ⟨x, hx, h⟩ := except_bind_ok.1 (ofBody_ok.1 h)
    cases h
    exact leftWriter_of (by simp) (by simp) (appends_decodeLoop _ _ _ _ _ _ _ _ hw' _ hx)
  case rleScan =>
    simp only [rleScan] at h
    split at h; · cases h
    cases h
    exact same (by simp) (by simp)
  case rleEmit =>
    simp only [rleEmit] at h
    split at h; · cases h
    split at h; · cases h
    obtain ⟨x, hx, h⟩ := except_bind_ok.1 (ofBody_ok.1 h)
    cases h
    exact leftWriter_of (by simp) (by simp) (appends_emitRun _ _ _ _ hw' _ hx)
  case lzMatch =>
    simp only [lzMatch] at h
    split at h; · cases h
    cases h
    exact same (by simp) (by simp)
  case lzEmit =>
    simp only [lzEmit] at h
    split at h; · cases h
    split at h; · cases h
    split at h; · cases h
    obtain ⟨w, hx, h⟩ := except_bind_ok.1 (ofBody_ok.1 h)
    cases h
    exact leftWriter_of (by simp) (by simp)
      (Appends.ite (appends_emitLiteral _ _ _) (appends_emitMatch _ _ _ _) hw' _ hx)

end Sys2Proof.Machine
end

