-- ==== Sys2Proof/Laws/Bus.lean ====
section
/-!
SUPPORT. The host port and the step: where an address leads, everything a write can do, everything a step can do
(20_memory.md R72 to R83, 40_control.md R141, 60_exceptions.md R307).
-/

namespace Sys2Proof.Machine

/-! ## The address map -/

/-- The location is one of the block: its index is inside its table or buffer. -/
def Location.Inside (p : Params) : Location → Prop
  | .reg _ => True
  | .freq i | .len i | .codeHi i | .codeLo i => i < 256
  | .ibufByte a => a < p.ibufBytes
  | .ibufWord a => a % 4 = 0 ∧ a + 4 ≤ p.ibufBytes
  | .obufByte a => a < p.obufBytes
  | .obufWord a => a % 4 = 0 ∧ a + 4 ≤ p.obufBytes

theorem wordLocation_inside {p : Params} {off : Nat} {loc : Location} (h : wordLocation off = some loc) : loc.Inside p := by
  unfold wordLocation at h
  split at h
  · obtain ⟨r, -, rfl⟩ := Option.map_eq_some_iff.1 h
    exact trivial
  · split at h
    · cases h; simp only [Location.Inside]; omega
    · split at h
      · cases h; simp only [Location.Inside]; omega
      · split at h
        · split at h <;> (cases h; simp only [Location.Inside]; omega)
        · cases h

theorem locate_inside {p : Params} {addr n : Nat} {loc : Location} (h : locate p addr n = some loc) : loc.Inside p := by
  unfold locate at h
  split at h
  · cases h
  · dsimp only at h
    split at h
    · split at h
      · exact wordLocation_inside h
      · cases h
    · unfold bufferLocation at h
      repeat' split at h
      all_goals first
        | (cases h; done)
        | (cases h; simp only [Location.Inside]; omega)

theorem locate_word {p : Params} {off : Nat} (h : off < 0x100000) (h4 : off % 4 = 0) :
    locate p (p.coreBase + off) 4 = wordLocation off := by
  simp [locate, h, h4]

theorem locate_reg (p : Params) (r : Reg) : locate p (p.coreBase + r.offset) 4 = some (.reg r) := by
  rw [locate_word (by cases r <;> decide) (by cases r <;> decide)]
  cases r <;> decide

theorem locate_freq (p : Params) {s : Nat} (h : s < 256) : locate p (p.coreBase + 0x400 + 4 * s) 4 = some (.freq s) := by
  rw [Nat.add_assoc, locate_word (by omega) (by omega), wordLocation, if_neg (by omega), if_pos (by omega)]
  congr 2
  omega

theorem locate_len (p : Params) {s : Nat} (h : s < 256) : locate p (p.coreBase + 0x800 + 4 * s) 4 = some (.len s) := by
  rw [Nat.add_assoc, locate_word (by omega) (by omega), wordLocation, if_neg (by omega), if_neg (by omega), if_pos (by omega)]
  congr 2
  omega

theorem locate_ibufByte {p : Params} (hl : p.legal) {a : Nat} (h : a < p.ibufBytes) :
    locate p (p.coreBase + 0x100000 + a) 1 = some (.ibufByte a) := by
  have := hl.2.1
  rw [Nat.add_assoc, locate, if_neg (by omega)]
  simp only [Nat.add_sub_cancel_left]
  rw [if_neg (by omega), if_pos (by omega), bufferLocation, if_pos (by omega)]

theorem locate_ibufWord {p : Params} (hl : p.legal) {a : Nat} (h : a + 4 ≤ p.ibufBytes) (h4 : a % 4 = 0) :
    locate p (p.coreBase + 0x100000 + a) 4 = some (.ibufWord a) := by
  have := hl.2.1
  rw [Nat.add_assoc, locate, if_neg (by omega)]
  simp only [Nat.add_sub_cancel_left]
  rw [if_neg (by omega), if_pos (by omega), bufferLocation, if_neg (by omega), if_pos (by omega)]

theorem locate_obufByte {p : Params} (hl : p.legal) {a : Nat} (h : a < p.obufBytes) :
    locate p (p.coreBase + 0x200000 + a) 1 = some (.obufByte a) := by
  have := hl.2.1
  have := hl.2.2.2.1
  rw [Nat.add_assoc, locate, if_neg (by omega)]
  simp only [Nat.add_sub_cancel_left]
  rw [if_neg (by omega), if_neg (by omega), if_pos (by omega), bufferLocation, if_pos (by omega)]

theorem locate_obufWord {p : Params} (hl : p.legal) {a : Nat} (h : a + 4 ≤ p.obufBytes) (h4 : a % 4 = 0) :
    locate p (p.coreBase + 0x200000 + a) 4 = some (.obufWord a) := by
  have := hl.2.1
  have := hl.2.2.2.1
  rw [Nat.add_assoc, locate, if_neg (by omega)]
  simp only [Nat.add_sub_cancel_left]
  rw [if_neg (by omega), if_neg (by omega), if_pos (by omega), bufferLocation, if_neg (by omega), if_pos (by omega)]

theorem locate_codeHi (p : Params) {s : Nat} (h : s < 256) :
    locate p (p.coreBase + (0x1000 + 8 * s)) 4 = some (.codeHi s) := by
  rw [locate_word (by omega) (by omega), wordLocation, if_neg (by omega), if_neg (by omega), if_neg (by omega),
    if_pos (by omega), if_pos (by omega)]
  congr 2
  omega

theorem locate_codeLo (p : Params) {s : Nat} (h : s < 256) :
    locate p (p.coreBase + (0x1004 + 8 * s)) 4 = some (.codeLo s) := by
  rw [locate_word (by omega) (by omega), wordLocation, if_neg (by omega), if_neg (by omega), if_neg (by omega),
    if_pos (by omega), if_neg (by omega)]
  congr 2
  omega

/-- A word read of a buffer is its four bytes, the first on top (20_memory.md R81). -/
theorem readWord_eq_append (m : Memory 8) (a : Nat) :
    readWord m a = m.read a ++ m.read (a + 1) ++ m.read (a + 2) ++ m.read (a + 3) := by
  have : ∀ a b c d : BitVec 8, (a.setWidth 32 <<< 24) ||| (b.setWidth 32 <<< 16) ||| (c.setWidth 32 <<< 8) ||| d.setWidth 32 =
      a ++ b ++ c ++ d := by
    intro a b c d
    ext i hi
    simp [BitVec.getElem_setWidth]
    grind
  exact this _ _ _ _

theorem memWrite_idle {s : State} {addr n : Nat} {v : Word} {loc : Location} (hb : s.busy = false)
    (h : locate s.params addr n = some loc) : memWrite s addr n v = .ok (writeLocation s v loc) := by
  simp [memWrite, h, hb]

theorem memRead_idle {s : State} {addr n : Nat} {loc : Location} (hb : s.busy = false)
    (h : locate s.params addr n = some loc) : memRead s addr n = .ok (readLocation s loc) := by
  simp [memRead, h, hb]

/-! ## Everything a write can do -/

/-- The states a host write can give. -/
inductive Written (s : State) : State → Prop
  | softReset : Written s s.softReset
  | start (v : Word) (h : s.busy = false) : Written s (s.start v)
  | irqEn (b : Bool) (h : s.busy = false) : Written s { s with irqEn := b }
  | opcode (o : BitVec 8) (h : s.busy = false) : Written s { s with opcode := o }
  | acknowledge (v : Word) (h : s.busy = false) : Written s (s.acknowledge v)
  | srcLen (v : Word) (h : s.busy = false) : Written s { s with srcLen := v }
  | arg0 (v : Word) (h : s.busy = false) : Written s { s with arg0 := v }
  | arg1 (v : Word) (h : s.busy = false) : Written s { s with arg1 := v }
  | bsRpos (v : Word) (h : s.busy = false) : Written s { s with bsRpos := v }
  | ignored (h : s.busy = false) : Written s s
  | freq (i : Nat) (v : Word) (h : s.busy = false) (hi : i < 256) : Written s { s with freq := s.freq.write i v }
  | len (i : Nat) (b : Byte) (h : s.busy = false) (hi : i < 256) :
      Written s { s with len := s.len.write i b, tableValid := false }
  | ibuf (m : Memory 8) (h : s.busy = false) (hw : s.ibuf.wf → m.wf)
      (hs : s.ibuf.within s.params.ibufBytes → m.within s.params.ibufBytes) : Written s { s with ibuf := m }

theorem memWrite_written {s t : State} {addr n : Nat} {v : Word} (h : memWrite s addr n v = .ok t) : Written s t := by
  unfold memWrite at h
  split at h
  · cases h
  · rename_i loc hloc
    have hin := locate_inside hloc
    split at h
    · split at h
      · cases h; exact .softReset
      · cases h
    · rename_i hb
      have hb : s.busy = false := by simpa using hb
      cases h
      cases loc with
      | reg r =>
        cases r
        case ctrl =>
          simp only [writeLocation, writeReg, State.writeCtrl]
          split
          · exact .softReset
          · split
            · exact .start _ hb
            · exact .irqEn _ hb
        case cmd => exact .opcode _ hb
        case status => exact .acknowledge _ hb
        case srcLen => exact .srcLen _ hb
        case arg0 => exact .arg0 _ hb
        case arg1 => exact .arg1 _ hb
        case bsRpos => exact .bsRpos _ hb
        all_goals exact .ignored hb
      | freq i => exact .freq _ _ hb hin
      | len i => exact .len _ _ hb hin
      | codeHi i => exact .ignored hb
      | codeLo i => exact .ignored hb
      | ibufByte a => exact .ibuf _ hb (fun h => Memory.wf_write h _ _) (fun h => Memory.within_write h hin _)
      | ibufWord a =>
        have := hin.2
        refine .ibuf _ hb (fun h => ?_) (fun h => ?_)
        · exact Memory.wf_write (Memory.wf_write (Memory.wf_write (Memory.wf_write h _ _) _ _) _ _) _ _
        · exact Memory.within_write (Memory.within_write (Memory.within_write (Memory.within_write h (by omega) _) (by omega) _)
            (by omega) _) (by omega) _
      | obufByte a => exact .ignored hb
      | obufWord a => exact .ignored hb

/-! ## Everything a step can do -/

/-- The states a step can give, from the state `s` whose event has been taken. -/
inductive Stepped (s : State) : State → Prop
  | read (r : Response) : Stepped s { s with resp := r, draw := s.draw + 1 }
  | written (t : State) (h : Written s t) : Stepped s { t with resp := .okay }
  | busError (f : Fault) : Stepped s { s with resp := .fault f }
  | waiting (h : s.seq = .idle) : Stepped s s
  | command (l : Latch) (i : Instr) (hl : s.seq = .busy l) (hd : decodeOpcode l.op = .ok i) :
      Stepped s (complete i s (outcomeOf i s))
  | illegal (l : Latch) (e : DecodeError) (hl : s.seq = .busy l) (hd : decodeOpcode l.op = .error e) :
      Stepped s (illegalCommand s)
  | hardwareReset : Stepped s s.hardwareReset

theorem stepped_sequencerTurn {s t : State} (h : s.sequencerTurn = .next t) : Stepped s t := by
  unfold State.sequencerTurn at h
  split at h
  · rename_i hs; cases h; exact .waiting hs
  · rename_i l hl
    split at h
    · rename_i i hi
      rw [exec_outcome] at h
      cases h
      exact .command l i hl hi
    · rename_i e he
      cases h
      exact .illegal l e hl he

/-- A step takes the oldest event, if there is one, and gives one of these states. -/
theorem step_cases {s t : State} (h : step s = .next t) :
    (s.pending = [] ∧ Stepped s t) ∨ ∃ e rest, s.pending = e :: rest ∧ Stepped { s with pending := rest } t := by
  unfold step at h
  split at h
  · rename_i hp; exact .inl ⟨hp, stepped_sequencerTurn h⟩
  · rename_i e rest hp
    refine .inr ⟨e, rest, hp, ?_⟩
    cases e with
    | read addr n => cases h; exact .read _
    | write addr n v =>
      cases h
      unfold serveWrite
      split
      · rename_i t ht; exact .written t (memWrite_written ht)
      · exact .busError _
    | execute => exact stepped_sequencerTurn h
    | hardwareReset => cases h; exact .hardwareReset

end Sys2Proof.Machine
end

