-- ==== Sys2Proof/Laws/Tree.lean ====
section
/-!
SUPPORT. What the tree builder does: `extractLeast` takes a least element out of the queue, `mergeLoop` leaves one tree over
all the symbols, and the code lengths are 0 exactly for absent symbols, form a complete code and never exceed 57
(42_huffman.md R195 to R197).
-/

namespace Sys2Proof.Machine

/-! ## Trees -/

/-- The symbols below a node. -/
def HTree.syms : HTree → List Nat
  | .leaf s _ _   => [s]
  | .node l r _ _ => l.syms ++ r.syms

/-- The edges on the longest way down. -/
def HTree.height : HTree → Nat
  | .leaf _ _ _   => 0
  | .node l r _ _ => max l.height r.height + 1

/-- The weight of the heavier child. -/
def HTree.heavier : HTree → Nat
  | .leaf _ _ _   => 0
  | .node l r _ _ => max l.weight r.weight

theorem HTree.depths_syms (t : HTree) (d : Nat) : (t.depths d).map Prod.fst = t.syms := by
  induction t generalizing d with
  | leaf s w o => rfl
  | node l r w o ihl ihr => simp [HTree.depths, HTree.syms, ihl, ihr]

theorem HTree.height_lt_syms (t : HTree) : t.height < t.syms.length := by
  induction t with
  | leaf s w o => exact Nat.zero_lt_one
  | node l r w o ihl ihr => simp only [HTree.height, HTree.syms, List.length_append]; omega

theorem HTree.depth_le (t : HTree) (d : Nat) : ∀ p ∈ t.depths d, d ≤ p.2 ∧ p.2 ≤ d + t.height := by
  induction t generalizing d with
  | leaf s w o => intro p hp; simp only [HTree.depths, List.mem_singleton] at hp; subst hp; simp
  | node l r w o ihl ihr =>
    intro p hp
    simp only [HTree.depths, List.mem_append] at hp
    simp only [HTree.height]
    rcases hp with hp | hp
    · have := ihl (d + 1) p hp; omega
    · have := ihr (d + 1) p hp; omega

/-- The Kraft equality below a node `d` edges from the root. -/
theorem HTree.kraft (t : HTree) (d N : Nat) (h : d + t.height ≤ N) :
    ((t.depths d).map fun p => 2 ^ (N - p.2)).sum = 2 ^ (N - d) := by
  induction t generalizing d with
  | leaf s w o => simp [HTree.depths]
  | node l r w o ihl ihr =>
    simp only [HTree.height] at h
    rw [HTree.depths, List.map_append, List.sum_append, ihl (d + 1) (by omega), ihr (d + 1) (by omega),
      show N - d = (N - (d + 1)) + 1 by omega, Nat.pow_succ]
    omega

/-- A tree as the merge loop grows it: weights add up, are at least 1, and a node is no lighter than the heavier child of its
sibling. -/
inductive HTree.Grown : HTree → Prop
  | leaf (s w o : Nat) (h : 1 ≤ w) : Grown (.leaf s w o)
  | node (l r : HTree) (w o : Nat) (hl : Grown l) (hr : Grown r) (hw : w = l.weight + r.weight)
      (hlr : l.heavier ≤ r.weight) (hrl : r.heavier ≤ l.weight) : Grown (.node l r w o)

theorem HTree.Grown.pos {t : HTree} (h : t.Grown) : 1 ≤ t.weight := by
  induction h with
  | leaf s w o h => exact h
  | node l r w o hl hr hw hlr hrl ihl ihr => simp only [HTree.weight]; omega

/-- A tree of height `h` weighs at least as much as the Fibonacci number `h + 2` (42_huffman.md R197). -/
theorem HTree.Grown.fib_le {t : HTree} (h : t.Grown) :
    Nat.fib (t.height + 2) ≤ t.weight ∧ (0 < t.height → Nat.fib (t.height + 1) ≤ t.heavier) := by
  induction h with
  | leaf s w o h => exact ⟨h, fun h => absurd h (Nat.lt_irrefl 0)⟩
  | node l r w o hl hr hw hlr hrl ihl ihr =>
    have key : ∀ a b : HTree, a.Grown → b.Grown → Nat.fib (a.height + 2) ≤ a.weight →
        (0 < a.height → Nat.fib (a.height + 1) ≤ a.heavier) → a.heavier ≤ b.weight →
        Nat.fib (a.height + 3) ≤ a.weight + b.weight := by
      intro a b ha hb h₁ h₂ h₃
      have e : Nat.fib (a.height + 3) = Nat.fib (a.height + 1) + Nat.fib (a.height + 2) := Nat.fib_add_two
      by_cases h0 : 0 < a.height
      · have := h₂ h0; omega
      · rw [show a.height = 0 by omega] at h₁ ⊢
        have := hb.pos
        have : Nat.fib 3 = 2 := rfl
        have : Nat.fib 2 = 1 := rfl
        simp only [Nat.zero_add] at *
        omega
    have hww : (HTree.node l r w o).weight = l.weight + r.weight := hw
    rw [hww]
    simp only [HTree.height, HTree.heavier]
    rcases Nat.le_total l.height r.height with hle | hle
    · rw [Nat.max_eq_right hle]
      refine ⟨?_, fun _ => ihr.1.trans (Nat.le_max_right _ _)⟩
      have := key r l hr hl ihr.1 ihr.2 hrl
      rw [show r.height + 1 + 2 = r.height + 3 by omega]
      omega
    · rw [Nat.max_eq_left hle]
      refine ⟨?_, fun _ => ihl.1.trans (Nat.le_max_left _ _)⟩
      have := key l r hl hr ihl.1 ihl.2 hlr
      rw [show l.height + 1 + 2 = l.height + 3 by omega]
      omega

/-! ## The queue -/

/-- `extractLeast` takes one element out, no heavier than any that stay. -/
theorem extractLeast_spec (t : HTree) (ts : List HTree) :
    ((extractLeast t ts).1 :: (extractLeast t ts).2).Perm (t :: ts) ∧
      ∀ u ∈ (extractLeast t ts).2, (extractLeast t ts).1.weight ≤ u.weight := by
  induction ts generalizing t with
  | nil => exact ⟨.refl _, fun u hu => nomatch hu⟩
  | cons v vs ih =>
    simp only [extractLeast]
    have hmin : ∀ x : HTree, (extractLeast x vs).1.weight ≤ x.weight := by
      intro x
      obtain ⟨hp, hm⟩ := ih x
      have : x ∈ (extractLeast x vs).1 :: (extractLeast x vs).2 := hp.mem_iff.2 List.mem_cons_self
      rcases List.mem_cons.1 this with h | h
      · exact Nat.le_of_eq (congrArg HTree.weight h).symm
      · exact hm x h
    split
    · rename_i hb
      have hvt : v.weight ≤ t.weight := by simp [HTree.before] at hb; omega
      obtain ⟨hp, hm⟩ := ih v
      refine ⟨(List.Perm.swap _ _ _).trans (hp.cons t), fun u hu => ?_⟩
      rcases List.mem_cons.1 hu with rfl | hu
      · exact (hmin v).trans hvt
      · exact hm u hu
    · rename_i hb
      have htv : t.weight ≤ v.weight := by simp [HTree.before] at hb; omega
      obtain ⟨hp, hm⟩ := ih t
      refine ⟨(List.Perm.swap _ _ _).trans ((hp.cons v).trans (List.Perm.swap _ _ _)), fun u hu => ?_⟩
      rcases List.mem_cons.1 hu with rfl | hu
      · exact (hmin t).trans htv
      · exact hm u hu

/-- Two trees of the queue: each is no lighter than the heavier child of the other. -/
abbrev HTree.Fair (a b : HTree) : Prop := a.heavier ≤ b.weight ∧ b.heavier ≤ a.weight

theorem HTree.Fair.symm {a b : HTree} (h : a.Fair b) : b.Fair a := ⟨h.2, h.1⟩

/-- A queue as the merge loop keeps it. -/
structure QueueOk (ts : List HTree) : Prop where
  grown : ∀ t ∈ ts, t.Grown
  fair  : ts.Pairwise HTree.Fair

theorem QueueOk.perm {ts us : List HTree} (h : QueueOk ts) (p : ts.Perm us) : QueueOk us :=
  ⟨fun t ht => h.grown t (p.mem_iff.2 ht), (p.pairwise_iff fun h => HTree.Fair.symm h).1 h.fair⟩

/-- The merge loop leaves one grown tree over all the symbols and the whole weight. -/
theorem mergeLoop_spec (fuel next : Nat) (t : HTree) (ts : List HTree) (hf : ts.length ≤ fuel) (h : QueueOk (t :: ts)) :
    (mergeLoop fuel next t ts).Grown ∧ (mergeLoop fuel next t ts).weight = ((t :: ts).map HTree.weight).sum ∧
      (mergeLoop fuel next t ts).syms.Perm ((t :: ts).flatMap HTree.syms) := by
  induction fuel generalizing next t ts with
  | zero =>
    obtain rfl : ts = [] := List.length_eq_zero_iff.1 (by omega)
    exact ⟨h.grown t List.mem_cons_self, by simp [mergeLoop], by simp [mergeLoop]⟩
  | succ fuel ih =>
    rw [mergeLoop]
    obtain ⟨hp, hm⟩ := extractLeast_spec t ts
    generalize extractLeast t ts = x at hp hm
    obtain ⟨a, us⟩ := x
    have ha := h.perm hp.symm
    cases us with
    | nil =>
      have hs := (hp.map HTree.weight).sum_eq
      exact ⟨ha.grown a List.mem_cons_self, by simpa using hs, by simpa using hp.flatMap_right HTree.syms⟩
    | cons u us =>
      dsimp only at hp hm ha ⊢
      obtain ⟨hq, hn⟩ := extractLeast_spec u us
      generalize extractLeast u us = y at hq hn
      obtain ⟨b, rest⟩ := y
      dsimp only at hq hn ⊢
      have hpq := (hq.cons a).trans hp
      have hb := h.perm hpq.symm
      have hlen := hpq.length_eq
      simp only [List.length_cons] at hlen
      have fa := List.pairwise_cons.1 hb.fair
      have fb := List.pairwise_cons.1 fa.2
      have fab := fa.1 b List.mem_cons_self
      have hab : a.weight ≤ b.weight := hm b (hq.mem_iff.1 List.mem_cons_self)
      have hok : QueueOk (.node a b (a.weight + b.weight) next :: rest) := by
        refine ⟨fun v hv => ?_, List.pairwise_cons.2 ⟨fun v hv => ?_, fb.2⟩⟩
        · rcases List.mem_cons.1 hv with rfl | hv
          · exact .node _ _ _ _ (hb.grown a List.mem_cons_self) (hb.grown b (by simp)) rfl fab.1 fab.2
          · exact hb.grown v (by simp [hv])
        · have k₁ := hn v hv
          have k₂ := (fa.1 v (List.mem_cons_of_mem _ hv)).2
          refine ⟨?_, ?_⟩
          · simp only [HTree.heavier]; omega
          · show v.heavier ≤ a.weight + b.weight; omega
      obtain ⟨g₁, g₂, g₃⟩ := ih (next + 1) _ rest (by omega) hok
      refine ⟨g₁, g₂.trans ?_, g₃.trans ?_⟩
      · rw [← (hpq.map HTree.weight).sum_eq]
        simp [HTree.weight, Nat.add_assoc]
      · refine List.Perm.trans ?_ (hpq.flatMap_right HTree.syms)
        simp [HTree.syms]

/-! ## The leaves -/

theorem presentFrom_mem {s : Nat} {fs : List Nat} {p : Nat × Nat} :
    p ∈ presentFrom s fs ↔ s ≤ p.1 ∧ fs[p.1 - s]? = some p.2 ∧ 0 < p.2 := by
  induction fs generalizing s with
  | nil => simp [presentFrom]
  | cons f fs ih =>
    have step : ∀ q : Nat × Nat, q ∈ presentFrom s (f :: fs) ↔ (q = (s, f) ∧ 0 < f) ∨ q ∈ presentFrom (s + 1) fs := by
      intro q
      simp only [presentFrom]
      split <;> simp_all
    rw [step, ih]
    obtain ⟨x, y⟩ := p
    simp only [Prod.mk.injEq]
    constructor
    · rintro (⟨⟨rfl, rfl⟩, h⟩ | ⟨h₁, h₂, h₃⟩)
      · simp [h]
      · refine ⟨by omega, ?_, h₃⟩
        rw [show x - s = (x - (s + 1)) + 1 by omega, List.getElem?_cons_succ]
        exact h₂
    · rintro ⟨h₁, h₂, h₃⟩
      by_cases he : x = s
      · subst he
        simp only [Nat.sub_self, List.getElem?_cons_zero, Option.some.injEq] at h₂
        exact .inl ⟨⟨rfl, h₂.symm⟩, by omega⟩
      · rw [show x - s = (x - (s + 1)) + 1 by omega, List.getElem?_cons_succ] at h₂
        exact .inr ⟨by omega, h₂, h₃⟩

theorem presentFrom_sorted (s : Nat) (fs : List Nat) : ((presentFrom s fs).map Prod.fst).Pairwise (· < ·) := by
  induction fs generalizing s with
  | nil => exact .nil
  | cons f fs ih =>
    simp only [presentFrom]
    split
    · refine List.pairwise_cons.2 ⟨fun x hx => ?_, ih (s + 1)⟩
      obtain ⟨p, hp, rfl⟩ := List.mem_map.1 hx
      exact (presentFrom_mem.1 hp).1
    · exact ih (s + 1)

theorem length_presentFrom (s : Nat) (fs : List Nat) : (presentFrom s fs).length = distinct fs := by
  induction fs generalizing s with
  | nil => rfl
  | cons f fs ih =>
    simp only [presentFrom, distinct, List.countP_cons]
    split
    · rename_i h; simp [h, ih, distinct]
    · rename_i h; simp [h, ih, distinct]

theorem sum_presentFrom (s : Nat) (fs : List Nat) : ((presentFrom s fs).map Prod.snd).sum = fs.sum := by
  induction fs generalizing s with
  | nil => rfl
  | cons f fs ih =>
    simp only [presentFrom]
    split
    · simp [ih]
    · rename_i h; simp [ih, show f = 0 by omega]

theorem leavesFrom_eq (j : Nat) (ps : List (Nat × Nat)) :
    (leavesFrom j ps).flatMap HTree.syms = ps.map Prod.fst ∧ (leavesFrom j ps).map HTree.weight = ps.map Prod.snd ∧
      (leavesFrom j ps).length = ps.length ∧ ∀ t ∈ leavesFrom j ps, ∃ s w o, t = .leaf s w o := by
  induction ps generalizing j with
  | nil => exact ⟨rfl, rfl, rfl, fun t ht => nomatch ht⟩
  | cons p ps ih =>
    obtain ⟨h₁, h₂, h₃, h₄⟩ := ih (j + 1)
    refine ⟨by simp [leavesFrom, HTree.syms, h₁], by simp [leavesFrom, HTree.weight, h₂], by simp [leavesFrom, h₃], ?_⟩
    intro t ht
    rcases List.mem_cons.1 ht with rfl | ht
    · exact ⟨_, _, _, rfl⟩
    · exact h₄ t ht

theorem queueOk_leaves (s j : Nat) (fs : List Nat) : QueueOk (leavesFrom j (presentFrom s fs)) := by
  obtain ⟨-, h₂, -, h₄⟩ := leavesFrom_eq j (presentFrom s fs)
  have hw : ∀ t ∈ leavesFrom j (presentFrom s fs), 1 ≤ t.weight := by
    intro t ht
    have : t.weight ∈ (leavesFrom j (presentFrom s fs)).map HTree.weight := List.mem_map_of_mem ht
    rw [h₂] at this
    obtain ⟨p, hp, e⟩ := List.mem_map.1 this
    rw [← e]
    exact (presentFrom_mem.1 hp).2.2
  refine ⟨fun t ht => ?_, ?_⟩
  · obtain ⟨s, w, o, rfl⟩ := h₄ t ht
    exact .leaf _ _ _ (hw _ ht)
  · rw [List.pairwise_iff_forall_sublist]
    intro a b hab
    obtain ⟨_, _, _, rfl⟩ := h₄ a (hab.subset (by simp))
    obtain ⟨_, _, _, rfl⟩ := h₄ b (hab.subset (by simp))
    exact ⟨Nat.zero_le _, Nat.zero_le _⟩

/-! ## The code lengths -/

/-- The (symbol, length) pairs: exactly the present symbols, one length 1 for one symbol, a complete code otherwise. -/
theorem codeLengths_spec (freq : List Nat) (hs : freq.sum < 2 ^ 40) :
    ((codeLengths freq).map Prod.fst).Perm ((presentFrom 0 freq).map Prod.fst) ∧
    (∀ p ∈ codeLengths freq, 1 ≤ p.2 ∧ p.2 ≤ 57) ∧
    (distinct freq = 1 → ∀ p ∈ codeLengths freq, p.2 = 1) ∧
    (2 ≤ distinct freq → ((codeLengths freq).map fun p => 2 ^ (64 - p.2)).sum = 2 ^ 64 ∧
      ∀ p ∈ codeLengths freq, p.2 ≤ distinct freq - 1) := by
  have hq := queueOk_leaves 0 0 freq
  obtain ⟨h₁, h₂, h₃, h₄⟩ := leavesFrom_eq 0 (presentFrom 0 freq)
  have hlen := congrArg List.length h₁
  rw [List.length_map, length_presentFrom] at hlen
  rw [length_presentFrom] at h₃
  rw [← h₁]
  have hsum := sum_presentFrom 0 freq
  rw [← h₂] at hsum
  simp only [codeLengths]
  generalize leavesFrom 0 (presentFrom 0 freq) = q at hq h₃ h₄ hsum hlen
  split
  · exact ⟨.refl _, fun p hp => (nomatch hp), fun _ p hp => (nomatch hp), fun h => absurd h₃ (by simp; omega)⟩
  · refine ⟨.refl _, fun p hp => ?_, fun _ p hp => ?_, fun h => absurd h₃ (by simp; omega)⟩
    · obtain rfl := List.mem_singleton.1 hp; exact ⟨Nat.le_refl _, by omega⟩
    · obtain rfl := List.mem_singleton.1 hp; rfl
  · rename_i t ts hne
    have hts : ts ≠ [] := by
      rintro rfl
      obtain ⟨s, w, o, rfl⟩ := h₄ t List.mem_cons_self
      exact hne s w o rfl rfl
    have hpos := List.length_pos_of_ne_nil hts
    rw [List.length_cons] at h₃
    obtain ⟨g₁, g₂, g₃⟩ := mergeLoop_spec ts.length (ts.length + 1) t ts (Nat.le_refl _) hq
    generalize mergeLoop ts.length (ts.length + 1) t ts = m at g₁ g₂ g₃
    have hh : m.height ≤ 57 := by
      by_contra hc
      have := g₁.fib_le.1
      have hmono : Nat.fib 60 ≤ Nat.fib (m.height + 2) := Nat.fib_mono (by omega)
      have h60 : Nat.fib 60 = 1548008755920 := by decide +kernel
      rw [g₂, hsum] at this
      omega
    have hm : m.syms.length = distinct freq := g₃.length_eq.trans hlen
    have hlt := m.height_lt_syms
    have hd : ∀ p ∈ m.depths 0, 1 ≤ p.2 ∧ p.2 ≤ m.height := by
      cases m with
      | leaf s w o => simp [HTree.syms] at hm; omega
      | node l r w o =>
        intro p hp
        refine ⟨?_, by simpa using (HTree.depth_le _ 0 p hp).2⟩
        simp only [HTree.depths, List.mem_append] at hp
        rcases hp with hp | hp
        · exact (l.depth_le 1 p hp).1
        · exact (r.depth_le 1 p hp).1
    refine ⟨by rw [HTree.depths_syms]; exact g₃, fun p hp => ?_, fun h => absurd h (by omega), fun _ => ⟨?_, fun p hp => ?_⟩⟩
    · have := hd p hp; omega
    · exact m.kraft 0 64 (by omega)
    · have := hd p hp; omega

/-! ## Tables of pairs -/

theorem lookup_eq_none {ps : List (Nat × Nat)} {s : Nat} (h : s ∉ ps.map Prod.fst) : Memory.lookup ps s = none := by
  induction ps with
  | nil => rfl
  | cons p ps ih =>
    simp only [List.map_cons, List.mem_cons, not_or] at h
    rw [Memory.lookup, if_neg (Ne.symm h.1), ih h.2]

theorem lookup_eq_some {ps : List (Nat × Nat)} {s v : Nat} (hn : (ps.map Prod.fst).Nodup) (h : (s, v) ∈ ps) :
    Memory.lookup ps s = some v := by
  induction ps with
  | nil => cases h
  | cons p ps ih =>
    simp only [List.map_cons, List.nodup_cons] at hn
    rcases List.mem_cons.1 h with h | h
    · subst h; simp [Memory.lookup]
    · have : p.1 ≠ s := fun e => hn.1 (e ▸ List.mem_map_of_mem (f := Prod.fst) h)
      rw [Memory.lookup, if_neg this, ih hn.2 h]

theorem mem_of_lookup {ps : List (Nat × Nat)} {s v : Nat} (h : Memory.lookup ps s = some v) : (s, v) ∈ ps := by
  induction ps with
  | nil => cases h
  | cons p ps ih =>
    rw [Memory.lookup] at h
    split at h
    · rename_i e; cases h; subst e; exact List.mem_cons_self
    · exact List.mem_cons_of_mem _ (ih h)

theorem sum_range_map (m : Nat) (f : Nat → Nat) : ((List.range m).map f).sum = ∑ s ∈ Finset.range m, f s := by
  induction m with
  | zero => rfl
  | succ m ih => rw [List.range_succ, List.map_append, List.sum_append, ih, Finset.sum_range_succ]; simp

/-- A sum over the entries of a table of pairs is the sum over the pairs. -/
theorem sum_lookup {ps : List (Nat × Nat)} {m : Nat} (hn : (ps.map Prod.fst).Nodup) (hm : ∀ p ∈ ps, p.1 < m) (g : Nat → Nat) :
    ((List.range m).map fun s => (Memory.lookup ps s).elim 0 g).sum = (ps.map fun p => g p.2).sum := by
  rw [sum_range_map]
  induction ps with
  | nil => simp [Memory.lookup]
  | cons p ps ih =>
    simp only [List.map_cons, List.nodup_cons] at hn
    rw [List.map_cons, List.sum_cons, ← ih hn.2 fun q hq => hm q (List.mem_cons_of_mem _ hq)]
    have hp : p.1 ∈ Finset.range m := Finset.mem_range.2 (hm p List.mem_cons_self)
    rw [← Finset.add_sum_erase _ _ hp, ← Finset.add_sum_erase _ _ hp, lookup_eq_none hn.1]
    simp only [Memory.lookup, if_true, Option.elim, Nat.zero_add]
    congr 1
    refine Finset.sum_congr rfl fun s hs => ?_
    rw [if_neg (Ne.symm (Finset.ne_of_mem_erase hs))]

theorem sum_table (xs : List Nat) (h : xs.length = 256) (f : Nat → Nat) :
    ((List.range 256).map fun s => f (xs.getD s 0)).sum = (xs.map f).sum := by
  congr 1
  apply List.ext_getElem
  · simp [h]
  · intro i h₁ h₂
    simp only [List.length_map] at h₂
    simp [h₂]

/-! ## The LEN table -/

@[simp] theorem length_buildLens (freq : List Nat) : (buildLens freq).length = 256 := by simp [buildLens, Config.nsym]

theorem getElem_buildLens (freq : List Nat) (s : Nat) (h : s < (buildLens freq).length) :
    (buildLens freq)[s] = (Memory.lookup (codeLengths freq) s).getD 0 := by
  simp [buildLens]

theorem sum_freq_lt {freq : List Nat} (hl : freq.length = 256) (hf : ∀ f ∈ freq, f < 2 ^ 32) : freq.sum < 2 ^ 40 := by
  have : freq.sum ≤ freq.length * (2 ^ 32 - 1) := by
    clear hl
    induction freq with
    | nil => simp
    | cons f fs ih =>
      have h₁ := hf f List.mem_cons_self
      have h₂ := ih fun g hg => hf g (List.mem_cons_of_mem _ hg)
      rw [List.sum_cons, List.length_cons]
      omega
  omega

/-- What `build()` gives for weights that sum to less than 2^40, as 256 weights of 32 bits do (42_huffman.md R195 to
R197). -/
theorem buildLens_spec {freq : List Nat} (hl : freq.length = 256) (hs : freq.sum < 2 ^ 40) :
    (∀ (x : Nat) (h : x < 256), (buildLens freq)[x]'(by simpa using h) = 0 ↔ freq[x]'(by omega) = 0) ∧
    (∀ l ∈ buildLens freq, l ≤ 57) ∧
    (distinct freq = 1 → ∀ l ∈ buildLens freq, l ≤ 1) ∧
    (2 ≤ distinct freq → kraftSum (buildLens freq) = 2 ^ 64 ∧ ∀ l ∈ buildLens freq, l ≤ distinct freq - 1) ∧
    kraftSum (buildLens freq) ≤ 2 ^ 64 := by
  obtain ⟨h₁, h₂, h₃, h₄⟩ := codeLengths_spec freq hs
  have hn : ((codeLengths freq).map Prod.fst).Nodup :=
    h₁.nodup_iff.2 ((presentFrom_sorted 0 freq).imp (fun h => Nat.ne_of_lt h))
  have hlt : ∀ p ∈ codeLengths freq, p.1 < 256 := by
    intro p hp
    obtain ⟨q, hq, e⟩ := List.mem_map.1 (h₁.mem_iff.1 (List.mem_map_of_mem hp))
    rw [← e]
    obtain ⟨-, hq, -⟩ := presentFrom_mem.1 hq
    have := (List.getElem?_eq_some_iff.1 hq).1
    omega
  have hk : kraftSum (buildLens freq) = ((codeLengths freq).map fun p => 2 ^ (64 - p.2)).sum := by
    rw [← sum_lookup hn hlt fun l => 2 ^ (64 - l), kraftSum, buildLens, List.map_map]
    congr 1
    refine List.map_congr_left fun s _ => ?_
    simp only [Function.comp]
    cases e : Memory.lookup (codeLengths freq) s with
    | none => rfl
    | some v =>
      have := (h₂ _ (mem_of_lookup e)).1
      simp only [Option.getD_some, Option.elim]
      rw [if_neg (by omega)]
  have hmem : ∀ l ∈ buildLens freq, l = 0 ∨ ∃ p ∈ codeLengths freq, p.2 = l := by
    intro l hl
    obtain ⟨s, -, rfl⟩ := List.mem_map.1 hl
    cases e : Memory.lookup (codeLengths freq) s with
    | none => exact .inl rfl
    | some v => exact .inr ⟨_, mem_of_lookup e, rfl⟩
  refine ⟨fun x hx => ?_, fun l hl => ?_, fun h l hl => ?_, fun h => ⟨hk.trans (h₄ h).1, fun l hl => ?_⟩, ?_⟩
  · rw [getElem_buildLens]
    have hx' : x < freq.length := by omega
    have hmem : x ∈ (codeLengths freq).map Prod.fst ↔ freq[x] ≠ 0 := by
      rw [h₁.mem_iff, List.mem_map]
      constructor
      · rintro ⟨p, hp, rfl⟩
        obtain ⟨-, g, h⟩ := presentFrom_mem.1 hp
        have := (List.getElem?_eq_some_iff.1 g).2
        simp only [Nat.sub_zero] at this
        omega
      · intro h
        exact ⟨(x, freq[x]), presentFrom_mem.2 ⟨Nat.zero_le _, by simp, by simp only; omega⟩, rfl⟩
    by_cases hc : freq[x] = 0
    · rw [lookup_eq_none (fun h => hmem.1 h hc)]; simp [hc]
    · obtain ⟨p, hp, rfl⟩ := List.mem_map.1 (hmem.2 hc)
      have := (h₂ p hp).1
      rw [lookup_eq_some hn hp]
      simp only [Option.getD_some]
      omega
  · rcases hmem l hl with rfl | ⟨p, hp, rfl⟩
    · omega
    · exact (h₂ p hp).2
  · rcases hmem l hl with rfl | ⟨p, hp, rfl⟩
    · omega
    · exact Nat.le_of_eq (h₃ h p hp)
  · rcases hmem l hl with rfl | ⟨p, hp, rfl⟩
    · omega
    · exact (h₄ h).2 p hp
  · rw [hk]
    rcases Nat.lt_or_ge (distinct freq) 2 with hd | hd
    · have hlen : (codeLengths freq).length = distinct freq := by
        have := h₁.length_eq
        rwa [List.length_map, List.length_map, length_presentFrom] at this
      cases e : codeLengths freq with
      | nil => simp
      | cons p ps =>
        rw [e] at hlen
        obtain rfl : ps = [] := List.length_eq_zero_iff.1 (by simp at hlen; omega)
        simp only [List.map_cons, List.map_nil, List.sum_cons, List.sum_nil, Nat.add_zero]
        exact Nat.pow_le_pow_right (by omega) (by omega)
    · exact Nat.le_of_eq (h₄ hd).1

end Sys2Proof.Machine
end

