-- ==== Sys2Proof/Laws/Canon.lean ====
section
/-!
SUPPORT. What the canonical code generator does: the code of a symbol, shifted to 64 bits, is the Kraft sum of the symbols
before it, so the codes fit their lengths and none is a prefix of another; and the encoder and decoder over such a code
(42_huffman.md R203, R208, R212).
-/

namespace Sys2Proof.Machine

/-! ## The coded symbols in canonical order -/

theorem codedFrom_mem {s : Nat} {ls : List Nat} {p : Nat × Nat} :
    p ∈ codedFrom s ls ↔ s ≤ p.2 ∧ ls[p.2 - s]? = some p.1 ∧ 0 < p.1 := by
  induction ls generalizing s with
  | nil => simp [codedFrom]
  | cons l ls ih =>
    have step : ∀ q : Nat × Nat, q ∈ codedFrom s (l :: ls) ↔ (q = (l, s) ∧ 0 < l) ∨ q ∈ codedFrom (s + 1) ls := by
      intro q
      simp only [codedFrom]
      split <;> simp_all
    rw [step, ih]
    obtain ⟨y, x⟩ := p
    simp only [Prod.mk.injEq]
    constructor
    · rintro (⟨⟨rfl, rfl⟩, h⟩ | ⟨h₁, h₂, h₃⟩)
      · simp [h]
      · refine ⟨by omega, ?_, h₃⟩
        rw [show x - s = (x - (s + 1)) + 1 by omega, List.getElem?_cons_succ]
        exact h₂
    · rintro ⟨h₁, h₂, h₃⟩
      by_cases he : x = s
      · subst he
        simp only [Nat.sub_self, List.getElem?_cons_zero, Option.some.injEq] at h₂
        exact .inl ⟨⟨h₂.symm, rfl⟩, by omega⟩
      · rw [show x - s = (x - (s + 1)) + 1 by omega, List.getElem?_cons_succ] at h₂
        exact .inr ⟨by omega, h₂, h₃⟩

theorem codedFrom_sorted (s : Nat) (ls : List Nat) : ((codedFrom s ls).map Prod.snd).Pairwise (· < ·) := by
  induction ls generalizing s with
  | nil => exact .nil
  | cons l ls ih =>
    simp only [codedFrom]
    split
    · refine List.pairwise_cons.2 ⟨fun x hx => ?_, ih (s + 1)⟩
      obtain ⟨p, hp, rfl⟩ := List.mem_map.1 hx
      exact (codedFrom_mem.1 hp).1
    · exact ih (s + 1)

theorem sum_codedFrom (s : Nat) (ls : List Nat) (F : Nat × Nat → Nat) :
    ((codedFrom s ls).map F).sum =
      ((List.range ls.length).map fun i => if 0 < ls.getD i 0 then F (ls.getD i 0, s + i) else 0).sum := by
  induction ls generalizing s with
  | nil => rfl
  | cons l ls ih =>
    rw [List.length_cons, List.range_succ_eq_map, List.map_cons, List.sum_cons, List.map_map]
    have e : ((codedFrom s (l :: ls)).map F).sum = (if 0 < l then F (l, s) else 0) + ((codedFrom (s + 1) ls).map F).sum := by
      simp only [codedFrom]
      split <;> simp
    rw [e, ih]
    congr 2
    refine List.map_congr_left fun i _ => ?_
    simp only [Function.comp, List.getD_cons_succ, Nat.succ_eq_add_one]
    rw [show s + 1 + i = s + (i + 1) by omega]

theorem canonicalOrder_perm (lens : List Nat) : (canonicalOrder lens).Perm (codedFrom 0 lens) :=
  List.perm_insertionSort canonicalLE (codedFrom 0 lens)

/-- `x` comes before `y` in (LEN, symbol). -/
abbrev canonicalLT (x y : Nat × Nat) : Prop := x.1 < y.1 ∨ (x.1 = y.1 ∧ x.2 < y.2)

theorem canonicalOrder_sorted (lens : List Nat) : (canonicalOrder lens).Pairwise canonicalLT := by
  have hle : (canonicalOrder lens).Pairwise canonicalLE := by
    have : Std.Total canonicalLE := ⟨fun a b => by simp only [canonicalLE]; omega⟩
    have : IsTrans (Nat × Nat) canonicalLE := ⟨fun a b c h₁ h₂ => by simp only [canonicalLE] at *; omega⟩
    exact List.pairwise_insertionSort canonicalLE (codedFrom 0 lens)
  have hne : (canonicalOrder lens).Pairwise fun a b => a.2 ≠ b.2 := by
    have h := codedFrom_sorted 0 lens
    rw [List.pairwise_map] at h
    exact ((canonicalOrder_perm lens).pairwise_iff (R := fun a b => a.2 ≠ b.2) Ne.symm).2 (h.imp fun h => Nat.ne_of_lt h)
  exact (hle.and hne).imp fun ⟨h₁, h₂⟩ => by simp only [canonicalLE, canonicalLT] at *; omega

/-! ## The codes -/

theorem assignCodes_syms (code prev : Nat) (t : List (Nat × Nat)) : (assignCodes code prev t).map Prod.fst = t.map Prod.snd := by
  induction t generalizing code prev with
  | nil => rfl
  | cons p t ih => simp [assignCodes, ih]

/-- The code of a symbol, shifted to 64 bits, is where the codes before it end. -/
theorem assignCodes_spec {t₁ t₂ : List (Nat × Nat)} {p : Nat × Nat} {code prev : Nat}
    (hs : (t₁ ++ p :: t₂).Pairwise fun a b => a.1 ≤ b.1) (hp : ∀ q ∈ t₁ ++ p :: t₂, prev ≤ q.1 ∧ q.1 ≤ 64) :
    ∃ c, (p.2, c) ∈ assignCodes code prev (t₁ ++ p :: t₂) ∧
      c * 2 ^ (64 - p.1) = code * 2 ^ (64 - prev) + (t₁.map fun q => 2 ^ (64 - q.1)).sum := by
  have shift : ∀ l, prev ≤ l → l ≤ 64 → (code <<< (l - prev)) * 2 ^ (64 - l) = code * 2 ^ (64 - prev) := by
    intro l h₁ h₂
    rw [Nat.shiftLeft_eq, Nat.mul_assoc, ← Nat.pow_add, show l - prev + (64 - l) = 64 - prev by omega]
  induction t₁ generalizing code prev with
  | nil =>
    obtain ⟨l, s⟩ := p
    have := hp (l, s) (by simp)
    exact ⟨code <<< (l - prev), by simp [assignCodes], by simpa using shift l this.1 this.2⟩
  | cons q t₁ ih =>
    obtain ⟨l, s⟩ := q
    have hq := hp (l, s) (by simp)
    simp only [List.cons_append, List.pairwise_cons] at hs
    obtain ⟨c, hc, e⟩ := ih (code := code <<< (l - prev) + 1) (prev := l) hs.2
      (fun r hr => ⟨hs.1 r hr, (hp r (by simp only [List.cons_append]; exact List.mem_cons_of_mem _ hr)).2⟩)
      (fun l' h₁ h₂ => by
        rw [Nat.shiftLeft_eq, Nat.mul_assoc, ← Nat.pow_add, show l' - l + (64 - l') = 64 - l by omega])
    refine ⟨c, ?_, ?_⟩
    · simp only [List.cons_append, assignCodes]
      exact List.mem_cons_of_mem _ hc
    · rw [e, Nat.add_mul, shift l hq.1 hq.2]
      simp only [List.map_cons, List.sum_cons]
      omega

@[simp] theorem length_canonCodes (lens : List Nat) : (canonCodes lens).length = 256 := by simp [canonCodes, Config.nsym]

/-- Symbol `y` comes before symbol `x` among the coded ones. -/
abbrev codedBefore (lens : List Nat) (y x : Nat) : Prop :=
  0 < lens.getD y 0 ∧ (lens.getD y 0 < lens.getD x 0 ∨ (lens.getD y 0 = lens.getD x 0 ∧ y < x))

/-- The Kraft sum of the symbols before `x`. -/
def kraftBefore (lens : List Nat) (x : Nat) : Nat :=
  ((List.range 256).map fun y => if codedBefore lens y x then 2 ^ (64 - lens.getD y 0) else 0).sum

/-- The Kraft sum of the symbols before one of the canonical order is that of the part before it. -/
theorem kraftBefore_split {lens : List Nat} (hl : lens.length = 256) {t₁ t₂ : List (Nat × Nat)} {p : Nat × Nat}
    (ht : canonicalOrder lens = t₁ ++ p :: t₂) (hp : lens.getD p.2 0 = p.1) :
    kraftBefore lens p.2 = (t₁.map fun q => 2 ^ (64 - q.1)).sum := by
  have hsort := canonicalOrder_sorted lens
  have hK : kraftBefore lens p.2 =
      ((canonicalOrder lens).map fun q => if canonicalLT q p then 2 ^ (64 - q.1) else 0).sum := by
    rw [((canonicalOrder_perm lens).map _).sum_eq, sum_codedFrom, hl, kraftBefore]
    congr 1
    refine List.map_congr_left fun y _ => ?_
    simp only [codedBefore, canonicalLT, Nat.zero_add, hp]
    by_cases h0 : 0 < lens.getD y 0
    · simp only [h0, true_and, if_true]
    · simp only [h0, false_and, if_false]
  rw [ht] at hsort hK
  rw [hK, List.map_append, List.sum_append, List.map_cons, List.sum_cons, if_neg (by simp [canonicalLT])]
  obtain ⟨-, hs₂, hs₁⟩ := List.pairwise_append.1 hsort
  have e₂ : (t₂.map fun q => if canonicalLT q p then 2 ^ (64 - q.1) else 0).sum = 0 := by
    rw [List.sum_eq_zero_iff]
    intro v hv
    obtain ⟨q, hq, rfl⟩ := List.mem_map.1 hv
    have := (List.pairwise_cons.1 hs₂).1 q hq
    rw [if_neg]
    simp only [canonicalLT] at this ⊢
    omega
  rw [e₂, Nat.add_zero]
  exact congrArg List.sum (List.map_congr_left fun q hq => if_pos (hs₁ q hq _ List.mem_cons_self))

/-- What `canon()` gives (42_huffman.md R203). -/
theorem canonCodes_spec {lens : List Nat} (hl : lens.length = 256) (h64 : ∀ l ∈ lens, l ≤ 64) {x : Nat} (hx : x < 256) :
    (lens.getD x 0 = 0 → (canonCodes lens).getD x 0 = 0) ∧
    (0 < lens.getD x 0 → (canonCodes lens).getD x 0 * 2 ^ (64 - lens.getD x 0) = kraftBefore lens x) := by
  have hperm := canonicalOrder_perm lens
  have hsort := canonicalOrder_sorted lens
  have hmem : ∀ p, p ∈ canonicalOrder lens ↔ lens[p.2]? = some p.1 ∧ 0 < p.1 := fun p => by
    rw [hperm.mem_iff, codedFrom_mem]; simp
  have hx' : lens[x]? = some (lens.getD x 0) := by
    rw [List.getD_eq_getElem?_getD, List.getElem?_eq_getElem (by omega)]; rfl
  have hget : (canonCodes lens).getD x 0 =
      (Memory.lookup (assignCodes 0 ((canonicalOrder lens).head?.getD (0, 0)).1 (canonicalOrder lens)) x).getD 0 := by
    simp [canonCodes, Config.nsym, hx]
  have hnodup : ((assignCodes 0 ((canonicalOrder lens).head?.getD (0, 0)).1 (canonicalOrder lens)).map Prod.fst).Nodup := by
    rw [assignCodes_syms]
    exact (hperm.map Prod.snd).nodup_iff.2 ((codedFrom_sorted 0 lens).imp fun h => Nat.ne_of_lt h)
  rw [hget]
  refine ⟨fun h0 => ?_, fun hpos => ?_⟩
  · rw [lookup_eq_none]
    · rfl
    · rw [assignCodes_syms]
      intro hc
      obtain ⟨p, hp, rfl⟩ := List.mem_map.1 hc
      obtain ⟨h₁, h₂⟩ := (hmem p).1 hp
      have := Option.some.inj (h₁.symm.trans hx')
      omega
  · obtain ⟨t₁, t₂, ht⟩ := List.append_of_mem ((hmem (lens.getD x 0, x)).2 ⟨hx', hpos⟩)
    have hle : (canonicalOrder lens).Pairwise fun a b => a.1 ≤ b.1 := hsort.imp fun h => by simp only [canonicalLT] at h; omega
    have hprev : ∀ q ∈ canonicalOrder lens, ((canonicalOrder lens).head?.getD (0, 0)).1 ≤ q.1 ∧ q.1 ≤ 64 := by
      intro q hq
      refine ⟨?_, h64 _ (List.mem_of_getElem? ((hmem q).1 hq).1)⟩
      revert hle hq
      cases canonicalOrder lens with
      | nil => intro _ hq; cases hq
      | cons r rs =>
        intro hle hq
        rcases List.mem_cons.1 hq with rfl | hq
        · exact Nat.le_refl _
        · exact (List.pairwise_cons.1 hle).1 q hq
    generalize ((canonicalOrder lens).head?.getD (0, 0)).1 = prev at hprev hnodup ⊢
    have hK := kraftBefore_split hl ht rfl
    rw [ht] at hle hprev hnodup ⊢
    obtain ⟨c, hc, e⟩ := assignCodes_spec (code := 0) hle hprev
    rw [lookup_eq_some hnodup hc, hK, Option.getD_some, e, Nat.zero_mul, Nat.zero_add]

theorem kraftSum_eq {lens : List Nat} (hl : lens.length = 256) :
    kraftSum lens = ∑ y ∈ Finset.range 256, if 0 < lens.getD y 0 then 2 ^ (64 - lens.getD y 0) else 0 := by
  rw [kraftSum, ← sum_table lens hl, sum_range_map]
  refine Finset.sum_congr rfl fun y _ => ?_
  by_cases h : lens.getD y 0 = 0
  · rw [if_pos h, if_neg (by omega)]
  · rw [if_neg h, if_pos (by omega)]

/-- The codes up to and including `x` end before the next one begins. -/
theorem kraftBefore_le {lens : List Nat} {x z : Nat} (hx : x < 256) (h : codedBefore lens x z) :
    kraftBefore lens x + 2 ^ (64 - lens.getD x 0) ≤ kraftBefore lens z := by
  have e : 2 ^ (64 - lens.getD x 0) = ∑ y ∈ Finset.range 256, if y = x then 2 ^ (64 - lens.getD y 0) else 0 := by
    rw [Finset.sum_ite_eq' (Finset.range 256) x, if_pos (Finset.mem_range.2 hx)]
  rw [kraftBefore, kraftBefore, sum_range_map, sum_range_map, e, ← Finset.sum_add_distrib]
  refine Finset.sum_le_sum fun y _ => ?_
  by_cases hy : y = x
  · subst hy
    rw [if_neg (by simp [codedBefore]), if_pos rfl, if_pos h]
    omega
  · rw [if_neg hy]
    by_cases hb : codedBefore lens y x
    · rw [if_pos hb, if_pos]
      · omega
      · simp only [codedBefore] at *; omega
    · rw [if_neg hb]; omega

theorem kraftBefore_le_sum {lens : List Nat} (hl : lens.length = 256) {x : Nat} (hx : x < 256) (h : 0 < lens.getD x 0) :
    kraftBefore lens x + 2 ^ (64 - lens.getD x 0) ≤ kraftSum lens := by
  have e : 2 ^ (64 - lens.getD x 0) = ∑ y ∈ Finset.range 256, if y = x then 2 ^ (64 - lens.getD y 0) else 0 := by
    rw [Finset.sum_ite_eq' (Finset.range 256) x, if_pos (Finset.mem_range.2 hx)]
  rw [kraftBefore, sum_range_map, kraftSum_eq hl, e, ← Finset.sum_add_distrib]
  refine Finset.sum_le_sum fun y _ => ?_
  by_cases hy : y = x
  · subst hy
    rw [if_neg (by simp [codedBefore]), if_pos rfl, if_pos h]
    omega
  · rw [if_neg hy]
    by_cases hb : codedBefore lens y x
    · rw [if_pos hb, if_pos hb.1]; omega
    · rw [if_neg hb]; omega

/-! ## Prefix codes -/

/-- Tables whose codes fit their lengths and of which none is a prefix of another. -/
structure PrefixCode (lens codes : List Nat) : Prop where
  lens_length  : lens.length = 256
  codes_length : codes.length = 256
  code_lt      : ∀ x, x < 256 → codes.getD x 0 < 2 ^ lens.getD x 0
  prefix_free  : ∀ x y, x < 256 → y < 256 → x ≠ y → 0 < lens.getD x 0 → lens.getD x 0 ≤ lens.getD y 0 →
    codes.getD y 0 / 2 ^ (lens.getD y 0 - lens.getD x 0) ≠ codes.getD x 0

/-- The canonical code of lengths that meet the Kraft inequality is a prefix code (30_encoding.md R117). -/
theorem prefixCode_canon {lens : List Nat} (hl : lens.length = 256) (h64 : ∀ l ∈ lens, l ≤ 64) (hk : kraftSum lens ≤ 2 ^ 64) :
    PrefixCode lens (canonCodes lens) := by
  have h64' : ∀ x, x < 256 → lens.getD x 0 ≤ 64 := by
    intro x hx
    rw [List.getD_eq_getElem?_getD, List.getElem?_eq_getElem (by omega)]
    exact h64 _ (List.getElem_mem _)
  refine ⟨hl, length_canonCodes lens, fun x hx => ?_, fun x y hx hy hne hpos hle => ?_⟩
  · obtain ⟨h₀, h₁⟩ := canonCodes_spec hl h64 hx
    by_cases hz : lens.getD x 0 = 0
    · rw [h₀ hz]; exact Nat.two_pow_pos _
    · have hb := (kraftBefore_le_sum hl hx (by omega)).trans hk
      rw [← h₁ (by omega), show (64 : Nat) = lens.getD x 0 + (64 - lens.getD x 0) by have := h64' x hx; omega,
        Nat.pow_add, Nat.add_sub_cancel_left, ← Nat.succ_mul] at hb
      exact Nat.lt_of_succ_le (Nat.le_of_mul_le_mul_right hb (Nat.two_pow_pos _))
  · obtain ⟨-, hcx⟩ := canonCodes_spec hl h64 hx
    obtain ⟨-, hcy⟩ := canonCodes_spec hl h64 hy
    have h64y := h64' y hy
    intro he
    by_cases hb : codedBefore lens x y
    · have hk := kraftBefore_le hx hb
      rw [← hcx hpos, ← hcy (by omega), ← Nat.succ_mul,
        show 64 - lens.getD x 0 = (lens.getD y 0 - lens.getD x 0) + (64 - lens.getD y 0) by omega, Nat.pow_add,
        ← Nat.mul_assoc] at hk
      have := Nat.le_of_mul_le_mul_right hk (Nat.two_pow_pos _)
      have := (Nat.le_div_iff_mul_le (Nat.two_pow_pos _)).2 this
      omega
    · have hb' : codedBefore lens y x := by simp only [codedBefore] at *; omega
      have hlen : lens.getD y 0 = lens.getD x 0 := by simp only [codedBefore] at *; omega
      have hk := kraftBefore_le hy hb'
      rw [← hcx hpos, ← hcy (by omega), hlen, ← Nat.succ_mul] at hk
      have := Nat.le_of_mul_le_mul_right hk (Nat.two_pow_pos _)
      rw [hlen, Nat.sub_self, Nat.pow_zero, Nat.div_one] at he
      omega

/-! ## The encoder -/

theorem emits_encodeFrom (cap : Nat) (lens codes : List Nat) (rd : Nat → Byte) (k i : Nat) (w : Writer) :
    Emits cap (encodeFrom cap lens codes rd k i w) (codeBits lens codes (slice rd i k)) w id := by
  induction k generalizing i w with
  | zero => exact .nil rfl
  | succ k ih =>
    rw [slice_succ, codeBits, List.flatMap_cons]
    exact (emits_writeBits _ _ _ _).bind fun w' _ => ih (i + 1) w'

theorem length_codeBits (lens codes : List Nat) (xs : List Byte) :
    (codeBits lens codes xs).length = (xs.map (entry lens)).sum := by
  induction xs with
  | nil => rfl
  | cons x xs ih => simp [codeBits]

theorem encodedBits_eq (lens codes : List Nat) (rd : Nat → Byte) (n : Nat) :
    encodedBits lens rd n = (codeBits lens codes (slice rd 0 n)).length := by
  rw [length_codeBits, encodedBits, slice, List.map_map]
  simp [Function.comp_def]

/-! ## The decoder -/

theorem codeTable_mem {s : Nat} {ls cs : List Nat} {e : Nat × Nat × Nat} :
    e ∈ codeTable s ls cs ↔ s ≤ e.1 ∧ ls[e.1 - s]? = some e.2.1 ∧ cs[e.1 - s]? = some e.2.2 ∧ 0 < e.2.1 := by
  induction ls generalizing s cs with
  | nil => simp [codeTable]
  | cons l ls ih =>
    cases cs with
    | nil => simp [codeTable]
    | cons c cs =>
      have step : ∀ q : Nat × Nat × Nat, q ∈ codeTable s (l :: ls) (c :: cs) ↔
          (q = (s, l, c) ∧ 0 < l) ∨ q ∈ codeTable (s + 1) ls cs := by
        intro q
        simp only [codeTable]
        split <;> simp_all
      rw [step, ih]
      obtain ⟨x, y, z⟩ := e
      simp only [Prod.mk.injEq]
      constructor
      · rintro (⟨⟨rfl, rfl, rfl⟩, h⟩ | ⟨h₁, h₂, h₃, h₄⟩)
        · simp [h]
        · refine ⟨by omega, ?_, ?_, h₄⟩
          · rw [show x - s = (x - (s + 1)) + 1 by omega, List.getElem?_cons_succ]; exact h₂
          · rw [show x - s = (x - (s + 1)) + 1 by omega, List.getElem?_cons_succ]; exact h₃
      · rintro ⟨h₁, h₂, h₃, h₄⟩
        by_cases he : x = s
        · subst he
          simp only [Nat.sub_self, List.getElem?_cons_zero, Option.some.injEq] at h₂ h₃
          exact .inl ⟨⟨rfl, h₂.symm, h₃.symm⟩, by omega⟩
        · rw [show x - s = (x - (s + 1)) + 1 by omega, List.getElem?_cons_succ] at h₂ h₃
          exact .inr ⟨by omega, h₂, h₃, h₄⟩

/-- The entries of a code table are those of its two tables. -/
theorem codeTable_getD {lens codes : List Nat} (h : PrefixCode lens codes) {e : Nat × Nat × Nat} :
    e ∈ codeTable 0 lens codes ↔ e.1 < 256 ∧ e.2.1 = lens.getD e.1 0 ∧ e.2.2 = codes.getD e.1 0 ∧ 0 < e.2.1 := by
  have h₁ := h.lens_length
  have h₂ := h.codes_length
  rw [codeTable_mem, Nat.sub_zero, List.getD_eq_getElem?_getD, List.getD_eq_getElem?_getD]
  constructor
  · rintro ⟨-, g₁, g₂, g₃⟩
    have := (List.getElem?_eq_some_iff.1 g₁).1
    exact ⟨by omega, by rw [g₁]; rfl, by rw [g₂]; rfl, g₃⟩
  · rintro ⟨g₀, g₁, g₂, g₃⟩
    rw [List.getElem?_eq_getElem (by omega), Option.getD_some] at g₁ g₂
    exact ⟨Nat.zero_le _, by rw [List.getElem?_eq_getElem (by omega), g₁], by rw [List.getElem?_eq_getElem (by omega), g₂], g₃⟩

/-- `decode_symbol()` at the rest of a code. -/
theorem decodeSymbolFrom_code {lens codes : List Nat} (h : PrefixCode lens codes) {rd : Nat → Byte} {n x : Nat} (hx : x < 256)
    {left len r : Nat} (hlt : len < lens.getD x 0) (hleft : lens.getD x 0 - len ≤ left)
    (hr : r + (lens.getD x 0 - len) ≤ 8 * n)
    (hb : streamBits rd r (lens.getD x 0 - len) = bitsMSB (codes.getD x 0) (lens.getD x 0 - len)) :
    decodeSymbolFrom (codeTable 0 lens codes) rd n left (codes.getD x 0 / 2 ^ (lens.getD x 0 - len)) len r =
      .ok (x, r + (lens.getD x 0 - len)) := by
  induction left generalizing len r with
  | zero => omega
  | succ left ih =>
    obtain ⟨m, hm⟩ : ∃ m, lens.getD x 0 - len = m + 1 := ⟨lens.getD x 0 - len - 1, by omega⟩
    rw [hm, streamBits_succ, bitsMSB] at hb
    obtain ⟨hb₁, hb₂⟩ := List.cons.inj hb
    have hcode : 2 * (codes.getD x 0 / 2 ^ (m + 1)) + (streamBit rd r).toNat = codes.getD x 0 / 2 ^ m := by
      rw [hb₁, Nat.pow_succ, ← Nat.div_div_eq_div_mul, Nat.toNat_testBit]
      omega
    have hread : readBit rd n r = .ok (streamBit rd r, r + 1) := if_neg (by omega)
    rw [decodeSymbolFrom, hread, hm]
    show (match (codeTable 0 lens codes).find? fun e =>
        decide (e.2.1 = len + 1 ∧ e.2.2 = 2 * (codes.getD x 0 / 2 ^ (m + 1)) + (streamBit rd r).toNat) with
      | some e => Except.ok (e.1, r + 1)
      | none => decodeSymbolFrom (codeTable 0 lens codes) rd n left
          (2 * (codes.getD x 0 / 2 ^ (m + 1)) + (streamBit rd r).toNat) (len + 1) (r + 1)) = _
    rw [hcode]
    cases hf : (codeTable 0 lens codes).find? fun e => decide (e.2.1 = len + 1 ∧ e.2.2 = codes.getD x 0 / 2 ^ m) with
    | some e =>
      have hp := List.find?_some hf
      simp only [decide_eq_true_eq] at hp
      obtain ⟨g₀, g₁, g₂, g₃⟩ := (codeTable_getD h).1 (List.mem_of_find?_eq_some hf)
      have he : e.1 = x := by
        by_contra hne
        refine h.prefix_free e.1 x g₀ hx hne (by omega) (by omega) ?_
        rw [← g₂, ← g₁, hp.1, hp.2]
        congr 2
        omega
      have hm0 : m = 0 := by rw [he] at g₁; omega
      subst hm0
      dsimp only
      rw [he]
    | none =>
      have hm0 : m ≠ 0 := by
        rintro rfl
        have := List.find?_eq_none.1 hf (x, lens.getD x 0, codes.getD x 0)
          ((codeTable_getD h).2 ⟨hx, rfl, rfl, by simp only; omega⟩)
        exact this (decide_eq_true ⟨by simp only; omega, by simp⟩)
      have e : lens.getD x 0 - (len + 1) = m := by omega
      have := ih (len := len + 1) (r := r + 1) (by omega) (by omega) (by omega) (by rw [e]; exact hb₂)
      rw [e] at this
      dsimp only
      rw [this, show r + 1 + m = r + (m + 1) by omega]

theorem le_largest {xs : List Nat} {x : Nat} (h : x ∈ xs) : x ≤ largest xs := by
  induction xs with
  | nil => cases h
  | cons y ys ih =>
    show x ≤ max y (largest ys)
    rcases List.mem_cons.1 h with rfl | h
    · exact Nat.le_max_left _ _
    · exact (ih h).trans (Nat.le_max_right _ _)

theorem largest_mem (xs : List Nat) : largest xs = 0 ∨ largest xs ∈ xs := by
  induction xs with
  | nil => exact .inl rfl
  | cons y ys ih =>
    show max y (largest ys) = 0 ∨ max y (largest ys) ∈ y :: ys
    rcases Nat.le_total y (largest ys) with h | h
    · rw [Nat.max_eq_right h]
      exact ih.imp id (List.mem_cons_of_mem _)
    · rw [Nat.max_eq_left h]
      exact .inr List.mem_cons_self

/-- Where no code begins the bits that are left, `decode_symbol()` reports TRUNCATED_STREAM if they are fewer than the longest
code has, and CORRUPT_STREAM otherwise (42_huffman.md R212). -/
theorem decodeSymbolFrom_none {lens codes : List Nat} (h : PrefixCode lens codes) {rd : Nat → Byte} {n r left len code : Nat}
    (hc : noCodeBegins lens codes (streamBits rd r (8 * n - r))) (hlen : len = 0 ∨ r + len ≤ 8 * n)
    (hb : streamBits rd r len = bitsMSB code len) (hlt : code < 2 ^ len) :
    decodeSymbolFrom (codeTable 0 lens codes) rd n left code len (r + len) =
      .error (if 8 * n - r < left + len then .truncatedStream else .corruptStream) := by
  induction left generalizing len code with
  | zero => rw [decodeSymbolFrom, if_neg (by omega)]
  | succ left ih =>
    rw [decodeSymbolFrom]
    by_cases he : 8 * n ≤ r + len
    · rw [readBit, if_pos he, if_pos (by omega)]
      rfl
    · rw [readBit, if_neg he]
      have hb' : streamBits rd r (len + 1) = bitsMSB (2 * code + (streamBit rd (r + len)).toNat) (len + 1) := by
        rw [streamBits_add, hb, bitsMSB_add _ len 1, streamBits_succ, streamBits_zero]
        congr 1
        · congr 1
          cases streamBit rd (r + len)
          · simp
          · simp
            omega
        · cases streamBit rd (r + len) <;> simp [bitsMSB]
      have hlt' : 2 * code + (streamBit rd (r + len)).toNat < 2 ^ (len + 1) := by
        rw [Nat.pow_succ]
        cases streamBit rd (r + len) <;> simp <;> omega
      have hf : ((codeTable 0 lens codes).find? fun e =>
          decide (e.2.1 = len + 1 ∧ e.2.2 = 2 * code + (streamBit rd (r + len)).toNat)) = none := by
        refine List.find?_eq_none.2 fun e hm he' => ?_
        simp only [decide_eq_true_eq] at he'
        obtain ⟨g₀, g₁, g₂, g₃⟩ := (codeTable_getD h).1 hm
        have hb8 : (BitVec.ofNat 8 e.1).toNat = e.1 := by simp; omega
        refine hc (BitVec.ofNat 8 e.1) ?_ ?_
        · rw [entry, hb8]; omega
        · rw [entry, entry, hb8, ← g₁, ← g₂, he'.1, he'.2, ← hb', show 8 * n - r = len + 1 + (8 * n - r - (len + 1)) by omega,
            streamBits_add rd r (len + 1)]
          exact List.prefix_append _ _
      show (match (codeTable 0 lens codes).find? fun e =>
          decide (e.2.1 = len + 1 ∧ e.2.2 = 2 * code + (streamBit rd (r + len)).toNat) with
        | some e => Except.ok (e.1, r + len + 1)
        | none => decodeSymbolFrom (codeTable 0 lens codes) rd n left (2 * code + (streamBit rd (r + len)).toNat) (len + 1)
            (r + len + 1)) = _
      rw [hf]
      have := ih (len := len + 1) (.inr (by omega)) hb' hlt'
      rw [show left + 1 + len = left + (len + 1) by omega]
      exact this

/-- The decoder's loop at the codes of `xs` appends `xs` and takes exactly these codes (42_huffman.md R226). -/
theorem emits_decodeLoop {lens codes : List Nat} (h : PrefixCode lens codes) {rd : Nat → Byte} {n cap : Nat} {xs : List Byte}
    (hx : ∀ b ∈ xs, 0 < entry lens b) {r : Nat} {w : Writer} (hr : r + (codeBits lens codes xs).length ≤ 8 * n)
    (hb : streamBits rd r (codeBits lens codes xs).length = codeBits lens codes xs) :
    Emits cap (decodeLoop cap (codeTable 0 lens codes) (largest lens) rd n xs.length r w) (bytesBits xs) w
      fun w' => (r + (codeBits lens codes xs).length, w') := by
  induction xs generalizing r w with
  | nil => exact .nil rfl
  | cons b xs ih =>
    have ec : codeBits lens codes (b :: xs) = bitsMSB (entry codes b) (entry lens b) ++ codeBits lens codes xs := rfl
    rw [ec, List.length_append, length_bitsMSB] at hr
    rw [ec, List.length_append, length_bitsMSB, streamBits_add] at hb
    obtain ⟨hb₁, hb₂⟩ := List.append_inj hb (by simp)
    have hpos : 0 < entry lens b := hx b List.mem_cons_self
    have hle : entry lens b ≤ largest lens := by
      refine le_largest ?_
      have := b.isLt
      have hl := h.lens_length
      rw [entry, List.getD_eq_getElem?_getD, List.getElem?_eq_getElem (by omega)]
      exact List.getElem_mem _
    have hlt : codes.getD b.toNat 0 / 2 ^ (lens.getD b.toNat 0 - 0) = 0 := Nat.div_eq_of_lt (h.code_lt _ b.isLt)
    have := decodeSymbolFrom_code h (rd := rd) (n := n) b.isLt (left := largest lens) (len := 0) (r := r) hpos hle
      (show r + entry lens b ≤ _ by omega) hb₁
    rw [hlt, Nat.sub_zero, show lens.getD b.toNat 0 = entry lens b from rfl] at this
    rw [List.length_cons, decodeLoop, this, bytesBits_cons]
    have e : r + (codeBits lens codes (b :: xs)).length = r + entry lens b + (codeBits lens codes xs).length := by
      rw [ec, List.length_append, length_bitsMSB]; omega
    simp only [e]
    exact (emits_writeBits cap b.toNat 8 w).bind fun w' _ =>
      ih (fun c hc => hx c (List.mem_cons_of_mem _ hc)) (by omega) hb₂

/-- The decoder's loop past the codes of `xs`, where no code begins what is left: the error `decode_symbol()` reports
(42_huffman.md R212, R213). -/
theorem decodeLoop_none {lens codes : List Nat} (h : PrefixCode lens codes) {rd : Nat → Byte} {n cap N : Nat} {xs : List Byte}
    (hx : ∀ b ∈ xs, 0 < entry lens b) (hN : xs.length < N) {r : Nat} {w : Writer} (hw : w.pos + 8 * xs.length ≤ 8 * cap)
    (hr : xs = [] ∨ r + (codeBits lens codes xs).length ≤ 8 * n)
    (hb : streamBits rd r (codeBits lens codes xs).length = codeBits lens codes xs)
    (hc : noCodeBegins lens codes (streamBits rd (r + (codeBits lens codes xs).length)
      (8 * n - (r + (codeBits lens codes xs).length)))) :
    decodeLoop cap (codeTable 0 lens codes) (largest lens) rd n N r w =
      .error (if 8 * n - (r + (codeBits lens codes xs).length) < largest lens then .truncatedStream else .corruptStream) := by
  induction xs generalizing r w N with
  | nil =>
    obtain ⟨N, rfl⟩ : ∃ k, N = k + 1 := ⟨N - 1, by simp at hN; omega⟩
    have := decodeSymbolFrom_none h (left := largest lens) (len := 0) (code := 0) hc (.inl rfl) rfl (by simp)
    simp only [codeBits, List.flatMap_nil, List.length_nil, Nat.add_zero] at this ⊢
    rw [decodeLoop, this]
    rfl
  | cons b xs ih =>
    obtain ⟨N, rfl⟩ : ∃ k, N = k + 1 := ⟨N - 1, by omega⟩
    have hr' : r + (codeBits lens codes (b :: xs)).length ≤ 8 * n := hr.resolve_left (by simp)
    have ec : codeBits lens codes (b :: xs) = bitsMSB (entry codes b) (entry lens b) ++ codeBits lens codes xs := rfl
    have el : (codeBits lens codes (b :: xs)).length = entry lens b + (codeBits lens codes xs).length := by
      rw [ec, List.length_append, length_bitsMSB]
    rw [el] at hr' hb hc ⊢
    rw [ec, streamBits_add] at hb
    obtain ⟨hb₁, hb₂⟩ := List.append_inj hb (by simp)
    have := (emits_decodeLoop h (n := n) (cap := cap) (w := w) (xs := [b]) (fun c hc => hx c (by simp_all)) (r := r)
      (by simp only [codeBits, List.flatMap_cons, List.flatMap_nil, List.append_nil, length_bitsMSB]; omega)
      (by simpa [codeBits] using hb₁) (by simp only [List.length_cons] at hw; omega)).1
      (by rw [length_bytesBits]; simp only [List.length_cons, List.length_nil] at hw ⊢; omega)
    obtain ⟨w', e, hW⟩ := this
    have hp := hW.pos
    rw [length_bytesBits] at hp
    have hs : decodeLoop cap (codeTable 0 lens codes) (largest lens) rd n (N + 1) r w =
        decodeLoop cap (codeTable 0 lens codes) (largest lens) rd n N (r + entry lens b) w' := by
      rw [List.length_singleton, decodeLoop] at e
      obtain ⟨y, h₁, e⟩ := except_bind_ok.1 e
      obtain ⟨z, h₂, e⟩ := except_bind_ok.1 e
      obtain ⟨e₁, rfl⟩ := Prod.mk.inj (Except.ok.inj e)
      rw [decodeLoop, h₁]
      show (writeBits cap y.1 8 w >>= _) = _
      rw [h₂, e₁]
      simp [codeBits]
      rfl
    rw [hs, ← Nat.add_assoc]
    exact ih (fun c hc => hx c (List.mem_cons_of_mem _ hc)) (by simp at hN; omega)
      (by simp only [List.length_cons, List.length_nil] at hw hp; omega) (.inr (by omega)) hb₂ (by rwa [Nat.add_assoc])

/-- The decoder's loop at codes that do not fit the output: OUTPUT_OVERFLOW before anything behind them is read
(42_huffman.md R213, 60_exceptions.md R306). -/
theorem decodeLoop_overflow {lens codes : List Nat} (h : PrefixCode lens codes) {rd : Nat → Byte} {n cap N : Nat} {xs : List Byte}
    (hx : ∀ b ∈ xs, 0 < entry lens b) (hN : xs.length ≤ N) {r : Nat} {w : Writer} (hw : w.pos ≤ 8 * cap)
    (ho : 8 * cap < w.pos + 8 * xs.length) (hr : r + (codeBits lens codes xs).length ≤ 8 * n)
    (hb : streamBits rd r (codeBits lens codes xs).length = codeBits lens codes xs) :
    decodeLoop cap (codeTable 0 lens codes) (largest lens) rd n N r w = .error .outputOverflow := by
  have hE := (emits_decodeLoop h (cap := cap) (w := w) hx hr hb hw).2 (by rw [length_bytesBits]; exact ho)
  suffices ∀ (k m r : Nat) (w : Writer),
      decodeLoop cap (codeTable 0 lens codes) (largest lens) rd n k r w = .error .outputOverflow →
      decodeLoop cap (codeTable 0 lens codes) (largest lens) rd n (k + m) r w = .error .outputOverflow by
    have := this xs.length (N - xs.length) r w hE
    rwa [show xs.length + (N - xs.length) = N by omega] at this
  intro k m
  induction k with
  | zero => intro r w h; cases h
  | succ k ih =>
    intro r w h
    rw [show k + 1 + m = k + m + 1 by omega]
    rw [decodeLoop] at h ⊢
    cases h₁ : decodeSymbolFrom (codeTable 0 lens codes) rd n (largest lens) 0 0 r with
    | error c => rw [h₁] at h; exact h
    | ok x =>
      rw [h₁] at h
      change (writeBits cap x.1 8 w >>= _) = _ at h
      show (writeBits cap x.1 8 w >>= _) = _
      cases h₂ : writeBits cap x.1 8 w with
      | error c => rw [h₂] at h; exact h
      | ok w' => rw [h₂] at h; exact ih _ _ h

/-! ## Complete codes -/

/-- In a row of intervals, the one that holds `v`. -/
theorem tile (ws : List (Nat × Nat)) (F : Nat × Nat → Nat) {v : Nat} (h : v < (ws.map F).sum) :
    ∃ ws₁ p ws₂, ws = ws₁ ++ p :: ws₂ ∧ (ws₁.map F).sum ≤ v ∧ v < (ws₁.map F).sum + F p := by
  induction ws generalizing v with
  | nil => simp at h
  | cons q ws ih =>
    by_cases hq : v < F q
    · exact ⟨[], q, ws, rfl, by simp, by simpa using hq⟩
    · rw [List.map_cons, List.sum_cons] at h
      obtain ⟨ws₁, p, ws₂, rfl, h₁, h₂⟩ := ih (v := v - F q) (by omega)
      exact ⟨q :: ws₁, p, ws₂, rfl, by simp; omega, by simp; omega⟩

theorem exists_bitsMSB (bs : List Bool) : ∃ v, v < 2 ^ bs.length ∧ bitsMSB v bs.length = bs := by
  induction bs with
  | nil => exact ⟨0, by simp, rfl⟩
  | cons b bs ih =>
    obtain ⟨v, hv, e⟩ := ih
    refine ⟨b.toNat * 2 ^ bs.length + v, ?_, ?_⟩
    · rw [List.length_cons, Nat.pow_succ]
      cases b <;> simp <;> omega
    · rw [List.length_cons, Nat.add_comm bs.length 1, bitsMSB_add]
      have h₁ : (b.toNat * 2 ^ bs.length + v) / 2 ^ bs.length = b.toNat := by
        rw [Nat.mul_comm, Nat.mul_add_div (Nat.two_pow_pos _), Nat.div_eq_of_lt hv, Nat.add_zero]
      have h₂ : bitsMSB (b.toNat * 2 ^ bs.length + v) bs.length = bs := by
        rw [← bitsMSB_mod, Nat.mul_comm, Nat.mul_add_mod, Nat.mod_eq_of_lt hv, e]
      rw [h₁, h₂]
      cases b <;> rfl

/-- A code whose Kraft sum is 2^64 is complete: any bits as many as the longest code has begin with a code (42_huffman.md
R203, R212). -/
theorem code_begins {lens : List Nat} (hl : lens.length = 256) (h64 : ∀ l ∈ lens, l ≤ 64) (hk : kraftSum lens = 2 ^ 64)
    {rest : List Bool} (hr : ∀ b : Byte, entry lens b ≤ rest.length) : ¬noCodeBegins lens (canonCodes lens) rest := by
  obtain ⟨v, hv, e⟩ := exists_bitsMSB rest
  have hsum : ((canonicalOrder lens).map fun q => 2 ^ (64 - q.1)).sum = 2 ^ 64 := by
    rw [((canonicalOrder_perm lens).map _).sum_eq, sum_codedFrom, hl, ← hk, kraftSum_eq hl, sum_range_map]
  have hlt : v * 2 ^ 64 / 2 ^ rest.length < 2 ^ 64 := by
    rw [Nat.div_lt_iff_lt_mul (Nat.two_pow_pos _), Nat.mul_comm (2 ^ 64)]
    exact Nat.mul_lt_mul_of_pos_right hv (Nat.two_pow_pos _)
  obtain ⟨t₁, p, t₂, ht, h₁, h₂⟩ := tile (canonicalOrder lens) (fun q => 2 ^ (64 - q.1)) (hlt.trans_eq hsum.symm)
  have hm : p ∈ canonicalOrder lens := by rw [ht]; simp
  rw [(canonicalOrder_perm lens).mem_iff, codedFrom_mem] at hm
  obtain ⟨-, hp, hpos⟩ := hm
  rw [Nat.sub_zero] at hp
  obtain ⟨hp256, hp'⟩ := List.getElem?_eq_some_iff.1 hp
  rw [hl] at hp256
  have hpe : lens.getD p.2 0 = p.1 := by rw [List.getD_eq_getElem?_getD, hp]; rfl
  have hp64 : p.1 ≤ 64 := h64 _ (List.mem_of_getElem? hp)
  have hcode := (canonCodes_spec hl h64 hp256).2 (by omega)
  rw [hpe, kraftBefore_split hl ht hpe] at hcode
  rw [← hcode] at h₁ h₂
  have hb8 : (BitVec.ofNat 8 p.2).toNat = p.2 := by simp; omega
  have hple := hr (BitVec.ofNat 8 p.2)
  rw [entry, hb8, hpe] at hple
  have hq : v / 2 ^ (rest.length - p.1) = (canonCodes lens).getD p.2 0 := by
    have hd : v * 2 ^ 64 / 2 ^ rest.length / 2 ^ (64 - p.1) = v / 2 ^ (rest.length - p.1) := by
      rw [Nat.div_div_eq_div_mul, ← Nat.pow_add, show rest.length + (64 - p.1) = rest.length - p.1 + 64 by omega, Nat.pow_add]
      exact Nat.mul_div_mul_right _ _ (Nat.two_pow_pos _)
    rw [← hd]
    refine Nat.div_eq_of_lt_le h₁ ?_
    rw [Nat.add_mul, Nat.one_mul]
    exact h₂
  intro hc
  refine hc (BitVec.ofNat 8 p.2) ?_ ?_
  · rw [entry, hb8]; omega
  · have := bitsMSB_add v p.1 (rest.length - p.1)
    rw [show p.1 + (rest.length - p.1) = rest.length by omega, e, hq] at this
    rw [entry, entry, hb8, hpe, this]
    exact List.prefix_append _ _

end Sys2Proof.Machine
end

