-- ==== Sys2Proof/Laws/Huffman.lean ====
section
/-!
SUPPORT. What the Huffman codec's own parts do: the frequency count, the code built from it, the header written and read
(42_huffman.md R190, R220, R225).
-/

namespace Sys2Proof.Machine

/-! ## The frequency count -/

@[simp] theorem length_freqOf (xs : List Byte) : (freqOf xs).length = 256 := by simp [freqOf, Config.nsym]

theorem getElem_freqOf (xs : List Byte) (s : Nat) (h : s < (freqOf xs).length) :
    (freqOf xs)[s] = xs.countP fun b => b.toNat = s := by simp [freqOf]

/-- `count()` counts the input bytes. -/
theorem countFreq_eq (rd : Nat → Byte) (n : Nat) : countFreq rd n = freqOf (slice rd 0 n) := by
  refine List.map_congr_left fun s _ => ?_
  rw [slice, List.countP_map]
  refine List.countP_congr fun i _ => ?_
  simp [Function.comp]

theorem sum_countP (xs : List Byte) (m : Nat) (hm : ∀ b ∈ xs, b.toNat < m) :
    ((List.range m).map fun s => xs.countP fun b => b.toNat = s).sum = xs.length := by
  rw [sum_range_map]
  induction xs with
  | nil => simp
  | cons x xs ih =>
    simp only [List.countP_cons]
    rw [Finset.sum_add_distrib, ih fun b hb => hm b (List.mem_cons_of_mem _ hb), List.length_cons]
    congr 1
    rw [Finset.sum_eq_single x.toNat]
    · simp
    · intro s _ hs
      simp [Ne.symm hs]
    · intro h
      exact absurd (Finset.mem_range.2 (hm x List.mem_cons_self)) h

/-- The frequencies sum to the number of bytes. -/
theorem sum_freqOf (xs : List Byte) : (freqOf xs).sum = xs.length := sum_countP xs 256 fun b _ => b.isLt

theorem mem_le_sum {xs : List Nat} {x : Nat} (h : x ∈ xs) : x ≤ xs.sum := by
  induction xs with
  | nil => cases h
  | cons y ys ih =>
    rw [List.sum_cons]
    rcases List.mem_cons.1 h with rfl | h
    · omega
    · have := ih h; omega

/-- Every byte of `xs` is present. -/
theorem freqOf_pos {xs : List Byte} {b : Byte} (h : b ∈ xs) : 0 < (freqOf xs)[b.toNat]'(by simpa using b.isLt) := by
  rw [getElem_freqOf, List.countP_pos_iff]
  exact ⟨b, h, by simp⟩

/-! ## The code built from the frequencies -/

/-- The code of weights that sum to less than 2^40 is a prefix code. -/
theorem prefixCode_build {freq : List Nat} (hl : freq.length = 256) (hs : freq.sum < 2 ^ 40) :
    PrefixCode (buildLens freq) (canonCodes (buildLens freq)) := by
  obtain ⟨-, h₂, -, -, h₅⟩ := buildLens_spec hl hs
  exact prefixCode_canon (length_buildLens freq) (fun l hl => (h₂ l hl).trans (by omega)) h₅

/-- Such a code is never too long (42_huffman.md R197). -/
theorem largest_build_le {freq : List Nat} (hl : freq.length = 256) (hs : freq.sum < 2 ^ 40) : largest (buildLens freq) ≤ 57 := by
  obtain ⟨-, h₂, -⟩ := buildLens_spec hl hs
  rcases largest_mem (buildLens freq) with h | h
  · omega
  · exact h₂ _ h

theorem canonCodes_lt {lens : List Nat} (h : PrefixCode lens (canonCodes lens)) (h64 : ∀ l ∈ lens, l ≤ 64) :
    ∀ c ∈ canonCodes lens, c < 2 ^ 64 := by
  intro c hc
  obtain ⟨x, hx, rfl⟩ := List.getElem_of_mem hc
  rw [length_canonCodes] at hx
  have h₁ := h.code_lt x hx
  have hl := h.lens_length
  rw [List.getD_eq_getElem?_getD, List.getElem?_eq_getElem (by simpa using hx), Option.getD_some] at h₁
  refine h₁.trans_le (Nat.pow_le_pow_right (by omega) ?_)
  rw [List.getD_eq_getElem?_getD, List.getElem?_eq_getElem (by omega), Option.getD_some]
  exact h64 _ (List.getElem_mem _)

/-- Every byte of `xs` has a code. -/
theorem entry_build_pos {xs : List Byte} (hs : xs.length < 2 ^ 40) {b : Byte} (h : b ∈ xs) :
    0 < entry (buildLens (freqOf xs)) b := by
  obtain ⟨h₁, -⟩ := buildLens_spec (length_freqOf xs) (by rw [sum_freqOf]; exact hs)
  have hb := b.isLt
  have := h₁ b.toNat hb
  have hp := freqOf_pos h
  rw [entry, List.getD_eq_getElem?_getD, List.getElem?_eq_getElem (by simpa using hb), Option.getD_some]
  omega

/-! ## The header -/

theorem emits_writeEntries (cap : Nat) (ps : List (Nat × Nat)) (w : Writer) :
    Emits cap (writeEntries cap ps w) (bytesBits (ps.flatMap fun p => BitVec.ofNat 8 p.1 :: beBytes p.2 4)) w id := by
  induction ps generalizing w with
  | nil => exact .nil rfl
  | cons p ps ih =>
    have e : bytesBits ((p :: ps).flatMap fun p => BitVec.ofNat 8 p.1 :: beBytes p.2 4) =
        bitsMSB p.1 8 ++ (bitsMSB p.2 32 ++ bytesBits (ps.flatMap fun p => BitVec.ofNat 8 p.1 :: beBytes p.2 4)) := by
      rw [List.flatMap_cons, bytesBits_append, bytesBits_cons, bytesBits_beBytes, List.append_assoc]
      congr 1
      simpa using bitsMSB_mod p.1 8
    rw [e]
    exact (emits_writeBits _ _ _ _).bind fun w₁ _ => (emits_writeBits _ _ _ _).bind fun w₂ _ => ih w₂

/-- The bits of a header (30_encoding.md R111). -/
theorem bytesBits_hufHeader (ps : List (Nat × Nat)) (total : Nat) :
    bytesBits (hufHeader ps total) = bitsMSB Config.tagH.toNat 8 ++ (bitsMSB ps.length 16 ++ (bitsMSB total 32 ++
      bytesBits (ps.flatMap fun p => BitVec.ofNat 8 p.1 :: beBytes p.2 4))) := by
  rw [hufHeader, bytesBits_cons, bytesBits_append, bytesBits_append, bytesBits_beBytes, bytesBits_beBytes,
    List.append_assoc]

theorem length_hufHeader (ps : List (Nat × Nat)) (total : Nat) : (hufHeader ps total).length = 7 + 5 * ps.length := by
  have : (ps.flatMap fun p => BitVec.ofNat 8 p.1 :: beBytes p.2 4).length = 5 * ps.length := by
    induction ps with
    | nil => rfl
    | cons p ps ih => rw [List.flatMap_cons, List.length_append, ih]; simp [length_beBytes]; omega
  simp only [hufHeader, List.length_cons, List.length_append, length_beBytes, this]
  omega

/-- The entries of a header as they are read. -/
theorem header_entries {rd : Nat → Byte} {a : Nat} {ps : List (Nat × Nat)}
    (h : slice rd a (5 * ps.length) = ps.flatMap fun p => BitVec.ofNat 8 p.1 :: beBytes p.2 4)
    (hp : ∀ p ∈ ps, p.1 < 256 ∧ p.2 < 2 ^ 32) :
    ∀ (j : Nat) (hj : j < ps.length), (rd (a + 5 * j)).toNat = ps[j].1 ∧ bigEndian rd (a + 5 * j + 1) 4 = ps[j].2 := by
  induction ps generalizing a with
  | nil => intro j hj; simp at hj
  | cons p ps ih =>
    rw [List.length_cons, show 5 * (ps.length + 1) = (4 + 5 * ps.length) + 1 by omega, slice_succ, slice_add,
      List.flatMap_cons, List.cons_append] at h
    obtain ⟨h₁, h₂⟩ := List.cons.inj h
    obtain ⟨h₂, h₃⟩ := List.append_inj h₂ (by simp [length_beBytes])
    have hb := hp p List.mem_cons_self
    intro j hj
    cases j with
    | zero =>
      refine ⟨?_, ?_⟩
      · simp only [Nat.mul_zero, Nat.add_zero, List.getElem_cons_zero]
        rw [h₁, BitVec.toNat_ofNat]
        exact Nat.mod_eq_of_lt hb.1
      · simp only [Nat.mul_zero, Nat.add_zero, List.getElem_cons_zero]
        rw [bigEndian_of_slice h₂]
        exact Nat.mod_eq_of_lt hb.2
    | succ j =>
      have := ih (a := a + 1 + 4) h₃ (fun q hq => hp q (List.mem_cons_of_mem _ hq)) j (by simpa using hj)
      rw [show a + 5 * (j + 1) = a + 1 + 4 + 5 * j by omega]
      simpa using this

/-- A header, read back (42_huffman.md R225, checks 2 to 6). -/
theorem header_read {rd : Nat → Byte} {ps : List (Nat × Nat)} {total : Nat}
    (h : slice rd 0 (7 + 5 * ps.length) = hufHeader ps total) (hk : ps.length ≤ 256) (ht : total < 2 ^ 32)
    (hp : ∀ p ∈ ps, p.1 < 256 ∧ p.2 < 2 ^ 32) :
    rd 0 = Config.tagH ∧ bigEndian rd 1 2 = ps.length ∧ bigEndian rd 3 4 = total ∧
      ∀ (j : Nat) (hj : j < ps.length), headerSymbol rd j = ps[j].1 ∧ headerFreq rd j = ps[j].2 := by
  rw [show 7 + 5 * ps.length = (2 + (4 + 5 * ps.length)) + 1 by omega, slice_succ, slice_add, slice_add, hufHeader,
    List.append_assoc] at h
  obtain ⟨h₁, h⟩ := List.cons.inj h
  obtain ⟨h₂, h⟩ := List.append_inj h (by simp [length_beBytes])
  obtain ⟨h₃, h₄⟩ := List.append_inj h (by simp [length_beBytes])
  refine ⟨h₁, ?_, ?_, fun j hj => ?_⟩
  · rw [bigEndian_of_slice h₂]; exact Nat.mod_eq_of_lt (by omega)
  · rw [bigEndian_of_slice h₃]; exact Nat.mod_eq_of_lt ht
  · have := header_entries h₄ hp j hj
    rw [headerSymbol, headerFreq, show 8 + 5 * j = 7 + 5 * j + 1 by omega]
    simpa using this

/-- The present symbols of a frequency table give the table back. -/
theorem lookup_presentFrom {freq : List Nat} (hl : freq.length = 256) :
    ((List.range 256).map fun s => (Memory.lookup (presentFrom 0 freq) s).getD 0) = freq := by
  apply List.ext_getElem
  · simp [hl]
  · intro s h₁ h₂
    simp only [List.getElem_map, List.getElem_range]
    have hn : ((presentFrom 0 freq).map Prod.fst).Nodup := (presentFrom_sorted 0 freq).imp fun h => Nat.ne_of_lt h
    by_cases h0 : freq[s] = 0
    · rw [lookup_eq_none, h0]
      · rfl
      · intro hc
        obtain ⟨p, hp, rfl⟩ := List.mem_map.1 hc
        obtain ⟨-, g₁, g₂⟩ := presentFrom_mem.1 hp
        have := (List.getElem?_eq_some_iff.1 g₁).2
        simp only [Nat.sub_zero] at this
        omega
    · rw [lookup_eq_some hn (presentFrom_mem.2 ⟨Nat.zero_le _, by simp, by simp only; omega⟩ : (s, freq[s]) ∈ _)]
      rfl

/-- The frequency table read from a header is the one it was written from, and its entries pass the checks (42_huffman.md
R225). -/
theorem headerTable_read {rd : Nat → Byte} {freq : List Nat} (hl : freq.length = 256)
    (h : ∀ (j : Nat) (hj : j < (presentFrom 0 freq).length),
      headerSymbol rd j = (presentFrom 0 freq)[j].1 ∧ headerFreq rd j = (presentFrom 0 freq)[j].2) :
    headerTable rd (presentFrom 0 freq).length = freq ∧
      (∀ j ∈ List.range (presentFrom 0 freq).length, headerEntryOk rd j) ∧
      ((List.range (presentFrom 0 freq).length).map (headerFreq rd)).sum = freq.sum := by
  have hpairs : ((List.range (presentFrom 0 freq).length).map fun j => (headerSymbol rd j, headerFreq rd j)) =
      presentFrom 0 freq := by
    apply List.ext_getElem
    · simp
    · intro j h₁ h₂
      simp only [List.getElem_map, List.getElem_range, (h j h₂).1, (h j h₂).2]
  refine ⟨?_, ?_, ?_⟩
  · rw [headerTable, hpairs]
    exact lookup_presentFrom hl
  · intro j hj
    have hj' := List.mem_range.1 hj
    refine ⟨?_, ?_⟩
    · rw [(h j hj').2]
      exact (presentFrom_mem.1 (List.getElem_mem hj')).2.2
    · by_cases h0 : j = 0
      · exact .inl h0
      · right
        rw [(h j hj').1, (h (j - 1) (by omega)).1]
        have hs := presentFrom_sorted 0 freq
        rw [List.pairwise_map] at hs
        exact List.pairwise_iff_getElem.1 hs (j - 1) j (by omega) hj' (by omega)
  · rw [← sum_presentFrom 0 freq]
    congr 1
    apply List.ext_getElem
    · simp
    · intro j h₁ h₂
      simp only [List.length_map] at h₂
      simp only [List.getElem_map, List.getElem_range, (h j h₂).2]

/-! ## Tables and payloads -/

theorem read_eq_getD {w : Nat} {m : Memory w} {xs : List Nat} (h : tableEntries m = xs) {x : Nat} (hx : x < 256) :
    (m.read x).toNat = xs.getD x 0 := by
  subst h
  rw [List.getD_eq_getElem?_getD, List.getElem?_eq_getElem (by rw [length_tableEntries]; exact hx), Option.getD_some,
    getElem_tableEntries]

theorem getD_mem {xs : List Nat} (h : xs.length = 256) {x : Nat} (hx : x < 256) : xs.getD x 0 ∈ xs := by
  rw [List.getD_eq_getElem?_getD, List.getElem?_eq_getElem (by omega), Option.getD_some]
  exact List.getElem_mem _

theorem distinct_tableEntries {w : Nat} (m : Memory w) :
    distinct (tableEntries m) = (List.range 256).countP fun x => 0 < (m.read x).toNat := by
  rw [distinct, tableEntries, List.countP_map]
  rfl

theorem distinct_le {xs : List Nat} (h : xs.length = 256) : distinct xs ≤ 256 := by
  rw [← h]
  exact List.countP_le_length

/-- A built LEN table holds the lengths built. -/
theorem tableEntries_buildLens {w : Nat} (m : Memory w) {freq : List Nat} (hl : freq.length = 256) (hs : freq.sum < 2 ^ 40)
    (hw : 6 ≤ w) : tableEntries (m.fill (buildLens freq)) = buildLens freq :=
  tableEntries_fill_of_lt _ _ (length_buildLens _) fun l h => by
    have := (buildLens_spec hl hs).2.1 l h
    have : 2 ^ 6 ≤ 2 ^ w := Nat.pow_le_pow_right (by omega) hw
    omega

/-- The frequencies a header can hold sum to less than 2^40. -/
theorem sum_headerTable_lt (rd : Nat → Byte) (k : Nat) : (headerTable rd k).sum < 2 ^ 40 := by
  refine sum_freq_lt (by simp [headerTable, Config.nsym]) fun f hf => ?_
  obtain ⟨s, -, rfl⟩ := List.mem_map.1 hf
  cases h : Memory.lookup ((List.range k).map fun j => (headerSymbol rd j, headerFreq rd j)) s with
  | none => simp
  | some v =>
    obtain ⟨j, -, e⟩ := List.mem_map.1 (mem_of_lookup h)
    cases e
    exact bigEndian_lt _ _ _

theorem emits_encodePayload (cap : Nat) {rd : Nat → Byte} {n : Nat} {xs : List Byte} (h : slice rd 0 n = xs) (w : Writer) :
    Emits cap (encodePayload cap (buildLens (freqOf xs)) (canonCodes (buildLens (freqOf xs))) rd n (distinct (freqOf xs)) w)
      (hufPayloadBits xs) w id := by
  rw [encodePayload, hufPayloadBits]
  split
  · rw [← h]
    exact emits_encodeFrom _ _ _ _ _ _ _
  · exact .nil rfl

/-- The payload of `xs` decodes to `xs` (42_huffman.md R225, R227). -/
theorem emits_hufPayload {cap n : Nat} {rd : Nat → Byte} {xs : List Byte} {w : Writer} (hx : xs.length < 2 ^ 40)
    (hsym : distinct (freqOf xs) = 1 → ∀ b ∈ xs, b.toNat = headerSymbol rd 0)
    (hn : n = ceil8 (8 * (7 + 5 * distinct (freqOf xs)) + (hufPayloadBits xs).length))
    (hb : streamBits rd (8 * (7 + 5 * distinct (freqOf xs))) (hufPayloadBits xs).length = hufPayloadBits xs) :
    Emits cap (hufPayload cap (buildLens (freqOf xs)) (canonCodes (buildLens (freqOf xs))) rd n (distinct (freqOf xs))
      xs.length w) (bytesBits xs) w fun w' =>
        (8 * (7 + 5 * distinct (freqOf xs)) + (hufPayloadBits xs).length, w', (hufPayloadBits xs).length) := by
  have hP := prefixCode_build (length_freqOf xs) (by rw [sum_freqOf]; exact hx)
  simp only [hufPayload]
  split
  · rename_i h1
    have hp : hufPayloadBits xs = [] := by rw [hufPayloadBits, if_neg (by omega)]
    rw [hp, h1]
    have hxs : xs = List.replicate xs.length (BitVec.ofNat 8 (headerSymbol rd 0)) := by
      rw [List.eq_replicate_iff]
      refine ⟨rfl, fun b hb => ?_⟩
      rw [← hsym h1 b hb]
      simp
    have := emits_writeCopies cap (BitVec.ofNat 8 (headerSymbol rd 0)) xs.length w
    rw [← hxs, show (BitVec.ofNat 8 (headerSymbol rd 0)).toNat = headerSymbol rd 0 by simp [headerSymbol]] at this
    have := this.bind (f := fun w => pure (8 * (7 + 5 * 1), w, 0)) (cs := []) (l := fun w => (8 * (7 + 5 * 1), w, 0))
      fun w' _ => .nil rfl
    simpa using this
  · split
    · rename_i h2
      have hp : hufPayloadBits xs = codeBits (buildLens (freqOf xs)) (canonCodes (buildLens (freqOf xs))) xs := by
        rw [hufPayloadBits, if_pos h2]
      rw [hp] at hn hb ⊢
      generalize hbits : codeBits (buildLens (freqOf xs)) (canonCodes (buildLens (freqOf xs))) xs = bits at hn hb ⊢
      have hE := emits_decodeLoop hP (cap := cap) (n := n) (w := w) (xs := xs)
        (r := 8 * (7 + 5 * distinct (freqOf xs))) (fun b hb => entry_build_pos hx hb)
        (by rw [hn, hbits]; simp only [ceil8]; omega) (by rw [hbits]; exact hb)
      rw [hbits] at hE
      have := hE.bind (f := fun x => if n ≠ ceil8 x.1 then .error .corruptStream
          else pure (x.1, x.2, x.1 - 8 * (7 + 5 * distinct (freqOf xs)))) (cs := [])
        (l := fun w' => (8 * (7 + 5 * distinct (freqOf xs)) + bits.length, w', bits.length)) fun w' _ => .nil (by
          dsimp only
          rw [if_neg (by simp [hn]), Nat.add_sub_cancel_left]
          rfl)
      simpa using this
    · rename_i h1 h2
      have hxs : xs = [] := by
        cases xs with
        | nil => rfl
        | cons b xs =>
          have h0 : distinct (freqOf (b :: xs)) = 0 := by omega
          have := freqOf_pos (xs := b :: xs) (b := b) List.mem_cons_self
          rw [distinct, List.countP_eq_zero] at h0
          exact absurd (by simpa using this) (h0 _ (List.getElem_mem _))
      have hp : hufPayloadBits xs = [] := by rw [hufPayloadBits, if_neg (by omega)]
      have hb0 : bytesBits xs = [] := by rw [hxs]; rfl
      rw [hp, hb0, List.length_nil, Nat.add_zero]
      exact .nil rfl

/-- What is written from the start of OBUF, and flushed, with the padding bits 0 (41_bitstream.md R171, R174). -/
theorem Writer.Wrote.flushed {cap : Nat} {bits : List Bool} {w₀ w : Writer} (h₀ : w₀.pos = 0)
    (h : Writer.Wrote cap bits w₀ w) :
    streamBits w.mem.read 0 (8 * ceil8 w.pos) = bits ++ List.replicate (8 * ceil8 w.pos - bits.length) false := by
  have hp := h.pos
  rw [h₀, Nat.zero_add] at hp
  have hc : w.Clean := h.clean (by intro p _ hp2; rw [h₀] at hp2; simp [ceil8] at hp2)
  have e : 8 * ceil8 w.pos = bits.length + (8 * ceil8 w.pos - bits.length) := by simp only [ceil8]; omega
  rw [e, streamBits_add, Nat.zero_add, Nat.add_sub_cancel_left]
  have hf := h.fresh
  rw [h₀] at hf
  rw [hf]
  congr 1
  apply List.ext_getElem
  · simp
  · intro i h1 h2
    simp only [length_streamBits] at h1
    simp only [streamBits, List.getElem_map, List.getElem_range, List.getElem_replicate]
    exact hc _ (by omega) (by omega)

/-- How far the decoder's loop has written. -/
theorem decodeLoop_pos {cap maxlen n k r : Nat} {table : List (Nat × Nat × Nat)} {rd : Nat → Byte} {w : Writer}
    {x : Nat × Writer} (h : decodeLoop cap table maxlen rd n k r w = .ok x) (hw : w.pos ≤ 8 * cap) :
    x.2.pos = w.pos + 8 * k ∧ x.2.pos ≤ 8 * cap := by
  induction k generalizing r w with
  | zero => cases h; exact ⟨rfl, hw⟩
  | succ k ih =>
    obtain ⟨y, -, h⟩ := except_bind_ok.1 h
    obtain ⟨a, h₁, h₂⟩ := except_bind_ok.1 h
    have hE := emits_writeBits cap y.1 8 w hw
    by_cases hc : w.pos + (bitsMSB y.1 8).length ≤ 8 * cap
    · obtain ⟨a', e, hW⟩ := hE.1 hc
      rw [h₁] at e
      cases e
      have hp : a'.pos = w.pos + 8 := by rw [hW.pos, length_bitsMSB]
      have hi : x.2.pos = a'.pos + 8 * k ∧ x.2.pos ≤ 8 * cap := ih h₂ hW.fits
      omega
    · rw [hE.2 (by omega)] at h₁
      cases h₁

/-- How far the copies have written. -/
theorem writeCopies_pos {cap v c : Nat} {w x : Writer} (h : writeCopies cap v c w = .ok x) (hw : w.pos ≤ 8 * cap) :
    x.pos = w.pos + 8 * c ∧ x.pos ≤ 8 * cap := by
  induction c generalizing w with
  | zero => cases h; exact ⟨rfl, hw⟩
  | succ c ih =>
    obtain ⟨a, h₁, h₂⟩ := except_bind_ok.1 h
    have hE := emits_writeBits cap v 8 w hw
    by_cases hc : w.pos + (bitsMSB v 8).length ≤ 8 * cap
    · obtain ⟨a', e, hW⟩ := hE.1 hc
      rw [h₁] at e
      cases e
      have hp : a'.pos = w.pos + 8 := by rw [hW.pos, length_bitsMSB]
      have hi : x.pos = a'.pos + 8 * c ∧ x.pos ≤ 8 * cap := ih h₂ hW.fits
      omega
    · rw [hE.2 (by omega)] at h₁
      cases h₁

theorem bigEndian_byteAt (s : State) {k i : Nat} (h : i + k ≤ s.n) :
    bigEndian (byteAt s.inputArray) i k = bigEndian s.ibuf.read i k := by
  induction k with
  | zero => rfl
  | succ k ih => rw [bigEndian, bigEndian, ih (by omega), byteAt_inputArray s (by omega)]

/-- Checks 1 to 6 of HUF_DECOMPRESS, as the meaning makes them (42_huffman.md R225). -/
theorem hufHeaderOk_iff (s : State) : HufHeaderOk s.ibuf.read s.n ↔
    7 ≤ s.n ∧ byteAt s.inputArray 0 = Config.tagH ∧ bigEndian (byteAt s.inputArray) 1 2 ≤ 256 ∧
    7 + 5 * bigEndian (byteAt s.inputArray) 1 2 ≤ s.n ∧
    (∀ j ∈ List.range (bigEndian (byteAt s.inputArray) 1 2), headerEntryOk (byteAt s.inputArray) j) ∧
    ((List.range (bigEndian (byteAt s.inputArray) 1 2)).map (headerFreq (byteAt s.inputArray))).sum =
      bigEndian (byteAt s.inputArray) 3 4 := by
  by_cases h7 : 7 ≤ s.n
  swap
  · exact ⟨fun h => absurd h.fixed h7, fun h => absurd h.1 h7⟩
  rw [byteAt_inputArray s (show 0 < s.n by omega), bigEndian_byteAt s (show 1 + 2 ≤ s.n by omega),
    bigEndian_byteAt s (show 3 + 4 ≤ s.n by omega)]
  by_cases hn : 7 + 5 * bigEndian s.ibuf.read 1 2 ≤ s.n
  swap
  · exact ⟨fun h => absurd h.entries hn, fun h => absurd h.2.2.2.1 hn⟩
  have ef : ∀ j, j < bigEndian s.ibuf.read 1 2 → headerFreq (byteAt s.inputArray) j = bigEndian s.ibuf.read (8 + 5 * j) 4 :=
    fun j hj => bigEndian_byteAt s (by omega)
  have es : ∀ j, j < bigEndian s.ibuf.read 1 2 → headerSymbol (byteAt s.inputArray) j = (s.ibuf.read (7 + 5 * j)).toNat :=
    fun j hj => by rw [headerSymbol, byteAt_inputArray s (by omega)]
  have esum : (List.range (bigEndian s.ibuf.read 1 2)).map (headerFreq (byteAt s.inputArray)) =
      (List.range (bigEndian s.ibuf.read 1 2)).map fun j => bigEndian s.ibuf.read (8 + 5 * j) 4 :=
    List.map_congr_left fun j hj => ef j (by simpa using hj)
  rw [esum]
  constructor
  · intro h
    refine ⟨h7, h.tag, h.count, hn, fun j hj => ?_, h.total⟩
    have hj : j < bigEndian s.ibuf.read 1 2 := by simpa using hj
    refine ⟨by rw [ef j hj]; exact h.present j hj, ?_⟩
    cases j with
    | zero => exact .inl rfl
    | succ j =>
      right
      rw [Nat.add_sub_cancel, es j (by omega), es (j + 1) hj]
      exact h.rising j hj
  · rintro ⟨-, ht, hc, -, he, hs⟩
    refine ⟨h7, ht, hc, hn, fun j hj => ?_, fun j hj => ?_, hs⟩
    · rw [← ef j hj]
      exact (he j (by simpa using hj)).1
    · have := (he (j + 1) (by simpa using hj)).2.resolve_left (by omega)
      rwa [Nat.add_sub_cancel, es j (by omega), es (j + 1) hj] at this

end Sys2Proof.Machine
end

