-- ==== Sys2Proof/Laws/Lz77.lean ====
section
/-!
SUPPORT. What the LZ77 units do: the match finder finds the longest match and among those the nearest, the token serializer
appends a token's bytes, the compressor's loop appends the tokens of the greedy parse, which cover the input and replay to
it, and the replay accepts exactly the tokens that pass its checks (44_lz77.md).
-/

namespace Sys2Proof.Machine

/-! ## The match finder -/

theorem matchLength_le (rd : Nat → Byte) (a b k : Nat) : matchLength rd a b k ≤ k := by
  induction k generalizing a b with
  | zero => exact Nat.le_refl _
  | succ k ih => simp only [matchLength]; have := ih (a + 1) (b + 1); split <;> omega

/-- `l` bytes agree exactly if the counter reaches `l`. -/
theorem le_matchLength (rd : Nat → Byte) (a b k l : Nat) (h : l ≤ k) :
    l ≤ matchLength rd a b k ↔ ∀ j, j < l → rd (a + j) = rd (b + j) := by
  induction k generalizing a b l with
  | zero => simp [show l = 0 by omega]
  | succ k ih =>
    cases l with
    | zero => simp
    | succ l =>
      simp only [matchLength]
      split
      · rename_i e
        rw [Nat.add_le_add_iff_right, ih (a + 1) (b + 1) l (by omega)]
        constructor
        · intro hj j hlt
          cases j with
          | zero => exact e
          | succ j => rw [show a + (j + 1) = a + 1 + j by omega, show b + (j + 1) = b + 1 + j by omega]; exact hj j (by omega)
        · intro hj j hlt
          rw [show a + 1 + j = a + (j + 1) by omega, show b + 1 + j = b + (j + 1) by omega]
          exact hj (j + 1) (by omega)
      · rename_i e
        exact ⟨fun h => absurd h (by omega), fun h => absurd (h 0 (by omega)) e⟩

theorem bestMatch_spec (rd : Nat → Byte) (p m D : Nat) :
    ((bestMatch rd p m D).2 = 0 → (bestMatch rd p m D).1 = 0) ∧
    (0 < (bestMatch rd p m D).2 → 1 ≤ (bestMatch rd p m D).1 ∧ (bestMatch rd p m D).1 ≤ D ∧
      (bestMatch rd p m D).2 = matchLength rd (p - (bestMatch rd p m D).1) p m) ∧
    ∀ d, 1 ≤ d → d ≤ D → matchLength rd (p - d) p m ≤ (bestMatch rd p m D).2 ∧
      (matchLength rd (p - d) p m = (bestMatch rd p m D).2 → 0 < (bestMatch rd p m D).2 → (bestMatch rd p m D).1 ≤ d) := by
  induction D with
  | zero => exact ⟨fun _ => rfl, fun h => absurd h (Nat.lt_irrefl 0), fun d h h' => absurd h (by omega)⟩
  | succ D ih =>
    obtain ⟨h₀, h₁, h₂⟩ := ih
    simp only [bestMatch]
    split
    · rename_i hlt
      refine ⟨fun h => absurd h (by omega), fun _ => ⟨by omega, Nat.le_refl _, rfl⟩, fun d hd hd' => ?_⟩
      by_cases he : d = D + 1
      · subst he; exact ⟨Nat.le_refl _, fun _ _ => Nat.le_refl _⟩
      · have := (h₂ d hd (by omega)).1
        exact ⟨by omega, fun e => absurd e (by omega)⟩
    · rename_i hlt
      refine ⟨h₀, fun h => ⟨(h₁ h).1, (h₁ h).2.1.trans (by omega), (h₁ h).2.2⟩, fun d hd hd' => ?_⟩
      by_cases he : d = D + 1
      · subst he; exact ⟨by omega, fun _ h => (h₁ h).2.1.trans (by omega)⟩
      · exact h₂ d hd (by omega)

/-- `longest_match(p)`: a match inside the window and the bounds, no shorter than any other, and the nearest of its length
(44_lz77.md R260). -/
theorem longestMatch_spec (rd : Nat → Byte) (n p : Nat) :
    (longestMatch rd n p).2 ≤ min 255 (n - p) ∧
    ((longestMatch rd n p).2 = 0 → (longestMatch rd n p).1 = 0) ∧
    (0 < (longestMatch rd n p).2 → 1 ≤ (longestMatch rd n p).1 ∧ (longestMatch rd n p).1 ≤ min 4096 p ∧
      ∀ j, j < (longestMatch rd n p).2 → rd (p - (longestMatch rd n p).1 + j) = rd (p + j)) ∧
    ∀ d l, 1 ≤ d → d ≤ min 4096 p → l ≤ min 255 (n - p) → (∀ j, j < l → rd (p - d + j) = rd (p + j)) →
      l ≤ (longestMatch rd n p).2 ∧ (l = (longestMatch rd n p).2 → 0 < (longestMatch rd n p).2 → (longestMatch rd n p).1 ≤ d) := by
  obtain ⟨h₀, h₁, h₂⟩ := bestMatch_spec rd p (min 255 (n - p)) (min 4096 p)
  change ((longestMatch rd n p).2 = 0 → (longestMatch rd n p).1 = 0) at h₀
  change (0 < (longestMatch rd n p).2 → 1 ≤ (longestMatch rd n p).1 ∧ (longestMatch rd n p).1 ≤ min 4096 p ∧
    (longestMatch rd n p).2 = matchLength rd (p - (longestMatch rd n p).1) p (min 255 (n - p))) at h₁
  change ∀ d, 1 ≤ d → d ≤ min 4096 p → matchLength rd (p - d) p (min 255 (n - p)) ≤ (longestMatch rd n p).2 ∧
    (matchLength rd (p - d) p (min 255 (n - p)) = (longestMatch rd n p).2 → 0 < (longestMatch rd n p).2 →
      (longestMatch rd n p).1 ≤ d) at h₂
  generalize longestMatch rd n p = b at h₀ h₁ h₂ ⊢
  have hle : b.2 ≤ min 255 (n - p) := by
    by_cases hb : 0 < b.2
    · rw [(h₁ hb).2.2]; exact matchLength_le _ _ _ _
    · omega
  refine ⟨hle, h₀, fun hb => ⟨(h₁ hb).1, (h₁ hb).2.1, ?_⟩, fun d l hd hd' hl ha => ?_⟩
  · exact (le_matchLength rd _ _ _ _ hle).1 (by rw [← (h₁ hb).2.2])
  · have hm := (le_matchLength rd (p - d) p _ _ hl).2 ha
    obtain ⟨k₁, k₂⟩ := h₂ d hd hd'
    exact ⟨hm.trans k₁, fun e hb => k₂ (by omega) hb⟩

theorem matchLength_congr {rd rd' : Nat → Byte} {a b k : Nat}
    (h : ∀ i, i < k → rd (a + i) = rd' (a + i) ∧ rd (b + i) = rd' (b + i)) : matchLength rd a b k = matchLength rd' a b k := by
  induction k generalizing a b with
  | zero => rfl
  | succ k ih =>
    have h₀ := h 0 (by omega)
    simp only [Nat.add_zero] at h₀
    simp only [matchLength, h₀]
    rw [ih fun i hi => by
      have := h (i + 1) (by omega)
      rwa [show a + 1 + i = a + (i + 1) by omega, show b + 1 + i = b + (i + 1) by omega]]

theorem longestMatch_congr {rd rd' : Nat → Byte} {n p : Nat} (h : ∀ i, i < n → rd i = rd' i) :
    longestMatch rd n p = longestMatch rd' n p := by
  suffices ∀ D, bestMatch rd p (min Config.maxMatch (n - p)) D = bestMatch rd' p (min Config.maxMatch (n - p)) D from this _
  intro D
  induction D with
  | zero => rfl
  | succ D ih => simp only [bestMatch]; rw [ih, matchLength_congr fun i hi => ⟨h _ (by omega), h _ (by omega)⟩]

theorem lzTokens_congr {rd rd' : Nat → Byte} {n f p : Nat} (h : ∀ i, i < n → rd i = rd' i) :
    lzTokens rd n f p = lzTokens rd' n f p := by
  induction f generalizing p with
  | zero => rfl
  | succ f ih =>
    simp only [lzTokens]
    rw [longestMatch_congr h]
    split
    · split
      · rw [ih]
      · rw [ih, h _ ‹_›]
    · rfl

theorem length_lzTokens (rd : Nat → Byte) (n f p : Nat) : (lzTokens rd n f p).length ≤ f := by
  induction f generalizing p with
  | zero => exact Nat.le_refl _
  | succ f ih =>
    simp only [lzTokens]
    split
    · split <;> simpa using ih _
    · exact Nat.zero_le _

/-! ## The token serializer -/

@[simp] theorem isLiteral_literal (b : Byte) : (Token.literal b).isLiteral = true := rfl
@[simp] theorem isLiteral_copy (d l : Nat) : (Token.copy d l).isLiteral = false := rfl

theorem emits_emitLiteral (cap : Nat) (b : Byte) (w : Writer) :
    Emits cap (emitLiteral cap b w) (bytesBits (Token.literal b).bytes) w id :=
  (emits_writeBits cap 0 8 w).bind fun w' _ => by simpa [bytesBits] using emits_writeBits cap b.toNat 8 w'

theorem bytesBits_copy (d l : Nat) : bytesBits (Token.copy d l).bytes = bitsMSB 1 8 ++ (bitsMSB d 16 ++ bitsMSB l 16) := by
  rw [Token.bytes, bytesBits_cons, bytesBits_append, bytesBits_beBytes, bytesBits_beBytes]
  rfl

theorem emits_emitMatch (cap d l : Nat) (w : Writer) :
    Emits cap (emitMatch cap d l w) (bytesBits (Token.copy d l).bytes) w id := by
  rw [bytesBits_copy]
  exact (emits_writeBits cap 1 8 w).bind fun w₁ _ => (emits_writeBits cap d 16 w₁).bind fun w₂ _ => emits_writeBits cap l 16 w₂

theorem length_literal (b : Byte) : (Token.literal b).bytes.length = 2 := rfl

theorem length_copy (d l : Nat) : (Token.copy d l).bytes.length = 5 := by simp [Token.bytes, length_beBytes]

/-! ## The compressor's loop -/

theorem emits_lzCompressLoop (cap : Nat) (rd : Nat → Byte) (n f p : Nat) (k : Tokens) (h : n - p ≤ f) :
    Emits cap (lzCompressLoop cap rd n f p k) (bytesBits ((lzTokens rd n f p).flatMap Token.bytes)) k.out
      fun w' => { lits := k.lits + (lzTokens rd n f p).countP Token.isLiteral,
                  ms := k.ms + (lzTokens rd n f p).countP fun t => !t.isLiteral, out := w' } := by
  induction f generalizing p k with
  | zero => exact .nil rfl
  | succ f ih =>
    simp only [lzCompressLoop, lzTokens]
    split
    · split
      · rename_i hm
        rw [List.flatMap_cons, bytesBits_append]
        refine (emits_emitMatch cap _ _ k.out).bind fun w' _ => ?_
        have := ih (p + (longestMatch rd n p).2) { k with ms := k.ms + 1, out := w' } (by
          have : Config.minMatch = 3 := rfl
          omega)
        simpa [List.countP_cons, Nat.add_assoc, Nat.add_comm 1] using this
      · rw [List.flatMap_cons, bytesBits_append]
        refine (emits_emitLiteral cap (rd p) k.out).bind fun w' _ => ?_
        have := ih (p + 1) { k with lits := k.lits + 1, out := w' } (by omega)
        simpa [List.countP_cons, Nat.add_assoc, Nat.add_comm 1] using this
    · exact .nil rfl

/-- The greedy parse covers the input (44_lz77.md R271). -/
theorem lzTokens_cover (rd : Nat → Byte) (n f p : Nat) (hp : p ≤ n) (h : n - p ≤ f) :
    tokensCover rd n p (lzTokens rd n f p) := by
  induction f generalizing p with
  | zero => exact show p = n by omega
  | succ f ih =>
    simp only [lzTokens]
    split
    · rename_i hlt
      split
      · rename_i hm
        have h3 : Config.minMatch = 3 := rfl
        obtain ⟨h₀, -, h₁, -⟩ := longestMatch_spec rd n p
        obtain ⟨k₁, k₂, k₃⟩ := h₁ (by omega)
        exact ⟨k₁, k₂, hm, h₀.trans (Nat.min_le_left _ _), by omega, k₃, ih _ (by omega) (by omega)⟩
      · exact ⟨hlt, rfl, ih _ (by omega) (by omega)⟩
    · exact show p = n by omega

/-! ## Copies and replays -/

/-- What a copy adds to `out`. -/
def copied (d : Nat) : Nat → List Byte → List Byte
  | 0, _       => []
  | l + 1, out => out.getD (out.length - d) 0#8 :: copied d l (out ++ [out.getD (out.length - d) 0#8])

theorem copyBytes_eq (d l : Nat) (out : List Byte) : copyBytes d l out = out ++ copied d l out := by
  induction l generalizing out with
  | zero => simp [copyBytes, copied]
  | succ l ih => simp [copyBytes, copied, ih]

@[simp] theorem length_copied (d l : Nat) (out : List Byte) : (copied d l out).length = l := by
  induction l generalizing out with
  | zero => rfl
  | succ l ih => simp [copied, ih]

@[simp] theorem length_copyBytes (d l : Nat) (out : List Byte) : (copyBytes d l out).length = out.length + l := by
  simp [copyBytes_eq]

/-- Copying from distance `d` the bytes that agree with those at `p` gives those at `p`. -/
theorem copyBytes_slice (rd : Nat → Byte) (p d l : Nat) (hd : 1 ≤ d) (hd' : d ≤ p)
    (h : ∀ j, j < l → rd (p - d + j) = rd (p + j)) : copyBytes d l (slice rd 0 p) = slice rd 0 (p + l) := by
  induction l generalizing p with
  | zero => rfl
  | succ l ih =>
    have e : (slice rd 0 p).getD ((slice rd 0 p).length - d) 0#8 = rd p := by
      have h₀ := h 0 (by omega)
      rw [List.getD_eq_getElem?_getD, length_slice, getElem?_slice _ _ _ _ (by omega)]
      simpa using h₀
    rw [copyBytes, e, show slice rd 0 p ++ [rd p] = slice rd 0 (p + 1) by rw [slice_add, Nat.zero_add]; simp [slice_succ],
      ih (p + 1) (by omega), show p + 1 + l = p + (l + 1) by omega]
    intro j hj
    have := h (j + 1) (by omega)
    rwa [show p + 1 - d + j = p - d + (j + 1) by omega, show p + 1 + j = p + (j + 1) by omega]

/-- Tokens that cover the input from `p` on replay to it (44_lz77.md R274). -/
theorem replay_of_cover (rd : Nat → Byte) (n p : Nat) (ts : List Token) (h : tokensCover rd n p ts) :
    replayTokens n (slice rd 0 p) ts = some (slice rd 0 n) := by
  induction ts generalizing p with
  | nil => obtain rfl : p = n := h; simp [replayTokens]
  | cons t ts ih =>
    cases t with
    | literal b =>
      obtain ⟨hp, rfl, ht⟩ := h
      rw [replayTokens, if_pos (by simpa using hp),
        show slice rd 0 p ++ [rd p] = slice rd 0 (p + 1) by rw [slice_add, Nat.zero_add]; simp [slice_succ]]
      exact ih _ ht
    | copy d l =>
      obtain ⟨h₁, h₂, h₃, h₄, h₅, h₆, ht⟩ := h
      have hm : Config.minMatch = 3 := rfl
      rw [replayTokens, if_pos ⟨by simp; omega, h₁, by omega, by simp; omega, h₃, h₄, by simpa using h₅⟩,
        copyBytes_slice rd p d l h₁ (by omega) h₆]
      exact ih _ ht

theorem replayTokens_length {total : Nat} {out res : List Byte} {ts : List Token} (h : replayTokens total out ts = some res) :
    res.length = total := by
  induction ts generalizing out with
  | nil =>
    simp only [replayTokens] at h
    split at h
    · cases h; assumption
    · cases h
  | cons t ts ih =>
    cases t <;> simp only [replayTokens] at h <;> split at h
    · exact ih h
    · cases h
    · exact ih h
    · cases h

/-! ## The decompressor's loops -/

/-- A writer that has written the bytes `out` from the start of OBUF on. -/
theorem emits_copyMatch (cap d l : Nat) (out : List Byte) (w₀ w : Writer) (h₀ : w₀.pos = 0)
    (h : Writer.Wrote cap (bytesBits out) w₀ w) (hd : 1 ≤ d) (hd' : d ≤ out.length) :
    Emits cap (copyMatch cap d l out.length w) (bytesBits (copied d l out)) w id := by
  induction l generalizing out w with
  | zero => exact .nil rfl
  | succ l ih =>
    have e : w.mem.read (out.length - d) = out.getD (out.length - d) 0#8 := by
      have := h.getElem (a := 0) (i := out.length - d) (by omega) (by omega)
      rw [Nat.zero_add] at this
      rw [this, List.getD_eq_getElem?_getD, List.getElem?_eq_getElem (by omega)]
      rfl
    rw [copyMatch, copied, bytesBits_cons, e]
    refine (emits_writeBits _ _ _ _).bind fun w' hw' => ?_
    have := ih (out ++ [out.getD (out.length - d) 0#8]) w'
      (by simpa [bytesBits_cons] using h.trans hw') (by simp; omega)
    simpa using this

/-- Reading a big-endian field of `k` bytes at a byte boundary. -/
theorem readBits_field {rd : Nat → Byte} {n a k v : Nat} (h : a + k ≤ n) (hs : slice rd a k = beBytes v k) (hv : v < 2 ^ (8 * k)) :
    readBits rd n (8 * k) (8 * a) = .ok (v, 8 * (a + k)) := by
  rw [readBits_eq (by omega) hv]
  · rw [Nat.mul_add]
  · rw [streamBits_bytes, ← bytesBits_beBytes]
    exact congrArg bytesBits hs

theorem length_token (t : Token) : 2 ≤ t.bytes.length := by
  cases t
  · exact Nat.le_refl _
  · simp [length_copy]

/-- The replay of tokens that pass its checks, as far as they go (44_lz77.md R273). -/
theorem lzReplay_prefix {cap n total m : Nat} {rd : Nat → Byte} {w₀ : Writer} (h₀ : w₀.pos = 0) (hc : total ≤ cap) (hm : m ≤ total)
    {ts : List Token} {f a : Nat} {out res : List Byte} {k : Tokens} (hf : total - out.length ≤ f)
    (hs : slice rd a (ts.flatMap Token.bytes).length = ts.flatMap Token.bytes)
    (hn : a + (ts.flatMap Token.bytes).length ≤ n) (hr : replayTokens m out ts = some res)
    (hw : Writer.Wrote cap (bytesBits out) w₀ k.out) :
    ∃ w g, total - res.length ≤ g ∧ lzReplay cap rd n total f (8 * a) out.length k =
        lzReplay cap rd n total g (8 * (a + (ts.flatMap Token.bytes).length)) res.length
          { lits := k.lits + ts.countP Token.isLiteral, ms := k.ms + ts.countP fun t => !t.isLiteral, out := w } ∧
      Writer.Wrote cap (bytesBits res) w₀ w := by
  induction ts generalizing f a out k with
  | nil =>
    simp only [replayTokens] at hr
    split at hr
    · rename_i hl
      cases hr
      exact ⟨k.out, f, hf, rfl, hw⟩
    · cases hr
  | cons t ts ih =>
    have hlen := length_token t
    rw [List.flatMap_cons] at hs hn ⊢
    obtain ⟨hs₁, hs₂⟩ := slice_append hs
    rw [List.length_append] at hn ⊢
    have hres := replayTokens_length hr
    cases t with
    | literal b =>
      simp only [replayTokens] at hr
      split at hr
      · rename_i hlt
        obtain ⟨f, rfl⟩ : ∃ g, f = g + 1 := ⟨f - 1, by omega⟩
        simp only [length_literal] at hs₁ hs₂ hn ⊢
        rw [slice_succ, slice_succ] at hs₁
        simp only [slice_zero, Token.bytes, List.cons.injEq, and_true] at hs₁
        have e₁ : readBits rd n 8 (8 * a) = .ok (0, 8 * (a + 1)) := by rw [readBits_byte (by omega), hs₁.1]; rfl
        have e₂ : readBits rd n 8 (8 * (a + 1)) = .ok (b.toNat, 8 * (a + 2)) := by
          rw [readBits_byte (by omega), hs₁.2]
        have hp := hw.pos
        rw [length_bytesBits] at hp
        obtain ⟨w, ew, hw'⟩ := (emits_writeBits cap b.toNat 8 k.out hw.fits).1 (by rw [length_bitsMSB]; omega)
        obtain ⟨w', g, hg, ew', hw''⟩ := ih (f := f) (a := a + 2) (out := out ++ [b]) (k := { k with lits := k.lits + 1, out := w })
          (by simp; omega) hs₂ (by omega) hr (by simpa [bytesBits_cons] using hw.trans hw')
        refine ⟨w', g, hg, ?_, hw''⟩
        rw [lzReplay, if_pos (by omega), e₁]
        show (readBits rd n 8 (8 * (a + 1)) >>= _) = _
        rw [e₂]
        show (writeBits cap b.toNat 8 k.out >>= _) = _
        rw [ew]
        show lzReplay cap rd n total f (8 * (a + 2)) (out.length + 1) { k with lits := k.lits + 1, out := w } = _
        rw [show out.length + 1 = (out ++ [b]).length by simp, ew']
        simp [List.countP_cons, Nat.add_assoc, Nat.add_comm 1]
      · cases hr
    | copy d l =>
      simp only [replayTokens] at hr
      split at hr
      · rename_i hk
        obtain ⟨hlt, hd, hd', hd'', hl, hl', hle⟩ := hk
        have hW : Config.window = 4096 := rfl
        have hM : Config.maxMatch = 255 := rfl
        have hm : Config.minMatch = 3 := rfl
        obtain ⟨f, rfl⟩ : ∃ g, f = g + 1 := ⟨f - 1, by omega⟩
        simp only [length_copy] at hs₁ hs₂ hn ⊢
        rw [slice_succ, Token.bytes, List.cons.injEq, show 4 = 2 + 2 from rfl, slice_add] at hs₁
        obtain ⟨g₁, g₂⟩ := List.append_inj hs₁.2 (by simp [length_beBytes])
        have e₁ : readBits rd n 8 (8 * a) = .ok (1, 8 * (a + 1)) := by rw [readBits_byte (by omega), hs₁.1]; rfl
        have e₂ : readBits rd n 16 (8 * (a + 1)) = .ok (d, 8 * (a + 1 + 2)) := readBits_field (k := 2) (by omega) g₁ (by omega)
        have e₃ : readBits rd n 16 (8 * (a + 1 + 2)) = .ok (l, 8 * (a + 1 + 2 + 2)) :=
          readBits_field (k := 2) (by omega) g₂ (by omega)
        have hp := hw.pos
        rw [length_bytesBits] at hp
        obtain ⟨w, ew, hw'⟩ := (emits_copyMatch cap d l out w₀ k.out h₀ hw hd hd'' hw.fits).1
          (by rw [length_bytesBits, length_copied]; omega)
        obtain ⟨w', g, hg, ew', hw''⟩ := ih (f := f) (a := a + 5) (out := copyBytes d l out)
          (k := { k with ms := k.ms + 1, out := w }) (by simp; omega) hs₂ (by omega) hr
          (by rw [copyBytes_eq, bytesBits_append]; exact hw.trans hw')
        refine ⟨w', g, hg, ?_, hw''⟩
        rw [lzReplay, if_pos (by omega), e₁]
        show (readBits rd n 16 (8 * (a + 1)) >>= _) = _
        rw [e₂]
        show (readBits rd n 16 (8 * (a + 1 + 2)) >>= _) = _
        rw [e₃]
        show (if d < 1 ∨ Config.window < d ∨ out.length < d then _ else _) = _
        rw [if_neg (by omega), if_neg (by omega)]
        show (copyMatch cap d l out.length k.out >>= _) = _
        rw [ew]
        show lzReplay cap rd n total f (8 * (a + 5)) (out.length + l) { k with ms := k.ms + 1, out := w } = _
        rw [show out.length + l = (copyBytes d l out).length by simp, ew']
        simp [Nat.add_assoc, Nat.add_comm 1]
      · cases hr

/-- The replay of tokens that pass its checks and end at the declared length (44_lz77.md R273). -/
theorem lzReplay_of_tokens {cap n total : Nat} {rd : Nat → Byte} {w₀ : Writer} (h₀ : w₀.pos = 0) (hc : total ≤ cap)
    {ts : List Token} {f a : Nat} {out res : List Byte} {k : Tokens} (hf : total - out.length ≤ f)
    (hs : slice rd a (ts.flatMap Token.bytes).length = ts.flatMap Token.bytes)
    (hn : a + (ts.flatMap Token.bytes).length ≤ n) (hr : replayTokens total out ts = some res)
    (hw : Writer.Wrote cap (bytesBits out) w₀ k.out) :
    ∃ w, lzReplay cap rd n total f (8 * a) out.length k =
        .ok (8 * (a + (ts.flatMap Token.bytes).length),
          { lits := k.lits + ts.countP Token.isLiteral, ms := k.ms + ts.countP fun t => !t.isLiteral, out := w }) ∧
      Writer.Wrote cap (bytesBits res) w₀ w := by
  obtain ⟨w, g, -, e, hw'⟩ := lzReplay_prefix h₀ hc (Nat.le_refl total) hf hs hn hr hw
  refine ⟨w, e.trans ?_, hw'⟩
  have hl := replayTokens_length hr
  cases g with
  | zero => rfl
  | succ g => rw [lzReplay, if_neg (by omega)]

/-- Where the input ends inside the next token the replay reports TRUNCATED_STREAM (44_lz77.md R273). -/
theorem lzReplay_cut {cap n total f a out : Nat} {rd : Nat → Byte} {k : Tokens} (h : out < total)
    (ha : a ≤ n) (hc : tokenCut (slice rd a (n - a))) (hf : total - out ≤ f) :
    lzReplay cap rd n total f (8 * a) out k = .error .truncatedStream := by
  obtain ⟨f, rfl⟩ : ∃ g, f = g + 1 := ⟨f - 1, by omega⟩
  rw [lzReplay, if_pos h]
  rcases hc with hc | hc | ⟨fs, hc, hl⟩
  · have := congrArg List.length hc
    simp only [length_slice, List.length_nil] at this
    rw [readBits_truncated (by omega) (by omega)]
    rfl
  · have hlen := congrArg List.length hc
    simp only [length_slice, List.length_cons, List.length_nil] at hlen
    rw [hlen, slice_succ] at hc
    simp only [slice_zero, List.cons.injEq, and_true] at hc
    rw [readBits_byte (by omega), hc]
    show (readBits rd n 8 (8 * (a + 1)) >>= _) = _
    rw [readBits_truncated (by omega) (by omega)]
    rfl
  · have hlen := congrArg List.length hc
    simp only [length_slice, List.length_cons] at hlen
    rw [hlen, slice_succ] at hc
    have h1 := (List.cons.inj hc).1
    rw [readBits_byte (by omega), h1]
    show (readBits rd n 16 (8 * (a + 1)) >>= _) = _
    by_cases h2 : 2 ≤ fs.length
    · rw [readBits_field (k := 2) (v := bigEndian rd (a + 1) 2) (by omega) (slice_bigEndian rd (a + 1) 2)
        (by have := bigEndian_lt rd (a + 1) 2; omega)]
      show (readBits rd n 16 (8 * (a + 1 + 2)) >>= _) = _
      rw [readBits_truncated (by omega) (by omega)]
      rfl
    · rw [readBits_truncated (by omega) (by omega)]
      rfl

/-- A next token the replay refuses gives CORRUPT_STREAM (44_lz77.md R273). -/
theorem lzReplay_refused {cap n total f a out : Nat} {rd : Nat → Byte} {k : Tokens} (h : out < total)
    (ha : a ≤ n) (hc : tokenRefused total out (slice rd a (n - a))) (hf : total - out ≤ f) :
    lzReplay cap rd n total f (8 * a) out k = .error .corruptStream := by
  obtain ⟨f, rfl⟩ : ∃ g, f = g + 1 := ⟨f - 1, by omega⟩
  rw [lzReplay, if_pos h]
  rcases hc with ⟨tag, tail, hc, h0, h1⟩ | ⟨d, l, tail, hc, hd, hl, hbad⟩
  · have hlen := congrArg List.length hc
    simp only [length_slice, List.length_cons] at hlen
    rw [hlen, slice_succ] at hc
    have e := (List.cons.inj hc).1
    rw [readBits_byte (by omega), e]
    dsimp only [bind, Except.bind]
    rw [if_neg (show tag.toNat ≠ 0 from fun h => h0 (BitVec.eq_of_toNat_eq h)),
      if_neg (show tag.toNat ≠ 1 from fun h => h1 (BitVec.eq_of_toNat_eq h))]
  · have hlen := congrArg List.length hc
    simp only [length_slice, List.length_append, length_copy] at hlen
    rw [hlen, slice_add] at hc
    have hs₁ := (List.append_inj hc (by simp [length_copy])).1
    rw [slice_succ, Token.bytes, List.cons.injEq, show 4 = 2 + 2 from rfl, slice_add] at hs₁
    obtain ⟨g₁, g₂⟩ := List.append_inj hs₁.2 (by simp [length_beBytes])
    have hW : Config.window = 4096 := rfl
    have hM : Config.maxMatch = 255 := rfl
    have hm : Config.minMatch = 3 := rfl
    rw [readBits_byte (by omega), hs₁.1]
    show (readBits rd n 16 (8 * (a + 1)) >>= _) = _
    rw [readBits_field (k := 2) (by omega) g₁ (by omega)]
    show (readBits rd n 16 (8 * (a + 1 + 2)) >>= _) = _
    rw [readBits_field (k := 2) (by omega) g₂ (by omega)]
    show (if d < 1 ∨ Config.window < d ∨ out < d then _ else if l < Config.minMatch ∨ Config.maxMatch < l ∨ total < out + l then _ else _) = _
    by_cases h₁ : d < 1 ∨ Config.window < d ∨ out < d
    · rw [if_pos h₁]
    · rw [if_neg h₁, if_pos (by omega)]

/-- A read that succeeds had its bits. -/
theorem readBits_room {rd : Nat → Byte} {n m r : Nat} {x : Nat × Nat} (hm : 0 < m) (h : readBits rd n m r = .ok x) :
    r + m ≤ 8 * n := by
  by_contra hc
  rw [readBits_truncated (by omega) hm] at h
  cases h

/-- A big-endian field read at a byte boundary. -/
theorem readBits_field_inv {rd : Nat → Byte} {n a k : Nat} {x : Nat × Nat} (hk : 0 < k)
    (h : readBits rd n (8 * k) (8 * a) = .ok x) :
    a + k ≤ n ∧ x.2 = 8 * (a + k) ∧ x.1 < 2 ^ (8 * k) ∧ slice rd a k = beBytes x.1 k := by
  have hr := readBits_room (by omega) h
  obtain ⟨u, hu, hb, he⟩ := readBits_ok (rd := rd) hr
  rw [h] at he
  cases he
  refine ⟨by omega, (Nat.mul_add 8 a k).symm, hu, bytesBits_injective ?_⟩
  rw [bytesBits_beBytes, hb, streamBits_bytes]
  rfl

/-- A replay that ends has read tokens that pass its checks (44_lz77.md R273). -/
theorem tokens_of_lzReplay {cap n total : Nat} {rd : Nat → Byte} {w₀ : Writer} (h₀ : w₀.pos = 0) {f a r : Nat}
    {out : List Byte} {k k' : Tokens} (hf : total - out.length ≤ f) (ho : out.length ≤ total) (ha : a ≤ n)
    (hw : Writer.Wrote cap (bytesBits out) w₀ k.out)
    (h : lzReplay cap rd n total f (8 * a) out.length k = .ok (r, k')) :
    ∃ ts res, r = 8 * (a + (ts.flatMap Token.bytes).length) ∧ a + (ts.flatMap Token.bytes).length ≤ n ∧
      slice rd a (ts.flatMap Token.bytes).length = ts.flatMap Token.bytes ∧ replayTokens total out ts = some res ∧
      Writer.Wrote cap (bytesBits res) w₀ k'.out := by
  have stop : total ≤ out.length → (r, k') = (8 * a, k) → ∃ ts res, r = 8 * (a + (ts.flatMap Token.bytes).length) ∧
      a + (ts.flatMap Token.bytes).length ≤ n ∧
      slice rd a (ts.flatMap Token.bytes).length = ts.flatMap Token.bytes ∧ replayTokens total out ts = some res ∧
      Writer.Wrote cap (bytesBits res) w₀ k'.out := by
    intro hl e
    cases e
    exact ⟨[], out, rfl, ha, rfl, by rw [replayTokens, if_pos (by omega)], hw⟩
  induction f generalizing a out k with
  | zero => cases h; exact stop (by omega) rfl
  | succ f ih =>
    rw [lzReplay] at h
    split at h
    · rename_i hlt
      obtain ⟨⟨t, r₁⟩, h₁, h⟩ := except_bind_ok.1 h
      obtain ⟨g₁, g₂, -, g₃⟩ := readBits_field_inv (k := 1) (by omega) h₁
      simp only at g₂ g₃ h
      subst g₂
      split at h
      · rename_i h0
        obtain ⟨⟨b, r₂⟩, h₂, h⟩ := except_bind_ok.1 h
        obtain ⟨w, hw', h⟩ := except_bind_ok.1 h
        have g := readBits_room (by omega) h₂
        rw [readBits_byte (by omega)] at h₂
        cases h₂
        have hE := emits_writeBits cap (rd (a + 1)).toNat 8 k.out hw.fits
        have hw'' : Writer.Wrote cap (bitsMSB (rd (a + 1)).toNat 8) k.out w := by
          by_cases hl : k.out.pos + (bitsMSB (rd (a + 1)).toNat 8).length ≤ 8 * cap
          · obtain ⟨w', e, hW⟩ := hE.1 hl
            rw [hw'] at e
            cases e
            exact hW
          · rw [hE.2 (by omega)] at hw'
            cases hw'
        have hn : Writer.Wrote cap (bytesBits (out ++ [rd (a + 1)])) w₀ w := by
          simpa [bytesBits_cons] using hw.trans hw''
        obtain ⟨ts, res, e₁, e₂, e₃, e₄, e₅⟩ := ih (a := a + 2) (out := out ++ [rd (a + 1)])
          (k := { k with lits := k.lits + 1, out := w }) (by simp; omega) (by simp; omega) (by omega) hn
          (by simpa using h) (fun hl e => by
            cases e
            exact ⟨[], _, rfl, by simpa using (show a + 2 ≤ n by omega), rfl, by rw [replayTokens, if_pos (by simp at hl ⊢; omega)], hn⟩)
        refine ⟨.literal (rd (a + 1)) :: ts, res, ?_, ?_, ?_, ?_, e₅⟩
        · rw [e₁, List.flatMap_cons, List.length_append, length_literal]; omega
        · rw [List.flatMap_cons, List.length_append, length_literal]; omega
        · rw [List.flatMap_cons, List.length_append, length_literal, slice_add, e₃, slice_succ, slice_succ]
          have : rd a = 0#8 := by
            have := congrArg List.head? g₃
            simpa [slice_succ, beBytes, h0] using this
          simp [this, Token.bytes]
        · rw [replayTokens, if_pos hlt, e₄]
      · split at h
        · rename_i h0 h1
          obtain ⟨⟨d, r₂⟩, h₂, h⟩ := except_bind_ok.1 h
          obtain ⟨p₁, p₂, p₃, p₄⟩ := readBits_field_inv (k := 2) (by omega) h₂
          simp only at p₂ p₃ p₄ h
          subst p₂
          obtain ⟨⟨l, r₃⟩, h₃, h⟩ := except_bind_ok.1 h
          obtain ⟨q₁, q₂, q₃, q₄⟩ := readBits_field_inv (k := 2) (by omega) h₃
          simp only at q₂ q₃ q₄ h
          subst q₂
          split at h
          · cases h
          · split at h
            · cases h
            · rename_i hd hl
              obtain ⟨w, hw', h⟩ := except_bind_ok.1 h
              have hm : Config.minMatch = 3 := rfl
              have hE := emits_copyMatch cap d l out w₀ k.out h₀ hw (by omega) (by omega) hw.fits
              have hw'' : Writer.Wrote cap (bytesBits (copied d l out)) k.out w := by
                by_cases hl : k.out.pos + (bytesBits (copied d l out)).length ≤ 8 * cap
                · obtain ⟨w', e, hW⟩ := hE.1 hl
                  rw [hw'] at e
                  cases e
                  exact hW
                · rw [hE.2 (by omega)] at hw'
                  cases hw'
              have hn : Writer.Wrote cap (bytesBits (copyBytes d l out)) w₀ w := by
                rw [copyBytes_eq, bytesBits_append]
                exact hw.trans hw''
              obtain ⟨ts, res, e₁, e₂, e₃, e₄, e₅⟩ := ih (a := a + 5) (out := copyBytes d l out)
                (k := { k with ms := k.ms + 1, out := w }) (by simp; omega) (by simp; omega) (by omega) hn
                (by simpa using h) (fun hl e => by
                  cases e
                  exact ⟨[], _, rfl, by simpa using (show a + 5 ≤ n by omega), rfl,
                    by rw [replayTokens, if_pos (by simp at hl ⊢; omega)], hn⟩)
              refine ⟨.copy d l :: ts, res, ?_, ?_, ?_, ?_, e₅⟩
              · rw [e₁, List.flatMap_cons, List.length_append, length_copy]; omega
              · rw [List.flatMap_cons, List.length_append, length_copy]; omega
              · rw [List.flatMap_cons, List.length_append, length_copy, slice_add, e₃]
                have : rd a = 1#8 := by
                  have := congrArg List.head? g₃
                  simpa [slice_succ, beBytes, h1] using this
                rw [show 5 = 1 + (2 + 2) from rfl, slice_add, slice_add, p₄, q₄]
                simp [this, Token.bytes, slice_succ]
              · rw [replayTokens, if_pos ⟨hlt, by omega, by omega, by omega, by omega, by omega, by omega⟩, e₄]
        · cases h
    · cases h
      exact stop (by omega) rfl

end Sys2Proof.Machine
end

