-- ==== Sys2Proof/Laws/MergeOrder.lean ====
section
/-!
SUPPORT. The tree builder's loop merges in the order of 42_huffman.md R195, and that order leaves one root only: LEN is the
depth in the tree the relation `MergesTo` describes.
-/

namespace Sys2Proof.Machine

/-! ## The order decides the root -/

theorem Root.precedes_asymm {a b : Root} (h : a.precedes b) : ¬b.precedes a := by
  simp only [Root.precedes] at *
  omega

/-- Of two roots that each precede all others, there is one. -/
theorem least_unique {a b : Root} {as bs : List Root} (p : (a :: as).Perm (b :: bs)) (ha : ∀ c ∈ as, a.precedes c)
    (hb : ∀ c ∈ bs, b.precedes c) : a = b ∧ as.Perm bs := by
  have e : a = b := by
    rcases List.mem_cons.1 (p.mem_iff.1 List.mem_cons_self) with h | h
    · exact h
    · rcases List.mem_cons.1 (p.mem_iff.2 List.mem_cons_self) with h' | h'
      · exact h'.symm
      · exact absurd (ha b h') (Root.precedes_asymm (hb a h))
  subst e
  exact ⟨rfl, p.cons_inv⟩

/-- Whatever the order of the list, a forest is merged into one root only. -/
theorem MergesTo.unique {next : Nat} {forest forest' : List Root} {r r' : Root} (h : MergesTo next forest r)
    (h' : MergesTo next forest' r') (p : forest.Perm forest') : r = r' := by
  induction h generalizing forest' r' with
  | done next r =>
    cases h' with
    | done _ r' => simpa using p
    | merge taken => have := (p.trans taken).length_eq; simp at this
  | merge taken least second _ ih =>
    cases h' with
    | done _ r' => have := (taken.symm.trans p).length_eq; simp at this
    | merge taken' least' second' rest' =>
      obtain ⟨rfl, q₁⟩ := least_unique (taken.symm.trans (p.trans taken')) least least'
      obtain ⟨rfl, q₂⟩ := least_unique q₁ second second'
      exact ih rest' (q₂.cons _)

/-! ## The builder's loop -/

/-- A tree of the builder as a root of the forest. -/
def HTree.root (t : HTree) : Root where
  weight := t.weight
  order  := t.order
  below  := t.depths 0

theorem HTree.depths_succ (t : HTree) (d : Nat) : t.depths (d + 1) = (t.depths d).map fun p => (p.1, p.2 + 1) := by
  induction t generalizing d with
  | leaf s w o => rfl
  | node l r w o ihl ihr => simp [HTree.depths, ihl, ihr]

theorem HTree.root_node (a b : HTree) (next : Nat) :
    (HTree.node a b (a.weight + b.weight) next).root = Root.parent next a.root b.root := by
  simp [HTree.root, Root.parent, HTree.depths, HTree.weight, HTree.order, HTree.depths_succ a 0, HTree.depths_succ b 0]

theorem HTree.before_iff (a b : HTree) : a.before b = true ↔ a.root.precedes b.root := by
  simp [HTree.before, HTree.root, Root.precedes]

/-- The orders in the queue differ. -/
abbrev OrdersDiffer (ts : List HTree) : Prop := ts.Pairwise fun a b => a.order ≠ b.order

theorem OrdersDiffer.perm {ts us : List HTree} (h : OrdersDiffer ts) (p : ts.Perm us) : OrdersDiffer us :=
  (p.pairwise_iff fun h => Ne.symm h).1 h

/-- `extractLeast` takes out the least in (weight, order). -/
theorem extractLeast_precedes (t : HTree) (ts : List HTree) (h : OrdersDiffer (t :: ts)) :
    ∀ u ∈ (extractLeast t ts).2, (extractLeast t ts).1.root.precedes u.root := by
  induction ts generalizing t with
  | nil => exact fun u hu => nomatch hu
  | cons v vs ih =>
    obtain ⟨ht, hv⟩ := List.pairwise_cons.1 h
    have htv := ht v List.mem_cons_self
    have htvs : OrdersDiffer (t :: vs) :=
      List.pairwise_cons.2 ⟨fun u hu => ht u (List.mem_cons_of_mem _ hu), (List.pairwise_cons.1 hv).2⟩
    have least : ∀ x, OrdersDiffer (x :: vs) → (extractLeast x vs).1 = x ∨ (extractLeast x vs).1.root.precedes x.root := by
      intro x hx
      rcases List.mem_cons.1 ((extractLeast_spec x vs).1.mem_iff.2 List.mem_cons_self) with e | e
      · exact .inl e.symm
      · exact .inr (ih x hx x e)
    intro u hu
    simp only [extractLeast] at hu ⊢
    split at hu
    · rename_i hb
      rw [if_pos hb]
      rw [HTree.before_iff] at hb
      rcases List.mem_cons.1 hu with rfl | hu
      · rcases least v hv with e | e
        · show (extractLeast v vs).1.root.precedes _
          rw [e]; exact hb
        · simp only [Root.precedes] at *; omega
      · exact ih v hv u hu
    · rename_i hb
      rw [if_neg hb]
      rw [HTree.before_iff] at hb
      have hb' : t.root.precedes v.root := by
        simp only [Root.precedes, HTree.root] at *; omega
      rcases List.mem_cons.1 hu with rfl | hu
      · rcases least t htvs with e | e
        · show (extractLeast t vs).1.root.precedes _
          rw [e]; exact hb'
        · simp only [Root.precedes] at *; omega
      · exact ih t htvs u hu

/-- The merge loop merges as 42_huffman.md R195 says. -/
theorem mergesTo_mergeLoop (fuel next : Nat) (t : HTree) (ts : List HTree) (hf : ts.length ≤ fuel)
    (h : OrdersDiffer (t :: ts)) (hn : ∀ u ∈ t :: ts, u.order < next) :
    MergesTo next ((t :: ts).map HTree.root) (mergeLoop fuel next t ts).root := by
  induction fuel generalizing next t ts with
  | zero =>
    obtain rfl : ts = [] := List.length_eq_zero_iff.1 (by omega)
    exact .done _ _
  | succ fuel ih =>
    rw [mergeLoop]
    have hp := (extractLeast_spec t ts).1
    have hm := extractLeast_precedes t ts h
    generalize extractLeast t ts = x at hp hm
    obtain ⟨a, us⟩ := x
    have ha := h.perm hp.symm
    cases us with
    | nil =>
      obtain ⟨rfl, rfl⟩ : t = a ∧ ts = [] := by simpa using hp.symm
      exact .done _ _
    | cons u us =>
      dsimp only at hp hm ha ⊢
      have hq := (extractLeast_spec u us).1
      have hl := extractLeast_precedes u us (List.pairwise_cons.1 ha).2
      generalize extractLeast u us = y at hq hl
      obtain ⟨b, rest⟩ := y
      dsimp only at hq hl ⊢
      have hpq := (hq.cons a).trans hp
      have hb := h.perm hpq.symm
      have hlen := hpq.length_eq
      simp only [List.length_cons] at hlen
      have hrest := (List.pairwise_cons.1 (List.pairwise_cons.1 hb).2).2
      have hr := ih (next + 1) (.node a b (a.weight + b.weight) next) rest (by omega)
        (List.pairwise_cons.2 ⟨fun v hv => ?_, hrest⟩) (fun v hv => ?_)
      · rw [List.map_cons, HTree.root_node] at hr
        refine .merge (hpq.symm.map HTree.root) ?_ ?_ hr
        · intro c hc
          obtain ⟨v, hv, rfl⟩ := List.mem_map.1 (show c ∈ (b :: rest).map HTree.root from hc)
          exact hm v (hq.mem_iff.1 hv)
        · intro c hc
          obtain ⟨v, hv, rfl⟩ := List.mem_map.1 hc
          exact hl v hv
      · have := hn v (hpq.mem_iff.1 (by simp [hv]))
        show next ≠ v.order
        omega
      · rcases List.mem_cons.1 hv with rfl | hv
        · exact Nat.lt_succ_self _
        · exact Nat.lt_succ_of_lt (hn v (hpq.mem_iff.1 (by simp [hv])))

/-! ## The leaves -/

theorem presentFrom_eq (s : Nat) (fs : List Nat) (f : Nat → Nat) (h : ∀ i (hi : i < fs.length), fs[i] = f (s + i)) :
    presentFrom s fs = ((List.range' s fs.length).filter fun x => 0 < f x).map fun x => (x, f x) := by
  induction fs generalizing s with
  | nil => rfl
  | cons g fs ih =>
    have h₀ : g = f s := h 0 (by simp)
    have ih := ih (s + 1) fun i hi => by
      have := h (i + 1) (by simpa using hi)
      rw [Nat.add_assoc, Nat.add_comm 1]
      simpa using this
    rw [presentFrom, ih, List.length_cons, List.range'_succ, List.filter_cons, h₀]
    by_cases hp : 0 < f s <;> simp [hp]

theorem leavesFrom_zipIdx (j : Nat) (ps : List (Nat × Nat)) :
    (leavesFrom j ps).map HTree.root = (ps.zipIdx j).map fun p => { weight := p.1.2, order := p.2, below := [(p.1.1, 0)] } := by
  induction ps generalizing j with
  | nil => rfl
  | cons p ps ih => simp [leavesFrom, ih, HTree.root, HTree.weight, HTree.order, HTree.depths]

theorem leavesFrom_orders (j : Nat) (ps : List (Nat × Nat)) :
    OrdersDiffer (leavesFrom j ps) ∧ ∀ t ∈ leavesFrom j ps, j ≤ t.order ∧ t.order < j + ps.length := by
  induction ps generalizing j with
  | nil => exact ⟨.nil, fun t ht => nomatch ht⟩
  | cons p ps ih =>
    obtain ⟨h₁, h₂⟩ := ih (j + 1)
    refine ⟨List.pairwise_cons.2 ⟨fun t ht => ?_, h₁⟩, fun t ht => ?_⟩
    · have := (h₂ t ht).1
      show j ≠ t.order
      omega
    · rcases List.mem_cons.1 ht with rfl | ht
      · exact ⟨Nat.le_refl _, by simp [HTree.order]⟩
      · have := h₂ t ht
        simp only [List.length_cons]
        omega

/-- The builder's leaves are those of 42_huffman.md R195. -/
theorem leafRoots_eq {fs : List Nat} {f : Nat → Nat} (hl : fs.length = 256) (h : ∀ i (hi : i < fs.length), fs[i] = f i) :
    (leavesFrom 0 (presentFrom 0 fs)).map HTree.root = leafRoots f := by
  rw [leavesFrom_zipIdx, presentFrom_eq 0 fs f (by simpa using h), hl, leafRoots, presentSymbols, ← List.range_eq_range',
    List.zipIdx_map, List.map_map]
  rfl

/-- Two or more present symbols: the lengths built are the depths in the tree of 42_huffman.md R195. -/
theorem mergesTo_codeLengths {fs : List Nat} {f : Nat → Nat} (hl : fs.length = 256) (h : ∀ i (hi : i < fs.length), fs[i] = f i)
    (h₂ : 2 ≤ (presentSymbols f).length) :
    ∃ root, MergesTo (presentSymbols f).length (leafRoots f) root ∧ codeLengths fs = root.below := by
  have hlen : (leavesFrom 0 (presentFrom 0 fs)).length = (presentSymbols f).length := by
    have := congrArg List.length (leafRoots_eq hl h)
    simpa [leafRoots] using this
  have ho := leavesFrom_orders 0 (presentFrom 0 fs)
  have hr := leafRoots_eq hl h
  have hpl : (leavesFrom 0 (presentFrom 0 fs)).length = (presentFrom 0 fs).length := (leavesFrom_eq 0 _).2.2.1
  rw [codeLengths]
  generalize leavesFrom 0 (presentFrom 0 fs) = ts at hlen ho hr hpl
  match ts, hlen, ho, hr with
  | [], hlen, _, _ => simp at hlen; omega
  | [t], hlen, _, _ => simp at hlen; omega
  | t :: u :: us, hlen, ho, hr =>
    refine ⟨(mergeLoop (us.length + 1) (us.length + 1 + 1) t (u :: us)).root, ?_, by cases t <;> rfl⟩
    rw [← hr, ← hlen]
    refine mergesTo_mergeLoop _ _ t (u :: us) (Nat.le_refl _) ho.1 fun v hv => ?_
    have := (ho.2 v hv).2
    rwa [← hpl, Nat.zero_add] at this

end Sys2Proof.Machine
end

