-- ==== Sys2Proof/Laws/PerInstr.lean ====
section
/-!
SUPPORT. The family `RoundTrip` of LAWS.json: what holds of every command as syntax, one lemma per constructor
(30_encoding.md R100, R101).
-/

namespace Sys2Proof.Laws.RoundTrip

/-- The command's own word is well formed, and both decoders read the command from it. -/
def Statement (i : Instr) : Prop :=
  commandWordWellFormed (encode i) = true ∧ decodeOpcode (encodeOpcode i) = .ok i ∧
    decodeTableWord 8 (encodeOpcode i).toNat = some i

theorem hufCompress : Statement .hufCompress := by unfold Statement; decide
theorem hufDecompress : Statement .hufDecompress := by unfold Statement; decide
theorem rleCompress : Statement .rleCompress := by unfold Statement; decide
theorem rleDecompress : Statement .rleDecompress := by unfold Statement; decide
theorem lzCompress : Statement .lzCompress := by unfold Statement; decide
theorem lzDecompress : Statement .lzDecompress := by unfold Statement; decide
theorem bsReset : Statement .bsReset := by unfold Statement; decide
theorem bsWrite : Statement .bsWrite := by unfold Statement; decide
theorem bsFlush : Statement .bsFlush := by unfold Statement; decide
theorem bsRead : Statement .bsRead := by unfold Statement; decide
theorem hufCount : Statement .hufCount := by unfold Statement; decide
theorem hufBuild : Statement .hufBuild := by unfold Statement; decide
theorem hufCanon : Statement .hufCanon := by unfold Statement; decide
theorem hufEncode : Statement .hufEncode := by unfold Statement; decide
theorem hufDecode : Statement .hufDecode := by unfold Statement; decide
theorem rleScan : Statement .rleScan := by unfold Statement; decide
theorem rleEmit : Statement .rleEmit := by unfold Statement; decide
theorem lzMatch : Statement .lzMatch := by unfold Statement; decide
theorem lzEmit : Statement .lzEmit := by unfold Statement; decide

end Sys2Proof.Laws.RoundTrip
end

