-- ==== Sys2Proof/Laws/Pure.lean ====
section
/-!
SUPPORT. One computation on two OBUFs that agree on what was written so far: it raises the same error on both, or appends
the same bits to both and agrees on everything else it answers, whatever the OBUFs held before (40_control.md R152, R153).
-/

namespace Sys2Proof.Machine

/-- Two writers that have appended the same bits since `p.1` and `p.2`, both at the start of OBUF. -/
structure Twin (cap : Nat) (p : Writer × Writer) (w u : Writer) : Prop where
  start₁ : p.1.pos = 0
  start₂ : p.2.pos = 0
  same   : ∃ bits, Writer.Wrote cap bits p.1 w ∧ Writer.Wrote cap bits p.2 u

theorem Twin.pos_eq {cap : Nat} {p : Writer × Writer} {w u : Writer} (h : Twin cap p w u) : w.pos = u.pos := by
  obtain ⟨bits, h₁, h₂⟩ := h.same
  rw [h₁.pos, h₂.pos, h.start₁, h.start₂]

theorem Twin.fits {cap : Nat} {p : Writer × Writer} {w u : Writer} (h : Twin cap p w u) : w.pos ≤ 8 * cap ∧ u.pos ≤ 8 * cap := by
  obtain ⟨bits, h₁, h₂⟩ := h.same
  exact ⟨h₁.fits, h₂.fits⟩

/-- Twins hold the same bits before their cursor. -/
theorem Twin.bits {cap : Nat} {p : Writer × Writer} {w u : Writer} (h : Twin cap p w u) {q : Nat} (hq : q < w.pos) :
    streamBit w.mem.read q = streamBit u.mem.read q := by
  obtain ⟨bits, h₁, h₂⟩ := h.same
  have hp := h₁.pos
  rw [h.start₁, Nat.zero_add] at hp
  have f₁ := h₁.fresh
  have f₂ := h₂.fresh
  rw [h.start₁] at f₁
  rw [h.start₂] at f₂
  have := congrArg (·[q]?) (f₁.trans f₂.symm)
  simpa [streamBits, show q < bits.length by omega] using this

/-- Twins hold the same whole bytes before their cursor. -/
theorem Twin.bytes {cap : Nat} {p : Writer × Writer} {w u : Writer} (h : Twin cap p w u) {a : Nat} (ha : 8 * (a + 1) ≤ w.pos) :
    w.mem.read a = u.mem.read a := byte_eq_of_streamBit fun q hq => h.bits (by omega)

/-- The same computation on two OBUFs. -/
def Agree {α β : Type} (cap : Nat) (p : Writer × Writer) (out : α → Writer) (rest : α → β) (x y : Except ErrorCode α) : Prop :=
  (∃ e, x = .error e ∧ y = .error e) ∨ ∃ a b, x = .ok a ∧ y = .ok b ∧ Twin cap p (out a) (out b) ∧ rest a = rest b

section
variable {cap : Nat} {p : Writer × Writer}

theorem Agree.ok {α β : Type} {out : α → Writer} {rest : α → β} {a b : α} (h : Twin cap p (out a) (out b)) (hr : rest a = rest b) :
    Agree cap p out rest (.ok a) (.ok b) := .inr ⟨a, b, rfl, rfl, h, hr⟩

theorem Agree.error {α β : Type} {out : α → Writer} {rest : α → β} (e : ErrorCode) :
    Agree cap p out rest (.error e) (.error e) := .inl ⟨e, rfl, rfl⟩

theorem Agree.bind {α β γ δ : Type} {out : α → Writer} {rest : α → β} {out' : γ → Writer} {rest' : γ → δ}
    {x y : Except ErrorCode α} {f g : α → Except ErrorCode γ} (h : Agree cap p out rest x y)
    (k : ∀ a b, Twin cap p (out a) (out b) → rest a = rest b → Agree cap p out' rest' (f a) (g b)) :
    Agree cap p out' rest' (x >>= f) (y >>= g) := by
  rcases h with ⟨e, rfl, rfl⟩ | ⟨a, b, rfl, rfl, h, hr⟩
  · exact .error e
  · exact k a b h hr

/-- A computation that does not write, before one that does. -/
theorem Agree.after {α γ δ : Type} {out' : γ → Writer} {rest' : γ → δ} {x : Except ErrorCode α}
    {f g : α → Except ErrorCode γ} (k : ∀ a, Agree cap p out' rest' (f a) (g a)) :
    Agree cap p out' rest' (x >>= f) (x >>= g) := by
  cases x with
  | error e => exact .error e
  | ok a => exact k a

theorem Agree.ite {α β : Type} {out : α → Writer} {rest : α → β} {c : Prop} [Decidable c] {x y x' y' : Except ErrorCode α}
    (h : Agree cap p out rest x y) (h' : Agree cap p out rest x' y') :
    Agree cap p out rest (if c then x else x') (if c then y else y') := by
  split <;> assumption

/-- What emits the same bits on both agrees. -/
theorem Emits.agree {α β : Type} {out : α → Writer} {rest : α → β} {x y : Except ErrorCode α} {bits : List Bool}
    {w u : Writer} {k l : Writer → α} (hw : Emits cap x bits w k) (hu : Emits cap y bits u l) (h : Twin cap p w u)
    (hk : ∀ v, out (k v) = v) (hl : ∀ v, out (l v) = v) (hr : ∀ v v', rest (k v) = rest (l v')) :
    Agree cap p out rest x y := by
  obtain ⟨f₁, f₂⟩ := h.fits
  have hp := h.pos_eq
  by_cases hc : w.pos + bits.length ≤ 8 * cap
  · obtain ⟨w', rfl, hw'⟩ := (hw f₁).1 hc
    obtain ⟨u', rfl, hu'⟩ := (hu f₂).1 (by omega)
    refine .ok ?_ (hr _ _)
    rw [hk, hl]
    obtain ⟨bits', h₁, h₂⟩ := h.same
    exact ⟨h.start₁, h.start₂, _, h₁.trans hw', h₂.trans hu'⟩
  · rw [(hw f₁).2 (by omega), (hu f₂).2 (by omega)]
    exact .error _

theorem agree_writeBits (v m : Nat) {w u : Writer} (h : Twin cap p w u) :
    Agree cap p id (fun _ => ()) (writeBits cap v m w) (writeBits cap v m u) :=
  (emits_writeBits cap v m w).agree (emits_writeBits cap v m u) h (fun _ => rfl) (fun _ => rfl) fun _ _ => rfl

theorem agree_writeCopies (v c : Nat) {w u : Writer} (h : Twin cap p w u) :
    Agree cap p id (fun _ => ()) (writeCopies cap v c w) (writeCopies cap v c u) := by
  induction c generalizing w u with
  | zero => exact .ok h rfl
  | succ c ih => exact .bind (agree_writeBits v 8 h) fun a b hab _ => ih hab

theorem agree_encodeFrom (lens codes : List Nat) (rd : Nat → Byte) (k i : Nat) {w u : Writer} (h : Twin cap p w u) :
    Agree cap p id (fun _ => ()) (encodeFrom cap lens codes rd k i w) (encodeFrom cap lens codes rd k i u) :=
  (emits_encodeFrom cap lens codes rd k i w).agree (emits_encodeFrom cap lens codes rd k i u) h (fun _ => rfl) (fun _ => rfl)
    fun _ _ => rfl

theorem agree_writeEntries (ps : List (Nat × Nat)) {w u : Writer} (h : Twin cap p w u) :
    Agree cap p id (fun _ => ()) (writeEntries cap ps w) (writeEntries cap ps u) :=
  (emits_writeEntries cap ps w).agree (emits_writeEntries cap ps u) h (fun _ => rfl) (fun _ => rfl) fun _ _ => rfl

theorem agree_decodeLoop (table : List (Nat × Nat × Nat)) (maxlen : Nat) (rd : Nat → Byte) (n k r : Nat) {w u : Writer}
    (h : Twin cap p w u) :
    Agree cap p Prod.snd Prod.fst (decodeLoop cap table maxlen rd n k r w) (decodeLoop cap table maxlen rd n k r u) := by
  induction k generalizing r w u with
  | zero => exact .ok h rfl
  | succ k ih => exact .after fun x => .bind (agree_writeBits _ 8 h) fun a b hab _ => ih _ hab

theorem agree_hufPayload (lens codes : List Nat) (rd : Nat → Byte) (n k total : Nat) {w u : Writer} (h : Twin cap p w u) :
    Agree cap p (fun x => x.2.1) (fun x => (x.1, x.2.2)) (hufPayload cap lens codes rd n k total w)
      (hufPayload cap lens codes rd n k total u) := by
  refine .ite (.bind (agree_writeCopies _ _ h) fun a b hab _ => .ok hab rfl) (.ite ?_ (.ok h rfl))
  refine .bind (agree_decodeLoop _ _ _ _ _ _ h) fun a b hab hr => ?_
  obtain ⟨r, a⟩ := a
  obtain ⟨r', b⟩ := b
  obtain rfl : r = r' := hr
  exact .ite (.error _) (.ok hab rfl)

theorem agree_rleCompressLoop (rd : Nat → Byte) (n f q m : Nat) {w u : Writer} (h : Twin cap p w u) :
    Agree cap p Prod.snd Prod.fst (rleCompressLoop cap rd n f q m w) (rleCompressLoop cap rd n f q m u) := by
  induction f generalizing q m w u with
  | zero => exact .ok h rfl
  | succ f ih =>
    refine .ite (.bind (rest := Prod.fst) (out := Prod.snd) ((emits_emitRun _ _ _ _).agree (emits_emitRun _ _ _ _) h
      (fun _ => rfl) (fun _ => rfl) fun _ _ => rfl) fun a b hab hr => ?_) (.ok h rfl)
    obtain ⟨m', a⟩ := a
    obtain ⟨m'', b⟩ := b
    obtain rfl : m' = m'' := hr
    exact ih _ _ hab

theorem agree_rleDecompressLoop (rd : Nat → Byte) (n q r : Nat) {w u : Writer} (h : Twin cap p w u) :
    Agree cap p Prod.snd Prod.fst (rleDecompressLoop cap rd n q r w) (rleDecompressLoop cap rd n q r u) := by
  induction q generalizing r w u with
  | zero => exact .ok h rfl
  | succ q ih => exact .after fun x => .after fun y => .bind (agree_writeCopies _ _ h) fun a b hab _ => ih _ hab

theorem agree_lzCompressLoop (rd : Nat → Byte) (n f q : Nat) {k l : Tokens} (h : Twin cap p k.out l.out)
    (hk : k.lits = l.lits ∧ k.ms = l.ms) :
    Agree cap p Tokens.out (fun k => (k.lits, k.ms)) (lzCompressLoop cap rd n f q k) (lzCompressLoop cap rd n f q l) := by
  induction f generalizing q k l with
  | zero => exact .ok h (by rw [hk.1, hk.2])
  | succ f ih =>
    refine .ite (.ite (.bind ((emits_emitMatch _ _ _ _).agree (emits_emitMatch _ _ _ _) h (fun _ => rfl) (fun _ => rfl)
        fun _ _ => rfl) fun a b hab (_ : () = ()) => ih _ hab ⟨hk.1, by rw [hk.2]⟩)
      (.bind ((emits_emitLiteral _ _ _).agree (emits_emitLiteral _ _ _) h (fun _ => rfl) (fun _ => rfl) fun _ _ => rfl)
        fun a b hab (_ : () = ()) => ih _ hab ⟨by rw [hk.1], hk.2⟩)) (.ok h (by rw [hk.1, hk.2]))

/-- A copy reads only bytes that both have written. -/
theorem agree_copyMatch (d l out : Nat) {w u : Writer} (h : Twin cap p w u) (hw : w.pos = 8 * out) (hd : 1 ≤ d) (hd' : d ≤ out) :
    Agree cap p id Writer.pos (copyMatch cap d l out w) (copyMatch cap d l out u) ∧
      ∀ a, copyMatch cap d l out w = .ok a → a.pos = 8 * (out + l) := by
  induction l generalizing out w u with
  | zero =>
    refine ⟨.ok h h.pos_eq, fun a ha => ?_⟩
    cases ha
    exact hw
  | succ l ih =>
    have e : w.mem.read (out - d) = u.mem.read (out - d) := h.bytes (by omega)
    rw [copyMatch, copyMatch, ← e]
    have hE := emits_writeBits cap (w.mem.read (out - d)).toNat 8 w
    have hpos : ∀ w', writeBits cap (w.mem.read (out - d)).toNat 8 w = .ok w' → w'.pos = 8 * (out + 1) := by
      intro w' hw'
      by_cases hc : w.pos + (bitsMSB (w.mem.read (out - d)).toNat 8).length ≤ 8 * cap
      · obtain ⟨w'', e'', hW⟩ := (hE h.fits.1).1 hc
        rw [hw'] at e''
        cases e''
        show w''.pos = _
        rw [hW.pos, hw, length_bitsMSB]
        omega
      · rw [(hE h.fits.1).2 (by omega)] at hw'
        cases hw'
    have ha := agree_writeBits (w.mem.read (out - d)).toNat 8 h
    rcases ha with ⟨c, h₁, h₂⟩ | ⟨a, b, h₁, h₂, hab, -⟩
    · rw [h₁, h₂]
      exact ⟨.error _, fun a ha => nomatch ha⟩
    · have := ih (out + 1) hab (hpos a h₁) (by omega)
      rw [h₁, h₂]
      exact ⟨this.1, fun a ha => by rw [this.2 a ha]; omega⟩

theorem agree_lzReplay (rd : Nat → Byte) (n total f r out : Nat) {k l : Tokens} (h : Twin cap p k.out l.out)
    (hk : k.lits = l.lits ∧ k.ms = l.ms) (ho : k.out.pos = 8 * out) :
    Agree cap p (fun x => x.2.out) (fun x => (x.1, x.2.lits, x.2.ms)) (lzReplay cap rd n total f r out k)
      (lzReplay cap rd n total f r out l) := by
  induction f generalizing r out k l with
  | zero => exact .ok h (by simp only [hk.1, hk.2])
  | succ f ih =>
    refine .ite (.after fun x => .ite (.after fun y => ?_) (.ite (.after fun y => .after fun z => ?_) (.error _)))
      (.ok h (by simp only [hk.1, hk.2]))
    · dsimp only
      have hE := emits_writeBits cap y.1 8 k.out
      have hw := agree_writeBits y.1 8 h
      rcases hw with ⟨c, h₁, h₂⟩ | ⟨a, b, h₁, h₂, hab, -⟩
      · rw [h₁, h₂]
        exact .error _
      · rw [h₁, h₂]
        refine ih _ _ (k := { k with lits := k.lits + 1, out := a }) hab ⟨by rw [hk.1], hk.2⟩ ?_
        by_cases hc : k.out.pos + (bitsMSB y.1 8).length ≤ 8 * cap
        · obtain ⟨w'', e'', hW⟩ := (hE h.fits.1).1 hc
          rw [h₁] at e''
          cases e''
          show w''.pos = _
          rw [hW.pos, ho, length_bitsMSB]
          omega
        · rw [(hE h.fits.1).2 (by omega)] at h₁
          cases h₁
    · dsimp only
      split
      · exact .error _
      · rename_i hd
        split
        · exact .error _
        · obtain ⟨ha, hp⟩ := agree_copyMatch y.1 z.1 out h ho (by omega) (by omega)
          rcases ha with ⟨c, h₁, h₂⟩ | ⟨a, b, h₁, h₂, hab, -⟩
          · rw [h₁, h₂]
            exact .error _
          · rw [h₁, h₂]
            exact ih _ _ (k := { k with ms := k.ms + 1, out := a }) hab ⟨hk.1, by rw [hk.2]⟩ (hp a h₁)

end

/-- Two fresh writers are twins. -/
theorem twin_fresh (cap : Nat) (s u : State) : Twin cap (s.freshWriter, u.freshWriter) s.freshWriter u.freshWriter :=
  ⟨rfl, rfl, [], .refl (Nat.zero_le _), .refl (Nat.zero_le _)⟩

end Sys2Proof.Machine
end

