-- ==== Sys2Proof/Tests/Slice0.lean ====
section
/-!
SUPPORT. Tests of the model: well-formedness refusals, decode words written out from 30_encoding.md R101, single steps with
the results of 95_test_vectors.md and of the rules' own examples, and the witnesses that the hypotheses of the statements
can be met together.
-/

namespace Sys2Proof.Tests

set_option Elab.async false

open Sys2Proof.Machine

/-! ## Building states -/

/-- Bytes from numbers. -/
def bytes (xs : List Nat) : List Byte := xs.map (BitVec.ofNat 8)

/-- A 256-entry table: the listed (symbol, entry) pairs, 0 elsewhere. -/
def table (ps : List (Nat × Nat)) : List Nat := (List.range 256).map fun s => (Memory.lookup ps s).getD 0

/-- After reset, with input bytes, SRC_LEN and the operands written. -/
def loaded (xs : List Nat) (a0 a1 : Nat) : State :=
  { State.reset with
    ibuf := State.reset.ibuf.fill xs, srcLen := BitVec.ofNat 32 xs.length,
    arg0 := BitVec.ofNat 32 a0, arg1 := BitVec.ofNat 32 a1 }

/-- CMD written and the command started from `s`. -/
def started (i : Instr) (s : State) : State := State.start 1#32 { s with opcode := encodeOpcode i }

/-- What `step` leaves of the started command. -/
def after (i : Instr) (s : State) : State :=
  match step (started i s) with
  | .next t    => t
  | .fault _   => s
  | .refused _ => s

/-- The first `k` bytes of OBUF. -/
def out (s : State) (k : Nat) : List Nat := (List.range k).map fun a => (s.obuf.read a).toNat

/-- "abracadabra". -/
def abra : List Nat := [0x61, 0x62, 0x72, 0x61, 0x63, 0x61, 0x64, 0x61, 0x62, 0x72, 0x61]

/-- LEN and CODE of the example of 42_huffman.md R204. -/
def abraLen : List Nat := table [(0x61, 1), (0x62, 3), (0x63, 3), (0x64, 3), (0x72, 3)]
def abraCode : List Nat := table [(0x62, 4), (0x63, 5), (0x64, 6), (0x72, 7)]

/-- `s` with the tables of that example and TABLE_VALID. -/
def coded (s : State) : State := ((s.setLen abraLen).setCode abraCode).setTableValid true

/-- `s` with an OBUF of `k` bytes. -/
def small (k : Nat) (s : State) : State := { s with params := { s.params with obufBytes := k } }

/-! ## Well-formedness: each check refuses an ill-formed term -/

theorem test_wf_word_high_bit : commandWordWellFormed 0x101#32 = false := by decide
theorem test_wf_word : commandWordWellFormed 0xFF#32 = true := by decide
theorem test_wf_bsWrite_count : operandsLegal .bsWrite 0 0 33#32 = false := by decide
theorem test_wf_bsRead_count : operandsLegal .bsRead 0 0 33#32 = false ∧ operandsLegal .bsRead 0 0 32#32 = true := by decide
theorem test_wf_rleScan_position : operandsLegal .rleScan 4#32 4#32 0 = false ∧ operandsLegal .rleScan 4#32 3#32 0 = true := by decide
theorem test_wf_lzMatch_position : operandsLegal .lzMatch 0 0 0 = false := by decide
theorem test_wf_rleEmit_count : operandsLegal .rleEmit 0 0x41#32 0 = false := by decide
theorem test_wf_lzEmit_kind : operandsLegal .lzEmit 0 0x00060003#32 2#32 = false := by decide
theorem test_wf_lzEmit_distance : operandsLegal .lzEmit 0 0x00060000#32 1#32 = false ∧
    operandsLegal .lzEmit 0 0x00061001#32 1#32 = false ∧ operandsLegal .lzEmit 0 0x00061000#32 1#32 = true := by decide
theorem test_wf_lzEmit_length : operandsLegal .lzEmit 0 0x00020003#32 1#32 = false ∧
    operandsLegal .lzEmit 0 0x01000003#32 1#32 = false := by decide
theorem test_wf_event_width : eventWellFormed (.read 0 3) = false ∧ eventWellFormed (.read 0 8) = false := by decide
theorem test_wf_event_value : eventWellFormed (.write 0 1 0x100#32) = false ∧ eventWellFormed (.write 0 1 0xFF#32) = true := by decide

/-! ## Decoding: every word written out from 30_encoding.md R100 and R101 -/

theorem test_decode_codec :
    decode 0b00000000_00000000_00000000_00000001#32 = .ok .hufCompress ∧
    decode 0b00000000_00000000_00000000_00000010#32 = .ok .hufDecompress ∧
    decode 0b00000000_00000000_00000000_00000011#32 = .ok .rleCompress ∧
    decode 0b00000000_00000000_00000000_00000100#32 = .ok .rleDecompress ∧
    decode 0b00000000_00000000_00000000_00000101#32 = .ok .lzCompress ∧
    decode 0b00000000_00000000_00000000_00000110#32 = .ok .lzDecompress := by decide
theorem test_decode_bitStream :
    decode 0b00000000_00000000_00000000_00010000#32 = .ok .bsReset ∧
    decode 0b00000000_00000000_00000000_00010001#32 = .ok .bsWrite ∧
    decode 0b00000000_00000000_00000000_00010010#32 = .ok .bsFlush ∧
    decode 0b00000000_00000000_00000000_00010011#32 = .ok .bsRead := by decide
theorem test_decode_huffman :
    decode 0b00000000_00000000_00000000_00100000#32 = .ok .hufCount ∧
    decode 0b00000000_00000000_00000000_00100001#32 = .ok .hufBuild ∧
    decode 0b00000000_00000000_00000000_00100010#32 = .ok .hufCanon ∧
    decode 0b00000000_00000000_00000000_00100011#32 = .ok .hufEncode ∧
    decode 0b00000000_00000000_00000000_00100100#32 = .ok .hufDecode := by decide
theorem test_decode_rle_lz :
    decode 0b00000000_00000000_00000000_00110000#32 = .ok .rleScan ∧
    decode 0b00000000_00000000_00000000_00110001#32 = .ok .rleEmit ∧
    decode 0b00000000_00000000_00000000_01000000#32 = .ok .lzMatch ∧
    decode 0b00000000_00000000_00000000_01000001#32 = .ok .lzEmit := by decide
theorem test_decode_illegal :
    decode 0#32 = .error (.illegalOpcode 0x00#8) ∧ decode 0x07#32 = .error (.illegalOpcode 0x07#8) ∧
    decode 0x42#32 = .error (.illegalOpcode 0x42#8) := by decide

/-! ## Commands, one step each -/

/-- 41_bitstream.md R175, example. -/
theorem test_bsReset :
    let t := after .bsReset { State.reset with bsWbits := 11#32, bsRpos := 5#32, dstLen := 2#32 }
    t.bsWbits = 0 ∧ t.bsRpos = 0 ∧ t.dstLen = 0 ∧ t.statusWord = 2#32 := by decide +kernel
/-- 41_bitstream.md R176, example. -/
theorem test_bsWrite :
    let t := after .bsWrite (loaded [] 5 3)
    out t 1 = [0xA0] ∧ t.bsWbits = 3#32 ∧ t.dstLen = 1#32 ∧ t.statusWord = 2#32 := by decide +kernel
/-- 95_test_vectors.md V10 row 10. -/
theorem test_bsWrite_overflow :
    let s := small 1 { loaded [] 0 5 with bsWbits := 4#32 }
    (after .bsWrite s).statusWord = 0x706#32 ∧ (after .bsWrite { s with arg1 := 4#32, obuf := s.obuf.write 0 0 }).bsWbits = 8#32 := by
  decide +kernel
/-- 41_bitstream.md R177, example. -/
theorem test_bsFlush :
    let t := after .bsFlush { State.reset with bsWbits := 11#32 }
    t.bsWbits = 16#32 ∧ t.dstLen = 2#32 := by decide +kernel
/-- 95_test_vectors.md V10 rows 12 and 13 (row 18 is notes/assumptions/17.md). -/
theorem test_bsRead :
    let t := after .bsRead (loaded [0xBF, 0x80, 0x01] 0 3)
    let u := after .bsRead { t with arg1 := 8#32 }
    t.res0 = 5#32 ∧ t.bsRpos = 3#32 ∧ u.res0 = 0xFC#32 ∧ u.res1 = 8#32 ∧ u.bsRpos = 11#32 := by decide +kernel
/-- 41_bitstream.md R178: `m = 0` past the end is still refused. -/
theorem test_bsRead_past_end :
    (after .bsRead { loaded [0xBF] 0 0 with bsRpos := 9#32 }).statusWord = 0x506#32 := by decide +kernel

/-- 42_huffman.md R191, example. -/
theorem test_hufCount :
    let t := after .hufCount (loaded abra 0 0)
    tableEntries t.freq = table [(0x61, 5), (0x62, 2), (0x63, 1), (0x64, 1), (0x72, 2)] ∧ t.res0 = 5#32 ∧ t.res1 = 0 := by
  decide +kernel
/-- 42_huffman.md R198, example: the tie goes to the earliest-inserted node. -/
theorem test_hufBuild :
    let t := after .hufBuild (State.reset.setFreq (table [(0x61, 1), (0x62, 1), (0x63, 2), (0x64, 2)]))
    tableEntries t.len = table [(0x61, 2), (0x62, 2), (0x63, 2), (0x64, 2)] ∧ t.res0 = 4#32 ∧ t.res1 = 2#32 := by
  decide +kernel
/-- The example of 42_huffman.md R198, merged by the relation. -/
def exampleFreq : Nat → Nat := fun s => if s = 0x61 ∨ s = 0x62 then 1 else if s = 0x63 ∨ s = 0x64 then 2 else 0
theorem test_MergesTo :
    presentSymbols exampleFreq = [0x61, 0x62, 0x63, 0x64] ∧ MergesTo 4 (leafRoots exampleFreq)
      { weight := 6, order := 6, below := [(0x61, 2), (0x62, 2), (0x63, 2), (0x64, 2)] } := by
  refine ⟨by decide +kernel, ?_⟩
  have e : leafRoots exampleFreq = [⟨1, 0, [(0x61, 0)]⟩, ⟨1, 1, [(0x62, 0)]⟩, ⟨2, 2, [(0x63, 0)]⟩, ⟨2, 3, [(0x64, 0)]⟩] := by
    decide +kernel
  rw [e]
  refine .merge (.refl _) (by decide) (by decide) ?_
  refine .merge (a := ⟨2, 2, [(0x63, 0)]⟩) (b := ⟨2, 3, [(0x64, 0)]⟩)
    (rest := [Root.parent 4 ⟨1, 0, [(0x61, 0)]⟩ ⟨1, 1, [(0x62, 0)]⟩]) (by decide) (by decide) (by decide) ?_
  refine .merge (a := Root.parent 4 ⟨1, 0, [(0x61, 0)]⟩ ⟨1, 1, [(0x62, 0)]⟩)
    (b := Root.parent 5 ⟨2, 2, [(0x63, 0)]⟩ ⟨2, 3, [(0x64, 0)]⟩) (rest := []) (by decide) (by decide) (by decide) ?_
  exact .done _ _
/-- 42_huffman.md R204, example. -/
theorem test_hufCanon :
    let t := after .hufCanon (State.reset.setLen abraLen)
    tableEntries t.code = abraCode ∧ t.res0 = 5#32 ∧ t.res1 = 3#32 ∧ t.statusWord = 0xA#32 := by decide +kernel
/-- 42_huffman.md R204: two LEN = 1 and a third LEN are refused. -/
theorem test_hufCanon_kraft :
    (after .hufCanon (State.reset.setLen (table [(1, 1), (2, 1), (3, 64)]))).statusWord = 0x906#32 := by decide +kernel
/-- 42_huffman.md R209, example. -/
theorem test_hufEncode :
    let t := after .hufEncode (coded (loaded abra 0 0))
    out t 3 = [0x4E, 0xAC, 0x9C] ∧ t.bsWbits = 23#32 ∧ t.dstLen = 3#32 ∧ t.res0 = 23#32 := by decide +kernel
/-- 42_huffman.md R213, example. -/
theorem test_hufDecode :
    let t := after .hufDecode (coded (loaded [0x4E, 0xAC, 0x9C] 11 0))
    out t 11 = abra ∧ t.bsRpos = 23#32 ∧ t.dstLen = 11#32 ∧ t.res0 = 23#32 := by decide +kernel
/-- 42_huffman.md R213, example: a 13th symbol is missing. -/
theorem test_hufDecode_truncated :
    let t := after .hufDecode (coded (loaded [0x4E, 0xAC, 0x9C] 13 0))
    t.statusWord = 0x50E#32 ∧ t.bsWbits = 0 ∧ t.dstLen = 0 := by decide +kernel

/-- 43_rle.md R241, example. -/
theorem test_rleScan :
    let t := after .rleScan (loaded [0x61, 0x61, 0x61, 0x62] 1 0)
    t.res0 = 2#32 ∧ t.res1 = 0x61#32 := by decide +kernel
/-- 43_rle.md R246, example. -/
theorem test_rleEmit :
    let t := after .rleEmit { loaded [] 0x41 1000 with bsWbits := 8#32 }
    (List.range 8).map (fun a => (t.obuf.read (a + 1)).toNat) = [0xFF, 0x41, 0xFF, 0x41, 0xFF, 0x41, 0xEB, 0x41] ∧
      t.bsWbits = 72#32 ∧ t.dstLen = 9#32 ∧ t.res0 = 4#32 := by decide +kernel
/-- 43_rle.md R250, example. -/
theorem test_rleCompress :
    let t := after .rleCompress (loaded [0x61, 0x61, 0x61, 0x62] 0 0)
    out t 5 = [0x52, 0x03, 0x61, 0x01, 0x62] ∧ t.dstLen = 5#32 ∧ t.res0 = 2#32 := by decide +kernel
/-- 43_rle.md R252, examples. -/
theorem test_rleDecompress :
    let t := after .rleDecompress (loaded [0x52, 0x03, 0x61, 0x01, 0x62] 0 0)
    out t 4 = [0x61, 0x61, 0x61, 0x62] ∧ t.dstLen = 4#32 ∧ t.res0 = 2#32 ∧ t.bsRpos = 40#32 := by decide +kernel
theorem test_rleDecompress_errors :
    (after .rleDecompress (loaded [0x52, 0x03, 0x61, 0x01] 0 0)).errcode = 6#4 ∧
    (after .rleDecompress (loaded [0x52, 0x00, 0x61] 0 0)).errcode = 6#4 ∧
    (after .rleDecompress (loaded [0x41] 0 0)).errcode = 4#4 := by decide +kernel

/-- 44_lz77.md R261, example. -/
theorem test_lzMatch :
    let t := after .lzMatch (loaded [0x61, 0x62, 0x63, 0x64, 0x61, 0x62, 0x63, 0x78, 0x61, 0x62, 0x63, 0x64] 8 0)
    t.res0 = 8#32 ∧ t.res1 = 4#32 := by decide +kernel
/-- 44_lz77.md R266, example. -/
theorem test_lzEmit :
    let t := after .lzEmit (loaded [] 0x00060003 1)
    out t 5 = [0x01, 0x00, 0x03, 0x00, 0x06] ∧ t.bsWbits = 40#32 ∧ t.dstLen = 5#32 := by decide +kernel
/-- 44_lz77.md R270, example. -/
theorem test_lzCompress :
    let t := after .lzCompress (loaded [0x61, 0x62, 0x63, 0x61, 0x62, 0x63, 0x61, 0x62, 0x63] 0 0)
    out t 16 = [0x4C, 0, 0, 0, 9, 0, 0x61, 0, 0x62, 0, 0x63, 1, 0, 3, 0, 6] ∧ t.dstLen = 16#32 ∧ t.res0 = 3#32 ∧
      t.res1 = 1#32 := by decide +kernel
/-- 44_lz77.md R272, example. -/
theorem test_lzDecompress :
    let t := after .lzDecompress (loaded [0x4C, 0, 0, 0, 9, 0, 0x61, 0, 0x62, 0, 0x63, 1, 0, 3, 0, 6] 0 0)
    out t 9 = [0x61, 0x62, 0x63, 0x61, 0x62, 0x63, 0x61, 0x62, 0x63] ∧ t.dstLen = 9#32 ∧ t.res0 = 3#32 ∧ t.res1 = 1#32 := by
  decide +kernel
/-- 95_test_vectors.md V14: the damaged LZ77 containers, each with its code. -/
theorem test_lzDecompress_errors :
    [[0x4C, 0, 0, 0, 9, 0, 0x61, 0, 0x62, 0, 0x63, 1, 0, 3], [0x4C, 0, 0, 0, 2, 0, 0x41], [0x4C, 0, 0, 0, 4, 1, 0, 0, 0, 3],
      [0x4C, 0, 0, 0, 3, 1, 0, 1, 0, 3], [0x4C, 0, 0, 0, 4, 0, 0x41, 1, 0, 4, 0, 3], [0x4C, 0, 0, 0, 5, 0, 0x41, 1, 0x10, 1, 0, 4],
      [0x4C, 0, 0, 0, 4, 0, 0x41, 1, 0, 1, 0, 7], [0x4C, 0, 0, 0, 4, 0, 0x41, 1, 0, 1, 0, 2], [0x4C, 0, 0, 0, 1, 2, 0x41],
      [0x4C, 0, 0, 0, 1, 0, 0x41, 0], [0x4C, 0, 0, 0, 0, 0, 0x41], [0x4C, 0, 0, 0], [0x4D, 0, 0, 0, 0]].map
        (fun xs => (after .lzDecompress (loaded xs 0 0)).errcode.toNat) = [5, 5, 6, 6, 6, 6, 6, 6, 6, 6, 6, 4, 4] := by
  decide +kernel

/-- 95_test_vectors.md V12, the container of "abracadabra". -/
def abraContainer : List Nat :=
  [0x48, 0, 5, 0, 0, 0, 11, 0x61, 0, 0, 0, 5, 0x62, 0, 0, 0, 2, 0x63, 0, 0, 0, 1, 0x64, 0, 0, 0, 1, 0x72, 0, 0, 0, 2,
    0x4E, 0xAC, 0x9C]
theorem test_hufCompress :
    let t := after .hufCompress (loaded abra 0 0)
    out t 35 = abraContainer ∧ t.dstLen = 35#32 ∧ t.res0 = 5#32 ∧ t.res1 = 23#32 ∧ t.statusWord = 0xA#32 := by
  decide +kernel
theorem test_hufDecompress :
    let t := after .hufDecompress (loaded abraContainer 0 0)
    out t 11 = abra ∧ t.dstLen = 11#32 ∧ t.res0 = 5#32 ∧ t.res1 = 23#32 ∧ t.bsRpos = 279#32 := by decide +kernel
/-- 95_test_vectors.md V12: the damaged containers, each with its STATUS. -/
theorem test_hufDecompress_errors :
    [abraContainer.take 34, abraContainer ++ [0], [0x48, 0, 0, 0, 0, 0, 0, 0], [0x48, 0, 0, 0, 0, 0], [0x49, 0, 0, 0, 0, 0, 0],
      [0x48, 0, 1, 0, 0, 3, 0xE8, 0x41, 0, 0, 3, 0xE8, 0], [0x48, 0, 1, 0, 0, 3, 0xE8, 0x41, 0, 0, 3, 0xE7],
      [0x48, 0, 1, 0, 0, 3, 0xE8, 0x41, 0, 0, 3], [0x48, 1, 1, 0, 0, 3, 0xE8, 0x41, 0, 0, 3, 0xE8],
      [0x48, 0, 2, 0, 0, 0, 2, 0x62, 0, 0, 0, 1, 0x61, 0, 0, 0, 1, 0x40],
      [0x48, 0, 2, 0, 0, 0, 2, 0x61, 0, 0, 0, 1, 0x61, 0, 0, 0, 1, 0x40],
      [0x48, 0, 2, 0, 0, 0, 2, 0x61, 0, 0, 0, 0, 0x62, 0, 0, 0, 2, 0x40],
      [0x48, 0, 2, 0, 0, 0, 2, 0x61, 0, 0, 0, 1, 0x62, 0, 0, 0, 1]].map
        (fun xs => (after .hufDecompress (loaded xs 0 0)).errcode.toNat) = [5, 6, 6, 4, 4, 6, 4, 4, 4, 4, 4, 4, 5] := by
  decide +kernel

/-! ## The port, one event each -/

/-- 95_test_vectors.md V15: BUS_ERROR for a 2-byte access, a 1-byte register access, an unmapped offset. -/
theorem test_bus_errors :
    memRead State.reset 0x40100000 2 = .error .busError ∧ memRead State.reset 0x40000010 1 = .error .busError ∧
    memRead State.reset 0x4000004C 4 = .error .busError ∧ memRead State.reset 0x40110000 1 = .error .busError ∧
    memRead State.reset 0x3FFFFFFC 4 = .error .busError := by decide +kernel
/-- 20_memory.md R81. -/
theorem test_word_is_big_endian :
    (memWrite State.reset 0x40100000 4 0x12345678#32).map (fun t => memRead t 0x40100001 1) = .ok (.ok 0x34#32) := by
  decide +kernel
/-- 95_test_vectors.md V15 row 19. -/
theorem test_len_write_clears :
    (memWrite (coded State.reset) 0x40000904 4 0x105#32).map
      (fun t => (memRead t 0x40000904 4, t.tableValid)) = .ok (.ok 5#32, false) := by decide +kernel
/-- 10_state.md R52, R51: the halves of a CODE entry and a LEN entry, read by the host. -/
theorem test_table_reads :
    let s : State := { State.reset with code := State.reset.code.write 255 0x0123456789ABCDEF#64, len := State.reset.len.write 255 0x85#8 }
    memRead s 0x400017F8 4 = .ok 0x01234567#32 ∧ memRead s 0x400017FC 4 = .ok 0x89ABCDEF#32 ∧
    memRead s 0x40000BFC 4 = .ok 0x85#32 ∧ (memWrite s 0x40100003 1 0x5A#32).map (fun t => memRead t 0x40100003 1) = .ok (.ok 0x5A#32) := by
  decide +kernel

/-- 95_test_vectors.md P4: an illegal OPCODE raises the interrupt with code 1. -/
theorem test_illegal_opcode :
    let t := after .rleScan State.reset
    (match step (State.start 3#32 { State.reset with opcode := 0x7F#8 }) with
      | .next u => (u.statusWord, u.irq)
      | _ => (0, false)) = (0x106#32, true) ∧ t.statusWord = 0x306#32 := by decide +kernel
/-- 70_reset_and_hazards.md R331, R307: a soft reset before `Execute` cancels the command. -/
theorem test_soft_reset_cancels :
    (memWrite (started .rleCompress (loaded [0x61] 0 0)) 0x40000008 4 7#32).map
      (fun t => (t.seq, t.statusWord, t.srcLen, t.irqEn, (t.ibuf.read 0).toNat)) =
    .ok (.idle, 0, 0, false, 0x61) := by decide +kernel

/-! ## Witnesses: the hypotheses of each statement, met together, clause by clause -/

/-- The state the run of `i` leaves in `s`. -/
def ran (i : Instr) (s : State) : State :=
  match exec i s with
  | .next t    => t
  | .fault _   => s
  | .refused _ => s

theorem exec_ran (i : Instr) (s : State) : exec i s = .next (ran i s) := by cases i <;> rfl

/-- A small block: 4 bytes of IBUF, 8 of OBUF. -/
def tiny (xs : List Nat) (a0 a1 : Nat) : State :=
  { loaded xs a0 a1 with params := { ibufBytes := 4, obufBytes := 8, coreBase := 0x40000000 } }

/-- `tiny` with a code of length 1 for byte 0x61 alone, and pending events. -/
def tinyCoded (xs : List Nat) (a0 a1 : Nat) (es : List Event) : State :=
  { (((tiny xs a0 a1).setLen (table [(0x61, 1)])).setCode (table [])).setTableValid true with pending := es }

theorem tinyCoded_inv (xs : List Nat) (a0 a1 : Nat) (es : List Event)
    (hw : (tinyCoded xs a0 a1 es).ibuf.wf) (hs : (tinyCoded xs a0 a1 es).ibuf.within 4) : (tinyCoded xs a0 a1 es).Inv := by
  have hl : (tinyCoded xs a0 a1 es).len = State.reset.len.fill (table [(0x61, 1)]) := rfl
  have hc : (tinyCoded xs a0 a1 es).code = State.reset.code.fill (table []) := rfl
  refine ⟨?_, ⟨hw, hs, ?_, ?_, ?_, ?_, ?_, ?_, ?_, ?_⟩, ⟨?_, ?_, ?_⟩, ⟨?_, ?_, ?_⟩, ?_, fun _ => ⟨?_, ?_, ?_⟩⟩
  · show Params.legal { ibufBytes := 4, obufBytes := 8, coreBase := 0x40000000 }
    decide
  · exact List.Pairwise.nil
  · intro c hc; cases hc
  · exact List.Pairwise.nil
  · intro c hc; cases hc
  · rw [hl]; decide +kernel
  · rw [hl]; decide +kernel
  · rw [hc]; decide +kernel
  · rw [hc]; decide +kernel
  · exact Nat.zero_le _
  · show (0#32).toNat = ceil8 (0#32).toNat
    decide
  · intro p _ hp
    have h0 : 8 * ceil8 (tinyCoded xs a0 a1 es).wpos = 0 := by
      show 8 * ceil8 (0#32).toNat = 0
      decide
    omega
  · exact ⟨fun h => (Bool.false_ne_true h).elim, fun h => (h rfl).elim⟩
  · intro h; exact (Bool.false_ne_true h).elim
  · show (0#4).toNat < 12
    decide
  · intro l h; cases h
  · rw [hl]; decide +kernel
  · rw [hl]; decide +kernel
  · rw [hl, hc]; decide +kernel

theorem witness_HardwareResetAbandonsAnyCommand :
    ({ started .hufBuild State.reset with pending := [.hardwareReset] } : State).pending = .hardwareReset :: [] ∧
    (started .hufBuild State.reset).busy = true := by decide
theorem witness_StepKeepsInvariant :
    ∃ s t, s.Inv ∧ step s = .next t ∧ t.busy = true :=
  ⟨tinyCoded [0] 0 0 [.write 0x40000008 4 1#32], _, tinyCoded_inv _ _ _ _ (by decide) (by decide), rfl, by decide +kernel⟩
theorem witness_StepRunsTheDecodedCommand :
    (∃ s l i, State.seq s = .busy l ∧ decodeOpcode l.op = .ok i ∧ s.pending = []) ∧
    (∃ s l i, State.seq s = .busy l ∧ decodeOpcode l.op = .ok i ∧ s.pending = .execute :: [.read 0x40000010 4]) :=
  ⟨⟨started .lzEmit State.reset, _, .lzEmit, rfl, by decide, rfl⟩,
    ⟨{ started .bsRead State.reset with pending := [.execute, .read 0x40000010 4] }, _, .bsRead, rfl, by decide, rfl⟩⟩
theorem witness_StepServesThePendingAccess :
    (∃ s : State, s.pending = .read 0x40000000 4 :: []) ∧ (∃ s : State, s.pending = .write 0x40000014 4 9#32 :: []) ∧
    (∃ s : State, s.seq = .idle ∧ s.pending = .execute :: []) ∧ (∃ s : State, s.seq = .idle ∧ s.pending = []) :=
  ⟨⟨{ State.reset with pending := [.read 0x40000000 4] }, rfl⟩, ⟨{ State.reset with pending := [.write 0x40000014 4 9#32] }, rfl⟩,
    ⟨{ State.reset with pending := [.execute] }, rfl, rfl⟩, ⟨State.reset, rfl, rfl⟩⟩
theorem witness_IllegalOpcodeCompletesWithoutEffect :
    ∃ (s : State) (l : Latch) (e : DecodeError), s.seq = .busy l ∧ decodeOpcode l.op = .error e :=
  ⟨State.start 1#32 { State.reset with opcode := 0x14#8 }, _, _, rfl, rfl⟩
theorem witness_DecodeAndEncodeAgree :
    decode 0x41#32 = .ok .lzEmit ∧ (0x41#32 : Word).toNat % 256 = (0xFFFFFF41#32 : Word).toNat % 256 := by decide

theorem witness_CommandsChangeOnlyTheirWriteSet :
    ∃ s t, exec .bsWrite s = .next t ∧ s.params.legal ∧ s.wpos ≤ 8 * s.params.obufBytes ∧ s.err = false ∧ t.err = false ∧
      ceil8 t.wpos ≤ 1 :=
  ⟨loaded [] 5 3, ran .bsWrite (loaded [] 5 3), rfl, by decide, by decide, rfl, by decide +kernel, by decide +kernel⟩
theorem witness_BadLengthIsCheckedFirst :
    (readsSrcLen .bsRead = true ∧ (tiny [1, 2, 3, 4, 5] 0 1).params.ibufBytes < (tiny [1, 2, 3, 4, 5] 0 1).n) ∧
    (readsSrcLen .bsFlush = false ∧ State.reset.errcode ≠ 2#4) ∧
    ((tiny [1, 2, 3, 4] 0 1).n ≤ (tiny [1, 2, 3, 4] 0 1).params.ibufBytes ∧ State.reset.errcode ≠ 2#4) := by decide +kernel
theorem witness_BadArgumentExactlyOutsideTheRange :
    ((tiny [1, 2, 3, 4] 4 0).n ≤ (tiny [1, 2, 3, 4] 4 0).params.ibufBytes ∧
      operandsLegal .rleScan (tiny [1, 2, 3, 4] 4 0).latched.srcLen (tiny [1, 2, 3, 4] 4 0).latched.arg0 0 = false) ∧
    (readsSrcLen .bsWrite = false ∧ operandsLegal .bsWrite 0 0 32#32 = true ∧ State.reset.errcode ≠ 3#4) := by decide +kernel
theorem witness_CommandsReportOnlyTheirCodes :
    ∃ s t, State.err s = false ∧ s.errcode = 0 ∧ exec .hufCanon s = .next t ∧ t.err = true :=
  ⟨State.reset.setLen (table [(0, 65)]), ran .hufCanon (State.reset.setLen (table [(0, 65)])), rfl, rfl, rfl, by decide +kernel⟩
theorem witness_ErrorsChangeNothingOrLeaveNoOutput :
    (∃ s t, State.err s = false ∧ exec .bsWrite s = .next t ∧ t.err = true) ∧
    (∃ s t, State.err s = false ∧ exec .rleCompress s = .next t ∧ t.err = true) :=
  ⟨⟨loaded [] 0 33, ran .bsWrite (loaded [] 0 33), rfl, rfl, by decide +kernel⟩,
    ⟨small 2 (loaded [1] 0 0), ran .rleCompress (small 2 (loaded [1] 0 0)), rfl, rfl, by decide +kernel⟩⟩
theorem witness_CodeTooLongNeverReported :
    ∃ s t : State, s.params.legal ∧ State.errcode s ≠ 10#4 ∧ exec .hufBuild s = .next t :=
  ⟨State.reset.setFreq (table [(0, 1), (1, 1)]), _, by decide, by decide, rfl⟩
theorem witness_CodecCommandsArePure :
    ∃ s u t v, isCodec .rleCompress = true ∧ State.params s = State.params u ∧ s.params.legal ∧ s.inputBytes = u.inputBytes ∧
      s.err = false ∧ u.err = false ∧ s.errcode = 0 ∧ u.errcode = 0 ∧ exec .rleCompress s = .next t ∧
      exec .rleCompress u = .next v ∧ t.err = false ∧ s ≠ u :=
  ⟨loaded [7, 7] 0 0, { loaded [7, 7] 1 2 with bsWbits := 5#32 }, ran .rleCompress (loaded [7, 7] 0 0), _, rfl, rfl,
    by decide, by decide +kernel, rfl, rfl, rfl, rfl, rfl, rfl, by decide +kernel, by decide +kernel⟩
theorem witness_OnlyThreeCommandsSetTableValid :
    ∃ s t, step s = .next t ∧ s.tableValid = false ∧ t.tableValid = true :=
  ⟨started .hufCanon (State.reset.setLen (table [])), ran .hufCanon (started .hufCanon (State.reset.setLen (table []))), rfl,
    rfl, by decide +kernel⟩
theorem witness_OnlyCompletionSetsDoneAndErr :
    (∃ s t, step s = .next t ∧ s.done = false ∧ t.done = true) ∧ (∃ s t, step s = .next t ∧ s.err = false ∧ t.err = true) :=
  ⟨⟨started .bsReset State.reset, ran .bsReset (started .bsReset State.reset), rfl, rfl, by decide +kernel⟩,
    ⟨started .rleEmit State.reset, ran .rleEmit (started .rleEmit State.reset), rfl, rfl, by decide +kernel⟩⟩
theorem witness_InputIsStableWhileBusy :
    ∃ s t, step s = .next t ∧ s.busy = true ∧ (∀ rest, s.pending ≠ .hardwareReset :: rest) :=
  ⟨{ started .hufCount (loaded [1] 0 0) with pending := [.write 0x40100000 1 2#32] }, _, rfl, rfl,
    fun _ h => by cases h⟩

theorem witness_AddressMapDecidesBusErrors :
    (tiny [] 0 0).params.legal ∧ (tiny [] 0 0).busy = false ∧
    accessAllowed (tiny [] 0 0).params 0x48 4 ∧ accessAllowed (tiny [] 0 0).params 0x17FC 4 ∧
    accessAllowed (tiny [] 0 0).params 0x100003 1 ∧ ¬accessAllowed (tiny [] 0 0).params 0x100004 1 ∧
    accessAllowed (tiny [] 0 0).params 0x200004 4 ∧ ¬accessAllowed (tiny [] 0 0).params 0x4C 4 := by
  refine ⟨by decide, by decide, ?_, ?_, ?_, ?_, ?_, ?_⟩ <;> unfold accessAllowed <;> decide
theorem witness_BusErrorsAndReadsChangeNothing :
    memRead State.reset 0x4000004C 4 = .error .busError ∧ memRead State.reset 0x40000048 4 = .ok 0x4C5248#32 ∧
    ({ State.reset with pending := [.write 0x40300000 4 0#32] } : State).pending = .write 0x40300000 4 0#32 :: [] ∧
    (match memWrite State.reset 0x40300000 4 0#32 with | .ok _ => false | .error e => e = .busError) = true := by decide +kernel
theorem witness_BusyAccessesFollowTheTable :
    (started .hufCount State.reset).busy = true ∧
    locate State.reset.params 0x40000010 4 = some (.reg .status) ∧ locate State.reset.params 0x40000018 4 = some (.reg .dstLen) ∧
    locate State.reset.params 0x40100000 1 = some (.ibufByte 0) ∧ locate State.reset.params 0x40000008 4 = some (.reg .ctrl) ∧
    locate State.reset.params 0x4000004C 4 = none := by decide +kernel
theorem witness_BufferAccessesAreBigEndian :
    (tiny [] 0 0).params.legal ∧ (tiny [] 0 0).busy = false ∧ 0 % 4 = 0 ∧ 0 + 4 ≤ (tiny [] 0 0).params.ibufBytes ∧
    3 < (tiny [] 0 0).params.ibufBytes ∧ 7 < (tiny [] 0 0).params.obufBytes ∧ 4 % 4 = 0 ∧
    4 + 4 ≤ (tiny [] 0 0).params.obufBytes := by decide
theorem witness_StatusReadsItsFields : (started .bsRead State.reset).params.legal ∧ (4 ≤ 7 ∧ 7 ≤ 7) ∧ 12 ≤ 31 := by decide
theorem witness_idle_port :
    State.reset.busy = false ∧ State.reset.seq = .idle ∧ State.reset.params.legal ∧
    (3#32 : Word).getLsbD 2 = false ∧ (3#32 : Word).getLsbD 0 = true ∧ (3#32 : Word).getLsbD 1 = true ∧
    (4#32 : Word).getLsbD 2 = true ∧ (4#32 : Word).getLsbD 0 = false ∧ (4#32 : Word).getLsbD 1 = false := by decide
theorem witness_CtrlWriteDoesExactlyOneThing :
    (started .bsRead State.reset).busy = true ∧ (started .bsRead State.reset).params.legal := by decide
theorem witness_SoftResetAbandonsAndClears :
    (∃ l, (started .hufCompress State.reset).seq = .busy l ∧ (writeSetOfOpcode l.op).obuf = true ∧
      (writeSetOfOpcode l.op).freq = true ∧ (writeSetOfOpcode l.op).len = true ∧ (writeSetOfOpcode l.op).code = true ∧
      (writeSetOfOpcode l.op).arena = true) ∧
    (∃ l, (started .rleScan State.reset).seq = .busy l ∧ (writeSetOfOpcode l.op).obuf = false ∧
      (writeSetOfOpcode l.op).freq = false ∧ (writeSetOfOpcode l.op).len = false ∧ (writeSetOfOpcode l.op).code = false ∧
      (writeSetOfOpcode l.op).arena = false) :=
  ⟨⟨_, rfl, by decide⟩, ⟨_, rfl, by decide⟩⟩
theorem witness_ReadOnlyLocationsIgnoreWrites :
    locate State.reset.params 0x40000018 4 = some (.reg .dstLen) ∧ locate State.reset.params 0x40001004 4 = some (.codeLo 0) ∧
    locate State.reset.params 0x4020FFFF 1 = some (.obufByte 0xFFFF) := by decide +kernel

theorem witness_BsWriteAppendsTheLowBits :
    32 < (tiny [] 0 33).a1 ∧ ((tiny [] 0 32).a1 ≤ 32 ∧ 8 * (tiny [] 0 32).params.obufBytes <
      ({ tiny [] 0 32 with bsWbits := 33#32 } : State).wpos + (tiny [] 0 32).a1) ∧
    (({ tiny [] 0 32 with bsWbits := 32#32 } : State).wpos + (tiny [] 0 32).a1 ≤ 8 * (tiny [] 0 32).params.obufBytes) ∧
    (tiny [] 0 32).params.legal := by decide +kernel
theorem witness_BsFlushPadsToAByte :
    (tiny [] 0 0).params.legal ∧
      ({ tiny [] 0 0 with bsWbits := 63#32 } : State).wpos ≤ 8 * (tiny [] 0 0).params.obufBytes := by decide
theorem witness_BsReadReturnsTheNextBits :
    (tiny [1, 2, 3, 4, 5] 0 0).params.ibufBytes < (tiny [1, 2, 3, 4, 5] 0 0).n ∧
    ((tiny [1, 2, 3, 4] 0 33).n ≤ 4 ∧ 32 < (tiny [1, 2, 3, 4] 0 33).a1) ∧
    ((tiny [1] 0 9).a1 ≤ 32 ∧ 8 * (tiny [1] 0 9).n < (tiny [1] 0 9).rpos + (tiny [1] 0 9).a1) ∧
    ((tiny [1] 0 8).a1 ≤ 32 ∧ (tiny [1] 0 8).rpos + (tiny [1] 0 8).a1 ≤ 8 * (tiny [1] 0 8).n) := by decide +kernel
theorem witness_input_length :
    (tiny [1, 2, 3, 4] 0 0).n ≤ (tiny [1, 2, 3, 4] 0 0).params.ibufBytes ∧ (tiny [1, 2, 3, 4] 0 0).params.legal ∧
    (tiny [1, 2, 3, 4, 5] 0 0).params.ibufBytes < (tiny [1, 2, 3, 4, 5] 0 0).n := by decide +kernel
theorem witness_HufBuildWritesTheCodeLengths :
    (let s := State.reset.setFreq (table [(0xFF, 1), (0, 0xFFFFFFFF)])
     2 ≤ (presentSymbols fun x => (s.freq.read x).toNat).length ∧ (s.freq.read 1).toNat = 0) ∧
    (let s := State.reset.setFreq (table [(0xFF, 9)])
     presentSymbols (fun x => (s.freq.read x).toNat) = [0xFF]) := by decide +kernel
theorem witness_BuiltLengthsFormACompleteCode :
    ∃ s t, exec .hufBuild s = .next t ∧ 2 ≤ t.res0.toNat :=
  ⟨State.reset.setFreq (table [(0, 1), (1, 1)]), ran .hufBuild (State.reset.setFreq (table [(0, 1), (1, 1)])), rfl,
    by decide +kernel⟩
theorem witness_HufCanonAssignsTheCanonicalCode :
    (∃ s : State, ∃ x, x < 256 ∧ 64 < (s.len.read x).toNat) ∧
    (∃ s : State, 2 ^ 64 < ((List.range 256).map fun x =>
      if (s.len.read x).toNat = 0 then 0 else 2 ^ (64 - (s.len.read x).toNat)).sum) ∧
    (∃ s : State, (∀ x, x < 256 → (s.len.read x).toNat ≤ 64) ∧ ((List.range 256).map fun x =>
      if (s.len.read x).toNat = 0 then 0 else 2 ^ (64 - (s.len.read x).toNat)).sum ≤ 2 ^ 64 ∧ 0 < (s.len.read 3).toNat) :=
  ⟨⟨State.reset.setLen (table [(255, 65)]), 255, by decide, by decide +kernel⟩,
    ⟨State.reset.setLen (table [(0, 1), (1, 1), (2, 64)]), by decide +kernel⟩,
    ⟨State.reset.setLen (table [(3, 1), (1, 1)]), by decide +kernel⟩⟩
theorem witness_ValidTablesArePrefixFree :
    ∃ s : State, s.Inv ∧ s.tableValid = true ∧ 0 < (s.len.read 0x61).toNat :=
  ⟨tinyCoded [] 0 0 [], tinyCoded_inv _ _ _ _ (by decide) (by decide), rfl, by decide +kernel⟩
theorem witness_HufEncodeAppendsTheCodes :
    (tiny [0x61] 0 0).tableValid = false ∧
    ((tinyCoded [0x62] 0 0 []).tableValid = true ∧ ∃ b ∈ (tinyCoded [0x62] 0 0 []).inputBytes,
      entry (tableEntries (tinyCoded [0x62] 0 0 []).len) b = 0) ∧
    (∀ b ∈ (tinyCoded [0x61] 0 0 []).inputBytes, 0 < entry (tableEntries (tinyCoded [0x61] 0 0 []).len) b) ∧
    ({ tinyCoded [0x61] 0 0 [] with bsWbits := 64#32 } : State).wpos + 1 > 8 * (tinyCoded [0x61] 0 0 []).params.obufBytes ∧
    ({ tinyCoded [0x61] 0 0 [] with bsWbits := 63#32 } : State).wpos + 1 ≤ 8 * (tinyCoded [0x61] 0 0 []).params.obufBytes := by
  decide +kernel
theorem witness_HufDecodeInvertsTheEncoder :
    ∃ (s : State) (xs : List Byte), s.Inv ∧ s.n ≤ s.params.ibufBytes ∧ s.tableValid = true ∧ s.a0 = xs.length ∧
      (∀ b ∈ xs, 0 < entry (tableEntries s.len) b) ∧
      s.rpos + (codeBits (tableEntries s.len) (tableEntries s.code) xs).length ≤ 8 * s.n ∧
      streamBits s.ibuf.read s.rpos (codeBits (tableEntries s.len) (tableEntries s.code) xs).length =
        codeBits (tableEntries s.len) (tableEntries s.code) xs ∧
      s.wpos + 8 * xs.length ≤ 8 * s.params.obufBytes ∧ xs.length = 8 :=
  ⟨tinyCoded [0] 8 0 [], List.replicate 8 0x61#8, tinyCoded_inv _ _ _ _ (by decide) (by decide), by decide +kernel⟩
/-- The one-symbol code of `tinyCoded` begins no bits that start with a 1. -/
theorem noCodeBegins_one (rest : List Bool) (h : rest = [] ∨ ∃ tail, rest = true :: tail) :
    noCodeBegins (table [(0x61, 1)]) (table []) rest := by
  intro b hb
  have hlen : ∀ b : Fin 256, 0 < entry (table [(0x61, 1)]) (BitVec.ofFin b) → b = 0x61 := by decide +kernel
  have e := hlen b.toFin hb
  have e' : bitsMSB (entry (table []) b) (entry (table [(0x61, 1)]) b) = [false] := by
    rw [show b = BitVec.ofFin 0x61 from congrArg BitVec.ofFin e]
    decide +kernel
  rw [e']
  rcases h with rfl | ⟨tail, rfl⟩ <;> simp
theorem witness_HufDecodeInvertsTheEncoder_errors :
    (∃ (s : State) (xs : List Byte), s.Inv ∧ s.tableValid = true ∧ xs.length ≤ s.a0 ∧ (∀ b ∈ xs, 0 < entry (tableEntries s.len) b) ∧
      (xs = [] ∨ s.rpos + (codeBits (tableEntries s.len) (tableEntries s.code) xs).length ≤ 8 * s.n) ∧
      streamBits s.ibuf.read s.rpos (codeBits (tableEntries s.len) (tableEntries s.code) xs).length =
        codeBits (tableEntries s.len) (tableEntries s.code) xs ∧ 8 * s.params.obufBytes < s.wpos + 8 * xs.length) ∧
    (∃ s : State, s.Inv ∧ s.tableValid = true ∧ 0 < s.a0 ∧ s.wpos ≤ 8 * s.params.obufBytes ∧
      noCodeBegins (tableEntries s.len) (tableEntries s.code) (streamBits s.ibuf.read (s.rpos + 0) (8 * s.n - (s.rpos + 0))) ∧
      ∃ b, (streamBits s.ibuf.read (s.rpos + 0) (8 * s.n - (s.rpos + 0))).length < entry (tableEntries s.len) b) ∧
    (∃ s : State, s.Inv ∧ s.tableValid = true ∧ 0 < s.a0 ∧ s.wpos ≤ 8 * s.params.obufBytes ∧
      noCodeBegins (tableEntries s.len) (tableEntries s.code) (streamBits s.ibuf.read (s.rpos + 0) (8 * s.n - (s.rpos + 0))) ∧
      ∀ b, entry (tableEntries s.len) b ≤ (streamBits s.ibuf.read (s.rpos + 0) (8 * s.n - (s.rpos + 0))).length) := by
  have hlen : ∀ xs a0 a1 es, tableEntries (tinyCoded xs a0 a1 es).len = table [(0x61, 1)] := fun _ _ _ _ => by
    show tableEntries (State.reset.len.fill (table [(0x61, 1)])) = _
    decide +kernel
  have hcode : ∀ xs a0 a1 es, tableEntries (tinyCoded xs a0 a1 es).code = table [] := fun _ _ _ _ => by
    show tableEntries (State.reset.code.fill (table [])) = _
    decide +kernel
  refine ⟨⟨tinyCoded [0, 0] 9 0 [], List.replicate 9 0x61#8, tinyCoded_inv _ _ _ _ (by decide) (by decide), by decide +kernel⟩,
    ⟨tinyCoded [] 1 0 [], tinyCoded_inv _ _ _ _ (by decide) (by decide), rfl, by decide, by decide, ?_, 0x61#8, ?_⟩,
    ⟨tinyCoded [0x80] 1 0 [], tinyCoded_inv _ _ _ _ (by decide) (by decide), rfl, by decide, by decide, ?_, ?_⟩⟩
  · rw [hlen, hcode]; exact noCodeBegins_one _ (.inl rfl)
  · rw [hlen]; decide +kernel
  · rw [hlen, hcode]; exact noCodeBegins_one _ (.inr ⟨List.replicate 7 false, by decide +kernel⟩)
  · rw [hlen]
    intro b
    have h : ∀ b : Fin 256, entry (table [(0x61, 1)]) (BitVec.ofFin b) ≤ 1 := by decide +kernel
    refine (h b.toFin).trans ?_
    decide +kernel
theorem witness_RleScanReportsTheMaximalRun :
    (tiny [1, 1] 2 0).n ≤ (tiny [1, 1] 2 0).a0 ∧ (tiny [1, 1] 1 0).a0 < (tiny [1, 1] 1 0).n := by decide +kernel
theorem witness_RleEmitAppendsThePairs :
    (tiny [] 0 0).a1 < 1 ∧
    (1 ≤ (tiny [] 0 1021).a1 ∧ 8 * 8 < (tiny [] 0 1021).wpos + 16 * (((tiny [] 0 1021).a1 + 254) / 255)) ∧
    (1 ≤ (tiny [] 0 1020).a1 ∧ (tiny [] 0 1020).wpos + 16 * (((tiny [] 0 1020).a1 + 254) / 255) ≤ 8 * 8) := by decide +kernel
theorem witness_RleCompressWritesTheContainer :
    (rleContainer (tiny [1, 2, 3] 0 0).inputBytes).length ≤ (tiny [1, 2, 3] 0 0).params.obufBytes ∧
    (tiny [1, 2, 3, 4] 0 0).params.obufBytes < (rleContainer (tiny [1, 2, 3, 4] 0 0).inputBytes).length := by decide +kernel
theorem witness_RleDecompressExpandsThePairs :
    (tiny [] 0 0).n = 0 ∧ (1 ≤ (tiny [0] 0 0).n ∧ (tiny [0] 0 0).ibuf.read 0 ≠ Config.tagR) ∧
    ((tiny [0x52, 1] 0 0).ibuf.read 0 = Config.tagR ∧ (tiny [0x52, 1] 0 0).n % 2 = 0) ∧
    (tiny [0x52, 0, 1] 0 0).inputBytes = Config.tagR :: pairBytes [(0#8, 1#8)] ∧
    ((tiny [0x52, 9, 1] 0 0).inputBytes = Config.tagR :: pairBytes [(9#8, 1#8)] ∧ 8 < (expandPairs [(9#8, 1#8)]).length) ∧
    ((tiny [0x52, 8, 1] 0 0).inputBytes = Config.tagR :: pairBytes [(8#8, 1#8)] ∧ (expandPairs [(8#8, 1#8)]).length ≤ 8) := by
  decide +kernel
theorem witness_RleRoundTrip :
    ∃ s t u : State, s.params.legal ∧ State.err s = false ∧ s.n ≤ s.params.ibufBytes ∧ exec .rleCompress s = .next t ∧ t.err = false ∧
      u.params = s.params ∧ u.err = false ∧ u.inputBytes = t.outputBytes ∧ u.n ≤ u.params.ibufBytes ∧
      s.n ≤ u.params.obufBytes ∧ s.n = 3 :=
  ⟨tiny [9, 9, 9] 0 0, ran .rleCompress (tiny [9, 9, 9] 0 0), tiny [0x52, 3, 9] 0 0, by decide, rfl, by decide +kernel, rfl,
    by decide +kernel, rfl, rfl, by decide +kernel, by decide +kernel, by decide +kernel, by decide +kernel⟩

theorem witness_LzMatchFindsTheLongestNearest :
    (tiny [1, 1] 2 0).n ≤ (tiny [1, 1] 2 0).a0 ∧ (tiny [1, 1, 1] 1 0).a0 < (tiny [1, 1, 1] 1 0).n := by decide +kernel
theorem witness_LzEmitAppendsTheToken :
    2 ≤ (tiny [] 0 2).a1 ∧ ((tiny [] 0 1).a1 = 1 ∧ (tiny [] 0 1).a0 % 65536 < 1) ∧
    ((tiny [] 0 0).a1 = 0 ∧ 8 * 8 < ({ tiny [] 0 0 with bsWbits := 49#32 } : State).wpos + 16) ∧
    ({ tiny [] 0 0 with bsWbits := 48#32 } : State).wpos + 16 ≤ 8 * 8 ∧
    ((tiny [] 0x00FF1000 1).a1 = 1 ∧ (tiny [] 0x00FF1000 1).a0 % 65536 = 4096 ∧ (tiny [] 0x00FF1000 1).a0 / 65536 = 255 ∧
      ({ tiny [] 0x00FF1000 1 with bsWbits := 24#32 } : State).wpos + 40 ≤ 8 * 8 ∧
      8 * 8 < ({ tiny [] 0x00FF1000 1 with bsWbits := 25#32 } : State).wpos + 40) := by decide +kernel
theorem witness_LzCompressWritesTheContainer :
    (lzContainer 1 (lzTokens (tiny [1] 0 0).ibuf.read 1 1 0)).length ≤ 8 ∧
    8 < (lzContainer 2 (lzTokens (tiny [1, 2] 0 0).ibuf.read 2 2 0)).length := by decide +kernel
theorem witness_LzTokensCoverTheInput :
    ∃ s t : State, s.params.legal ∧ State.err s = false ∧ exec .lzCompress s = .next t ∧ t.err = false ∧ s.n = 4 :=
  ⟨loaded [1, 1, 1, 1] 0 0, ran .lzCompress (loaded [1, 1, 1, 1] 0 0), by decide, rfl, rfl, by decide +kernel,
    by decide +kernel⟩
theorem witness_LzDecompressReplaysTheTokens :
    (tiny [1, 2, 3, 4] 0 0).n < 5 ∧
    (5 ≤ (loaded [0, 0, 0, 0, 0] 0 0).n ∧ (loaded [0, 0, 0, 0, 0] 0 0).ibuf.read 0 ≠ Config.tagL) ∧
    ((loaded [0x4C, 0, 1, 0, 1] 0 0).ibuf.read 0 = Config.tagL ∧
      65536 < bigEndian (loaded [0x4C, 0, 1, 0, 1] 0 0).ibuf.read 1 4) ∧
    ((loaded [0x4C, 0, 0, 0, 4, 0, 9, 1, 0, 1, 0, 3] 0 0).inputBytes = lzContainer 4 [.literal 9#8, .copy 1 3] ∧
      replayTokens 4 [] [.literal 9#8, .copy 1 3] = some [9#8, 9#8, 9#8, 9#8] ∧ 4 ≤ State.reset.params.obufBytes) := by
  decide +kernel
theorem witness_LzDecompressReplaysTheTokens_errors :
    ((loaded [0x4C, 0, 0, 0, 1, 0, 9, 7] 0 0).inputBytes = lzContainer 1 [.literal 9#8] ++ [7#8] ∧
      replayTokens 1 [] [.literal 9#8] = some [9#8]) ∧
    (loaded [0x4C, 0, 0, 0, 2, 0, 9] 0 0).inputBytes = lzContainer 2 [.literal 9#8] ++ [] ∧ tokenCut [] ∧ tokenCut [0#8] ∧
    tokenCut [1#8, 0#8, 1#8, 0#8] ∧
    ((loaded [0x4C, 0, 0, 0, 4, 0, 9, 2] 0 0).inputBytes = lzContainer 4 [.literal 9#8] ++ [2#8] ∧ tokenRefused 4 1 [2#8]) ∧
    tokenRefused 4 1 [1#8, 0#8, 0#8, 0#8, 3#8] ∧ tokenRefused 4 1 [1#8, 0#8, 2#8, 0#8, 3#8] ∧
    tokenRefused 4 1 [1#8, 0#8, 1#8, 0#8, 4#8] ∧ tokenRefused 4 1 [1#8, 0#8, 1#8, 0#8, 2#8] ∧
    tokenRefused 1000 5000 [1#8, 0x10#8, 1#8, 0#8, 3#8] ∧ tokenRefused 1000 1 [1#8, 0#8, 1#8, 1#8, 0#8] := by
  refine ⟨by decide +kernel, by decide +kernel, .inl rfl, .inr (.inl rfl), .inr (.inr ⟨_, rfl, by decide⟩),
    ⟨by decide +kernel, .inl ⟨_, _, rfl, by decide, by decide⟩⟩, .inr ⟨0, 3, [], by decide, by decide, by decide, by decide⟩,
    .inr ⟨2, 3, [], by decide, by decide, by decide, by decide⟩, .inr ⟨1, 4, [], by decide, by decide, by decide, by decide⟩,
    .inr ⟨1, 2, [], by decide, by decide, by decide, by decide⟩, .inr ⟨4097, 3, [], by decide, by decide, by decide, by decide⟩,
    .inr ⟨1, 256, [], by decide, by decide, by decide, by decide⟩⟩
theorem witness_LzDecompressAcceptsOnlyContainers :
    ∃ s t : State, s.params.legal ∧ State.err s = false ∧ exec .lzDecompress s = .next t ∧ t.err = false :=
  ⟨loaded [0x4C, 0, 0, 0, 1, 0, 9] 0 0, ran .lzDecompress (loaded [0x4C, 0, 0, 0, 1, 0, 9] 0 0), by decide, rfl, rfl,
    by decide +kernel⟩
theorem witness_LzRoundTrip :
    ∃ s t u : State, s.params.legal ∧ State.err s = false ∧ s.n ≤ s.params.ibufBytes ∧ exec .lzCompress s = .next t ∧ t.err = false ∧
      u.params = s.params ∧ u.err = false ∧ u.inputBytes = t.outputBytes ∧ u.n ≤ u.params.ibufBytes ∧
      s.n ≤ u.params.obufBytes ∧ s.n = 4 :=
  ⟨loaded [9, 9, 9, 9] 0 0, ran .lzCompress (loaded [9, 9, 9, 9] 0 0), loaded [0x4C, 0, 0, 0, 4, 0, 9, 1, 0, 1, 0, 3] 0 0,
    by decide, rfl, by decide +kernel, rfl, by decide +kernel, rfl, rfl, by decide +kernel, by decide +kernel,
    by decide +kernel, by decide +kernel⟩

theorem witness_HufCompressWritesTheContainer :
    (hufContainerBits (loaded [9] 0 0).inputBytes).length ≤ 8 * 12 ∧
    8 * 8 < (hufContainerBits (tiny [9] 0 0).inputBytes).length := by decide +kernel
/-- A two-symbol header, and the bytes `tail` behind it. -/
def twoSymbols (tail : List Nat) : State := loaded ([0x48, 0, 2, 0, 0, 0, 2, 0x61, 0, 0, 0, 1, 0x62, 0, 0, 0, 1] ++ tail) 0 0
def twoFreq : List Nat := table [(0x61, 1), (0x62, 1)]
theorem twoSymbols_tables : buildLens twoFreq = twoFreq ∧ canonCodes twoFreq = table [(0x62, 1)] := by decide +kernel
theorem witness_HufDecompressDecodesTheContainer :
    (¬HufHeaderOk (tiny [1, 2] 0 0).ibuf.read (tiny [1, 2] 0 0).n) ∧
    (let s := small 1 (twoSymbols [0x40])
     HufHeaderOk s.ibuf.read s.n ∧ s.params.obufBytes < bigEndian s.ibuf.read 3 4) ∧
    (let s := loaded [0x48, 0, 0, 0, 0, 0, 0, 0] 0 0
     HufHeaderOk s.ibuf.read s.n ∧ bigEndian s.ibuf.read 1 2 = 0 ∧ s.n ≠ 7) ∧
    (let s := loaded [0x48, 0, 1, 0, 0, 0, 3, 0x41, 0, 0, 0, 3, 0] 0 0
     HufHeaderOk s.ibuf.read s.n ∧ bigEndian s.ibuf.read 1 2 = 1 ∧ s.n ≠ 12) ∧
    (let s := loaded [0x48, 0, 1, 0, 0, 0, 3, 0x41, 0, 0, 0, 3] 0 0
     let xs := bytes [0x41, 0x41, 0x41]
     s.inputBytes = hufHeader (presentFrom 0 (freqOf xs)) (freqOf xs).sum ++ [] ∧ distinct (freqOf xs) = 1) ∧
    twoFreq.length = 256 ∧ twoFreq.sum = 2 ∧ distinct twoFreq = 2 ∧
    (twoSymbols [0x7F]).inputBytes = hufHeader (presentFrom 0 twoFreq) twoFreq.sum ++ [0x7F#8] ∧
    bytesBits [0x7F#8] = codeBits twoFreq (table [(0x62, 1)]) (bytes [0x61, 0x62]) ++ List.replicate 6 true ∧
    bytesBits [0x40#8, 0#8] = codeBits twoFreq (table [(0x62, 1)]) (bytes [0x61, 0x62]) ++ List.replicate 14 false ∧
    bytesBits [] = codeBits twoFreq (table [(0x62, 1)]) [] ++ [] ∧ noCodeBegins twoFreq (table [(0x62, 1)]) [] := by
  refine ⟨fun h => absurd h.fixed (by decide), ?_, ?_, ?_, by decide +kernel, by decide +kernel, by decide +kernel,
    by decide +kernel, by decide +kernel, by decide +kernel, by decide +kernel, by decide +kernel, ?_⟩
  · refine ⟨⟨by decide, by decide, by decide, by decide, by decide, fun j hj => ?_, by decide⟩, by decide⟩
    obtain rfl : j = 0 := by
      have hk : bigEndian (small 1 (twoSymbols [0x40])).ibuf.read 1 2 = 2 := by decide
      omega
    decide
  · exact ⟨⟨by decide, by decide, by decide, by decide, by decide, fun j hj => absurd hj (by
      have hk : bigEndian (loaded [0x48, 0, 0, 0, 0, 0, 0, 0] 0 0).ibuf.read 1 2 = 0 := by decide
      omega), by decide⟩, by decide, by decide⟩
  · exact ⟨⟨by decide, by decide, by decide, by decide, by decide, fun j hj => absurd hj (by
      have hk : bigEndian (loaded [0x48, 0, 1, 0, 0, 0, 3, 0x41, 0, 0, 0, 3, 0] 0 0).ibuf.read 1 2 = 1 := by decide
      omega), by decide⟩, by decide, by decide⟩
  · intro b hb
    rw [List.prefix_nil]
    intro he
    have := congrArg List.length he
    have hl : ∀ v m, (bitsMSB v m).length = m := fun v m => by induction m with
      | zero => rfl
      | succ m ih => simp [bitsMSB, ih]
    rw [hl] at this
    simp at this
    omega
theorem witness_HufRoundTrip :
    ∃ s t u : State, s.params.legal ∧ State.err s = false ∧ s.n ≤ s.params.ibufBytes ∧ exec .hufCompress s = .next t ∧ t.err = false ∧
      u.params = s.params ∧ u.err = false ∧ u.inputBytes = t.outputBytes ∧ u.n ≤ u.params.ibufBytes ∧
      s.n ≤ u.params.obufBytes ∧ s.n = 2 :=
  ⟨loaded [0x61, 0x62] 0 0, ran .hufCompress (loaded [0x61, 0x62] 0 0),
    loaded [0x48, 0, 2, 0, 0, 0, 2, 0x61, 0, 0, 0, 1, 0x62, 0, 0, 0, 1, 0x40] 0 0,
    by decide, rfl, by decide +kernel, rfl, by decide +kernel, rfl, rfl, by decide +kernel, by decide +kernel,
    by decide +kernel, by decide +kernel⟩
theorem witness_DecompressLengthIsTheDeclaredOne :
    (∃ t, exec .hufDecompress (loaded [0x48, 0, 0, 0, 0, 0, 0] 0 0) = .next t ∧ t.err = false) ∧
    (∃ t, exec .lzDecompress (loaded [0x4C, 0, 0, 0, 0] 0 0) = .next t ∧ t.err = false) ∧
    (∃ t, exec .rleDecompress (loaded [0x52] 0 0) = .next t ∧ t.err = false) :=
  ⟨⟨ran .hufDecompress (loaded [0x48, 0, 0, 0, 0, 0, 0] 0 0), rfl, by decide +kernel⟩,
    ⟨ran .lzDecompress (loaded [0x4C, 0, 0, 0, 0] 0 0), rfl, by decide +kernel⟩,
    ⟨ran .rleDecompress (loaded [0x52] 0 0), rfl, by decide +kernel⟩⟩

end Sys2Proof.Tests
end

section
/-!
Host accesses to the registers and tables: the value each read returns, and the writes that acknowledge a completion or
clear IRQ_EN (10_state.md R33 to R55, 20_memory.md R74, R75).
-/

open Sys2Proof Sys2Proof.Machine

namespace Sys2Proof.Machine

/-! ## STATUS -/

theorem getLsbD_bitWord (b : Bool) (p k : Nat) (hp : p < 32) : (bitWord b p).getLsbD k = (decide (k = p) && b) := by
  cases b
  · simp [bitWord]
  · rw [bitWord, if_pos rfl, BitVec.getLsbD_shiftLeft, BitVec.getLsbD_one, Bool.eq_iff_iff]
    simp only [Bool.and_eq_true, Bool.not_eq_true', decide_eq_true_eq, decide_eq_false_iff_not, and_true]
    omega

/-- STATUS bit by bit (10_state.md R37). -/
theorem State.getLsbD_statusWord (s : State) (k : Nat) : s.statusWord.getLsbD k =
    (decide (k = 0) && s.busy || decide (k = 1) && s.done || decide (k = 2) && s.err ||
      decide (k = 3) && s.tableValid || decide (8 ≤ k) && s.errcode.getLsbD (k - 8)) := by
  have hc : (s.errcode.setWidth 32 <<< 8).getLsbD k = (decide (8 ≤ k) && s.errcode.getLsbD (k - 8)) := by
    have : s.errcode.getLsbD (k - 8) = true → k < 12 := fun h => by
      have := BitVec.lt_of_getLsbD h
      omega
    rw [BitVec.getLsbD_shiftLeft, BitVec.getLsbD_setWidth, Bool.eq_iff_iff]
    simp only [Bool.and_eq_true, Bool.not_eq_true', decide_eq_true_eq, decide_eq_false_iff_not]
    constructor
    · rintro ⟨⟨-, h8⟩, -, h⟩
      exact ⟨by omega, h⟩
    · rintro ⟨h8, h⟩
      have := this h
      exact ⟨⟨by omega, by omega⟩, by omega, h⟩
  simp only [State.statusWord, BitVec.getLsbD_or, getLsbD_bitWord _ _ k (show 0 < 32 by decide),
    getLsbD_bitWord _ _ k (show 1 < 32 by decide), getLsbD_bitWord _ _ k (show 2 < 32 by decide),
    getLsbD_bitWord _ _ k (show 3 < 32 by decide), hc]

/-- STATUS as a number: its fields do not overlap. -/
theorem State.toNat_statusWord (s : State) : s.statusWord.toNat =
    s.busy.toNat + 2 * s.done.toNat + 4 * s.err.toNat + 8 * s.tableValid.toNat + 256 * s.errcode.toNat := by
  have fields : ∀ (b d e t : Bool) (c : BitVec 4),
      (bitWord b 0 ||| bitWord d 1 ||| bitWord e 2 ||| bitWord t 3 ||| (c.setWidth 32 <<< 8)).toNat =
        b.toNat + 2 * d.toNat + 4 * e.toNat + 8 * t.toNat + 256 * c.toNat := by decide
  exact fields s.busy s.done s.err s.tableValid s.errcode

theorem State.errcode_statusWord (s : State) : s.statusWord.extractLsb' 8 4 = s.errcode := by
  apply BitVec.eq_of_getLsbD_eq
  intro j hj
  rw [BitVec.getLsbD_extractLsb', State.getLsbD_statusWord]
  simp [hj, show ¬8 + j = 1 by omega, show ¬8 + j = 2 by omega, show ¬8 + j = 3 by omega]

/-! ## Register accesses -/

/-- A read of a register that is not UNSPEC while Busy, Idle or Busy (20_memory.md R74, 70_reset_and_hazards.md R340). -/
theorem memRead_reg (s : State) {r : Reg} (h : r.unspecWhileBusy = false) :
    memRead s (s.params.coreBase + r.offset) 4 = .ok (readReg s r) := by
  cases hb : s.busy <;> simp [memRead, locate_reg, hb, readBusy, readLocation, h]

/-- A read of any register while Idle. -/
theorem memRead_reg_idle {s : State} (hb : s.busy = false) (r : Reg) :
    memRead s (s.params.coreBase + r.offset) 4 = .ok (readReg s r) :=
  memRead_idle hb (locate_reg s.params r)

theorem memWrite_reg_idle {s : State} (hb : s.busy = false) (v : Word) (r : Reg) :
    memWrite s (s.params.coreBase + r.offset) 4 v = .ok (writeReg s v r) :=
  memWrite_idle hb (locate_reg s.params r)

end Sys2Proof.Machine

/-- Settles O25: STATUS reads Idle or Busy, and each bit of the word is a field or 0. -/
theorem statusReadsItsFields : Obligations.StatusReadsItsFields := by
  unfold Obligations.StatusReadsItsFields
  intro s _
  refine ⟨s.statusWord, memRead_reg s (r := .status) rfl, ?_, ?_, ?_, ?_, s.errcode_statusWord, ?_, s.toNat_statusWord⟩
  case refine_5 =>
    intro k hk
    have hc : 12 ≤ k → s.errcode.getLsbD (k - 8) = false := fun h => BitVec.getLsbD_of_ge _ _ (by omega)
    rw [State.getLsbD_statusWord]
    rcases hk with hk | hk
    · simp [show ¬k = 0 by omega, show ¬k = 1 by omega, show ¬k = 2 by omega, show ¬k = 3 by omega, show ¬8 ≤ k by omega]
    · simp [show ¬k = 0 by omega, show ¬k = 1 by omega, show ¬k = 2 by omega, show ¬k = 3 by omega, hc hk]
  all_goals
    rw [State.getLsbD_statusWord]
    simp

/-- Settles O26: the write reaches STATUS, where it is the acknowledgement. -/
theorem statusWritesAcknowledge : Obligations.StatusWritesAcknowledge := by
  unfold Obligations.StatusWritesAcknowledge
  intro s v hb _
  refine ⟨s.acknowledge v, memWrite_reg_idle hb v .status, ?_, ?_, rfl, rfl⟩
  · rw [State.acknowledge_done]
    cases v.getLsbD 1 <;> simp
  · rw [State.acknowledge_err]
    cases v.getLsbD 2 <;> simp

/-- Settles O32: each offset is that of one register or table entry, and the word there is its value. -/
theorem registersAndTablesReadTheirValues : Obligations.RegistersAndTablesReadTheirValues := by
  unfold Obligations.RegistersAndTablesReadTheirValues
  intro s _ reads
  refine ⟨memRead_reg s (r := .id) rfl, memRead_reg s (r := .version) rfl, memRead_reg s (r := .lzWindow) rfl,
    memRead_reg s (r := .lzMatch) rfl, memRead_reg s (r := .rleMaxrun) rfl, memRead_reg s (r := .ibufSize) rfl,
    memRead_reg s (r := .obufSize) rfl, memRead_reg s (r := .formatTags) rfl, fun hb => ?_⟩
  refine ⟨memRead_reg_idle hb .ctrl, ?_, memRead_reg_idle hb .srcLen, memRead_reg_idle hb .dstLen,
    memRead_reg_idle hb .arg0, memRead_reg_idle hb .arg1, memRead_reg_idle hb .res0, memRead_reg_idle hb .res1,
    memRead_reg_idle hb .bsWbits, memRead_reg_idle hb .bsRpos, fun x hx => ⟨?_, ?_, ?_, ?_⟩⟩
  · exact (memRead_reg_idle hb .cmd).trans (congrArg _ (BitVec.ofNat_toNat 32 s.opcode).symm)
  · have := memRead_idle hb (locate_freq s.params hx)
    rwa [Nat.add_assoc] at this
  · have := memRead_idle hb (locate_len s.params hx)
    rw [Nat.add_assoc] at this
    exact this.trans (congrArg _ (BitVec.ofNat_toNat 32 (s.len.read x)).symm)
  · refine (memRead_idle hb (locate_codeHi s.params hx)).trans (congrArg _ (BitVec.eq_of_toNat_eq ?_))
    simp [readLocation, Nat.shiftRight_eq_div_pow]
  · refine (memRead_idle hb (locate_codeLo s.params hx)).trans (congrArg _ (BitVec.eq_of_toNat_eq ?_))
    simp [readLocation]

end

section
/-!
How a command completes, whatever its outcome, and what follows for TABLE_VALID and the interrupt output
(40_control.md R143, 10_state.md R53, R55).
-/

open Sys2Proof Sys2Proof.Machine

namespace Sys2Proof.Machine

/-! ## Completion -/

theorem outcomeOf_ok {i : Instr} {s t : State} (h : outcomeOf i s = .ok t) :
    bodyOf i s = .ok t ∧ (readsSrcLen i = true → s.n ≤ s.params.ibufBytes) := by
  unfold outcomeOf at h
  split at h
  · cases h
  · rename_i hn
    exact ⟨h, fun hr => Nat.le_of_not_lt fun hlt => hn ⟨hr, hlt⟩⟩

theorem outcomeOf_errB {i : Instr} {s : State} {c : ErrorCode} (h : outcomeOf i s = .errB c) : c ∈ classBCodes i := by
  unfold outcomeOf at h
  split at h
  · cases h
  · exact body_errB h

/-- Completion without error as one update (40_control.md R143, R149). -/
theorem complete_ok_eq (i : Instr) (s t : State) : complete i s (.ok t) =
    { t with
      seq := .idle, done := true, dstLen := if (writeSet i).obuf then BitVec.ofNat 32 (ceil8 t.wpos) else t.dstLen } := by
  simp only [complete]
  split <;> rfl

/-- Every command ends Idle with DONE, nothing outside its write set changed (40_control.md R143, R150). -/
theorem exec_completes {i : Instr} {s t : State} (h : exec i s = .next t) :
    t.seq = .idle ∧ t.done = true ∧ State.SameOutside (writeSet i) s t := by
  rw [exec_outcome] at h
  cases h
  cases ho : outcomeOf i s with
  | ok t =>
    have k := completedOk (body_ok (outcomeOf_ok ho).1)
    exact ⟨k.idle, k.done, k.frame⟩
  | errA c => exact ⟨rfl, rfl, .completeError _ s c⟩
  | errB c => exact ⟨rfl, rfl, .classB i s c⟩

/-! ## TABLE_VALID -/

theorem writeSet_tableValid (i : Instr) (h : (writeSet i).tableValid = true) :
    (writeSet i).len = true ∨ (writeSet i).code = true := by
  cases i <;> simp_all [writeSet]

/-- TABLE_VALID = 1 after a class B error: it was 1 before, and the tables it speaks of are as they were
(40_control.md R148). -/
theorem classB_keeps_tables {i : Instr} {s : State} (h : (s.classB (writeSet i)).tableValid = true) :
    s.tableValid = true ∧ (s.classB (writeSet i)).len = s.len ∧ (s.classB (writeSet i)).code = s.code := by
  rw [State.classB_tableValid] at h
  split at h
  · cases h
  · rename_i hlc
    obtain ⟨hl, hc⟩ : (writeSet i).len = false ∧ (writeSet i).code = false := by simpa using hlc
    have hv : (writeSet i).tableValid = false := Bool.eq_false_iff.2 fun hv => by
      rcases writeSet_tableValid i hv with k | k
      · simp [hl] at k
      · simp [hc] at k
    rw [State.unspecify_tableValid, hv] at h
    exact ⟨h, by simp [hl], by simp [hc]⟩

theorem Left.tableValid {i : Instr} {s t : State} (h : Left s i t) (ht : t.tableValid = true) :
    s.tableValid = true ∨ i = .hufCanon ∨ i = .hufCompress ∨ i = .hufDecompress := by
  cases h
  case hufBuild => cases ht
  case hufCanon => exact .inr (.inl rfl)
  case huffman h => exact .inr (.inr h)
  all_goals exact .inl ht

theorem Written.tableValid {s t : State} (h : Written s t) (ht : t.tableValid = true) : s.tableValid = true := by
  cases h
  case softReset => cases ht
  case len => cases ht
  all_goals exact ht

/-- A step that sets TABLE_VALID completes one of the three commands without error. -/
theorem Stepped.tableValid {s t : State} (h : Stepped s t) (hs : s.tableValid = false) (ht : t.tableValid = true) :
    ∃ l i, s.seq = .busy l ∧ decodeOpcode l.op = .ok i ∧ (i = .hufCanon ∨ i = .hufCompress ∨ i = .hufDecompress) ∧
      t.seq = .idle ∧ t.done = true ∧ t.err = s.err := by
  have kept : s.tableValid ≠ true := by simp [hs]
  cases h with
  | read => exact absurd ht kept
  | written u hu => exact absurd (hu.tableValid ht) kept
  | busError => exact absurd ht kept
  | waiting => exact absurd ht kept
  | illegal => exact absurd ht kept
  | hardwareReset => cases ht
  | command l i hl hd =>
    cases ho : outcomeOf i s with
    | errA c =>
      rw [ho] at ht
      exact absurd ht kept
    | errB c =>
      rw [ho] at ht
      exact absurd (classB_keeps_tables ht).1 kept
    | ok u =>
      have left := body_ok (outcomeOf_ok ho).1
      have k := completedOk left
      rw [ho, complete_ok_eq] at ht
      exact ⟨l, i, hl, hd, (left.tableValid ht).resolve_left kept, k.idle, k.done, k.err⟩

/-! ## IRQ_EN -/

/-- A CTRL write gives IRQ_EN its bit 1, unless it is a soft reset (40_control.md R141, 70_reset_and_hazards.md R331). -/
theorem State.writeCtrl_irqEn (v : Word) (s : State) : (s.writeCtrl v).irqEn = (!v.getLsbD 2 && v.getLsbD 1) := by
  unfold State.writeCtrl
  split
  · rename_i h2
    rw [h2]
    rfl
  · rename_i h2
    rw [Bool.eq_false_iff.2 h2]
    split <;> rfl

end Sys2Proof.Machine

/-- Settles O18, by the cases of a step; the oldest event taken or not, the sequencer and the flags are those of `s`. -/
theorem onlyThreeCommandsSetTableValid : Obligations.OnlyThreeCommandsSetTableValid := by
  unfold Obligations.OnlyThreeCommandsSetTableValid
  intro s t h hs ht
  rcases step_cases h with ⟨-, k⟩ | ⟨e, rest, -, k⟩
  · exact k.tableValid hs ht
  · exact k.tableValid hs ht

/-- Settles O33: completion sets DONE and keeps IRQ_EN; the two writes clear one of the two. -/
theorem interruptFollowsCompletion : Obligations.InterruptFollowsCompletion := by
  unfold Obligations.InterruptFollowsCompletion
  refine ⟨fun i s t h => ?_, fun s => rfl, fun s v hb _ hv => ?_, fun s v hb _ _ h1 => ?_⟩
  · obtain ⟨-, hd, hf⟩ := exec_completes h
    rw [State.irq, hd, hf.irqEn, Bool.and_true]
  · refine ⟨_, memWrite_idle hb (locate_reg s.params .status), ?_⟩
    show (s.acknowledge v).irq = false
    rw [State.irq, State.acknowledge_done, if_pos hv, Bool.and_false]
  · refine ⟨_, memWrite_idle hb (locate_reg s.params .ctrl), ?_⟩
    show (s.writeCtrl v).irq = false
    rw [State.irq, State.writeCtrl_irqEn, h1, Bool.and_false, Bool.false_and]

end

section
/-!
The invariant of the block, part by part under the changes a step makes, then for the reset state and for every step
(10_state.md R37, R39, R42, R53; 41_bitstream.md R171; 60_exceptions.md R300; 70_reset_and_hazards.md R340).
-/

open Sys2Proof Sys2Proof.Machine

namespace Sys2Proof.Machine

/-! ## The memories -/

/-- A memory in canonical form with nothing outside `size`. -/
def Memory.Sound {w : Nat} (size : Nat) (m : Memory w) : Prop := m.wf ∧ m.within size

theorem State.memoriesOk_iff {s : State} : s.MemoriesOk ↔
    s.ibuf.Sound s.params.ibufBytes ∧ s.obuf.Sound s.params.obufBytes ∧ s.freq.Sound Config.nsym ∧
      s.len.Sound Config.nsym ∧ s.code.Sound Config.nsym :=
  ⟨fun h => ⟨⟨h.1, h.2⟩, ⟨h.3, h.4⟩, ⟨h.5, h.6⟩, ⟨h.7, h.8⟩, ⟨h.9, h.10⟩⟩,
    fun ⟨⟨h₁, h₂⟩, ⟨h₃, h₄⟩, ⟨h₅, h₆⟩, ⟨h₇, h₈⟩, ⟨h₉, h₁₀⟩⟩ => ⟨h₁, h₂, h₃, h₄, h₅, h₆, h₇, h₈, h₉, h₁₀⟩⟩

theorem Memory.sound_unspecified (w size d : Nat) : (Memory.unspecified w d).Sound size :=
  ⟨Memory.wf_unspecified d, Memory.within_unspecified d size⟩

theorem Memory.Sound.write {w size a : Nat} {m : Memory w} (h : m.Sound size) (ha : a < size) (v : BitVec w) :
    (m.write a v).Sound size :=
  ⟨Memory.wf_write h.1 a v, Memory.within_write h.2 ha v⟩

theorem Memory.Sound.unspecify {w size : Nat} {m : Memory w} (h : m.Sound size) (b : Bool) (d : Nat) :
    (if b then Memory.unspecified w d else m).Sound size := by
  split
  · exact Memory.sound_unspecified w size d
  · exact h

/-- The table is as it was, or all its 256 entries are written. -/
def Memory.Refilled {w : Nat} (m m' : Memory w) : Prop := m' = m ∨ ∃ xs, xs.length = 256 ∧ m' = m.fill xs

theorem Memory.Sound.refilled {w : Nat} {m m' : Memory w} (h : m.Sound Config.nsym) (hr : m.Refilled m') :
    m'.Sound Config.nsym := by
  obtain rfl | ⟨xs, hl, rfl⟩ := hr
  · exact h
  · have hin := Memory.within_fill m xs
    rw [hl] at hin
    exact ⟨Memory.wf_fill m xs, hin⟩

theorem State.MemoriesOk.congr {s t : State} (h : s.MemoriesOk) (hp : t.params = s.params := by rfl)
    (hi : t.ibuf = s.ibuf := by rfl) (ho : t.obuf = s.obuf := by rfl) (hf : t.freq = s.freq := by rfl)
    (hl : t.len = s.len := by rfl) (hc : t.code = s.code := by rfl) : t.MemoriesOk := by
  rw [State.memoriesOk_iff] at h ⊢
  rw [hp, hi, ho, hf, hl, hc]
  exact h

theorem State.MemoriesOk.unspecify {s : State} (h : s.MemoriesOk) (ws : WriteSet) : (s.unspecify ws).MemoriesOk := by
  obtain ⟨hi, ho, hf, hl, hc⟩ := State.memoriesOk_iff.1 h
  exact State.memoriesOk_iff.2 ⟨hi, ho.unspecify _ _, hf.unspecify _ _, hl.unspecify _ _, hc.unspecify _ _⟩

/-! ## The writer -/

theorem State.WriterOk.congr {s t : State} (h : s.WriterOk) (hp : t.params = s.params := by rfl)
    (ho : t.obuf = s.obuf := by rfl) (hb : t.bsWbits = s.bsWbits := by rfl) (hd : t.dstLen = s.dstLen := by rfl) :
    t.WriterOk := by
  have hw : t.wpos = s.wpos := congrArg BitVec.toNat hb
  exact ⟨by rw [hw, hp]; exact h.inside, by rw [hw, hd]; exact h.dstLen, by rw [hw, ho]; exact h.padding⟩

/-- With both cursors at 0 no byte is output and none is partial. -/
theorem State.writerOk_of_zero {s : State} (hb : s.bsWbits = 0#32) (hd : s.dstLen = 0#32) : s.WriterOk := by
  have hw : s.wpos = 0 := congrArg BitVec.toNat hb
  refine ⟨by omega, by rw [hw, hd]; rfl, fun p _ hp => ?_⟩
  rw [hw] at hp
  exact absurd hp (Nat.not_lt_zero p)

theorem freshWriter_clean (s : State) : s.freshWriter.Clean := by
  intro p _ hp
  have h0 : 8 * ceil8 s.freshWriter.pos = 0 := by simp [State.freshWriter, ceil8]
  omega

/-- After a command's own rule the state's writer follows the one it began with, or a fresh one. -/
theorem LeftWriter.follows {s t : State} (h : LeftWriter s t) (hl : s.params.legal) :
    Writer.Follows s.params.obufBytes s.writer t.writer ∨ Writer.Follows s.params.obufBytes s.freshWriter t.writer := by
  obtain ⟨w, ho, hb, hf⟩ := h.writer
  have hcap : s.params.obufBytes ≤ 2 ^ 20 := hl.2.2.2.1
  have hfits : w.pos ≤ 8 * s.params.obufBytes := hf.elim Writer.Follows.fits Writer.Follows.fits
  have hw : t.writer = w := by rw [State.writer, State.wpos, ho, hb, toNat_ofNat_of_le (by omega)]
  rw [hw]
  exact hf

/-! ## The flags and the latch -/

theorem ErrorCode.toBits_known (c : ErrorCode) : c.toBits ≠ 0 ∧ c.toBits.toNat < 12 := by cases c <;> decide

/-- While Idle only ERR and ERRCODE are bound. -/
theorem State.flagsOk_of_idle {s : State} (hb : s.busy = false) (he : s.err = true ↔ s.errcode ≠ 0)
    (hc : s.errcode.toNat < 12) : s.FlagsOk :=
  ⟨he, fun h => absurd h (by simp [hb]), hc⟩

theorem State.flagsOk_of_clear {s : State} (hd : s.done = false) (he : s.err = false) (hc : s.errcode = 0) :
    s.FlagsOk :=
  ⟨by simp [he, hc], fun _ => ⟨hd, he, hc⟩, by simp [hc]⟩

theorem State.FlagsOk.congr {s t : State} (h : s.FlagsOk) (hs : t.seq = s.seq := by rfl) (hd : t.done = s.done := by rfl)
    (he : t.err = s.err := by rfl) (hc : t.errcode = s.errcode := by rfl) : t.FlagsOk := by
  have hb : t.busy = s.busy := by rw [State.busy, hs]; rfl
  exact ⟨by rw [he, hc]; exact h.err_iff, by rw [hb, hd, he, hc]; exact h.busy_clear, by rw [hc]; exact h.code_known⟩

theorem State.FlagsOk.completeError (c : ErrorCode) (s : State) : (s.completeError c).FlagsOk :=
  State.flagsOk_of_idle rfl ⟨fun _ => c.toBits_known.1, fun _ => rfl⟩ c.toBits_known.2

theorem State.FlagsOk.acknowledge {s : State} (h : s.FlagsOk) (hb : s.busy = false) (v : Word) :
    (s.acknowledge v).FlagsOk := by
  refine State.flagsOk_of_idle hb ?_ ?_
  · rw [State.acknowledge_err, State.acknowledge_errcode]
    split
    · simp
    · exact h.err_iff
  · rw [State.acknowledge_errcode]
    split
    · decide
    · exact h.code_known

theorem State.latchOk_of_idle {s : State} (hb : s.busy = false) : s.LatchOk := by
  intro l hl
  rw [State.busy, hl] at hb
  cases hb

/-! ## The tables -/

theorem State.TablesOk.congr {s t : State} (h : s.TablesOk) (hl : t.len = s.len := by rfl)
    (hc : t.code = s.code := by rfl) : t.TablesOk :=
  ⟨by rw [hl]; exact h.len_le, by rw [hl]; exact h.kraft, by rw [hl, hc]; exact h.canon⟩

/-- CODE filled with the canonical code for a LEN that meets the Kraft inequality (42_huffman.md R203, R204). -/
theorem State.tablesOk_of_canon {s : State} {m : Memory 64} (h64 : ∀ l ∈ tableEntries s.len, l ≤ 64)
    (hk : kraftSum (tableEntries s.len) ≤ 2 ^ 64) (hc : s.code = m.fill (canonCodes (tableEntries s.len))) :
    s.TablesOk := by
  have hp := prefixCode_canon (length_tableEntries s.len) h64 hk
  refine ⟨h64, hk, ?_⟩
  rw [hc]
  exact tableEntries_fill_of_lt m _ (length_canonCodes _) (canonCodes_lt hp h64)

/-- LEN built from frequencies and CODE canonical for it (42_huffman.md R220, R225). -/
theorem State.tablesOk_of_build {s : State} {freq : List Nat} {m : Memory 8} {m' : Memory 64} (hl : freq.length = 256)
    (hs : freq.sum < 2 ^ 40) (hlen : s.len = m.fill (buildLens freq))
    (hcode : s.code = m'.fill (canonCodes (buildLens freq))) : s.TablesOk := by
  have he : tableEntries s.len = buildLens freq := by
    rw [hlen]
    exact tableEntries_buildLens m hl hs (by decide)
  obtain ⟨-, h57, -, -, hk⟩ := buildLens_spec hl hs
  refine State.tablesOk_of_canon (m := m') ?_ ?_ ?_
  · rw [he]
    exact fun l h => (h57 l h).trans (by decide)
  · rw [he]
    exact hk
  · rw [he]
    exact hcode

/-- What a command's own rule leaves in the tables: each as it was or wholly written, and TABLE_VALID = 1 only over
canonical tables or over those it stood over before. -/
structure LeftTables (s t : State) : Prop where
  freq  : s.freq.Refilled t.freq
  len   : s.len.Refilled t.len
  code  : s.code.Refilled t.code
  valid : t.tableValid = true → t.TablesOk ∨ (s.tableValid = true ∧ t.len = s.len ∧ t.code = s.code)

theorem leftTables_of_same {s t : State} (hf : t.freq = s.freq) (hl : t.len = s.len) (hc : t.code = s.code)
    (hv : t.tableValid = s.tableValid) : LeftTables s t :=
  ⟨.inl hf, .inl hl, .inl hc, fun h => .inr ⟨hv ▸ h, hl, hc⟩⟩

/-- The two codec commands that build a code leave LEN and CODE canonical. -/
theorem leftTables_huffman (s : State) {freq : List Nat} (hl : freq.length = 256) (hs : freq.sum < 2 ^ 40) (w : Writer)
    (r a b : Nat) : LeftTables s ((((((((s.setFreq freq).setLen (buildLens freq)).setCode
      (canonCodes (buildLens freq))).setTableValid true).touchArena).setWriter w).setRpos r).setRes a b) :=
  ⟨.inr ⟨_, hl, rfl⟩, .inr ⟨_, length_buildLens freq, rfl⟩, .inr ⟨_, length_canonCodes _, rfl⟩,
    fun _ => .inl (State.tablesOk_of_build hl hs rfl rfl)⟩

theorem ite_errA_eq_ok {p : Prop} [Decidable p] {c : ErrorCode} {x : CmdOutcome} {t : State} :
    (if p then .errA c else x) = .ok t ↔ ¬p ∧ x = .ok t := by
  split <;> simp [*]

theorem ite_errB_eq_ok {p : Prop} [Decidable p] {c : ErrorCode} {x : CmdOutcome} {t : State} :
    (if p then .errB c else x) = .ok t ↔ ¬p ∧ x = .ok t := by
  split <;> simp [*]

/-- The lengths a successful command leaves meet the Kraft inequality wherever it sets TABLE_VALID (42_huffman.md R197,
R204): HUF_CANON checks it, the codec commands build them from weights that sum to less than 2^40. -/
theorem body_tables {i : Instr} {s t : State} (h : bodyOf i s = .ok t) (hn : readsSrcLen i = true → s.n < 2 ^ 40) :
    LeftTables s t := by
  have frame := (body_ok h).sameOutside.1
  cases i
  case hufCompress =>
    simp only [bodyOf, hufCompress, ofBody_ok, except_bind_ok] at h
    obtain ⟨w₁, -, w₂, -, w₃, -, w₄, -, h⟩ := h
    split at h
    · cases h
    · obtain ⟨w₅, -, h⟩ := except_bind_ok.1 h
      cases h
      refine leftTables_huffman s ?_ ?_ _ _ _ _
      · rw [countFreq_eq, length_freqOf]
      · rw [countFreq_eq, sum_freqOf]
        simpa [slice] using hn rfl
  case hufDecompress =>
    simp only [bodyOf, hufDecompress, ite_errA_eq_ok, ite_errB_eq_ok, ofBody_ok, except_bind_ok] at h
    obtain ⟨-, -, -, -, -, -, -, -, -, -, x, -, h⟩ := h
    cases h
    exact leftTables_huffman s (by simp [headerTable, Config.nsym]) (sum_headerTable_lt _ _) _ _ _ _
  case hufCount =>
    cases h
    exact ⟨.inr ⟨_, by rw [countFreq_eq, length_freqOf], rfl⟩, .inl rfl, .inl rfl, fun hv => .inr ⟨hv, rfl, rfl⟩⟩
  case hufBuild =>
    simp only [bodyOf, hufBuild, ite_errB_eq_ok] at h
    obtain ⟨-, h⟩ := h
    cases h
    exact ⟨.inl rfl, .inr ⟨_, length_buildLens _, rfl⟩, .inl rfl, fun hv => nomatch hv⟩
  case hufCanon =>
    simp only [bodyOf, hufCanon, ite_errA_eq_ok, Nat.not_lt] at h
    obtain ⟨h64, hk, h⟩ := h
    cases h
    exact ⟨.inl rfl, .inl rfl, .inr ⟨_, length_canonCodes _, rfl⟩,
      fun _ => .inl (State.tablesOk_of_canon (fun l hl => (le_largest hl).trans h64) hk rfl)⟩
  all_goals exact leftTables_of_same (frame.freq rfl) (frame.len rfl) (frame.code rfl) (frame.tableValid rfl)

/-! ## Completion -/

theorem State.Inv.completeError {s : State} (h : s.Inv) (c : ErrorCode) : (s.completeError c).Inv where
  legal := h.legal
  memories := h.memories.congr
  writer := h.writer.congr
  flags := .completeError c s
  latch := State.latchOk_of_idle rfl
  tables hv := (h.tables hv).congr

/-- A command that does not write OBUF moves no cursor of the writer, unless it is BS_RESET or BS_FLUSH
(40_control.md R150). -/
theorem writeSet_cursors (i : Instr) (ho : (writeSet i).obuf = false) :
    i = .bsReset ∨ i = .bsFlush ∨ (writeSet i).bsWbits = false ∧ (writeSet i).dstLen = false := by
  cases i <;> simp_all [writeSet]

theorem State.Inv.classB {s : State} (h : s.Inv) {i : Instr} {c : ErrorCode} (hc : c ∈ classBCodes i) :
    ((s.classB (writeSet i)).completeError c).Inv where
  legal := h.legal
  memories := (h.memories.unspecify (writeSet i)).congr
  writer := by
    cases ho : (writeSet i).obuf with
    | true => exact State.writerOk_of_zero (by simp [ho]) (by simp [ho])
    | false =>
      obtain rfl | rfl | ⟨hb, hd⟩ := writeSet_cursors i ho
      · cases hc
      · cases hc
      · exact h.writer.congr (ho := by simp [ho]) (hb := by simp [ho, hb]) (hd := by simp [ho, hd])
  flags := .completeError c _
  latch := State.latchOk_of_idle rfl
  tables hv := by
    obtain ⟨hs, hl, hcode⟩ := classB_keeps_tables hv
    exact (h.tables hs).congr hl hcode

/-- DST_LEN counts the writer's bytes after every completion without error: the completion sets it for a command that
writes OBUF, BS_RESET and BS_FLUSH set it, and the others leave both cursors (40_control.md R149). -/
theorem dstLen_complete_ok {i : Instr} {s t : State} (h : bodyOf i s = .ok t) (hl : s.params.legal) (hs : s.WriterOk)
    (hw : t.wpos ≤ 8 * s.params.obufBytes) : (complete i s (.ok t)).dstLen.toNat = ceil8 t.wpos := by
  have hcap : s.params.obufBytes ≤ 2 ^ 20 := hl.2.2.2.1
  cases ho : (writeSet i).obuf with
  | true =>
    have hle := ceil8_le hw
    simp only [complete, ho, if_true, State.completeOk_dstLen, State.setDstLen_dstLen]
    exact toNat_ofNat_of_le (by omega)
  | false =>
    simp only [complete, ho, Bool.false_eq_true, if_false, State.completeOk_dstLen]
    obtain rfl | rfl | ⟨hb, hd⟩ := writeSet_cursors i ho
    · cases h
      simp [State.wpos, State.freshWriter, ceil8]
    · cases h
      have hle := ceil8_le hs.inside
      show (BitVec.ofNat 32 (ceil8 s.wpos)).toNat = ceil8 (BitVec.ofNat 32 (8 * ceil8 s.wpos)).toNat
      rw [toNat_ofNat_of_le (by omega), toNat_ofNat_of_le (by omega), ceil8_mul]
    · have frame := (body_ok h).sameOutside.1
      rw [State.wpos, frame.dstLen hd, frame.bsWbits hb]
      exact hs.dstLen

theorem State.Inv.completeOk {s t : State} (h : s.Inv) {i : Instr} (hok : outcomeOf i s = .ok t) :
    (complete i s (.ok t)).Inv := by
  obtain ⟨hbody, hread⟩ := outcomeOf_ok hok
  obtain ⟨frame, herr, herrcode⟩ := (body_ok hbody).sameOutside
  have hn : readsSrcLen i = true → s.n < 2 ^ 40 := fun hr => by
    have := hread hr
    have := h.legal.2.1
    omega
  have tables := body_tables hbody hn
  obtain ⟨hi, ho, hf, hl, hc⟩ := State.memoriesOk_iff.1 h.memories
  obtain ⟨fits, clean, sound⟩ :
      t.wpos ≤ 8 * s.params.obufBytes ∧ t.writer.Clean ∧ t.obuf.Sound s.params.obufBytes := by
    rcases (body_writer hbody h.writer.inside).follows h.legal with f | f
    · exact ⟨f.fits, f.clean h.writer.padding, f.wf ho.1, f.within ho.2⟩
    · exact ⟨f.fits, f.clean (freshWriter_clean s), f.wf ho.1, f.within ho.2⟩
  have hd := dstLen_complete_ok hbody h.legal h.writer fits
  rw [complete_ok_eq] at hd ⊢
  exact {
    legal := frame.params ▸ h.legal
    memories := by
      rw [State.memoriesOk_iff, frame.params, frame.ibuf]
      exact ⟨hi, sound, hf.refilled tables.freq, hl.refilled tables.len, hc.refilled tables.code⟩
    writer := ⟨frame.params ▸ fits, hd, clean⟩
    flags := State.flagsOk_of_idle rfl (by rw [herr, herrcode]; exact h.flags.err_iff)
      (by rw [herrcode]; exact h.flags.code_known)
    latch := State.latchOk_of_idle rfl
    tables := fun hv => by
      rcases tables.valid hv with ht | ⟨hs, hlen, hcode⟩
      · exact ht.congr
      · exact (h.tables hs).congr hlen hcode }

/-! ## Resets and host writes -/

theorem State.inv_resetFrom {p : Params} (hp : p.legal) (d : Nat) (es : List Event) (r : Response) :
    (State.resetFrom p d es r).Inv where
  legal := hp
  memories := State.memoriesOk_iff.2 ⟨Memory.sound_unspecified .., Memory.sound_unspecified ..,
    Memory.sound_unspecified .., Memory.sound_unspecified .., Memory.sound_unspecified ..⟩
  writer := State.writerOk_of_zero rfl rfl
  flags := State.flagsOk_of_clear rfl rfl rfl
  latch := State.latchOk_of_idle rfl
  tables hv := nomatch hv

theorem State.MemoriesOk.abandon {s : State} (h : s.MemoriesOk) : s.abandon.MemoriesOk := by
  unfold State.abandon
  split
  · exact h
  · exact h.unspecify _

theorem State.abandon_params (s : State) : s.abandon.params = s.params := by
  unfold State.abandon
  split <;> rfl

theorem State.Inv.softReset {s : State} (h : s.Inv) : s.softReset.Inv where
  legal := by
    show s.abandon.params.legal
    rw [State.abandon_params]
    exact h.legal
  memories := h.memories.abandon.congr
  writer := State.writerOk_of_zero rfl rfl
  flags := State.flagsOk_of_clear rfl rfl rfl
  latch := State.latchOk_of_idle rfl
  tables hv := nomatch hv

theorem State.Inv.start {s : State} (h : s.Inv) (v : Word) : (s.start v).Inv where
  legal := h.legal
  memories := h.memories.congr
  writer := h.writer.congr
  flags := State.flagsOk_of_clear rfl rfl rfl
  latch := fun l hl => by
    cases hl
    rfl
  tables hv := (h.tables hv).congr

theorem Written.inv {s t : State} (hw : Written s t) (h : s.Inv) : t.Inv := by
  obtain ⟨hi, ho, hf, hl, hc⟩ := State.memoriesOk_iff.1 h.memories
  cases hw
  case softReset => exact h.softReset
  case start v _ => exact h.start v
  case acknowledge v hb =>
    exact ⟨h.legal, h.memories.congr, h.writer.congr, h.flags.acknowledge hb v, State.latchOk_of_idle hb,
      fun hv => (h.tables hv).congr⟩
  case freq j v hb hj =>
    exact ⟨h.legal, State.memoriesOk_iff.2 ⟨hi, ho, hf.write hj v, hl, hc⟩, h.writer.congr, h.flags.congr,
      State.latchOk_of_idle hb, fun hv => (h.tables hv).congr⟩
  case len j b hb hj =>
    exact ⟨h.legal, State.memoriesOk_iff.2 ⟨hi, ho, hf, hl.write hj b, hc⟩, h.writer.congr, h.flags.congr,
      State.latchOk_of_idle hb, fun hv => nomatch hv⟩
  case ibuf m hb hwf hin =>
    exact ⟨h.legal, State.memoriesOk_iff.2 ⟨⟨hwf hi.1, hin hi.2⟩, ho, hf, hl, hc⟩, h.writer.congr, h.flags.congr,
      State.latchOk_of_idle hb, fun hv => (h.tables hv).congr⟩
  case ignored => exact h
  all_goals
    rename_i hb
    exact ⟨h.legal, h.memories.congr, h.writer.congr, h.flags.congr, State.latchOk_of_idle hb,
      fun hv => (h.tables hv).congr⟩

/-! ## Every step -/

/-- The pending events, the last response and the draw number are no part of the invariant. -/
theorem State.Inv.port {s : State} (h : s.Inv) (es : List Event) (r : Response) (d : Nat) :
    State.Inv { s with pending := es, resp := r, draw := d } :=
  ⟨h.legal, h.memories.congr, h.writer.congr, h.flags.congr, h.latch, fun hv => (h.tables hv).congr⟩

theorem Stepped.inv {s t : State} (hs : Stepped s t) (h : s.Inv) : t.Inv := by
  cases hs with
  | read r => exact h.port s.pending r (s.draw + 1)
  | written u hu => exact (hu.inv h).port u.pending .okay u.draw
  | busError f => exact h.port s.pending (.fault f) s.draw
  | waiting => exact h
  | illegal => exact h.completeError .illegalOpcode
  | hardwareReset => exact State.inv_resetFrom h.legal _ _ _
  | command l i =>
    cases ho : outcomeOf i s with
    | ok u => exact h.completeOk ho
    | errA c => exact h.completeError c
    | errB c => exact h.classB (outcomeOf_errB ho)

end Sys2Proof.Machine

/-- Settles O3: it is the reset of a block with legal parameters. -/
theorem resetMeetsInvariant : Obligations.ResetMeetsInvariant :=
  State.inv_resetFrom (by decide) 0 [] .none

/-- Settles O4, by the cases of a step, each taken at the state from which the oldest event has been removed. -/
theorem stepKeepsInvariant : Obligations.StepKeepsInvariant := by
  unfold Obligations.StepKeepsInvariant
  intro s t h hstep
  rcases step_cases hstep with ⟨-, k⟩ | ⟨e, rest, -, k⟩
  · exact k.inv h
  · exact k.inv (h.port rest s.resp s.draw)

end

section
/-!
The step taken event by event: a host access is served, a Busy machine keeps its input (20_memory.md R71, R74 to R76, R92;
60_exceptions.md R304, R307, R316).
-/

open Sys2Proof Sys2Proof.Machine

namespace Sys2Proof.Machine

/-! ## The step at an event -/

theorem step_of_pending {s : State} {e : Event} {rest : List Event} (h : s.pending = e :: rest) :
    step s = State.handle e { s with pending := rest } := by
  simp only [step, h]

theorem step_of_pending_nil {s : State} (h : s.pending = []) : step s = s.sequencerTurn := by
  simp only [step, h]

theorem State.sequencerTurn_idle {s : State} (h : s.seq = .idle) : s.sequencerTurn = .next s := by
  simp only [State.sequencerTurn, h]

/-- The sequencer's turn always gives a next state: every command completes, an illegal OPCODE too (40_control.md R143,
R145). -/
theorem State.sequencerTurn_next (s : State) : ∃ t, s.sequencerTurn = .next t := by
  unfold State.sequencerTurn
  split
  · exact ⟨_, rfl⟩
  · split
    · exact ⟨_, exec_outcome _ s⟩
    · exact ⟨_, rfl⟩

theorem State.handle_next (e : Event) (s : State) : ∃ t, s.handle e = .next t := by
  cases e with
  | read addr n => exact ⟨_, rfl⟩
  | write addr n v => exact ⟨_, rfl⟩
  | execute => exact s.sequencerTurn_next
  | hardwareReset => exact ⟨_, rfl⟩

theorem step_next (s : State) : ∃ t, step s = .next t := by
  cases h : s.pending with
  | nil =>
    rw [step_of_pending_nil h]
    exact s.sequencerTurn_next
  | cons e rest =>
    rw [step_of_pending h]
    exact State.handle_next e _

/-! ## Accesses that get BUS_ERROR -/

/-- A write is refused exactly where it reaches no location, and while Busy also where it is no soft reset
(20_memory.md R75, 70_reset_and_hazards.md R340). -/
theorem memWrite_eq_error_iff {s : State} {addr n : Nat} {v : Word} {f : Fault} : memWrite s addr n v = .error f ↔
    locate s.params addr n = none ∨
      s.busy = true ∧ ¬(locate s.params addr n = some (.reg .ctrl) ∧ v.getLsbD 2 = true) := by
  cases f
  unfold memWrite
  split
  · rename_i hloc
    simp [hloc]
  · rename_i loc hloc
    split
    · rename_i hb
      split
      · rename_i hreset
        simp [hloc, hreset]
      · rename_i hreset
        simpa [hloc, hb] using hreset
    · rename_i hb
      simp [hloc, hb]

theorem serveWrite_error {s : State} {addr n : Nat} {v : Word} {f : Fault} (h : memWrite s addr n v = .error f) :
    serveWrite addr n v s = { s with resp := .fault f } := by
  simp only [serveWrite, h]

theorem serveWrite_ok {s t : State} {addr n : Nat} {v : Word} (h : memWrite s addr n v = .ok t) :
    serveWrite addr n v s = { t with resp := .okay } := by
  simp only [serveWrite, h]

/-! ## The input while Busy -/

theorem State.softReset_ibuf (s : State) : s.softReset.ibuf = s.ibuf := by
  show s.abandon.ibuf = s.ibuf
  unfold State.abandon
  split <;> rfl

/-- While Busy the one write that is accepted is a soft reset, which keeps IBUF (20_memory.md R71). -/
theorem Written.ibuf_of_busy {s t : State} (h : Written s t) (hb : s.busy = true) : t.ibuf = s.ibuf := by
  cases h
  case softReset => exact s.softReset_ibuf
  all_goals exact absurd ‹s.busy = false› (by simp [hb])

theorem serveWrite_ibuf_of_busy {s : State} (hb : s.busy = true) (addr n : Nat) (v : Word) :
    (serveWrite addr n v s).ibuf = s.ibuf := by
  cases h : memWrite s addr n v with
  | ok t =>
    rw [serveWrite_ok h]
    exact (memWrite_written h).ibuf_of_busy hb
  | error f => rw [serveWrite_error h]

/-- No command writes IBUF (40_control.md R150). -/
theorem State.sequencerTurn_ibuf {s t : State} (h : s.sequencerTurn = .next t) : t.ibuf = s.ibuf := by
  unfold State.sequencerTurn at h
  split at h
  · cases h
    rfl
  · split at h
    · obtain ⟨-, -, frame⟩ := exec_completes h
      exact frame.ibuf
    · cases h
      rfl

theorem State.handle_ibuf_of_busy {s t : State} {e : Event} (h : s.handle e = .next t) (hb : s.busy = true)
    (he : e ≠ .hardwareReset) : t.ibuf = s.ibuf := by
  cases e with
  | read addr n =>
    cases h
    rfl
  | write addr n v =>
    cases h
    exact serveWrite_ibuf_of_busy hb addr n v
  | execute => exact State.sequencerTurn_ibuf h
  | hardwareReset => exact absurd rfl he

end Sys2Proof.Machine

/-- Settles O20: with nothing pending it is the sequencer's turn; otherwise each event but the hardware reset keeps IBUF. -/
theorem inputIsStableWhileBusy : Obligations.InputIsStableWhileBusy := by
  unfold Obligations.InputIsStableWhileBusy
  intro s t h hb hreset
  cases hp : s.pending with
  | nil =>
    rw [step_of_pending_nil hp] at h
    exact State.sequencerTurn_ibuf h
  | cons e rest =>
    rw [step_of_pending hp] at h
    exact State.handle_ibuf_of_busy (s := { s with pending := rest }) h hb fun he => hreset rest (he ▸ hp)

/-- Settles O22: the answer of an access does not depend on the events still to come. -/
theorem busErrorsAndReadsChangeNothing : Obligations.BusErrorsAndReadsChangeNothing := by
  unfold Obligations.BusErrorsAndReadsChangeNothing
  intro s rest
  refine ⟨fun addr n hp => ?_, fun addr n v hp herr => ?_⟩
  · have answer : memRead { s with pending := rest } addr n = memRead s addr n := rfl
    refine ⟨_, step_of_pending hp, fun herr => ?_, fun x hx => ?_⟩
    · rw [answer, herr]
    · rw [answer, hx]
  · have refused : memWrite { s with pending := rest } addr n v = .error .busError :=
      memWrite_eq_error_iff.2 ((memWrite_eq_error_iff (s := s)).1 herr)
    rw [step_of_pending hp]
    exact congrArg _ (serveWrite_error refused)

/-- Settles O6: the step is `handle` of the oldest event, and every event gives a next state. -/
theorem stepServesThePendingAccess : Obligations.StepServesThePendingAccess := by
  unfold Obligations.StepServesThePendingAccess
  refine ⟨step_next, fun s rest => ⟨fun addr n hp => step_of_pending hp, fun addr n v hp => step_of_pending hp,
    fun hidle hp => ?_, fun hidle hp => ?_⟩⟩
  · rw [step_of_pending hp]
    exact State.sequencerTurn_idle (s := { s with pending := rest }) hidle
  · rw [step_of_pending_nil hp]
    exact State.sequencerTurn_idle hidle

end

section
/-!
Which addresses the map admits, and the writes it accepts and ignores (20_memory.md R72, R74, R75, R77 to R79, R83).
-/

open Sys2Proof Sys2Proof.Machine

namespace Sys2Proof.Machine

/-! ## The address map as a condition -/

theorem isSome_find_reg {off : Nat} (h : off < 0x4C) (h4 : off % 4 = 0) :
    (Reg.all.find? fun r => r.offset = off).isSome = true := by
  revert off
  decide

/-- The register and table rows of the map (20_memory.md R72). -/
theorem isSome_wordLocation {off : Nat} (h4 : off % 4 = 0) : (wordLocation off).isSome = true ↔
    off < 0x4C ∨ (0x400 ≤ off ∧ off < 0xC00) ∨ (0x1000 ≤ off ∧ off < 0x1800) := by
  unfold wordLocation
  split
  · rename_i hreg
    simp [isSome_find_reg hreg h4, hreg]
  · split
    · simp only [Option.isSome_some, true_iff]
      omega
    · split
      · simp only [Option.isSome_some, true_iff]
        omega
      · split
        · simp only [Option.isSome_some, true_iff]
          omega
        · simp only [Option.isSome_none, Bool.false_eq_true, false_iff]
          omega

/-- A buffer row of the map (20_memory.md R72, R77, R83). -/
theorem isSome_bufferLocation (size a n : Nat) (byte word : Nat → Location) :
    (bufferLocation size a n byte word).isSome = true ↔ (n = 1 ∨ n = 4 ∧ a % 4 = 0) ∧ a + n ≤ size := by
  unfold bufferLocation
  split
  · simp only [Option.isSome_some, true_iff]
    omega
  · split
    · simp only [Option.isSome_some, true_iff]
      omega
    · simp only [Option.isSome_none, Bool.false_eq_true, false_iff]
      omega

/-- An access reaches a location exactly where a row of the map admits it (20_memory.md R72). The legal sizes keep IBUF
below the first byte of OBUF, and OBUF below the end of the map. -/
theorem isSome_locate {p : Params} (hl : p.legal) (addr n : Nat) : (locate p addr n).isSome = true ↔
    p.coreBase ≤ addr ∧ accessAllowed p (addr - p.coreBase) n := by
  obtain ⟨-, hibuf, -, hobuf, -⟩ := hl
  unfold locate
  split
  · simp only [Option.isSome_none, Bool.false_eq_true, false_iff]
    omega
  · rename_i hbase
    rw [and_iff_right (Nat.le_of_not_lt hbase)]
    dsimp only
    generalize addr - p.coreBase = off
    unfold accessAllowed
    split
    · split
      · rename_i hword
        rw [isSome_wordLocation hword.2]
        omega
      · simp only [Option.isSome_none, Bool.false_eq_true, false_iff]
        omega
    · split
      · rw [isSome_bufferLocation]
        omega
      · split
        · rw [isSome_bufferLocation]
          omega
        · simp only [Option.isSome_none, Bool.false_eq_true, false_iff]
          omega

theorem memRead_idle_answers {s : State} (hb : s.busy = false) (addr n : Nat) :
    (∃ x, memRead s addr n = .ok x) ↔ (locate s.params addr n).isSome = true := by
  cases h : locate s.params addr n <;> simp [memRead, h, hb]

theorem memWrite_idle_answers {s : State} (hb : s.busy = false) (addr n : Nat) (v : Word) :
    (∃ t, memWrite s addr n v = .ok t) ↔ (locate s.params addr n).isSome = true := by
  cases h : locate s.params addr n <;> simp [memWrite, h, hb]

end Sys2Proof.Machine

/-- Settles O21: while Idle an access is answered exactly if it reaches a location. -/
theorem addressMapDecidesBusErrors : Obligations.AddressMapDecidesBusErrors := by
  unfold Obligations.AddressMapDecidesBusErrors
  intro s addr n v hl hb
  exact ⟨(memRead_idle_answers hb addr n).trans (isSome_locate hl addr n),
    (memWrite_idle_answers hb addr n v).trans (isSome_locate hl addr n)⟩

/-- Settles O31: a write to any location of the list leaves the state as it was. -/
theorem readOnlyLocationsIgnoreWrites : Obligations.ReadOnlyLocationsIgnoreWrites := by
  unfold Obligations.ReadOnlyLocationsIgnoreWrites
  intro s addr n v loc hb hloc hro
  have ignored : writeLocation s v loc = s := by
    rcases hro with hreg | ⟨x, rfl | rfl | rfl | rfl⟩
    · simp only [List.mem_cons, List.not_mem_nil, or_false] at hreg
      rcases hreg with rfl | rfl | rfl | rfl | rfl | rfl | rfl | rfl | rfl | rfl | rfl | rfl <;> rfl
    all_goals rfl
  have accepted := memWrite_idle (v := v) hb hloc
  rw [ignored] at accepted
  exact ⟨accepted, by rw [serveWrite_ok accepted]⟩

end

section
/-!
What a write to a register, a table entry or a buffer leaves, and what a read of a buffer returns
(20_memory.md R73 to R75, R81; 10_state.md R36 to R53).
-/

open Sys2Proof Sys2Proof.Machine

namespace Sys2Proof.Machine

/-! ## Bytes of a word -/

/-- The byte of `v` from bit `k` on. -/
theorem toNat_byte (v : Word) (k : Nat) : (v.extractLsb' k 8).toNat = v.toNat / 2 ^ k % 256 := by
  rw [BitVec.extractLsb'_toNat, Nat.shiftRight_eq_div_pow]

/-! ## Words in a buffer (20_memory.md R81) -/

theorem read_writeWord_inside (m : Memory 8) (a : Nat) (v : Word) {j : Nat} (hj : j < 4) :
    (writeWord m a v).read (a + j) = v.extractLsb' (24 - 8 * j) 8 := by
  interval_cases j <;> simp [writeWord, Memory.read_write]

theorem read_writeWord_outside (m : Memory 8) {a b : Nat} (v : Word) (h : b < a ∨ a + 4 ≤ b) :
    (writeWord m a v).read b = m.read b := by
  unfold writeWord
  rw [Memory.read_write_ne _ _ (by omega), Memory.read_write_ne _ _ (by omega), Memory.read_write_ne _ _ (by omega),
    Memory.read_write_ne _ _ (by omega)]

/-- A word is its four bytes, the first on top. -/
theorem append_bytes (v : Word) :
    v.extractLsb' 24 8 ++ v.extractLsb' 16 8 ++ v.extractLsb' 8 8 ++ v.extractLsb' 0 8 = v := by
  rw [BitVec.extractLsb'_append_extractLsb'_eq_extractLsb' (show 24 = 16 + 8 from rfl),
    BitVec.extractLsb'_append_extractLsb'_eq_extractLsb' (show 16 = 8 + 8 from rfl),
    BitVec.extractLsb'_append_extractLsb'_eq_extractLsb' (show 8 = 0 + 8 from rfl)]
  exact BitVec.extractLsb'_eq_self

theorem readWord_writeWord (m : Memory 8) (a : Nat) (v : Word) : readWord (writeWord m a v) a = v := by
  have bytes : ∀ j, j < 4 → (writeWord m a v).read (a + j) = v.extractLsb' (24 - 8 * j) 8 :=
    fun _ hj => read_writeWord_inside m a v hj
  rw [readWord_eq_append, show (writeWord m a v).read a = _ from bytes 0 (by decide), bytes 1 (by decide),
    bytes 2 (by decide), bytes 3 (by decide)]
  exact append_bytes v

/-! ## Buffer accesses while Idle -/

section
variable {s : State} {a : Nat} (hl : s.params.legal) (hb : s.busy = false)
include hl hb

theorem memRead_ibufByte (ha : a < s.params.ibufBytes) :
    memRead s (s.params.coreBase + 0x100000 + a) 1 = .ok (BitVec.ofNat 32 (s.ibuf.read a).toNat) :=
  (memRead_idle hb (locate_ibufByte hl ha)).trans (congrArg _ (BitVec.ofNat_toNat 32 _).symm)

theorem memRead_obufByte (ha : a < s.params.obufBytes) :
    memRead s (s.params.coreBase + 0x200000 + a) 1 = .ok (BitVec.ofNat 32 (s.obuf.read a).toNat) :=
  (memRead_idle hb (locate_obufByte hl ha)).trans (congrArg _ (BitVec.ofNat_toNat 32 _).symm)

theorem memRead_ibufWord (h4 : a % 4 = 0) (ha : a + 4 ≤ s.params.ibufBytes) :
    memRead s (s.params.coreBase + 0x100000 + a) 4 = .ok (readWord s.ibuf a) :=
  memRead_idle hb (locate_ibufWord hl ha h4)

theorem memRead_obufWord (h4 : a % 4 = 0) (ha : a + 4 ≤ s.params.obufBytes) :
    memRead s (s.params.coreBase + 0x200000 + a) 4 = .ok (readWord s.obuf a) :=
  memRead_idle hb (locate_obufWord hl ha h4)

theorem memWrite_ibufByte (v : Word) (ha : a < s.params.ibufBytes) :
    memWrite s (s.params.coreBase + 0x100000 + a) 1 v = .ok { s with ibuf := s.ibuf.write a (v.extractLsb' 0 8) } :=
  memWrite_idle hb (locate_ibufByte hl ha)

theorem memWrite_ibufWord (v : Word) (h4 : a % 4 = 0) (ha : a + 4 ≤ s.params.ibufBytes) :
    memWrite s (s.params.coreBase + 0x100000 + a) 4 v = .ok { s with ibuf := writeWord s.ibuf a v } :=
  memWrite_idle hb (locate_ibufWord hl ha h4)

end

end Sys2Proof.Machine

/-- Settles O24: each access reaches its byte or word of the buffer, and the memory's laws say the rest. A write changes
neither the sizes nor the sequencer, so the reads after it are reads while Idle too. -/
theorem bufferAccessesAreBigEndian : Obligations.BufferAccessesAreBigEndian := by
  unfold Obligations.BufferAccessesAreBigEndian
  intro s hl hb
  refine ⟨fun a v ha => ?_, fun a v h4 ha => ?_, fun a ha => memRead_ibufByte hl hb ha,
    fun a ha => memRead_obufByte hl hb ha, fun a h4 ha => ?_, fun a h4 ha => ?_⟩
  · let t : State := { s with ibuf := s.ibuf.write a (v.extractLsb' 0 8) }
    have byte : (t.ibuf.read a).toNat = v.toNat % 256 := by
      rw [Memory.read_write_self, toNat_byte, pow_zero, Nat.div_one]
    refine ⟨t, memWrite_ibufByte hl hb v ha, byte, ?_, fun b hne => Memory.read_write_ne s.ibuf _ hne, rfl⟩
    rw [← byte]
    exact memRead_ibufByte (s := t) hl hb ha
  · let t : State := { s with ibuf := writeWord s.ibuf a v }
    have byte : ∀ j, j < 4 → (t.ibuf.read (a + j)).toNat = v.toNat / 2 ^ (24 - 8 * j) % 256 := fun j hj => by
      rw [read_writeWord_inside s.ibuf a v hj, toNat_byte]
    refine ⟨t, memWrite_ibufWord hl hb v h4 ha, ?_, fun j hj => ?_,
      fun b hout => read_writeWord_outside s.ibuf v hout, rfl⟩
    · exact (memRead_ibufWord (s := t) hl hb h4 ha).trans (congrArg _ (readWord_writeWord s.ibuf a v))
    · rw [← byte j hj]
      exact memRead_ibufByte (s := t) hl hb (by show a + j < s.params.ibufBytes; omega)
  · rw [← readWord_eq_append]
    exact memRead_ibufWord hl hb h4 ha
  · rw [← readWord_eq_append]
    exact memRead_obufWord hl hb h4 ha

/-- Settles O30: each offset is that of one register or table entry, and the write stores there. -/
theorem registerAndTableWrites : Obligations.RegisterAndTableWrites := by
  unfold Obligations.RegisterAndTableWrites
  intro s v hb _
  refine ⟨memWrite_reg_idle hb v .cmd, memWrite_reg_idle hb v .srcLen, memWrite_reg_idle hb v .arg0,
    memWrite_reg_idle hb v .arg1, memWrite_reg_idle hb v .bsRpos, fun x hx => ?_, fun x hx => ?_⟩
  · exact ⟨_, memWrite_idle hb (locate_freq s.params hx), rfl, Memory.read_write_self s.freq x v,
      fun y hne => Memory.read_write_ne s.freq v hne⟩
  · refine ⟨_, memWrite_idle hb (locate_len s.params hx), rfl, ?_, fun y hne => Memory.read_write_ne s.len _ hne⟩
    show ((s.len.write x (v.extractLsb' 0 8)).read x).toNat = v.toNat % 256
    rw [Memory.read_write_self, toNat_byte, pow_zero, Nat.div_one]

end

section
/-!
The opcode map and the operand ranges: which words the decoder reads as a command, what an illegal OPCODE does, and where a
command refuses its operands (30_encoding.md R100 to R105; 40_control.md R142, R145 to R148).
-/

open Sys2Proof Sys2Proof.Machine

namespace Sys2Proof

/-! ## The decoder -/

theorem decodeOpcode_eq_ok_iff {op : BitVec 8} {i : Instr} : decodeOpcode op = .ok i ↔ op = encodeOpcode i := by
  constructor
  · intro h
    unfold decodeOpcode at h
    split at h <;> cases h <;> rfl
  · rintro rfl
    cases i <;> rfl

/-- OPCODE as a number: `CMD[7:0]` (30_encoding.md R100). -/
theorem toNat_opcodeField (w : Word) : (opcodeField w).toNat = w.toNat % 256 := by
  rw [opcodeField, toNat_byte, pow_zero, Nat.div_one]

theorem toNat_encode (i : Instr) : (encode i).toNat = (encodeOpcode i).toNat :=
  BitVec.toNat_setWidth_of_le (by decide)

theorem toNat_encode_lt (i : Instr) : (encode i).toNat < 256 := by
  rw [toNat_encode]
  exact (encodeOpcode i).isLt

theorem opcodeField_encode (i : Instr) : opcodeField (encode i) = encodeOpcode i := by
  apply BitVec.eq_of_toNat_eq
  rw [toNat_opcodeField, Nat.mod_eq_of_lt (toNat_encode_lt i), toNat_encode]

theorem decode_eq_ok_iff {w : Word} {i : Instr} : decode w = .ok i ↔ opcodeField w = encodeOpcode i :=
  decodeOpcode_eq_ok_iff

theorem decode_encode (i : Instr) : decode (encode i) = .ok i :=
  decode_eq_ok_iff.2 (opcodeField_encode i)

theorem decodeOpcode_isError_iff {op : BitVec 8} :
    (∃ e, decodeOpcode op = .error e) ↔ (decodeOpcode op).toBool = false := by
  cases decodeOpcode op <;> simp [Except.toBool]

/-- The opcode map and the list of illegal values, compared value by value (30_encoding.md R101, R102). -/
theorem decodeOpcode_toBool_eq_false_iff : ∀ op : BitVec 8, (decodeOpcode op).toBool = false ↔
    (op.toNat = 0x00 ∨ (0x07 ≤ op.toNat ∧ op.toNat ≤ 0x0F) ∨ (0x14 ≤ op.toNat ∧ op.toNat ≤ 0x1F) ∨
      (0x25 ≤ op.toNat ∧ op.toNat ≤ 0x2F) ∨ (0x32 ≤ op.toNat ∧ op.toNat ≤ 0x3F) ∨ 0x42 ≤ op.toNat) := by
  decide

end Sys2Proof

namespace Sys2Proof.Machine

theorem State.sequencerTurn_illegal {s : State} {l : Latch} {e : DecodeError} (hl : s.seq = .busy l)
    (hd : decodeOpcode l.op = .error e) : s.sequencerTurn = .next (illegalCommand s) := by
  simp only [State.sequencerTurn, hl, hd]

/-! ## The error a completion reports -/

theorem ErrorCode.toBits_inj {c d : ErrorCode} : c.toBits = d.toBits ↔ c = d := by
  constructor
  · cases c <;> cases d <;> decide
  · exact congrArg _

theorem outcomeOf_eq_bodyOf {i : Instr} {s : State} (h : readsSrcLen i = false ∨ s.n ≤ s.params.ibufBytes) :
    outcomeOf i s = bodyOf i s := by
  refine if_neg fun ⟨hr, hn⟩ => ?_
  rcases h with h | h
  · simp [h] at hr
  · omega

/-- ERRCODE = `c` after a command: it was `c` before, or the command's outcome is the error `c`
(40_control.md R147 to R149). -/
theorem exec_errcode {i : Instr} {s t : State} {c : ErrorCode} (h : exec i s = .next t) (hc : t.errcode = c.toBits) :
    s.errcode = c.toBits ∨ outcomeOf i s = .errA c ∨ outcomeOf i s = .errB c := by
  rw [exec_outcome] at h
  cases h
  cases ho : outcomeOf i s with
  | ok t =>
    obtain ⟨-, -, herrcode⟩ := (body_ok (outcomeOf_ok ho).1).sameOutside
    rw [ho, complete_ok_eq] at hc
    exact .inl (herrcode.symm.trans hc)
  | errA d =>
    rw [ho] at hc
    exact .inr (.inl (congrArg _ (ErrorCode.toBits_inj.1 hc)))
  | errB d =>
    rw [ho] at hc
    exact .inr (.inr (congrArg _ (ErrorCode.toBits_inj.1 hc)))

/-! ## The operand ranges (30_encoding.md R103) -/

theorem ite_errA_eq_errA {p : Prop} [Decidable p] {c d : ErrorCode} {x : CmdOutcome} :
    (if p then .errA c else x) = .errA d ↔ (p ∧ c = d) ∨ (¬p ∧ x = .errA d) := by
  split <;> simp [*]

theorem State.a0Distance_eq (s : State) : s.a0Distance = s.a0 % 65536 := by
  rw [State.a0Distance, BitVec.extractLsb'_toNat, Nat.shiftRight_zero]
  rfl

theorem State.a0Length_eq (s : State) : s.a0Length = s.a0 / 65536 := by
  have hlt : s.a0 < 2 ^ 32 := s.latched.arg0.isLt
  rw [State.a0Length, BitVec.extractLsb'_toNat, Nat.shiftRight_eq_div_pow]
  show s.a0 / 65536 % 65536 = s.a0 / 65536
  omega

/-- A command's own rule refuses its operands exactly where the column "legal range" does: the commands with a range check
it first, the others never answer BAD_ARGUMENT. -/
theorem body_badArgument_iff (i : Instr) (s : State) : bodyOf i s = .errA .badArgument ↔
    operandsLegal i s.latched.srcLen s.latched.arg0 s.latched.arg1 = false := by
  cases i
  case bsWrite =>
    show bsWrite s = _ ↔ decide (s.a1 ≤ 32) = false
    simp [bsWrite, ite_errA_eq_errA, ofBody_ne_errA]
  case bsRead =>
    show bsRead s = _ ↔ decide (s.a1 ≤ 32) = false
    simp [bsRead, ite_errA_eq_errA, ofBody_ne_errA]
  case rleScan =>
    show rleScan s = _ ↔ decide (s.a0 < s.n) = false
    simp [rleScan]
  case rleEmit =>
    show rleEmit s = _ ↔ decide (1 ≤ s.a1) = false
    simp [rleEmit, ite_errA_eq_errA, ofBody_ne_errA]
  case lzMatch =>
    show lzMatch s = _ ↔ decide (s.a0 < s.n) = false
    simp [lzMatch]
  case lzEmit =>
    simp only [bodyOf, lzEmit, ite_errA_eq_errA, ofBody_ne_errA, and_true, and_false, or_false, reduceCtorEq,
      State.a0Distance_eq, State.a0Length_eq, operandsLegal, decide_eq_false_iff_not, State.a0, State.a1]
    omega
  all_goals exact ⟨fun h => absurd (body_errA h) (by simp [classACodes]), fun h => nomatch h⟩

theorem badArgument_notMem_classBCodes (i : Instr) : ErrorCode.badArgument ∉ classBCodes i := by
  cases i <;> decide

end Sys2Proof.Machine

/-- Settles O13: where SRC_LEN is accepted the outcome is the command's own rule, which refuses exactly the operands outside
their range. -/
theorem badArgumentExactlyOutsideTheRange : Obligations.BadArgumentExactlyOutsideTheRange := by
  unfold Obligations.BadArgumentExactlyOutsideTheRange
  intro i s hn
  rw [← body_badArgument_iff, ← outcomeOf_eq_bodyOf hn]
  refine ⟨fun hbad => ?_, fun hlegal hs t ht hc => ?_⟩
  · rw [exec_outcome, hbad]
    rfl
  · rcases exec_errcode (c := .badArgument) ht hc with h | h | h
    · exact hs h
    · rw [outcomeOf_eq_bodyOf hn, body_badArgument_iff, hlegal] at h
      cases h
    · exact badArgument_notMem_classBCodes i (outcomeOf_errB h)

/-- Settles O7: the map leaves out exactly the listed values, and the turn with one of them is `illegalCommand`. -/
theorem illegalOpcodeCompletesWithoutEffect : Obligations.IllegalOpcodeCompletesWithoutEffect := by
  unfold Obligations.IllegalOpcodeCompletesWithoutEffect
  exact ⟨fun op => decodeOpcode_isError_iff.trans (decodeOpcode_toBool_eq_false_iff op),
    fun _ _ _ hl hd => State.sequencerTurn_illegal hl hd⟩

/-- Settles O8: the decoder inverts the opcode map, and OPCODE is the word modulo 256. -/
theorem decodeAndEncodeAgree : Obligations.DecodeAndEncodeAgree := by
  unfold Obligations.DecodeAndEncodeAgree
  refine ⟨fun i => ⟨decode_encode i, decide_eq_true (toNat_encode_lt i)⟩, fun _ _ => decode_eq_ok_iff.1,
    fun w v h => congrArg decodeOpcode (BitVec.eq_of_toNat_eq ?_)⟩
  rw [toNat_opcodeField, toNat_opcodeField, h]

/-- Settles O9: the words are the commands' encodings; the table word 0x07 is an illegal OPCODE. -/
theorem opcodeMapWordsDecode : Obligations.OpcodeMapWordsDecode := by
  unfold Obligations.OpcodeMapWordsDecode
  exact ⟨decode_encode .hufCompress, decode_encode .lzDecompress, decode_encode .bsRead, decode_encode .hufCanon,
    decode_encode .rleScan, decode_encode .lzEmit, rfl, rfl⟩

end

section
/-!
The control rules: what starts, what runs and how it ends; what a command, with an error or without, leaves as it was
(40_control.md R140 to R151).
-/

open Sys2Proof Sys2Proof.Machine

namespace Sys2Proof.Machine

/-! ## START and the CTRL write -/

/-- While Busy a CTRL write is a soft reset or gets BUS_ERROR (20_memory.md R75). -/
theorem memWrite_ctrl_busy {s : State} (hb : s.busy = true) (v : Word) :
    memWrite s (s.params.coreBase + Reg.ctrl.offset) 4 v =
      if v.getLsbD 2 then .ok s.softReset else .error .busError := by
  simp [memWrite, locate_reg, hb]

theorem State.writeCtrl_start {v : Word} (h2 : v.getLsbD 2 = false) (h0 : v.getLsbD 0 = true) (s : State) :
    s.writeCtrl v = s.start v := by
  rw [State.writeCtrl, if_neg (Bool.eq_false_iff.1 h2), if_pos h0]

theorem State.busy_of_idle {s : State} (h : s.seq = .idle) : s.busy = false := by
  rw [State.busy, h]

theorem State.busy_of_busy {s : State} {l : Latch} (h : s.seq = .busy l) : s.busy = true := by
  rw [State.busy, h]

theorem State.sequencerTurn_command {s : State} {l : Latch} {i : Instr} (hl : s.seq = .busy l)
    (hd : decodeOpcode l.op = .ok i) : s.sequencerTurn = exec i s := by
  simp only [State.sequencerTurn, hl, hd]

/-! ## How a command ends -/

/-- A command ends in one of three ways: its own rule succeeds; a class A error, which changes nothing but the completion
flags; a class B error (40_control.md R147 to R149). -/
theorem exec_cases {i : Instr} {s t : State} (h : exec i s = .next t) :
    (∃ u, bodyOf i s = .ok u ∧ t = complete i s (.ok u) ∧ State.CompletedOk i s t) ∨
    (∃ c, outcomeOf i s = .errA c ∧ t = s.completeError c) ∨
    (∃ c, outcomeOf i s = .errB c ∧ State.FailedClassB i c s t) := by
  rw [exec_outcome] at h
  cases h
  cases ho : outcomeOf i s with
  | ok u =>
    have hbody := (outcomeOf_ok ho).1
    exact .inl ⟨u, hbody, rfl, completedOk (body_ok hbody)⟩
  | errA c => exact .inr (.inl ⟨c, rfl, rfl⟩)
  | errB c => exact .inr (.inr ⟨c, rfl, failedClassB i s c⟩)

theorem badLength_notMem_classACodes (i : Instr) : ErrorCode.badLength ∉ classACodes i := by
  cases i <;> decide

theorem badLength_notMem_classBCodes (i : Instr) : ErrorCode.badLength ∉ classBCodes i := by
  cases i <;> decide

/-- A successful command writes no OBUF byte at or above its final `ceil8(wpos)` (40_control.md R150). -/
theorem body_obuf_beyond {i : Instr} {s t : State} (h : bodyOf i s = .ok t) (hl : s.params.legal)
    (hw : s.wpos ≤ 8 * s.params.obufBytes) {a : Nat} (ha : ceil8 t.wpos ≤ a) : t.obuf.read a = s.obuf.read a := by
  rcases (body_writer h hw).follows hl with f | f
  · exact f.beyond a ha
  · exact f.beyond a ha

/-! ## What sets DONE and ERR -/

/-- No host write sets DONE or ERR (10_state.md R37). -/
theorem Written.flags {s t : State} (h : Written s t) : (t.done = true → s.done = true) ∧ (t.err = true → s.err = true) := by
  cases h
  case softReset => exact ⟨(nomatch ·), (nomatch ·)⟩
  case start => exact ⟨(nomatch ·), (nomatch ·)⟩
  case acknowledge v _ =>
    rw [State.acknowledge_done, State.acknowledge_err]
    constructor <;> split <;> simp
  all_goals exact ⟨id, id⟩

/-- A step either ends a command that was running or sets neither DONE nor ERR. -/
theorem Stepped.flags {s t : State} (h : Stepped s t) : (s.busy = true ∧ t.busy = false ∧ t.done = true) ∨
    (t.done = true → s.done = true) ∧ (t.err = true → s.err = true) := by
  cases h with
  | read => exact .inr ⟨id, id⟩
  | written u hu => exact .inr hu.flags
  | busError => exact .inr ⟨id, id⟩
  | waiting => exact .inr ⟨id, id⟩
  | command l i hl =>
    obtain ⟨hidle, hdone, -⟩ := exec_completes (exec_outcome i s)
    exact .inl ⟨State.busy_of_busy hl, State.busy_of_idle hidle, hdone⟩
  | illegal l e hl => exact .inl ⟨State.busy_of_busy hl, rfl, rfl⟩
  | hardwareReset => exact .inr ⟨(nomatch ·), (nomatch ·)⟩

theorem Stepped.completes {s t : State} (h : Stepped s t)
    (hset : (s.done = false ∧ t.done = true) ∨ (s.err = false ∧ t.err = true)) :
    s.busy = true ∧ t.busy = false ∧ t.done = true := by
  rcases h.flags with k | ⟨hd, he⟩
  · exact k
  · rcases hset with ⟨h0, h1⟩ | ⟨h0, h1⟩
    · simp [hd h1] at h0
    · simp [he h1] at h0

end Sys2Proof.Machine

/-- Settles O5: the step is the sequencer's turn, which runs the command. -/
theorem stepRunsTheDecodedCommand : Obligations.StepRunsTheDecodedCommand := by
  unfold Obligations.StepRunsTheDecodedCommand
  intro s l i hl hd
  refine ⟨fun hp => ?_, fun rest hp => ?_⟩
  · rw [step_of_pending_nil hp]
    exact State.sequencerTurn_command hl hd
  · rw [step_of_pending hp]
    exact State.sequencerTurn_command (s := { s with pending := rest }) hl hd

/-- Settles O27: the write reaches CTRL, where it is START. -/
theorem startLatchesAndClears : Obligations.StartLatchesAndClears := by
  unfold Obligations.StartLatchesAndClears
  intro s v hidle _ h2 h0
  have started : memWrite s (s.params.coreBase + 0x008) 4 v = .ok (s.start v) := by
    rw [← State.writeCtrl_start h2 h0]
    exact memWrite_reg_idle (State.busy_of_idle hidle) v .ctrl
  exact ⟨s.start v, started, rfl, rfl, Bool.and_false _⟩

/-- Settles O28: the write reaches CTRL, Idle or Busy. -/
theorem ctrlWriteDoesExactlyOneThing : Obligations.CtrlWriteDoesExactlyOneThing := by
  unfold Obligations.CtrlWriteDoesExactlyOneThing
  exact fun s v _ => ⟨fun hb => memWrite_reg_idle hb v .ctrl, fun hb => memWrite_ctrl_busy hb v, rfl, rfl⟩

/-- Settles O10: the frame is that of every completion; only a command without error leaves ERR at 0, and its writer leaves
the bytes above its cursor alone. -/
theorem commandsChangeOnlyTheirWriteSet : Obligations.CommandsChangeOnlyTheirWriteSet := by
  unfold Obligations.CommandsChangeOnlyTheirWriteSet
  intro i s t h
  refine ⟨(exec_completes h).2.2, fun hl hw _ herr a ha => ?_⟩
  rcases exec_cases h with ⟨u, hbody, rfl, -⟩ | ⟨c, -, rfl⟩ | ⟨c, -, k⟩
  · rw [complete_ok_eq] at ha ⊢
    exact body_obuf_beyond hbody hl hw ha
  · cases herr
  · simp [k.err] at herr

/-- Settles O11, by the three ways a command ends. -/
theorem everyCommandCompletes : Obligations.EveryCommandCompletes := by
  unfold Obligations.EveryCommandCompletes
  intro i s
  have h := exec_outcome i s
  obtain ⟨hidle, hdone, -⟩ := exec_completes h
  refine ⟨_, h, hidle, State.busy_of_idle hidle, hdone, ?_⟩
  rcases exec_cases h with ⟨u, -, -, k⟩ | ⟨c, -, k⟩ | ⟨c, -, k⟩
  · exact .inl ⟨k.err, k.errcode⟩
  · rw [k]
    exact .inr ⟨rfl, c, rfl⟩
  · exact .inr ⟨k.err, c, k.errcode⟩

/-- Settles O12: check 2 comes before the command's own rule, and no command's own rule answers BAD_LENGTH. -/
theorem badLengthIsCheckedFirst : Obligations.BadLengthIsCheckedFirst := by
  unfold Obligations.BadLengthIsCheckedFirst
  intro i s
  refine ⟨fun hr hn => ?_, fun hn hs t ht hc => ?_⟩
  · rw [exec_eq, runCommand_badLength _ hr hn]
    rfl
  · rcases exec_errcode (c := .badLength) ht hc with h | h | h
    · exact hs h
    · rw [outcomeOf_eq_bodyOf hn] at h
      exact badLength_notMem_classACodes i (body_errA h)
    · exact badLength_notMem_classBCodes i (outcomeOf_errB h)

/-- Settles O15, by the three ways a command ends. -/
theorem errorsChangeNothingOrLeaveNoOutput : Obligations.ErrorsChangeNothingOrLeaveNoOutput := by
  unfold Obligations.ErrorsChangeNothingOrLeaveNoOutput
  intro i s t hs h herr
  rcases exec_cases h with ⟨u, -, -, k⟩ | ⟨c, -, rfl⟩ | ⟨c, -, k⟩
  · rw [k.err, hs] at herr
    cases herr
  · exact .inl rfl
  · exact .inr ⟨c, k⟩

/-- Settles O19, by the cases of a step; the oldest event taken or not, the sequencer and the flags are those of `s`. -/
theorem onlyCompletionSetsDoneAndErr : Obligations.OnlyCompletionSetsDoneAndErr := by
  unfold Obligations.OnlyCompletionSetsDoneAndErr
  intro s t h hset
  rcases step_cases h with ⟨-, k⟩ | ⟨e, rest, -, k⟩
  · exact k.completes hset
  · exact k.completes hset

end

section
/-!
A codec command run from two states that agree on the sizes and the input: its own rule takes the same course in both and
leaves the same output (40_control.md R152, R153).
-/

open Sys2Proof Sys2Proof.Machine

namespace Sys2Proof.Machine

/-! ## The output of twin writers -/

/-- A writer at the start of OBUF has no partial byte. -/
theorem Writer.clean_of_start {w : Writer} (h : w.pos = 0) : w.Clean := by
  intro p _ hp
  rw [h] at hp
  exact absurd hp (Nat.not_lt_zero p)

/-- Twins hold the same bytes up to their cursor, the partial byte included: its bits past the cursor are 0
(41_bitstream.md R171). -/
theorem Twin.output {cap : Nat} {p : Writer × Writer} {w u : Writer} (h : Twin cap p w u) {a : Nat} (ha : a < ceil8 w.pos) :
    w.mem.read a = u.mem.read a := by
  have hpos := h.pos_eq
  obtain ⟨bits, hw, hu⟩ := h.same
  refine byte_eq_of_streamBit fun q hq => ?_
  by_cases hlt : q < w.pos
  · exact h.bits hlt
  · have hend : q < 8 * ceil8 w.pos := by omega
    rw [hw.clean (Writer.clean_of_start h.start₁) q (by omega) hend,
      hu.clean (Writer.clean_of_start h.start₂) q (by omega) (hpos ▸ hend)]

/-- Two states a codec's own rule left hold the same results and the same OBUF up to the writer's cursor. -/
structure SameOutput (t v : State) : Prop where
  bsWbits : t.bsWbits = v.bsWbits
  bsRpos  : t.bsRpos = v.bsRpos
  res0    : t.res0 = v.res0
  res1    : t.res1 = v.res1
  bytes   : ∀ a, a < ceil8 t.wpos → t.obuf.read a = v.obuf.read a

theorem ceil8_mono {p q : Nat} (h : p ≤ q) : ceil8 p ≤ ceil8 q := by
  unfold ceil8
  omega

/-- Every codec ends by flushing its writer and setting BS_RPOS and the results. -/
theorem Twin.sameOutput {cap : Nat} {p : Writer × Writer} {w u : Writer} (h : Twin cap p w u) (t v : State) (r a b : Nat) :
    SameOutput (((t.setWriter w.flush).setRpos r).setRes a b) (((v.setWriter u.flush).setRpos r).setRes a b) := by
  have hflush : w.flush.pos = u.flush.pos := by simp only [Writer.flush, h.pos_eq]
  refine ⟨congrArg (BitVec.ofNat 32) hflush, rfl, rfl, rfl, fun j hj => h.output (Nat.lt_of_lt_of_le hj ?_)⟩
  calc ceil8 (BitVec.ofNat 32 (8 * ceil8 w.pos)).toNat
      ≤ ceil8 (8 * ceil8 w.pos) := ceil8_mono (by rw [BitVec.toNat_ofNat]; exact Nat.mod_le _ _)
    _ = ceil8 w.pos := ceil8_mul _

/-! ## The course of the two runs -/

/-- Two outcomes with the same error, or with the same output. -/
inductive SameOutcome : CmdOutcome → CmdOutcome → Prop
  | errA (c : ErrorCode) : SameOutcome (.errA c) (.errA c)
  | errB (c : ErrorCode) : SameOutcome (.errB c) (.errB c)
  | ok {t v : State} (h : SameOutput t v) : SameOutcome (.ok t) (.ok v)

theorem SameOutcome.ite {c : Prop} [Decidable c] {x y x' y' : CmdOutcome} (h : SameOutcome x y) (h' : SameOutcome x' y') :
    SameOutcome (if c then x else x') (if c then y else y') := by
  split <;> assumption

/-- A check inside a rule's body. -/
theorem SameOutcome.ofBody_ite {c : Prop} [Decidable c] {x y x' y' : Except ErrorCode State}
    (h : SameOutcome (.ofBody x) (.ofBody y)) (h' : SameOutcome (.ofBody x') (.ofBody y')) :
    SameOutcome (.ofBody (if c then x else x')) (.ofBody (if c then y else y')) := by
  split <;> assumption

/-- A body goes on from two computations that agree. -/
theorem SameOutcome.ofBody_bind {α β : Type} {cap : Nat} {p : Writer × Writer} {out : α → Writer} {rest : α → β}
    {x y : Except ErrorCode α} {f g : α → Except ErrorCode State} (h : Agree cap p out rest x y)
    (k : ∀ a b, Twin cap p (out a) (out b) → rest a = rest b → SameOutcome (.ofBody (f a)) (.ofBody (g b))) :
    SameOutcome (.ofBody (x >>= f)) (.ofBody (y >>= g)) := by
  rcases h with ⟨e, rfl, rfl⟩ | ⟨a, b, rfl, rfl, h, hr⟩
  · exact .errB e
  · exact k a b h hr

/-- A body goes on from a computation that does not write. -/
theorem SameOutcome.ofBody_after {α : Type} {x : Except ErrorCode α} {f g : α → Except ErrorCode State}
    (k : ∀ a, SameOutcome (.ofBody (f a)) (.ofBody (g a))) : SameOutcome (.ofBody (x >>= f)) (.ofBody (x >>= g)) := by
  cases x with
  | error e => exact .errB e
  | ok a => exact k a

/-! ## The six codecs -/

section
variable {s u : State}

theorem inputArray_eq_of_inputBytes (h : s.inputBytes = u.inputBytes) : s.inputArray = u.inputArray := congrArg List.toArray h

theorem n_eq_of_inputBytes (h : s.inputBytes = u.inputBytes) : s.n = u.n := by
  rw [← length_inputBytes s, h, length_inputBytes]

theorem sameOutcome_hufCompress (hp : s.params = u.params) (hi : s.inputBytes = u.inputBytes) :
    SameOutcome (hufCompress s) (hufCompress u) := by
  simp only [hufCompress, hp, n_eq_of_inputBytes hi, inputArray_eq_of_inputBytes hi]
  refine .ofBody_bind (agree_writeBits _ _ (twin_fresh _ s u)) fun w₁ v₁ h₁ _ => ?_
  refine .ofBody_bind (agree_writeBits _ _ h₁) fun w₂ v₂ h₂ _ => ?_
  refine .ofBody_bind (agree_writeBits _ _ h₂) fun w₃ v₃ h₃ _ => ?_
  refine .ofBody_bind (agree_writeEntries _ h₃) fun w₄ v₄ h₄ _ => .ofBody_ite (.errB _) ?_
  refine .ofBody_bind (out := id) (.ite (agree_encodeFrom _ _ _ _ _ h₄) (.ok h₄ rfl)) fun w₅ v₅ h₅ _ => ?_
  have payload : w₅.pos - w₄.pos = v₅.pos - v₄.pos := congrArg₂ _ h₅.pos_eq h₄.pos_eq
  rw [payload]
  exact .ok (h₅.sameOutput _ _ _ _ _)

theorem sameOutcome_hufDecompress (hp : s.params = u.params) (hi : s.inputBytes = u.inputBytes) :
    SameOutcome (hufDecompress s) (hufDecompress u) := by
  simp only [hufDecompress, hp, n_eq_of_inputBytes hi, inputArray_eq_of_inputBytes hi]
  refine .ite (.errA _) (.ite (.errA _) (.ite (.errA _) (.ite (.errA _) (.ite (.errA _) (.ite (.errA _) (.ite (.errA _)
    (.ite (.errA _) (.ite (.errA _) (.ite (.errB _) ?_)))))))))
  refine .ofBody_bind (agree_hufPayload _ _ _ _ _ _ (twin_fresh _ s u)) fun (r, w, p) (r', w', p') h hr => ?_
  obtain ⟨rfl, rfl⟩ : r = r' ∧ p = p' := Prod.mk.inj hr
  exact .ok (h.sameOutput _ _ _ _ _)

theorem sameOutcome_rleCompress (hp : s.params = u.params) (hi : s.inputBytes = u.inputBytes) :
    SameOutcome (rleCompress s) (rleCompress u) := by
  simp only [rleCompress, hp, n_eq_of_inputBytes hi, inputArray_eq_of_inputBytes hi]
  refine .ofBody_bind (agree_writeBits _ _ (twin_fresh _ s u)) fun w v h _ => ?_
  refine .ofBody_bind (agree_rleCompressLoop _ _ _ _ _ h) fun (m, w) (m', w') h hm => ?_
  obtain rfl : m = m' := hm
  exact .ok (h.sameOutput _ _ _ _ _)

theorem sameOutcome_rleDecompress (hp : s.params = u.params) (hi : s.inputBytes = u.inputBytes) :
    SameOutcome (rleDecompress s) (rleDecompress u) := by
  simp only [rleDecompress, hp, n_eq_of_inputBytes hi, inputArray_eq_of_inputBytes hi]
  refine .ite (.errA _) (.ite (.errA _) (.ite (.errA _) (.ite (.errA _) (.ite (.errA _) (.ofBody_after fun x => ?_)))))
  refine .ofBody_bind (agree_rleDecompressLoop _ _ _ _ (twin_fresh _ s u)) fun (r, w) (r', w') h hr => ?_
  obtain rfl : r = r' := hr
  exact .ok (h.sameOutput _ _ _ _ _)

theorem sameOutcome_lzCompress (hp : s.params = u.params) (hi : s.inputBytes = u.inputBytes) :
    SameOutcome (lzCompress s) (lzCompress u) := by
  simp only [lzCompress, hp, n_eq_of_inputBytes hi, inputArray_eq_of_inputBytes hi]
  refine .ofBody_bind (agree_writeBits _ _ (twin_fresh _ s u)) fun w₁ v₁ h₁ _ => ?_
  refine .ofBody_bind (agree_writeBits _ _ h₁) fun w₂ v₂ h₂ _ => ?_
  refine .ofBody_bind (agree_lzCompressLoop _ _ _ _ h₂ ⟨rfl, rfl⟩) fun ⟨lits, ms, w⟩ ⟨lits', ms', w'⟩ h hk => ?_
  obtain ⟨rfl, rfl⟩ : lits = lits' ∧ ms = ms' := Prod.mk.inj hk
  exact .ok (h.sameOutput _ _ _ _ _)

theorem sameOutcome_lzDecompress (hp : s.params = u.params) (hi : s.inputBytes = u.inputBytes) :
    SameOutcome (lzDecompress s) (lzDecompress u) := by
  simp only [lzDecompress, hp, n_eq_of_inputBytes hi, inputArray_eq_of_inputBytes hi]
  refine .ite (.errA _) (.ite (.errA _) (.ite (.errA _) ?_))
  refine .ofBody_bind (agree_lzReplay _ _ _ _ _ _ (twin_fresh _ s u) ⟨rfl, rfl⟩ rfl)
    fun (r, ⟨lits, ms, w⟩) (r', ⟨lits', ms', w'⟩) h hk => ?_
  obtain ⟨rfl, rfl, rfl⟩ : r = r' ∧ lits = lits' ∧ ms = ms' := by simpa using hk
  exact .ofBody_ite (.errB _) (.ok (h.sameOutput _ _ _ _ _))

theorem sameOutcome_body {i : Instr} (hc : isCodec i = true) (hp : s.params = u.params)
    (hi : s.inputBytes = u.inputBytes) : SameOutcome (bodyOf i s) (bodyOf i u) := by
  cases i
  case hufCompress => exact sameOutcome_hufCompress hp hi
  case hufDecompress => exact sameOutcome_hufDecompress hp hi
  case rleCompress => exact sameOutcome_rleCompress hp hi
  case rleDecompress => exact sameOutcome_rleDecompress hp hi
  case lzCompress => exact sameOutcome_lzCompress hp hi
  case lzDecompress => exact sameOutcome_lzDecompress hp hi
  all_goals cases hc

theorem sameOutcome_outcomeOf {i : Instr} (hc : isCodec i = true) (hp : s.params = u.params)
    (hi : s.inputBytes = u.inputBytes) : SameOutcome (outcomeOf i s) (outcomeOf i u) := by
  rw [outcomeOf, outcomeOf, hp, n_eq_of_inputBytes hi]
  exact .ite (.errA _) (sameOutcome_body hc hp hi)

end

/-! ## Completion -/

theorem writeSet_obuf_of_isCodec {i : Instr} (h : isCodec i = true) : (writeSet i).obuf = true := by
  revert h
  cases i <;> decide

/-- The completion of a codec makes DST_LEN count the bytes of the output (40_control.md R149). -/
theorem SameOutput.outputBytes {t v : State} (h : SameOutput t v) {i : Instr} (hc : isCodec i = true) (s u : State) :
    (complete i s (.ok t)).outputBytes = (complete i u (.ok v)).outputBytes ∧
      (complete i s (.ok t)).dstLen = (complete i u (.ok v)).dstLen := by
  have hw : t.wpos = v.wpos := congrArg BitVec.toNat h.bsWbits
  simp only [complete_ok_eq, writeSet_obuf_of_isCodec hc, if_true, State.outputBytes, ← hw, and_true]
  refine List.map_congr_left fun a ha => h.bytes a (Nat.lt_of_lt_of_le (List.mem_range.1 ha) ?_)
  rw [BitVec.toNat_ofNat]
  exact Nat.mod_le _ _

end Sys2Proof.Machine

/-- Settles O17: the outcomes are the same error or two states with the same output, and the completion keeps that. -/
theorem codecCommandsArePure : Obligations.CodecCommandsArePure := by
  unfold Obligations.CodecCommandsArePure
  intro i s u t v hc hp _ hi hs hu hcs hcu ht hv
  rw [exec_outcome] at ht hv
  cases ht
  cases hv
  have same := sameOutcome_outcomeOf hc hp hi
  generalize hx : outcomeOf i s = x at same ⊢
  generalize hy : outcomeOf i u = y at same ⊢
  cases same with
  | errA c => exact ⟨rfl, rfl, (nomatch ·)⟩
  | errB c => exact ⟨rfl, rfl, (nomatch ·)⟩
  | ok k =>
    have ks := completedOk (body_ok (outcomeOf_ok hx).1)
    have ku := completedOk (body_ok (outcomeOf_ok hy).1)
    refine ⟨by rw [ks.err, ku.err, hs, hu], by rw [ks.errcode, ku.errcode, hcs, hcu], fun _ => ?_⟩
    obtain ⟨hbytes, hlen⟩ := k.outputBytes hc s u
    rw [complete_ok_eq, complete_ok_eq] at hbytes hlen ⊢
    exact ⟨hbytes, hlen, k.bsWbits, k.bsRpos, k.res0, k.res1⟩

end

section
/-!
The bit-stream commands BS_RESET, BS_WRITE, BS_FLUSH and BS_READ: the outcome of each one's own rule, check by check, and
what its completion leaves (41_bitstream.md R175 to R178).
-/

open Sys2Proof Sys2Proof.Machine

namespace Sys2Proof.Machine

/-! ## From the outcome of a command's rule to its end -/

theorem exec_badLength {i : Instr} {s : State} (h : readsSrcLen i = true) (hn : s.params.ibufBytes < s.n) :
    exec i s = .next (s.completeError .badLength) := by
  rw [exec_eq, runCommand_badLength _ h hn]

section
variable {i : Instr} {s : State} (hn : readsSrcLen i = false ∨ s.n ≤ s.params.ibufBytes)
include hn

theorem exec_of_errA {c : ErrorCode} (h : bodyOf i s = .errA c) : exec i s = .next (s.completeError c) := by
  rw [exec_eq, runCommand_body _ hn, h]
  rfl

theorem exec_of_ok {t : State} (h : bodyOf i s = .ok t) : exec i s = .next (complete i s (.ok t)) := by
  rw [exec_eq, runCommand_body _ hn, h]

end

/-- Completing a command that writes OBUF sets DST_LEN to the bytes its writer filled (40_control.md R149). -/
theorem appended_complete {i : Instr} {s : State} {bits : List Bool} {w : Writer} (hl : s.params.legal)
    (ho : (writeSet i).obuf = true) (h : Writer.Wrote s.params.obufBytes bits s.writer w) :
    State.Appended bits s (complete i s (.ok (s.setWriter w))) := by
  have hcap : s.params.obufBytes ≤ 2 ^ 20 := hl.2.2.2.1
  have hfits := h.fits
  have hpos : (s.setWriter w).wpos = w.pos := toNat_ofNat_of_le (by omega)
  rw [complete_ok_eq, ho, hpos]
  exact appended_of_wrote hl h rfl rfl rfl

/-! ## BS_WRITE (41_bitstream.md R176) -/

theorem bsWrite_badArgument {s : State} (hm : 32 < s.a1) : bsWrite s = .errA .badArgument := if_pos hm

theorem bsWrite_overflow {s : State} (hm : s.a1 ≤ 32) (hw : 8 * s.params.obufBytes < s.wpos + s.a1) :
    bsWrite s = .errA .outputOverflow := by
  rw [bsWrite, if_neg (Nat.not_lt.2 hm), if_pos hw]

/-- Past both checks the writer has room, so BS_WRITE cannot fail. -/
theorem bsWrite_ok {s : State} (hm : s.a1 ≤ 32) (hw : s.wpos + s.a1 ≤ 8 * s.params.obufBytes) :
    ∃ w, bsWrite s = .ok (s.setWriter w) ∧ Writer.Wrote s.params.obufBytes (bitsMSB s.a0 s.a1) s.writer w := by
  have emits := emits_writeBits s.params.obufBytes s.a0 s.a1 s.writer (Nat.le_of_add_right_le hw)
  obtain ⟨w, hok, hwrote⟩ := emits.1 (by rw [length_bitsMSB]; exact hw)
  refine ⟨w, ?_, hwrote⟩
  rw [bsWrite, if_neg (Nat.not_lt.2 hm), if_neg (Nat.not_lt.2 hw), hok]
  rfl

/-! ## BS_READ (41_bitstream.md R178) -/

theorem bsRead_badArgument {s : State} (hm : 32 < s.a1) : bsRead s = .errA .badArgument := if_pos hm

theorem bsRead_truncated {s : State} (hm : s.a1 ≤ 32) (hr : 8 * s.n < s.rpos + s.a1) :
    bsRead s = .errA .truncatedStream := by
  rw [bsRead, if_neg (Nat.not_lt.2 hm), if_pos hr]

/-- The stream of the latched input is the stream of IBUF, up to the input's end (40_control.md R144). -/
theorem streamBits_inputArray {s : State} {p k : Nat} (h : p + k ≤ 8 * s.n) :
    streamBits (byteAt s.inputArray) p k = streamBits s.ibuf.read p k :=
  streamBits_congr fun q _ hq => streamBit_congr (byteAt_inputArray s (by omega))

/-- Past both checks the bits are there, so BS_READ cannot fail. -/
theorem bsRead_ok {s : State} (hm : s.a1 ≤ 32) (hr : s.rpos + s.a1 ≤ 8 * s.n) :
    ∃ v, bsRead s = .ok ((s.setRpos (s.rpos + s.a1)).setRes v s.a1) ∧ v < 2 ^ s.a1 ∧
      bitsMSB v s.a1 = streamBits s.ibuf.read s.rpos s.a1 := by
  obtain ⟨v, hv, hbits, hok⟩ := readBits_ok (rd := byteAt s.inputArray) hr
  refine ⟨v, ?_, hv, hbits.trans (streamBits_inputArray hr)⟩
  rw [bsRead, if_neg (Nat.not_lt.2 hm), if_neg (Nat.not_lt.2 hr), hok]
  rfl

end Sys2Proof.Machine

/-- Settles O35: past the checks the writer has room for the bits, and the completion sets DST_LEN from its cursor. -/
theorem bsWriteAppendsTheLowBits : Obligations.BsWriteAppendsTheLowBits := by
  unfold Obligations.BsWriteAppendsTheLowBits
  refine ⟨rfl, fun s hl => ⟨fun hm => ?_, fun hm hw => ?_, fun hm hw => ?_⟩⟩
  · exact exec_of_errA (.inl rfl) (bsWrite_badArgument hm)
  · exact exec_of_errA (.inl rfl) (bsWrite_overflow hm hw)
  · obtain ⟨w, hok, hwrote⟩ := bsWrite_ok hm hw
    exact ⟨_, exec_of_ok (.inl rfl) hok, completedOk (.bsWrite w), appended_complete hl rfl hwrote⟩

/-- Settles O37: past the checks the bits stand in the input; cursor, value and count fit their registers. -/
theorem bsReadReturnsTheNextBits : Obligations.BsReadReturnsTheNextBits := by
  unfold Obligations.BsReadReturnsTheNextBits
  refine ⟨rfl, fun s hl => ⟨exec_badLength rfl, fun hn hm => ?_, fun hn hm hr => ?_, fun hn hm hr => ?_⟩⟩
  · exact exec_of_errA (.inr hn) (bsRead_badArgument hm)
  · exact exec_of_errA (.inr hn) (bsRead_truncated hm hr)
  · obtain ⟨v, hok, hv, hbits⟩ := bsRead_ok hm hr
    have hcap : s.params.ibufBytes ≤ 2 ^ 20 := hl.2.1
    have hv32 : v < 2 ^ 32 := Nat.lt_of_lt_of_le hv (Nat.pow_le_pow_right Nat.two_pos hm)
    have hres0 : (BitVec.ofNat 32 v).toNat = v := by rw [BitVec.toNat_ofNat, Nat.mod_eq_of_lt hv32]
    refine ⟨_, exec_of_ok (.inr hn) hok, completedOk (.bsRead v _), ?_⟩
    rw [complete_ok_eq]
    exact ⟨toNat_ofNat_of_le (by omega), hres0.trans_lt hv, (congrArg (bitsMSB · s.a1) hres0).trans hbits,
      toNat_ofNat_of_le (by omega)⟩

/-- Settles O34: BS_RESET has no check, and its rule sets the two cursors and DST_LEN alone. -/
theorem bsResetClearsTheCursors : Obligations.BsResetClearsTheCursors := by
  unfold Obligations.BsResetClearsTheCursors
  refine ⟨rfl, fun s => ⟨_, exec_of_ok (.inl rfl) rfl, completedOk .bsReset, ?_⟩⟩
  rw [complete_ok_eq]
  exact ⟨rfl, rfl, rfl, rfl⟩

/-- Settles O36: OBUF ends at a byte boundary, so a cursor inside it stays inside when it moves up to the next one. -/
theorem bsFlushPadsToAByte : Obligations.BsFlushPadsToAByte := by
  unfold Obligations.BsFlushPadsToAByte
  refine ⟨rfl, fun s hl hw => ⟨_, exec_of_ok (.inl rfl) rfl, completedOk .bsFlush, ?_⟩⟩
  have hcap : s.params.obufBytes ≤ 2 ^ 20 := hl.2.2.2.1
  have hle : ceil8 s.wpos ≤ s.params.obufBytes := ceil8_le hw
  have hpos : (BitVec.ofNat 32 (8 * ceil8 s.wpos)).toNat = 8 * ceil8 s.wpos := toNat_ofNat_of_le (by omega)
  rw [complete_ok_eq]
  exact ⟨hpos, toNat_ofNat_of_le (by omega), rfl, hpos.trans_le (Nat.mul_le_mul_left 8 hle)⟩

end

section
/-!
The Huffman tables: what HUF_COUNT, HUF_BUILD and HUF_CANON leave in FREQ, LEN and CODE (42_huffman.md R190 to R204), and
that no code a valid table holds begins another.
-/

open Sys2Proof Sys2Proof.Machine

namespace Sys2Proof.Machine

/-! ## Entries of a table -/

theorem mem_tableEntries {w : Nat} {m : Memory w} {l : Nat} :
    l ∈ tableEntries m ↔ ∃ x, x < 256 ∧ (m.read x).toNat = l := by
  simp [tableEntries, Config.nsym]

theorem largest_tableEntries {w : Nat} (m : Memory w) :
    (∀ x, x < 256 → (m.read x).toNat ≤ largest (tableEntries m)) ∧
    (largest (tableEntries m) = 0 ∨ ∃ x, x < 256 ∧ (m.read x).toNat = largest (tableEntries m)) :=
  ⟨fun x hx => le_largest (mem_tableEntries.2 ⟨x, hx, rfl⟩), (largest_mem _).imp_right mem_tableEntries.1⟩

theorem kraftSum_tableEntries {w : Nat} (m : Memory w) : kraftSum (tableEntries m) =
    ((List.range 256).map fun x => if (m.read x).toNat = 0 then 0 else 2 ^ (64 - (m.read x).toNat)).sum := by
  rw [kraftSum, tableEntries, List.map_map]
  rfl

theorem sum_tableEntries {w : Nat} (m : Memory w) :
    (tableEntries m).sum = ((List.range 256).map fun x => (m.read x).toNat).sum := rfl

theorem le_of_largest_le {xs : List Nat} {b x : Nat} (h : largest xs ≤ b) (hx : x ∈ xs) : x ≤ b := (le_largest hx).trans h

/-- 256 frequencies of 32 bits sum to a weight of 40 bits (42_huffman.md R195). -/
theorem sum_tableEntries_lt (m : Memory 32) : (tableEntries m).sum < 2 ^ 40 :=
  sum_freq_lt (length_tableEntries m) (tableEntries_lt m)

/-- The number of symbols present fits RES0. -/
theorem toNat_ofNat_distinct {xs : List Nat} (h : xs.length = 256) :
    (BitVec.ofNat 32 (distinct xs)).toNat = distinct xs :=
  toNat_ofNat_of_le ((distinct_le h).trans (by decide))

/-! ## HUF_COUNT (42_huffman.md R191) -/

theorem State.n_lt (s : State) : s.n < 2 ^ 32 := BitVec.isLt _

theorem hufCount_eq (s : State) :
    hufCount s = .ok ((s.setFreq (freqOf s.inputBytes)).setRes (distinct (freqOf s.inputBytes)) 0) := by
  rw [← slice_input, ← countFreq_eq]
  rfl

theorem mem_freqOf_le {xs : List Byte} {f : Nat} (h : f ∈ freqOf xs) : f ≤ xs.length :=
  (mem_le_sum h).trans_eq (sum_freqOf xs)

/-- A FREQ table filled with the counts of an input holds them: no count exceeds the input's length. -/
theorem tableEntries_freqOf (m : Memory 32) {xs : List Byte} (h : xs.length < 2 ^ 32) :
    tableEntries (m.fill (freqOf xs)) = freqOf xs :=
  tableEntries_fill_of_lt m _ (length_freqOf xs) fun _ hf => (mem_freqOf_le hf).trans_lt h

/-- How HUF_COUNT ends, past the check of SRC_LEN. -/
theorem exec_hufCount {s : State} (hn : s.n ≤ s.params.ibufBytes) : ∃ t, exec .hufCount s = .next t ∧
    State.CompletedOk .hufCount s t ∧ tableEntries t.freq = freqOf s.inputBytes ∧
    t.res0.toNat = distinct (freqOf s.inputBytes) ∧ t.res1 = 0 := by
  have hxs : s.inputBytes.length < 2 ^ 32 := (length_inputBytes s).trans_lt s.n_lt
  refine ⟨_, exec_of_ok (.inr hn) (hufCount_eq s), completedOk (.hufCount _ _), ?_⟩
  rw [complete_ok_eq]
  exact ⟨tableEntries_freqOf s.freq hxs, toNat_ofNat_distinct (length_freqOf _), rfl⟩

/-! ## HUF_BUILD (42_huffman.md R198) -/

theorem buildLens_getD_eq_zero_iff {freq : List Nat} (hl : freq.length = 256) (hs : freq.sum < 2 ^ 40) {x : Nat}
    (hx : x < 256) : (buildLens freq).getD x 0 = 0 ↔ freq.getD x 0 = 0 := by
  rw [List.getD_eq_getElem _ _ (by rwa [length_buildLens]), List.getD_eq_getElem _ _ (by rwa [hl])]
  exact (buildLens_spec hl hs).1 x hx

/-- The only present symbol gets length 1 (42_huffman.md R196). -/
theorem buildLens_getD_eq_one {freq : List Nat} (hl : freq.length = 256) (hs : freq.sum < 2 ^ 40) (h1 : distinct freq = 1)
    {x : Nat} (hx : x < 256) (hf : freq.getD x 0 ≠ 0) : (buildLens freq).getD x 0 = 1 := by
  obtain ⟨-, -, hle, -⟩ := buildLens_spec hl hs
  have hpos := mt (buildLens_getD_eq_zero_iff hl hs hx).1 hf
  have := hle h1 _ (getD_mem (length_buildLens freq) hx)
  omega

/-- A present symbol's length is the one the tree gives it. -/
theorem mem_codeLengths {freq : List Nat} (hl : freq.length = 256) (hs : freq.sum < 2 ^ 40) {x : Nat} (hx : x < 256)
    (hf : freq.getD x 0 ≠ 0) : (x, (buildLens freq).getD x 0) ∈ codeLengths freq := by
  have hpos := mt (buildLens_getD_eq_zero_iff hl hs hx).1 hf
  rw [List.getD_eq_getElem _ _ (by rwa [length_buildLens]), getElem_buildLens] at hpos ⊢
  cases hv : Memory.lookup (codeLengths freq) x with
  | none => simp [hv] at hpos
  | some v => exact mem_of_lookup hv

theorem length_presentSymbols {w : Nat} (m : Memory w) :
    (presentSymbols fun x => (m.read x).toNat).length = distinct (tableEntries m) := by
  rw [distinct_tableEntries, List.countP_eq_length_filter]
  rfl

theorem mem_presentSymbols {f : Nat → Nat} {x : Nat} : x ∈ presentSymbols f ↔ x < 256 ∧ f x ≠ 0 := by
  simp [presentSymbols, Nat.pos_iff_ne_zero]

/-- The CODE_TOO_LONG check of HUF_BUILD cannot fire. -/
theorem hufBuild_eq (s : State) : hufBuild s =
    .ok ((((s.setLen (buildLens (tableEntries s.freq))).setTableValid false).touchArena).setRes
      (distinct (tableEntries s.freq)) (largest (buildLens (tableEntries s.freq)))) :=
  if_neg (Nat.not_lt.2 ((largest_build_le (length_tableEntries _) (sum_tableEntries_lt _)).trans (by decide)))

/-- How HUF_BUILD ends, from every state. -/
theorem exec_hufBuild (s : State) : ∃ t, exec .hufBuild s = .next t ∧ State.CompletedOk .hufBuild s t ∧
    t.tableValid = false ∧ t.code = s.code ∧ tableEntries t.len = buildLens (tableEntries s.freq) ∧
    t.res0.toNat = distinct (tableEntries s.freq) ∧ t.res1.toNat = largest (tableEntries t.len) := by
  have hl := length_tableEntries s.freq
  have hs := sum_tableEntries_lt s.freq
  have hlen := tableEntries_buildLens s.len hl hs (by decide)
  refine ⟨_, exec_of_ok (.inl rfl) (hufBuild_eq s), completedOk (.hufBuild _ _ _), ?_⟩
  rw [complete_ok_eq]
  refine ⟨rfl, rfl, hlen, toNat_ofNat_distinct hl, ?_⟩
  exact (toNat_ofNat_of_le ((largest_build_le hl hs).trans (by decide))).trans (congrArg largest hlen.symm)

/-! ## HUF_CANON (42_huffman.md R204) -/

theorem hufCanon_tooLong {s : State} (h : 64 < largest (tableEntries s.len)) : hufCanon s = .errA .badCodeLengths := if_pos h

/-- Both checks of HUF_CANON raise the same code, so a Kraft sum too large is refused whatever the lengths. -/
theorem hufCanon_kraft {s : State} (h : 2 ^ 64 < kraftSum (tableEntries s.len)) : hufCanon s = .errA .badCodeLengths :=
  ite_eq_left_iff.2 fun _ => if_pos h

theorem hufCanon_ok {s : State} (hl : largest (tableEntries s.len) ≤ 64) (hk : kraftSum (tableEntries s.len) ≤ 2 ^ 64) :
    hufCanon s = .ok (((s.setCode (canonCodes (tableEntries s.len))).setTableValid true).setRes
      (distinct (tableEntries s.len)) (largest (tableEntries s.len))) :=
  (if_neg (Nat.not_lt.2 hl)).trans (if_neg (Nat.not_lt.2 hk))

/-- A CODE table filled with the canonical codes of lengths that pass the checks of HUF_CANON holds them. -/
theorem tableEntries_canonCodes (m : Memory 64) {lens : List Nat} (hl : lens.length = 256) (h64 : ∀ l ∈ lens, l ≤ 64)
    (hk : kraftSum lens ≤ 2 ^ 64) : tableEntries (m.fill (canonCodes lens)) = canonCodes lens :=
  tableEntries_fill_of_lt m _ (length_canonCodes lens) (canonCodes_lt (prefixCode_canon hl h64 hk) h64)

/-- How HUF_CANON ends, past its checks. -/
theorem exec_hufCanon {s : State} (h64 : largest (tableEntries s.len) ≤ 64) (hk : kraftSum (tableEntries s.len) ≤ 2 ^ 64) :
    ∃ t, exec .hufCanon s = .next t ∧ State.CompletedOk .hufCanon s t ∧ t.tableValid = true ∧
      tableEntries t.code = canonCodes (tableEntries s.len) ∧ t.res0.toNat = distinct (tableEntries s.len) ∧
      t.res1.toNat = largest (tableEntries s.len) := by
  have hl := length_tableEntries s.len
  refine ⟨_, exec_of_ok (.inl rfl) (hufCanon_ok h64 hk), completedOk (.hufCanon _ _), ?_⟩
  rw [complete_ok_eq]
  exact ⟨rfl, tableEntries_canonCodes s.code hl (fun l => le_of_largest_le h64) hk, toNat_ofNat_distinct hl,
    toNat_ofNat_of_le (h64.trans (by decide))⟩

/-- The Kraft sum of the symbols before `x`, over the entries of LEN. -/
theorem kraftBefore_tableEntries {w : Nat} (m : Memory w) {x : Nat} (hx : x < 256) : kraftBefore (tableEntries m) x =
    ((List.range 256).map fun y =>
      if 0 < (m.read y).toNat ∧ ((m.read y).toNat < (m.read x).toNat ∨ ((m.read y).toNat = (m.read x).toNat ∧ y < x))
      then 2 ^ (64 - (m.read y).toNat) else 0).sum := by
  refine congrArg List.sum (List.map_congr_left fun y hy => ?_)
  simp only [codedBefore, read_eq_getD (m := m) rfl hx, read_eq_getD (m := m) rfl (List.mem_range.1 hy)]

/-- What TABLE_VALID = 1 guarantees makes the tables a `PrefixCode`. -/
theorem State.TablesOk.prefixCode {s : State} (h : s.TablesOk) : PrefixCode (tableEntries s.len) (tableEntries s.code) := by
  rw [h.canon]
  exact prefixCode_canon (length_tableEntries _) h.len_le h.kraft

end Sys2Proof.Machine

/-- Settles O38: HUF_COUNT fills FREQ with the counts of the input, which sum to its length. -/
theorem hufCountCountsTheInput : Obligations.HufCountCountsTheInput := by
  unfold Obligations.HufCountCountsTheInput
  refine ⟨rfl, fun s => ⟨exec_badLength rfl, fun hn => ?_⟩⟩
  obtain ⟨t, hexec, hok, hfreq, hres0, hres1⟩ := exec_hufCount hn
  refine ⟨t, hexec, hok, fun x hx => ?_, ?_, ?_, hres1⟩
  · rw [read_eq_getD hfreq hx, List.getD_eq_getElem _ _ (by rwa [length_freqOf]), getElem_freqOf]
  · rw [← sum_tableEntries, hfreq, sum_freqOf, length_inputBytes]
  · rw [hres0, ← hfreq, distinct_tableEntries]

/-- Settles O39: no code is too long, so HUF_BUILD cannot fail; the lengths are the depths in the tree the merge order
gives. -/
theorem hufBuildWritesTheCodeLengths : Obligations.HufBuildWritesTheCodeLengths := by
  unfold Obligations.HufBuildWritesTheCodeLengths
  refine ⟨rfl, fun s => ?_⟩
  have hl := length_tableEntries s.freq
  have hs := sum_tableEntries_lt s.freq
  have hfreq : ∀ x, x < 256 → (s.freq.read x).toNat = (tableEntries s.freq).getD x 0 := fun x => read_eq_getD rfl
  obtain ⟨t, hexec, hok, hvalid, hcode, hlen, hres0, hres1⟩ := exec_hufBuild s
  refine ⟨t, hexec, hok, hvalid, hcode, fun x hx h0 => ?_, fun x h1 => ?_, fun h2 => ?_, hlen, ?_, ?_⟩
  · refine BitVec.eq_of_toNat_eq ?_
    rw [read_eq_getD hlen hx]
    exact (buildLens_getD_eq_zero_iff hl hs hx).2 ((hfreq x hx).symm.trans h0)
  · obtain ⟨hx, hf⟩ := mem_presentSymbols.1 (h1 ▸ List.mem_singleton_self x)
    have hd : distinct (tableEntries s.freq) = 1 := by rw [← length_presentSymbols, h1, List.length_singleton]
    refine BitVec.eq_of_toNat_eq ?_
    rw [read_eq_getD hlen hx]
    exact buildLens_getD_eq_one hl hs hd hx (by rwa [← hfreq x hx])
  · obtain ⟨root, hmerges, hbelow⟩ := mergesTo_codeLengths hl (fun i hi => getElem_tableEntries s.freq i hi) h2
    refine ⟨root, hmerges, fun x hmem => ?_⟩
    obtain ⟨hx, hf⟩ := mem_presentSymbols.1 hmem
    rw [read_eq_getD hlen hx, ← hbelow]
    exact mem_codeLengths hl hs hx (by rwa [← hfreq x hx])
  · rw [hres0, length_presentSymbols]
  · rw [hres1]
    exact largest_tableEntries t.len

/-- Settles O40: each clause is what `build()` guarantees of its lengths, read off the LEN table HUF_BUILD leaves. -/
theorem builtLengthsFormACompleteCode : Obligations.BuiltLengthsFormACompleteCode := by
  unfold Obligations.BuiltLengthsFormACompleteCode
  intro s t h
  have hl := length_tableEntries s.freq
  have hs := sum_tableEntries_lt s.freq
  obtain ⟨t', hexec, -, -, -, hlen, hres0, -⟩ := exec_hufBuild s
  obtain rfl : t = t' := by
    rw [hexec] at h
    cases h
    rfl
  obtain ⟨-, h57, -, hcomplete, -⟩ := buildLens_spec hl hs
  have hread : ∀ x, x < 256 → (t.len.read x).toNat ∈ buildLens (tableEntries s.freq) := fun x hx =>
    hlen ▸ mem_tableEntries.2 ⟨x, hx, rfl⟩
  refine ⟨fun x hx => ?_, fun h1 x hx hf => ?_, fun h2 => ?_, fun x hx => h57 _ (hread x hx)⟩
  · rw [read_eq_getD hlen hx, read_eq_getD (m := s.freq) rfl hx]
    exact buildLens_getD_eq_zero_iff hl hs hx
  · rw [read_eq_getD hlen hx]
    rw [read_eq_getD (m := s.freq) rfl hx] at hf
    exact buildLens_getD_eq_one hl hs (hres0.symm.trans h1) hx hf
  · rw [hres0] at h2 ⊢
    obtain ⟨hkraft, hle⟩ := hcomplete h2
    exact ⟨by rw [← kraftSum_tableEntries, hlen, hkraft], fun x hx => hle _ (hread x hx)⟩

/-- Settles O41: the two checks are those of the statement; past them the canonical codes fit CODE and stand where the Kraft
sums before them say. -/
theorem hufCanonAssignsTheCanonicalCode : Obligations.HufCanonAssignsTheCanonicalCode := by
  unfold Obligations.HufCanonAssignsTheCanonicalCode
  refine ⟨rfl, fun s => ?_⟩
  obtain ⟨hle, hmem⟩ := largest_tableEntries s.len
  refine ⟨fun ⟨x, hx, h64⟩ => ?_, fun hk => ?_, fun h64 hk => ?_⟩
  · exact exec_of_errA (.inl rfl) (hufCanon_tooLong (h64.trans_le (hle x hx)))
  · exact exec_of_errA (.inl rfl) (hufCanon_kraft (by rwa [kraftSum_tableEntries]))
  · have hlargest : largest (tableEntries s.len) ≤ 64 := by
      rcases hmem with h0 | ⟨x, hx, hlen⟩
      · omega
      · exact hlen ▸ h64 x hx
    obtain ⟨t, hexec, hok, hvalid, hcode, hres0, hres1⟩ :=
      exec_hufCanon hlargest ((kraftSum_tableEntries s.len).trans_le hk)
    refine ⟨t, hexec, hok, hvalid, hcode, ?_, ?_, ?_, fun x hx => ?_⟩
    · rw [hres0, distinct_tableEntries]
    · rwa [hres1]
    · rwa [hres1]
    · obtain ⟨hzero, hpos⟩ := canonCodes_spec (length_tableEntries s.len) (fun l => le_of_largest_le hlargest) hx
      rw [← kraftBefore_tableEntries s.len hx]
      rw [← read_eq_getD rfl hx, ← read_eq_getD hcode hx] at hzero hpos
      exact ⟨fun h0 => BitVec.eq_of_toNat_eq (hzero h0), hpos⟩

/-- Settles O42: the invariant makes the tables canonical for lengths that meet the Kraft inequality, and such a code is a
`PrefixCode`. -/
theorem validTablesArePrefixFree : Obligations.ValidTablesArePrefixFree := by
  unfold Obligations.ValidTablesArePrefixFree
  intro s hinv hvalid x hx
  have hprefix := (hinv.tables hvalid).prefixCode
  refine ⟨?_, fun y hy => ?_⟩
  · rw [read_eq_getD (m := s.code) rfl hx, read_eq_getD (m := s.len) rfl hx]
    exact hprefix.code_lt x hx
  · rw [read_eq_getD (m := s.code) rfl hx, read_eq_getD (m := s.len) rfl hx, read_eq_getD (m := s.code) rfl hy,
      read_eq_getD (m := s.len) rfl hy]
    exact hprefix.prefix_free x y hx hy

end

section
/-!
The symbol encoder and decoder: the outcome of HUF_ENCODE's and HUF_DECODE's own rules, check by check, on every input
(42_huffman.md R208 to R213).
-/

open Sys2Proof Sys2Proof.Machine

namespace Sys2Proof.Machine

/-! ## How a rule that writes OBUF or fails ends -/

theorem exec_of_errB {i : Instr} {s : State} {c : ErrorCode} (hn : readsSrcLen i = false ∨ s.n ≤ s.params.ibufBytes)
    (h : bodyOf i s = .errB c) : ∃ t, exec i s = .next t ∧ State.FailedClassB i c s t :=
  ⟨_, by rw [exec_eq, runCommand_body _ hn, h], failedClassB i s c⟩

theorem obufBytes_le {s : State} (hl : s.params.legal) : s.params.obufBytes ≤ 2 ^ 20 := by
  obtain ⟨-, -, -, hcap, -⟩ := hl
  exact hcap

theorem ibufBytes_le {s : State} (hl : s.params.legal) : s.params.ibufBytes ≤ 2 ^ 20 := by
  obtain ⟨-, hcap, -⟩ := hl
  exact hcap

/-- A rule that left OBUF and BS_WBITS as its writer did has appended the writer's bits, whatever else it wrote. -/
theorem appended_of_left {i : Instr} {s t : State} {bits : List Bool} {w : Writer} (hl : s.params.legal)
    (hi : (writeSet i).obuf = true) (h : Writer.Wrote s.params.obufBytes bits s.writer w) (ho : t.obuf = w.mem)
    (hb : t.bsWbits = BitVec.ofNat 32 w.pos) : State.Appended bits s (complete i s (.ok t)) := by
  have hcap := obufBytes_le hl
  have hfits := h.fits
  have hpos : t.wpos = w.pos := by rw [State.wpos, hb, toNat_ofNat_of_le (by omega)]
  rw [complete_ok_eq, hi, hpos]
  exact appended_of_wrote hl h ho hb rfl

/-! ## HUF_ENCODE (42_huffman.md R209) -/

theorem exists_mem_inputBytes (s : State) (p : Byte → Prop) :
    (∃ i ∈ List.range s.n, p (byteAt s.inputArray i)) ↔ ∃ b ∈ s.inputBytes, p b := by
  rw [← slice_input]
  simp [slice]

theorem encodedBits_input (s : State) (lens codes : List Nat) :
    encodedBits lens (byteAt s.inputArray) s.n = (codeBits lens codes s.inputBytes).length := by
  rw [encodedBits_eq lens codes, slice_input]

theorem hufEncode_noTable {s : State} (hv : s.tableValid = false) : hufEncode s = .errA .noCodeTable := if_pos hv

theorem hufEncode_unencodable {s : State} (hv : s.tableValid = true)
    (hx : ∃ b ∈ s.inputBytes, entry (tableEntries s.len) b = 0) : hufEncode s = .errA .unencodableSymbol :=
  (if_neg (by simp [hv])).trans (if_pos ((exists_mem_inputBytes s (entry (tableEntries s.len) · = 0)).2 hx))

section
variable {s : State} (hv : s.tableValid = true) (hx : ∀ b ∈ s.inputBytes, 0 < entry (tableEntries s.len) b)
include hv hx

/-- HUF_ENCODE past its checks of the table and the input. -/
theorem hufEncode_coded : hufEncode s =
    if 8 * s.params.obufBytes < s.wpos + (codeBits (tableEntries s.len) (tableEntries s.code) s.inputBytes).length then
      .errA .outputOverflow
    else .ofBody (encodeFrom s.params.obufBytes (tableEntries s.len) (tableEntries s.code) (byteAt s.inputArray) s.n 0
      s.writer >>= fun w => .ok ((s.setWriter w).setRes (w.pos - s.wpos) 0)) := by
  rw [← encodedBits_input]
  refine (if_neg (by simp [hv])).trans (if_neg fun h => ?_)
  obtain ⟨b, hb, h0⟩ := (exists_mem_inputBytes s (entry (tableEntries s.len) · = 0)).1 h
  exact absurd h0 (Nat.ne_of_gt (hx b hb))

theorem hufEncode_overflow (hw : 8 * s.params.obufBytes <
      s.wpos + (codeBits (tableEntries s.len) (tableEntries s.code) s.inputBytes).length) :
    hufEncode s = .errA .outputOverflow := by
  rw [hufEncode_coded hv hx, if_pos hw]

/-- Past the checks the writer has room for the codes, so HUF_ENCODE cannot fail. -/
theorem hufEncode_ok (hw : s.wpos + (codeBits (tableEntries s.len) (tableEntries s.code) s.inputBytes).length ≤
      8 * s.params.obufBytes) :
    ∃ w, hufEncode s = .ok ((s.setWriter w).setRes
        (codeBits (tableEntries s.len) (tableEntries s.code) s.inputBytes).length 0) ∧
      Writer.Wrote s.params.obufBytes (codeBits (tableEntries s.len) (tableEntries s.code) s.inputBytes) s.writer w := by
  have emits := emits_encodeFrom s.params.obufBytes (tableEntries s.len) (tableEntries s.code) (byteAt s.inputArray) s.n 0
    s.writer (Nat.le_of_add_right_le hw)
  rw [slice_input] at emits
  obtain ⟨w, hok, hwrote⟩ := emits.1 hw
  refine ⟨w, ?_, hwrote⟩
  have hbits : w.pos - s.wpos = (codeBits (tableEntries s.len) (tableEntries s.code) s.inputBytes).length :=
    Nat.sub_eq_of_eq_add' hwrote.pos
  rw [hufEncode_coded hv hx, if_neg (Nat.not_lt.2 hw), hok, ← hbits]
  rfl

end

/-! ## HUF_DECODE (42_huffman.md R213) -/

/-- The longest code is longer than `m` exactly if some code is. -/
theorem lt_largest_iff {lens : List Nat} (hl : lens.length = 256) {m : Nat} :
    m < largest lens ↔ ∃ b : Byte, m < entry lens b := by
  constructor
  · intro h
    rcases largest_mem lens with h0 | hmem
    · omega
    · obtain ⟨x, hx, hlen⟩ := List.getElem_of_mem hmem
      refine ⟨BitVec.ofNat 8 x, ?_⟩
      rw [entry, BitVec.toNat_ofNat, Nat.mod_eq_of_lt (by omega), List.getD_eq_getElem _ _ hx, hlen]
      exact h
  · rintro ⟨b, hb⟩
    exact hb.trans_le (le_largest (getD_mem hl b.isLt))

/-- The stream of the latched input is the stream of IBUF as far as there are bits at all. -/
theorem streamBits_input {s : State} {p k : Nat} (h : k = 0 ∨ p + k ≤ 8 * s.n) :
    streamBits (byteAt s.inputArray) p k = streamBits s.ibuf.read p k := by
  rcases h with rfl | h
  · rfl
  · exact streamBits_inputArray h

theorem hufDecode_noTable {s : State} (hv : s.tableValid = false) : hufDecode s = .errA .noCodeTable := if_pos hv

theorem hufDecode_eq {s : State} (hv : s.tableValid = true) : hufDecode s =
    .ofBody (decodeLoop s.params.obufBytes (codeTable 0 (tableEntries s.len) (tableEntries s.code))
      (largest (tableEntries s.len)) (byteAt s.inputArray) s.n s.a0 s.rpos s.writer >>= fun x =>
        .ok (((s.setWriter x.2).setRpos x.1).setRes (x.1 - s.rpos) 0)) :=
  if_neg (by simp [hv])

section
variable {s : State} {xs : List Byte} {bits : List Bool} (hinv : s.Inv) (hv : s.tableValid = true)
  (hx : ∀ b ∈ xs, 0 < entry (tableEntries s.len) b) (hbits : codeBits (tableEntries s.len) (tableEntries s.code) xs = bits)
  (hr : xs = [] ∨ s.rpos + bits.length ≤ 8 * s.n) (hb : streamBits s.ibuf.read s.rpos bits.length = bits)
include hinv hv hx hbits hr hb

/-- Codes that do not fit OBUF end the decoder before it reads past them. -/
theorem hufDecode_overflow (hN : xs.length ≤ s.a0) (hw : 8 * s.params.obufBytes < s.wpos + 8 * xs.length) :
    hufDecode s = .errB .outputOverflow := by
  subst hbits
  have hinside := hinv.writer.inside
  have hr' := hr.resolve_left fun hnil => by
    rw [hnil, List.length_nil] at hw
    omega
  rw [← streamBits_inputArray hr'] at hb
  rw [hufDecode_eq hv, decodeLoop_overflow (hinv.tables hv).prefixCode hx hN hinside hw hr' hb]
  rfl

/-- Where as many codes stand as were asked for, the decoder appends their bytes and takes exactly these codes. -/
theorem hufDecode_ok (hN : xs.length = s.a0) (hw : s.wpos + 8 * xs.length ≤ 8 * s.params.obufBytes) :
    ∃ w, hufDecode s = .ok (((s.setWriter w).setRpos (s.rpos + bits.length)).setRes bits.length 0) ∧
      Writer.Wrote s.params.obufBytes (bytesBits xs) s.writer w := by
  subst hbits
  have emits : Emits s.params.obufBytes (decodeLoop s.params.obufBytes
      (codeTable 0 (tableEntries s.len) (tableEntries s.code)) (largest (tableEntries s.len)) (byteAt s.inputArray) s.n
      xs.length s.rpos s.writer) (bytesBits xs) s.writer
      fun w => (s.rpos + (codeBits (tableEntries s.len) (tableEntries s.code) xs).length, w) := by
    rcases hr with rfl | hr
    · exact .nil rfl
    · rw [← streamBits_inputArray hr] at hb
      exact emits_decodeLoop (hinv.tables hv).prefixCode hx hr hb
  obtain ⟨w, hok, hwrote⟩ := (emits hinv.writer.inside).1 (by rwa [length_bytesBits])
  refine ⟨w, ?_, hwrote⟩
  rw [hufDecode_eq hv, ← hN, hok]
  exact congrArg (fun k => CmdOutcome.ok (((s.setWriter w).setRpos _).setRes k 0)) (Nat.add_sub_cancel_left ..)

/-- Where no code begins what is left, the decoder fails: the longest code tells whether bits are missing. -/
theorem hufDecode_none (hN : xs.length < s.a0) (hw : s.wpos + 8 * xs.length ≤ 8 * s.params.obufBytes)
    (hc : noCodeBegins (tableEntries s.len) (tableEntries s.code)
      (streamBits s.ibuf.read (s.rpos + bits.length) (8 * s.n - (s.rpos + bits.length)))) :
    hufDecode s = .errB (if 8 * s.n - (s.rpos + bits.length) < largest (tableEntries s.len) then .truncatedStream
      else .corruptStream) := by
  subst hbits
  rw [← streamBits_input (by omega)] at hc
  rw [← streamBits_input (hr.imp_left (by rintro rfl; rfl))] at hb
  rw [hufDecode_eq hv, decodeLoop_none (hinv.tables hv).prefixCode hx hN hw hr hb hc]
  rfl

end

end Sys2Proof.Machine

/-- Settles O43: past the checks the writer has room for the codes of the input, and they are all HUF_ENCODE appends. -/
theorem hufEncodeAppendsTheCodes : Obligations.HufEncodeAppendsTheCodes := by
  unfold Obligations.HufEncodeAppendsTheCodes
  refine ⟨rfl, fun s => exec_badLength rfl, fun s hl hn => ⟨fun hv => ?_, fun hv hx => ?_, fun hv hx hw => ?_,
    fun hv hx hw => ?_⟩⟩
  · exact exec_of_errA (.inr hn) (hufEncode_noTable hv)
  · exact exec_of_errA (.inr hn) (hufEncode_unencodable hv hx)
  · exact exec_of_errA (.inr hn) (hufEncode_overflow hv hx hw)
  · obtain ⟨w, hok, hwrote⟩ := hufEncode_ok hv hx hw
    refine ⟨_, exec_of_ok (.inr hn) hok, completedOk (.hufEncode w _), appended_of_left hl rfl hwrote rfl rfl, ?_⟩
    have hcap := obufBytes_le hl
    rw [complete_ok_eq]
    exact ⟨toNat_ofNat_of_le (by omega), rfl⟩

/-- Settles O44: with a valid table the codes form a `PrefixCode`, so the decoder's loop follows `xs` symbol by symbol and
its end is decided by the room in OBUF and by what stands behind the codes. -/
theorem hufDecodeInvertsTheEncoder : Obligations.HufDecodeInvertsTheEncoder := by
  unfold Obligations.HufDecodeInvertsTheEncoder
  refine ⟨rfl, fun s => exec_badLength rfl, fun s hinv hn => ⟨fun hv => ?_, fun xs hv hN hx => ?_⟩⟩
  · exact exec_of_errA (.inr hn) (hufDecode_noTable hv)
  intro bits rest hr hb
  refine ⟨fun hw => ?_, fun hw hlen => ?_, fun hw hlen hc => ?_⟩
  · exact exec_of_errB (.inr hn) (hufDecode_overflow hinv hv hx rfl hr hb hN hw)
  · obtain ⟨w, hok, hwrote⟩ := hufDecode_ok hinv hv hx rfl hr hb hlen hw
    refine ⟨_, exec_of_ok (.inr hn) hok, completedOk (.hufDecode w _ _), appended_of_left hinv.legal rfl hwrote rfl rfl, ?_⟩
    have hcap := ibufBytes_le hinv.legal
    have hrpos : s.rpos < 2 ^ 32 := s.bsRpos.isLt
    have hbits : bits.length ≤ 2 ^ 23 ∧ s.rpos + bits.length < 2 ^ 32 := by
      rcases hr with rfl | hr
      · exact ⟨Nat.zero_le _, hrpos⟩
      · omega
    rw [complete_ok_eq]
    exact ⟨(BitVec.toNat_ofNat ..).trans (Nat.mod_eq_of_lt hbits.2), toNat_ofNat_of_le hbits.1, rfl⟩
  · have hfail := hufDecode_none hinv hv hx rfl hr hb hlen hw hc
    have hlens := length_tableEntries s.len
    have hrest : rest.length = 8 * s.n - (s.rpos + bits.length) := length_streamBits ..
    rw [hrest]
    refine ⟨fun hlong => ?_, fun hshort => ?_⟩
    · rw [if_pos ((lt_largest_iff hlens).2 hlong)] at hfail
      exact exec_of_errB (.inr hn) hfail
    · rw [if_neg (mt (lt_largest_iff hlens).1 fun ⟨b, hb⟩ => Nat.not_lt.2 (hshort b) hb)] at hfail
      exact exec_of_errB (.inr hn) hfail

end

section
/-!
The Huffman codec: HUF_COMPRESS writes the container of its input, HUF_DECOMPRESS reads it back or reports the first check
that fails, and the one undoes the other (42_huffman.md R220 to R228). No command reports CODE_TOO_LONG (R197).
-/

open Sys2Proof Sys2Proof.Machine

namespace Sys2Proof.Machine

/-! ## What a Huffman codec command leaves -/

/-- The state the rule of a Huffman codec command leaves: the tables of `freq`, the writer `w`, the read cursor `r` and the
results `a` and `b` (42_huffman.md R220, R225). -/
def State.hufLeft (s : State) (freq : List Nat) (w : Writer) (r a b : Nat) : State :=
  (((((((s.setFreq freq).setLen (buildLens freq)).setCode (canonCodes (buildLens freq))).setTableValid true).touchArena).setWriter
    w).setRpos r).setRes a b

theorem left_hufLeft {i : Instr} (hi : i = .hufCompress ∨ i = .hufDecompress) (s : State) (freq : List Nat) (w : Writer)
    (r a b : Nat) : Left s i (s.hufLeft freq w r a b) :=
  .huffman i freq (buildLens freq) w r a b hi

theorem buildLens_le {freq : List Nat} (hl : freq.length = 256) (hs : freq.sum < 2 ^ 40) : ∀ l ∈ buildLens freq, l ≤ 64 :=
  fun _ => le_of_largest_le ((largest_build_le hl hs).trans (by decide))

/-- The tables hold `freq`, its lengths and their canonical codes: every entry fits. -/
theorem hufLeft_tables {freq : List Nat} (hl : freq.length = 256) (hs : freq.sum < 2 ^ 32) (i : Instr) (s : State)
    (w : Writer) (r a b : Nat) :
    (complete i s (.ok (s.hufLeft freq w r a b))).tableValid = true ∧
    tableEntries (complete i s (.ok (s.hufLeft freq w r a b))).freq = freq ∧
    tableEntries (complete i s (.ok (s.hufLeft freq w r a b))).len = buildLens freq ∧
    tableEntries (complete i s (.ok (s.hufLeft freq w r a b))).code = canonCodes (buildLens freq) := by
  have hs' : freq.sum < 2 ^ 40 := hs.trans (by decide)
  obtain ⟨-, -, -, -, hkraft⟩ := buildLens_spec hl hs'
  rw [complete_ok_eq]
  exact ⟨rfl, tableEntries_fill_of_lt s.freq freq hl fun f hf => (mem_le_sum hf).trans_lt hs,
    tableEntries_buildLens s.len hl hs' (by decide),
    tableEntries_canonCodes s.code (length_buildLens freq) (buildLens_le hl hs') hkraft⟩

/-- A completed codec command's output is its writer's. -/
theorem hufLeft_writer {i : Instr} (hi : (writeSet i).obuf = true) (s : State) (freq : List Nat) {w : Writer}
    (hw : w.pos ≤ 2 ^ 23) (r a b : Nat) :
    (complete i s (.ok (s.hufLeft freq w r a b))).obuf = w.mem ∧
    (complete i s (.ok (s.hufLeft freq w r a b))).wpos = w.pos ∧
    (complete i s (.ok (s.hufLeft freq w r a b))).dstLen.toNat = ceil8 w.pos := by
  have hpos : (s.hufLeft freq w r a b).wpos = w.pos := toNat_ofNat_of_le hw
  rw [complete_ok_eq, hi, hpos]
  exact ⟨rfl, hpos, toNat_ofNat_of_le (by unfold ceil8; omega)⟩

theorem hufLeft_results (i : Instr) (s : State) (freq : List Nat) (w : Writer) (r a b : Nat) :
    (complete i s (.ok (s.hufLeft freq w r a b))).bsRpos = BitVec.ofNat 32 r ∧
    (complete i s (.ok (s.hufLeft freq w r a b))).res0 = BitVec.ofNat 32 a ∧
    (complete i s (.ok (s.hufLeft freq w r a b))).res1 = BitVec.ofNat 32 b := by
  rw [complete_ok_eq]
  exact ⟨rfl, rfl, rfl⟩

/-- The check that follows `build()` in both codec commands cannot fire (42_huffman.md R197). -/
theorem not_codeTooLong {freq : List Nat} (hl : freq.length = 256) (hs : freq.sum < 2 ^ 40) :
    ¬Config.codeBits < largest (buildLens freq) :=
  Nat.not_lt.2 ((largest_build_le hl hs).trans (by decide))

/-! ## HUF_COMPRESS (42_huffman.md R220) -/

theorem sum_freqOf_input_lt (s : State) : (freqOf s.inputBytes).sum < 2 ^ 32 := by
  rw [sum_freqOf, length_inputBytes]
  exact s.n_lt

/-- The bits of the header of `xs`. -/
def hufHeaderBits (xs : List Byte) : List Bool := bytesBits (hufHeader (presentFrom 0 (freqOf xs)) xs.length)

theorem length_hufHeaderBits (xs : List Byte) : (hufHeaderBits xs).length = 8 * (7 + 5 * distinct (freqOf xs)) := by
  rw [hufHeaderBits, length_bytesBits, length_hufHeader, length_presentFrom]

theorem hufContainerBits_eq (xs : List Byte) : hufContainerBits xs = hufHeaderBits xs ++ hufPayloadBits xs ++
    List.replicate (8 * ceil8 (hufPayloadBits xs).length - (hufPayloadBits xs).length) false := rfl

/-- The container is header and payload, filled up to a whole byte. -/
theorem length_hufContainerBits (xs : List Byte) :
    (hufContainerBits xs).length = 8 * ceil8 (hufHeaderBits xs ++ hufPayloadBits xs).length := by
  rw [hufContainerBits_eq, List.length_append, List.length_replicate, List.length_append, length_hufHeaderBits]
  simp only [ceil8]
  omega

/-- HUF_COMPRESS without the check that cannot fire. -/
theorem hufCompress_eq (s : State) : hufCompress s = .ofBody (
    writeBits s.params.obufBytes Config.tagH.toNat 8 s.freshWriter >>= fun w =>
    writeBits s.params.obufBytes (distinct (freqOf s.inputBytes)) 16 w >>= fun w =>
    writeBits s.params.obufBytes s.n 32 w >>= fun w =>
    writeEntries s.params.obufBytes (presentFrom 0 (freqOf s.inputBytes)) w >>= fun w =>
    encodePayload s.params.obufBytes (buildLens (freqOf s.inputBytes)) (canonCodes (buildLens (freqOf s.inputBytes)))
      (byteAt s.inputArray) s.n (distinct (freqOf s.inputBytes)) w >>= fun w' =>
    .ok (s.hufLeft (freqOf s.inputBytes) w'.flush 0 (distinct (freqOf s.inputBytes)) (w'.pos - w.pos))) := by
  have hcheck := not_codeTooLong (length_freqOf s.inputBytes) ((sum_freqOf_input_lt s).trans (by decide))
  simp only [hufCompress, countFreq_eq, slice_input, if_neg hcheck]
  rfl

/-- HUF_COMPRESS appends header and payload to an empty OBUF, or fails for want of room. -/
theorem emits_hufCompress (s : State) : ∃ x, hufCompress s = .ofBody x ∧
    Emits s.params.obufBytes x (hufHeaderBits s.inputBytes ++ hufPayloadBits s.inputBytes) s.freshWriter fun w =>
      s.hufLeft (freqOf s.inputBytes) w.flush 0 (distinct (freqOf s.inputBytes)) (hufPayloadBits s.inputBytes).length := by
  refine ⟨_, hufCompress_eq s, ?_⟩
  rw [hufHeaderBits, bytesBits_hufHeader, length_presentFrom, length_inputBytes, ← List.append_nil (hufPayloadBits _)]
  simp only [List.append_assoc]
  refine (emits_writeBits _ _ _ _).bind fun w₁ _ => (emits_writeBits _ _ _ _).bind fun w₂ _ =>
    (emits_writeBits _ _ _ _).bind fun w₃ _ => (emits_writeEntries _ _ _).bind fun w₄ _ =>
    (emits_encodePayload _ (slice_input s) _).bind fun w₅ hpayload => .nil ?_
  rw [List.append_nil]
  exact congrArg (fun p => Except.ok (s.hufLeft _ _ 0 _ p)) (Nat.sub_eq_of_eq_add' hpayload.pos)

/-- The container fits OBUF exactly if header and payload do: OBUF ends at a byte boundary. -/
theorem container_fits_iff (xs : List Byte) (cap : Nat) :
    (hufContainerBits xs).length ≤ 8 * cap ↔ (hufHeaderBits xs ++ hufPayloadBits xs).length ≤ 8 * cap := by
  rw [length_hufContainerBits]
  simp only [ceil8]
  omega

theorem hufCompress_ok {s : State} (h : (hufContainerBits s.inputBytes).length ≤ 8 * s.params.obufBytes) :
    ∃ w, hufCompress s = .ok (s.hufLeft (freqOf s.inputBytes) w.flush 0 (distinct (freqOf s.inputBytes))
        (hufPayloadBits s.inputBytes).length) ∧
      Writer.Wrote s.params.obufBytes (hufHeaderBits s.inputBytes ++ hufPayloadBits s.inputBytes) s.freshWriter w := by
  obtain ⟨x, hx, emits⟩ := emits_hufCompress s
  obtain ⟨w, hok, hwrote⟩ := (emits (fresh_fits s)).1 ((Nat.zero_add _).trans_le ((container_fits_iff _ _).1 h))
  exact ⟨w, by rw [hx, hok]; rfl, hwrote⟩

theorem hufCompress_overflow {s : State} (h : 8 * s.params.obufBytes < (hufContainerBits s.inputBytes).length) :
    hufCompress s = .errB .outputOverflow := by
  obtain ⟨x, hx, emits⟩ := emits_hufCompress s
  have hlong := mt (container_fits_iff _ _).2 (Nat.not_le.2 h)
  rw [hx, (emits (fresh_fits s)).2 ((Nat.not_le.1 hlong).trans_eq (Nat.zero_add _).symm)]
  rfl

/-- The whole bytes that hold header and payload, the padding bits 0, are the container. -/
theorem Writer.Wrote.container {cap : Nat} {xs : List Byte} {w₀ w : Writer} (h₀ : w₀.pos = 0)
    (h : Writer.Wrote cap (hufHeaderBits xs ++ hufPayloadBits xs) w₀ w) :
    bytesBits ((List.range (ceil8 w.pos)).map w.mem.read) = hufContainerBits xs := by
  have hbytes := streamBits_bytes w.mem.read 0 (ceil8 w.pos)
  have hpos : w.pos = 8 * (7 + 5 * distinct (freqOf xs)) + (hufPayloadBits xs).length := by
    rw [h.pos, h₀, Nat.zero_add, List.length_append, length_hufHeaderBits]
  have hpad : 8 * ceil8 w.pos - (hufHeaderBits xs ++ hufPayloadBits xs).length =
      8 * ceil8 (hufPayloadBits xs).length - (hufPayloadBits xs).length := by
    rw [hpos, List.length_append, length_hufHeaderBits]
    simp only [ceil8]
    omega
  simp only [Nat.zero_add, Nat.mul_zero] at hbytes
  rw [← hbytes, h.flushed h₀, hpad, hufContainerBits_eq]

/-! ## HUF_DECOMPRESS: the checks of the header (42_huffman.md R225) -/

theorem length_headerTable (rd : Nat → Byte) (k : Nat) : (headerTable rd k).length = 256 := by
  simp [headerTable, Config.nsym]

/-- Checks 1 to 6 all raise the same code, so a header that fails any of them is refused with it. -/
theorem hufDecompress_corruptHeader {s : State} (h : ¬HufHeaderOk s.ibuf.read s.n) :
    hufDecompress s = .errA .corruptHeader := by
  refine ite_eq_left_iff.2 fun h7 => ite_eq_left_iff.2 fun htag => ite_eq_left_iff.2 fun hk => ite_eq_left_iff.2 fun hn =>
    ite_eq_left_iff.2 fun hentries => ite_eq_left_iff.2 fun hsum => absurd ((hufHeaderOk_iff s).2 ?_) h
  exact ⟨Nat.not_lt.1 h7, not_not.1 htag, Nat.not_lt.1 hk, Nat.not_lt.1 hn,
    fun j hj => not_not.1 fun hbad => hentries ⟨j, hj, hbad⟩, not_not.1 hsum⟩

/-- HUF_DECOMPRESS behind a header that passes checks 1 to 6, without the check that cannot fire. -/
theorem hufDecompress_headerOk {s : State} (h : HufHeaderOk s.ibuf.read s.n) : hufDecompress s =
    if s.params.obufBytes < bigEndian s.ibuf.read 3 4 then .errA .outputOverflow
    else if bigEndian s.ibuf.read 1 2 = 0 ∧ s.n ≠ 7 then .errA .corruptStream
    else if bigEndian s.ibuf.read 1 2 = 1 ∧ s.n ≠ 12 then .errA .corruptStream
    else .ofBody (
      hufPayload s.params.obufBytes (buildLens (headerTable (byteAt s.inputArray) (bigEndian s.ibuf.read 1 2)))
        (canonCodes (buildLens (headerTable (byteAt s.inputArray) (bigEndian s.ibuf.read 1 2)))) (byteAt s.inputArray) s.n
        (bigEndian s.ibuf.read 1 2) (bigEndian s.ibuf.read 3 4) s.freshWriter >>= fun x =>
      .ok (s.hufLeft (headerTable (byteAt s.inputArray) (bigEndian s.ibuf.read 1 2)) x.2.1.flush x.1
        (bigEndian s.ibuf.read 1 2) x.2.2)) := by
  obtain ⟨h7, htag, hk, hn, hentries, hsum⟩ := (hufHeaderOk_iff s).1 h
  rw [← bigEndian_byteAt s (show 1 + 2 ≤ s.n by omega), ← bigEndian_byteAt s (show 3 + 4 ≤ s.n by omega)]
  have hcheck := not_codeTooLong (length_headerTable (byteAt s.inputArray) (bigEndian (byteAt s.inputArray) 1 2))
    (sum_headerTable_lt _ _)
  have hnone : ¬∃ j ∈ List.range (bigEndian (byteAt s.inputArray) 1 2), ¬headerEntryOk (byteAt s.inputArray) j :=
    fun ⟨j, hj, hbad⟩ => hbad (hentries j hj)
  simp only [hufDecompress]
  rw [if_neg (Nat.not_lt.2 h7), if_neg (not_not.2 htag), if_neg (Nat.not_lt.2 hk), if_neg (Nat.not_lt.2 hn), if_neg hnone,
    if_neg (not_not.2 hsum), if_neg hcheck]
  rfl

theorem hufDecompress_overflow {s : State} (h : HufHeaderOk s.ibuf.read s.n)
    (hcap : s.params.obufBytes < bigEndian s.ibuf.read 3 4) : hufDecompress s = .errA .outputOverflow := by
  rw [hufDecompress_headerOk h, if_pos hcap]

/-- Check 8: an empty or one-symbol container has nothing behind its header. -/
theorem hufDecompress_corruptStream {s : State} (h : HufHeaderOk s.ibuf.read s.n)
    (hcap : bigEndian s.ibuf.read 3 4 ≤ s.params.obufBytes)
    (h8 : (bigEndian s.ibuf.read 1 2 = 0 ∧ s.n ≠ 7) ∨ (bigEndian s.ibuf.read 1 2 = 1 ∧ s.n ≠ 12)) :
    hufDecompress s = .errA .corruptStream := by
  rw [hufDecompress_headerOk h, if_neg (Nat.not_lt.2 hcap)]
  rcases h8 with h0 | h1
  · rw [if_pos h0]
  · rw [if_neg (fun h0 => by omega), if_pos h1]

/-! ## HUF_DECOMPRESS: behind the header of a frequency table -/

/-- What the input tells HUF_DECOMPRESS when it begins with the header of `freq` and goes on with `payload`. -/
structure State.Behind (s : State) (freq : List Nat) (payload : List Byte) : Prop where
  header : HufHeaderOk s.ibuf.read s.n
  count  : bigEndian s.ibuf.read 1 2 = distinct freq
  total  : bigEndian s.ibuf.read 3 4 = freq.sum
  table  : headerTable (byteAt s.inputArray) (distinct freq) = freq
  symbol : ∀ (j : Nat) (hj : j < (presentFrom 0 freq).length),
    headerSymbol (byteAt s.inputArray) j = (presentFrom 0 freq)[j].1
  length : s.n = 7 + 5 * distinct freq + payload.length
  stream : streamBits (byteAt s.inputArray) (8 * (7 + 5 * distinct freq)) (8 * payload.length) = bytesBits payload

/-- The entries of a header fit their bytes (30_encoding.md R111). -/
theorem presentFrom_fits {freq : List Nat} (hl : freq.length = 256) (hs : freq.sum < 2 ^ 32) :
    ∀ p ∈ presentFrom 0 freq, p.1 < 256 ∧ p.2 < 2 ^ 32 := by
  intro p hp
  obtain ⟨-, hget, -⟩ := presentFrom_mem.1 hp
  obtain ⟨hlt, hval⟩ := List.getElem?_eq_some_iff.1 hget
  exact ⟨by omega, (mem_le_sum (hval ▸ List.getElem_mem hlt)).trans_lt hs⟩

theorem behind_of_input {s : State} {freq : List Nat} {payload : List Byte} (hl : freq.length = 256) (hs : freq.sum < 2 ^ 32)
    (h : s.inputBytes = hufHeader (presentFrom 0 freq) freq.sum ++ payload) : s.Behind freq payload := by
  have hk := length_presentFrom 0 freq
  have hk256 := distinct_le hl
  have hlen : s.n = 7 + 5 * distinct freq + payload.length := by
    rw [← length_inputBytes, h, List.length_append, length_hufHeader, hk]
  have hslice : slice (byteAt s.inputArray) 0 (hufHeader (presentFrom 0 freq) freq.sum ++ payload).length =
      hufHeader (presentFrom 0 freq) freq.sum ++ payload := by
    rw [← h, length_inputBytes, slice_input]
  obtain ⟨hheader, hpayload⟩ := slice_append hslice
  rw [length_hufHeader] at hheader hpayload
  obtain ⟨htag, hcount, htotal, hentry⟩ := header_read hheader (hk ▸ hk256) hs (presentFrom_fits hl hs)
  obtain ⟨htable, hok, hsum⟩ := headerTable_read hl hentry
  rw [hk] at hcount htable hok hsum hpayload
  have hstream := streamBits_bytes (byteAt s.inputArray) (7 + 5 * distinct freq) payload.length
  refine ⟨(hufHeaderOk_iff s).2 ?_, ?_, ?_, htable, fun j hj => (hentry j hj).1, hlen, ?_⟩
  · rw [hcount, htotal]
    exact ⟨by omega, htag, hk256, by omega, hok, hsum⟩
  · rw [← bigEndian_byteAt s (by omega), hcount]
  · rw [← bigEndian_byteAt s (by omega), htotal]
  · rw [hstream]
    rw [Nat.zero_add] at hpayload
    exact congrArg bytesBits hpayload

section
variable {s : State} {freq : List Nat} {payload : List Byte} (h : s.Behind freq payload)
  (hcap : freq.sum ≤ s.params.obufBytes)
include h hcap

/-- HUF_DECOMPRESS past all its checks. -/
theorem hufDecompress_behind (h8 : distinct freq ≤ 1 → payload = []) : hufDecompress s = .ofBody (
    hufPayload s.params.obufBytes (buildLens freq) (canonCodes (buildLens freq)) (byteAt s.inputArray) s.n (distinct freq)
      freq.sum s.freshWriter >>= fun x => .ok (s.hufLeft freq x.2.1.flush x.1 (distinct freq) x.2.2)) := by
  have hlen := h.length
  have hpayload : distinct freq ≤ 1 → payload.length = 0 := fun hd => congrArg List.length (h8 hd)
  rw [hufDecompress_headerOk h.header, h.count, h.total, h.table, if_neg (Nat.not_lt.2 hcap), if_neg (by omega),
    if_neg (by omega)]

/-- HUF_DECOMPRESS ends as its payload part does: with the bytes it wrote and the tables of the header. -/
theorem exec_hufDecompress_ok (hs : s.params.legal) (hn : s.n ≤ s.params.ibufBytes) (hl : freq.length = 256)
    (h8 : distinct freq ≤ 1 → payload = []) {xs : List Byte} {w : Writer} {p : Nat}
    (hp : 8 * (7 + 5 * distinct freq) + p ≤ 8 * s.n)
    (hok : hufPayload s.params.obufBytes (buildLens freq) (canonCodes (buildLens freq)) (byteAt s.inputArray) s.n
      (distinct freq) freq.sum s.freshWriter = .ok (8 * (7 + 5 * distinct freq) + p, w, p))
    (hwrote : Writer.Wrote s.params.obufBytes (bytesBits xs) s.freshWriter w) :
    ∃ t, exec .hufDecompress s = .next t ∧ State.CompletedOk .hufDecompress s t ∧ State.Produced xs s t ∧
      t.tableValid = true ∧ tableEntries t.freq = freq ∧ tableEntries t.len = buildLens freq ∧
      tableEntries t.code = canonCodes (buildLens freq) ∧ t.res0.toNat = distinct freq ∧ t.res1.toNat = p ∧
      t.rpos = 8 * (7 + 5 * distinct freq) + p := by
  have hbody : bodyOf .hufDecompress s =
      .ok (s.hufLeft freq w (8 * (7 + 5 * distinct freq) + p) (distinct freq) p) := by
    have hpos : w.pos = 8 * xs.length := by rw [hwrote.pos, length_bytesBits]; exact Nat.zero_add _
    show hufDecompress s = _
    rw [hufDecompress_behind h hcap h8, hok]
    exact congrArg (fun v => CmdOutcome.ok (s.hufLeft freq v _ _ _)) (Writer.flush_of_aligned hpos)
  have hocap := obufBytes_le hs
  have hicap := ibufBytes_le hs
  have hfits := hwrote.fits
  have hwpos : (BitVec.ofNat 32 w.pos).toNat = w.pos := toNat_ofNat_of_le (by omega)
  obtain ⟨hvalid, hfreq, hlen, hcode⟩ := hufLeft_tables hl (show freq.sum < 2 ^ 32 by omega) .hufDecompress s w
    (8 * (7 + 5 * distinct freq) + p) (distinct freq) p
  obtain ⟨hrpos, hres0, hres1⟩ := hufLeft_results .hufDecompress s freq w (8 * (7 + 5 * distinct freq) + p) (distinct freq) p
  refine ⟨_, exec_of_ok (.inr hn) hbody, completedOk (left_hufLeft (.inr rfl) ..), ?_, hvalid, hfreq, hlen, hcode, ?_, ?_, ?_⟩
  · exact produced_of_wrote hs hwrote rfl rfl (congrArg (fun q => BitVec.ofNat 32 (ceil8 q)) hwpos)
  · rw [hres0, toNat_ofNat_distinct hl]
  · rw [hres1, toNat_ofNat_of_le (by omega)]
  · rw [State.rpos, hrpos, toNat_ofNat_of_le (by omega)]

end

/-! ## Empty and one-symbol containers (42_huffman.md R196) -/

/-- The one byte value of `xs` is the symbol of the one header entry. -/
theorem toNat_eq_of_distinct_one {xs : List Byte} (h1 : distinct (freqOf xs) = 1) {b : Byte} (hb : b ∈ xs)
    (h0 : 0 < (presentFrom 0 (freqOf xs)).length) : b.toNat = (presentFrom 0 (freqOf xs))[0].1 := by
  have hmem : (b.toNat, (freqOf xs)[b.toNat]'(by rw [length_freqOf]; exact b.isLt)) ∈ presentFrom 0 (freqOf xs) :=
    presentFrom_mem.2 ⟨Nat.zero_le _, List.getElem?_eq_getElem _, freqOf_pos hb⟩
  obtain ⟨p, hp⟩ := List.length_eq_one_iff.1 ((length_presentFrom 0 (freqOf xs)).trans h1)
  simp only [hp, List.mem_singleton, List.getElem_cons_zero] at hmem ⊢
  exact congrArg Prod.fst hmem

theorem hufPayloadBits_nil {xs : List Byte} (h : distinct (freqOf xs) ≤ 1) : hufPayloadBits xs = [] := if_neg (by omega)

/-- A container without a payload gives its bytes back. -/
theorem hufPayload_plain {s : State} {xs : List Byte} (h : s.Behind (freqOf xs) []) (hd : distinct (freqOf xs) ≤ 1)
    (hcap : (freqOf xs).sum ≤ s.params.obufBytes) (hs : s.params.legal) :
    ∃ w, hufPayload s.params.obufBytes (buildLens (freqOf xs)) (canonCodes (buildLens (freqOf xs))) (byteAt s.inputArray) s.n
        (distinct (freqOf xs)) (freqOf xs).sum s.freshWriter = .ok (8 * (7 + 5 * distinct (freqOf xs)) + 0, w, 0) ∧
      Writer.Wrote s.params.obufBytes (bytesBits xs) s.freshWriter w := by
  have hocap := obufBytes_le hs
  have hlen : s.n = 7 + 5 * distinct (freqOf xs) := h.length
  rw [sum_freqOf] at hcap ⊢
  have hsym : distinct (freqOf xs) = 1 → ∀ b ∈ xs, b.toNat = headerSymbol (byteAt s.inputArray) 0 := fun h1 b hb => by
    have h0 : 0 < (presentFrom 0 (freqOf xs)).length := by rw [length_presentFrom, h1]; exact Nat.one_pos
    rw [h.symbol 0 h0]
    exact toNat_eq_of_distinct_one h1 hb h0
  have hp := hufPayloadBits_nil hd
  have emits := emits_hufPayload (cap := s.params.obufBytes) (n := s.n) (w := s.freshWriter) (show xs.length < 2 ^ 40 by omega)
    hsym (by rw [hp, List.length_nil, Nat.add_zero, ceil8_mul, hlen]) (by rw [hp]; rfl)
  rw [hp] at emits
  refine (emits (fresh_fits s)).1 ?_
  rw [length_bytesBits]
  exact (Nat.zero_add _).trans_le (Nat.mul_le_mul_left 8 hcap)

/-! ## Containers with a payload (42_huffman.md R225, R226, R228) -/

theorem streamBits_append {rd : Nat → Byte} {p : Nat} {as bs : List Bool}
    (h : streamBits rd p (as.length + bs.length) = as ++ bs) :
    streamBits rd p as.length = as ∧ streamBits rd (p + as.length) bs.length = bs := by
  rw [streamBits_add] at h
  exact List.append_inj h (length_streamBits ..)

theorem hufPayload_coded {cap n k total : Nat} {lens codes : List Nat} {rd : Nat → Byte} {w : Writer} (h2 : 2 ≤ k) :
    hufPayload cap lens codes rd n k total w =
      (decodeLoop cap (codeTable 0 lens codes) (largest lens) rd n total (8 * (7 + 5 * k)) w >>= fun x =>
        if n ≠ ceil8 x.1 then .error .corruptStream else .ok (x.1, x.2, x.1 - 8 * (7 + 5 * k))) :=
  (if_neg (by omega)).trans (if_pos h2)

section
variable {s : State} {freq : List Nat} {payload xs : List Byte} {bits rest : List Bool} (h : s.Behind freq payload)
  (hl : freq.length = 256) (hs : freq.sum < 2 ^ 40) (hcap : freq.sum ≤ s.params.obufBytes) (h2 : 2 ≤ distinct freq)
  (hx : ∀ b ∈ xs, 0 < entry (buildLens freq) b) (hbits : codeBits (buildLens freq) (canonCodes (buildLens freq)) xs = bits)
  (hsplit : bytesBits payload = bits ++ rest)

include hsplit h in
/-- The codes of `xs` end `rest` before the end of the input. -/
theorem State.Behind.ends : 8 * (7 + 5 * distinct freq) + bits.length + rest.length = 8 * s.n := by
  have hlen := congrArg List.length hsplit
  rw [length_bytesBits, List.length_append] at hlen
  have := h.length
  omega

include hsplit h in
theorem State.Behind.codes :
    streamBits (byteAt s.inputArray) (8 * (7 + 5 * distinct freq)) bits.length = bits ∧
    streamBits (byteAt s.inputArray) (8 * (7 + 5 * distinct freq) + bits.length) rest.length = rest := by
  have hlen := congrArg List.length hsplit
  rw [length_bytesBits, List.length_append] at hlen
  exact streamBits_append (by rw [← hlen, h.stream, hsplit])

include h hl hs hcap h2 hx hbits hsplit

/-- As many codes as were declared decode to their bytes; then a whole byte left over is refused. -/
theorem hufPayload_all (hN : xs.length = freq.sum) :
    ∃ w, Writer.Wrote s.params.obufBytes (bytesBits xs) s.freshWriter w ∧
      hufPayload s.params.obufBytes (buildLens freq) (canonCodes (buildLens freq)) (byteAt s.inputArray) s.n (distinct freq)
        freq.sum s.freshWriter =
          if 8 ≤ rest.length then .error .corruptStream
          else .ok (8 * (7 + 5 * distinct freq) + bits.length, w, bits.length) := by
  have hends := h.ends hsplit
  obtain ⟨hcodes, -⟩ := h.codes hsplit
  subst hbits
  have emits := emits_decodeLoop (prefixCode_build hl hs) (cap := s.params.obufBytes) (w := s.freshWriter) hx
    (Nat.le_of_add_right_le hends.le) hcodes
  obtain ⟨w, hok, hwrote⟩ := (emits (fresh_fits s)).1 (by
    rw [length_bytesBits, hN]
    exact (Nat.zero_add _).trans_le (Nat.mul_le_mul_left 8 hcap))
  refine ⟨w, hwrote, ?_⟩
  rw [hufPayload_coded h2, ← hN, hok]
  refine (if_congr ?_ rfl (congrArg (fun p => Except.ok (_, w, p)) (Nat.add_sub_cancel_left ..)))
  simp only [ceil8]
  omega

/-- A complete code runs out of bits only at the input's end: fewer codes than declared give TRUNCATED_STREAM. -/
theorem hufPayload_truncated (hN : xs.length < freq.sum)
    (hc : noCodeBegins (buildLens freq) (canonCodes (buildLens freq)) rest) :
    hufPayload s.params.obufBytes (buildLens freq) (canonCodes (buildLens freq)) (byteAt s.inputArray) s.n (distinct freq)
      freq.sum s.freshWriter = .error .truncatedStream := by
  have hends := h.ends hsplit
  obtain ⟨hcodes, hrest⟩ := h.codes hsplit
  obtain ⟨-, -, -, hcomplete, -⟩ := buildLens_spec hl hs
  have hleft : 8 * s.n - (8 * (7 + 5 * distinct freq) + bits.length) = rest.length := by omega
  have hlong : rest.length < largest (buildLens freq) := by
    refine (lt_largest_iff (length_buildLens freq)).2 (not_forall_not.1 fun hall => ?_)
    exact code_begins (length_buildLens freq) (buildLens_le hl hs) (hcomplete h2).1 (fun b => Nat.not_lt.1 (hall b)) hc
  subst hbits
  have hw : s.freshWriter.pos + 8 * xs.length ≤ 8 * s.params.obufBytes :=
    (Nat.zero_add _).trans_le (Nat.mul_le_mul_left 8 (hN.le.trans hcap))
  rw [hufPayload_coded h2, decodeLoop_none (prefixCode_build hl hs) hx hN hw (.inr (by omega)) hcodes
    (by rwa [hleft, hrest]), hleft, if_pos hlong]
  rfl

end

theorem exec_hufDecompress_errB {s : State} {freq : List Nat} {payload : List Byte} {c : ErrorCode}
    (h : s.Behind freq payload) (hcap : freq.sum ≤ s.params.obufBytes) (hn : s.n ≤ s.params.ibufBytes)
    (h2 : 2 ≤ distinct freq)
    (herr : hufPayload s.params.obufBytes (buildLens freq) (canonCodes (buildLens freq)) (byteAt s.inputArray) s.n
      (distinct freq) freq.sum s.freshWriter = .error c) :
    ∃ t, exec .hufDecompress s = .next t ∧ State.FailedClassB .hufDecompress c s t := by
  refine exec_of_errB (.inr hn) (show hufDecompress s = _ from ?_)
  rw [hufDecompress_behind h hcap fun hd => by omega, herr]
  rfl

/-! ## The container as HUF_DECOMPRESS reads it (42_huffman.md R226, R227) -/

/-- Bytes whose bits are the container of `xs` are its header and a payload that begins with its codes. -/
theorem container_splits {xs bs : List Byte} (h : bytesBits bs = hufContainerBits xs) :
    ∃ payload, bs = hufHeader (presentFrom 0 (freqOf xs)) (freqOf xs).sum ++ payload ∧
      ∃ rest, rest.length < 8 ∧ bytesBits payload = hufPayloadBits xs ++ rest := by
  have hlen := congrArg List.length h
  rw [length_bytesBits, length_hufContainerBits, List.length_append, length_hufHeaderBits] at hlen
  rw [hufContainerBits_eq, List.append_assoc, ← List.take_append_drop (7 + 5 * distinct (freqOf xs)) bs, bytesBits_append] at h
  obtain ⟨hheader, hpayload⟩ := List.append_inj h (by
    rw [length_bytesBits, length_hufHeaderBits, List.length_take, Nat.min_eq_left]
    simp only [ceil8] at hlen
    omega)
  refine ⟨bs.drop (7 + 5 * distinct (freqOf xs)), ?_, _, ?_, hpayload⟩
  · rw [sum_freqOf, ← bytesBits_injective hheader, List.take_append_drop]
  · rw [List.length_replicate]
    simp only [ceil8]
    omega

/-! ## CODE_TOO_LONG (42_huffman.md R197) -/

theorem codeTooLong_notMem_classACodes (i : Instr) : ErrorCode.codeTooLong ∉ classACodes i := by
  cases i <;> decide

/-- Only the three commands that build a tree have the check. -/
theorem codeTooLong_mem_classBCodes {i : Instr} (h : ErrorCode.codeTooLong ∈ classBCodes i) :
    i = .hufCompress ∨ i = .hufDecompress ∨ i = .hufBuild := by
  revert h
  cases i <;> decide

theorem hufCompress_ne_codeTooLong (s : State) : hufCompress s ≠ .errB .codeTooLong := by
  rcases Nat.lt_or_ge (8 * s.params.obufBytes) (hufContainerBits s.inputBytes).length with hlong | hfits
  · rw [hufCompress_overflow hlong]
    decide
  · obtain ⟨w, hok, -⟩ := hufCompress_ok hfits
    rw [hok]
    exact CmdOutcome.noConfusion

theorem hufDecompress_ne_codeTooLong (s : State) : hufDecompress s ≠ .errB .codeTooLong := by
  by_cases h : HufHeaderOk s.ibuf.read s.n
  · intro herr
    rw [hufDecompress_headerOk h] at herr
    split at herr; · cases herr
    split at herr; · cases herr
    split at herr; · cases herr
    have hraises := Raises.bind (raises_hufPayload _ _ _ _ _ _ _ _) (fun _ => .ok _) _ (ofBody_errB.1 herr)
    simp at hraises
  · rw [hufDecompress_corruptHeader h]
    exact CmdOutcome.noConfusion

theorem outcomeOf_ne_codeTooLong (i : Instr) (s : State) :
    outcomeOf i s ≠ .errA .codeTooLong ∧ outcomeOf i s ≠ .errB .codeTooLong := by
  constructor
  · intro h
    rw [outcomeOf] at h
    split at h
    · cases h
    · exact codeTooLong_notMem_classACodes i (body_errA h)
  · intro h
    rw [outcomeOf] at h
    split at h
    · cases h
    · rcases codeTooLong_mem_classBCodes (body_errB h) with rfl | rfl | rfl
      · exact hufCompress_ne_codeTooLong s h
      · exact hufDecompress_ne_codeTooLong s h
      · exact CmdOutcome.noConfusion ((hufBuild_eq s).symm.trans h)

end Sys2Proof.Machine

/-- Settles O16: no length `build()` gives exceeds 57, so none of the three commands that build a tree can raise the
error. -/
theorem codeTooLongNeverReported : Obligations.CodeTooLongNeverReported := by
  unfold Obligations.CodeTooLongNeverReported
  intro i s t _ hbefore h hcode
  obtain ⟨hA, hB⟩ := outcomeOf_ne_codeTooLong i s
  rcases exec_errcode (c := .codeTooLong) h hcode with hs | hs | hs
  · exact hbefore hs
  · exact hA hs
  · exact hB hs

/-- Settles O57: what HUF_COMPRESS emits is header and payload; the flush and the clean bits past the cursor make it the
container. -/
theorem hufCompressWritesTheContainer : Obligations.HufCompressWritesTheContainer := by
  unfold Obligations.HufCompressWritesTheContainer
  refine ⟨rfl, fun s => exec_badLength rfl, fun s hl hn => ⟨fun h => ?_, fun h => ?_⟩⟩
  · obtain ⟨w, hok, hwrote⟩ := hufCompress_ok h
    have hcap := obufBytes_le hl
    have hceil := ceil8_le hwrote.fits
    have hpos : w.pos = (hufHeaderBits s.inputBytes ++ hufPayloadBits s.inputBytes).length := hwrote.pos.trans (Nat.zero_add _)
    have hpayload : (hufPayloadBits s.inputBytes).length ≤ 2 ^ 23 := by
      have hfits := hwrote.fits
      rw [hpos, List.length_append] at hfits
      omega
    have hflush : w.flush.pos = 8 * ceil8 w.pos := rfl
    obtain ⟨hobuf, hwpos, hdst⟩ := hufLeft_writer (i := .hufCompress) rfl s (freqOf s.inputBytes)
      (show w.flush.pos ≤ 2 ^ 23 by omega) 0 (distinct (freqOf s.inputBytes)) (hufPayloadBits s.inputBytes).length
    obtain ⟨hrpos, hres0, hres1⟩ := hufLeft_results .hufCompress s (freqOf s.inputBytes) w.flush 0
      (distinct (freqOf s.inputBytes)) (hufPayloadBits s.inputBytes).length
    obtain ⟨hvalid, hfreq, hlen, hcode⟩ := hufLeft_tables (length_freqOf s.inputBytes) (sum_freqOf_input_lt s) .hufCompress s
      w.flush 0 (distinct (freqOf s.inputBytes)) (hufPayloadBits s.inputBytes).length
    rw [hflush] at hwpos
    rw [hflush, ceil8_mul] at hdst
    refine ⟨_, exec_of_ok (.inr hn) hok, completedOk (left_hufLeft (.inl rfl) ..), ?_, ?_, ?_, fun a ha => ?_, hrpos, hvalid,
      hfreq, hlen, hcode, ?_, ?_⟩
    · rw [State.outputBytes, hdst, hobuf]
      exact hwrote.container rfl
    · rw [hwpos, length_hufContainerBits, hpos]
    · rw [hdst, hwpos, ceil8_mul]
    · rw [hdst] at ha
      rw [hobuf]
      exact hwrote.beyond a ha
    · rw [hres0, toNat_ofNat_distinct (length_freqOf _)]
    · rw [hres1, toNat_ofNat_of_le hpayload]
  · exact exec_of_errB (.inr hn) (hufCompress_overflow h)

/-- Settles O58: past the checks the payload part decides. The header's code is complete and a `PrefixCode`, so it follows `xs`
and fails only where bits are missing or whole bytes are left. -/
theorem hufDecompressDecodesTheContainer : Obligations.HufDecompressDecodesTheContainer := by
  unfold Obligations.HufDecompressDecodesTheContainer
  refine ⟨rfl, fun s => exec_badLength rfl, fun s hs hn => ⟨fun h => ?_, fun h hcap => ?_, fun h hcap h8 => ?_, ?_⟩⟩
  · exact exec_of_errA (.inr hn) (hufDecompress_corruptHeader h)
  · exact exec_of_errA (.inr hn) (hufDecompress_overflow h hcap)
  · exact exec_of_errA (.inr hn) (hufDecompress_corruptStream h hcap h8)
  intro freq payload hl hcap hinput
  have hocap := obufBytes_le hs
  have hsum : freq.sum < 2 ^ 32 := by omega
  have hsum' : freq.sum < 2 ^ 40 := hsum.trans (by decide)
  have h := behind_of_input hl hsum hinput
  refine ⟨fun xs hd hxs hnil => ?_, fun xs rest h2 hx hsplit => ⟨fun hN hrest => ?_, fun hN hrest => ?_, fun hN hc => ?_⟩⟩
  · subst hxs hnil
    obtain ⟨w, hok, hwrote⟩ := hufPayload_plain h hd hcap hs
    have hlen := h.length
    exact exec_hufDecompress_ok h hcap hs hn hl (fun _ => rfl) (by omega) hok hwrote
  · obtain ⟨w, hwrote, hok⟩ := hufPayload_all h hl hsum' hcap h2 hx rfl hsplit hN
    rw [if_neg (Nat.not_le.2 hrest)] at hok
    have hends := h.ends hsplit
    exact exec_hufDecompress_ok h hcap hs hn hl (fun hd => by omega) (by omega) hok hwrote
  · obtain ⟨w, hwrote, herr⟩ := hufPayload_all h hl hsum' hcap h2 hx rfl hsplit hN
    rw [if_pos hrest] at herr
    exact exec_hufDecompress_errB h hcap hn h2 herr
  · exact exec_hufDecompress_errB h hcap hn h2 (hufPayload_truncated h hl hsum' hcap h2 hx rfl hsplit hN hc)

/-- Settles O59: the container HUF_COMPRESS leaves (O57) is a header and the codes of the input with less than a byte behind
them, which HUF_DECOMPRESS gives back (O58). -/
theorem hufRoundTrip : Obligations.HufRoundTrip := by
  unfold Obligations.HufRoundTrip
  intro s t u hs herr hn hexec hterr hp huerr hin hun hcap
  obtain ⟨-, -, hcompress⟩ := hufCompressWritesTheContainer
  obtain ⟨-, -, hdecompress⟩ := hufDecompressDecodesTheContainer
  obtain ⟨hfits, hlong⟩ := hcompress s hs hn
  have hcontainer : bytesBits u.inputBytes = hufContainerBits s.inputBytes := by
    rcases Nat.lt_or_ge (8 * s.params.obufBytes) (hufContainerBits s.inputBytes).length with h | h
    · obtain ⟨t', hexec', hfailed⟩ := hlong h
      rw [hexec] at hexec'
      cases hexec'
      exact absurd (hterr.symm.trans hfailed.err) (by decide)
    · obtain ⟨t', hexec', -, hout, -⟩ := hfits h
      rw [hexec] at hexec'
      cases hexec'
      rw [hin, hout]
  obtain ⟨payload, hinput, rest, hrest, hsplit⟩ := container_splits hcontainer
  have hsum : (freqOf s.inputBytes).sum = s.n := by rw [sum_freqOf, length_inputBytes]
  obtain ⟨-, -, -, hfreq⟩ := hdecompress u (hp ▸ hs) hun
  obtain ⟨hplain, hcoded⟩ := hfreq _ payload (length_freqOf s.inputBytes) (hsum.trans_le hcap) hinput
  suffices ∃ v, exec .hufDecompress u = .next v ∧ State.CompletedOk .hufDecompress u v ∧ State.Produced s.inputBytes u v by
    obtain ⟨v, hv, hok, hproduced⟩ := this
    exact ⟨v, hv, hok, hproduced.output⟩
  rcases Nat.lt_or_ge (distinct (freqOf s.inputBytes)) 2 with hd | h2
  · have hnil : payload = [] := by
      have hlen := congrArg List.length hsplit
      rw [length_bytesBits, hufPayloadBits_nil (by omega), List.nil_append] at hlen
      exact List.length_eq_zero_iff.1 (by omega)
    obtain ⟨v, hv, hok, hproduced, -⟩ := hplain s.inputBytes (by omega) rfl hnil
    exact ⟨v, hv, hok, hproduced⟩
  · rw [hufPayloadBits, if_pos h2] at hsplit
    have hx : ∀ b ∈ s.inputBytes, 0 < entry (buildLens (freqOf s.inputBytes)) b := fun b =>
      entry_build_pos ((length_inputBytes s).trans_lt (s.n_lt.trans (by decide)))
    obtain ⟨hall, -⟩ := hcoded s.inputBytes rest h2 hx hsplit
    obtain ⟨v, hv, hok, hproduced, -⟩ := hall (sum_freqOf _).symm hrest
    exact ⟨v, hv, hok, hproduced⟩

end

section
/-!
The RLE units: the outcome of RLE_SCAN's and RLE_EMIT's own rules, check by check (43_rle.md R240 to R246).
-/

open Sys2Proof Sys2Proof.Machine

namespace Sys2Proof.Machine

/-! ## RLE_SCAN (43_rle.md R241) -/

/-- The run the scanner finds in the latched input is the run in IBUF: it looks at no byte past the end (43_rle.md R240). -/
theorem runLength_input {s : State} {p : Nat} (h : p < s.n) :
    runLength (byteAt s.inputArray) s.n p = runLength s.ibuf.read s.n p := by
  have hbehind : slice (byteAt s.inputArray) (p + 1) (s.n - (p + 1)) = slice s.ibuf.read (p + 1) (s.n - (p + 1)) :=
    slice_congr fun j _ hj => byteAt_inputArray s (by omega)
  rw [runLength, runLength, byteAt_inputArray s h, sameCount_eq, sameCount_eq, hbehind]

theorem rleScan_badArgument {s : State} (hp : s.n ≤ s.a0) : rleScan s = .errA .badArgument := if_pos hp

theorem rleScan_ok {s : State} (hp : s.a0 < s.n) :
    rleScan s = .ok (s.setRes (runLength s.ibuf.read s.n s.a0) (s.ibuf.read s.a0).toNat) := by
  rw [← runLength_input hp, ← byteAt_inputArray s hp]
  exact if_neg (Nat.not_le.2 hp)

/-! ## RLE_EMIT (43_rle.md R246) -/

theorem rleEmit_badArgument {s : State} (hc : s.a1 < 1) : rleEmit s = .errA .badArgument := if_pos hc

theorem rleEmit_overflow {s : State} (hc : 1 ≤ s.a1)
    (hw : 8 * s.params.obufBytes < s.wpos + 16 * ((s.a1 + 254) / 255)) : rleEmit s = .errA .outputOverflow := by
  rw [rleEmit, if_neg (Nat.not_lt.2 hc), if_pos hw]

/-- A pair takes 16 bits. -/
theorem length_bytesBits_runPairs (b : Byte) (c : Nat) :
    (bytesBits (runPairs b c)).length = 16 * ((c + 254) / 255) := by
  rw [length_bytesBits, length_runPairs, ← Nat.mul_assoc]

/-- Past both checks the writer has room for the pairs, so RLE_EMIT cannot fail. -/
theorem rleEmit_ok {s : State} (hc : 1 ≤ s.a1) (hw : s.wpos + 16 * ((s.a1 + 254) / 255) ≤ 8 * s.params.obufBytes) :
    ∃ w, rleEmit s = .ok ((s.setWriter w).setRes ((s.a1 + 254) / 255) 0) ∧
      Writer.Wrote s.params.obufBytes (bytesBits (runPairs s.a0Byte s.a1)) s.writer w := by
  have emits := emits_emitRun s.params.obufBytes s.a0Byte s.a1 s.writer (Nat.le_of_add_right_le hw)
  obtain ⟨w, hok, hwrote⟩ := emits.1 (by rw [length_bytesBits_runPairs]; exact hw)
  refine ⟨w, ?_, hwrote⟩
  rw [rleEmit, if_neg (Nat.not_lt.2 hc), if_neg (Nat.not_lt.2 hw), hok]
  rfl

end Sys2Proof.Machine

/-- Settles O45: the run is at most the input's length, so RES0 holds it whole. -/
theorem rleScanReportsTheMaximalRun : Obligations.RleScanReportsTheMaximalRun := by
  unfold Obligations.RleScanReportsTheMaximalRun
  refine ⟨rfl, fun s => exec_badLength rfl, fun s hn => ⟨fun hp => ?_, fun hp => ?_⟩⟩
  · exact exec_of_errA (.inr hn) (rleScan_badArgument hp)
  · obtain ⟨hpos, hle, hsame, hstop⟩ := runLength_spec s.ibuf.read hp
    have hlt : runLength s.ibuf.read s.n s.a0 < 2 ^ 32 := (hle.trans (Nat.sub_le ..)).trans_lt s.n_lt
    refine ⟨_, _, exec_of_ok (.inr hn) (rleScan_ok hp), completedOk (.rleScan _ _), ?_, ?_, hpos, hle, hsame, hstop⟩
    · rw [complete_ok_eq]
      exact Nat.mod_eq_of_lt hlt
    · rw [complete_ok_eq]
      exact BitVec.ofNat_toNat 32 _

/-- Settles O46: past the checks the writer has room for the pairs, and their number fits RES0. -/
theorem rleEmitAppendsThePairs : Obligations.RleEmitAppendsThePairs := by
  unfold Obligations.RleEmitAppendsThePairs
  refine ⟨rfl, fun s hl => ⟨fun hc => ?_, fun hc hw => ?_, fun hc hw => ?_⟩⟩
  · exact exec_of_errA (.inl rfl) (rleEmit_badArgument hc)
  · exact exec_of_errA (.inl rfl) (rleEmit_overflow hc hw)
  · obtain ⟨w, hok, hwrote⟩ := rleEmit_ok hc hw
    have hcap := obufBytes_le hl
    refine ⟨_, exec_of_ok (.inl rfl) hok, completedOk (.rleEmit _ _), appended_of_left hl rfl hwrote rfl rfl, ?_⟩
    rw [complete_ok_eq]
    exact ⟨toNat_ofNat_of_le (by omega), rfl⟩

end

section
/-!
The RLE codec: RLE_COMPRESS writes the container of its input's maximal runs, RLE_DECOMPRESS expands the pairs of a container
or reports the first check that fails, and the one undoes the other (43_rle.md R250 to R253).
-/

open Sys2Proof Sys2Proof.Machine

namespace Sys2Proof.Machine

/-! ## What an RLE codec command leaves -/

/-- The state the rule of an RLE codec command leaves: the writer `w` flushed, the read cursor `r` and `m` pairs (43_rle.md
R250, R252). -/
def State.rleLeft (s : State) (w : Writer) (r m : Nat) : State := ((s.setWriter w.flush).setRpos r).setRes m 0

theorem left_rleLeft {i : Instr} (hi : i = .rleCompress ∨ i = .rleDecompress) (s : State) (w : Writer) (r m : Nat) :
    Left s i (s.rleLeft w r m) :=
  .codec i w.flush r m 0 (by rcases hi with rfl | rfl <;> simp)

/-- Whole bytes written from the start of OBUF are the output: the flush has nothing to fill up. -/
theorem produced_rleLeft {i : Instr} {s : State} {bs : List Byte} {w : Writer} (hl : s.params.legal)
    (hi : (writeSet i).obuf = true) (h : Writer.Wrote s.params.obufBytes (bytesBits bs) s.freshWriter w) (r m : Nat) :
    State.Produced bs s (complete i s (.ok (s.rleLeft w r m))) := by
  have hcap := obufBytes_le hl
  have hfits := h.fits
  have haligned : w.pos = 8 * bs.length := by rw [h.pos, length_bytesBits]; exact Nat.zero_add _
  have hflush : w.flush = w := Writer.flush_of_aligned haligned
  have hpos : (s.rleLeft w r m).wpos = w.pos := by
    rw [State.rleLeft, hflush]
    exact toNat_ofNat_of_le (by omega)
  rw [complete_ok_eq, hi, hpos, State.rleLeft, hflush]
  exact produced_of_wrote hl h rfl rfl rfl

theorem rleLeft_results (i : Instr) (s : State) (w : Writer) (r m : Nat) :
    (complete i s (.ok (s.rleLeft w r m))).bsRpos = BitVec.ofNat 32 r ∧
    (complete i s (.ok (s.rleLeft w r m))).res0 = BitVec.ofNat 32 m ∧
    (complete i s (.ok (s.rleLeft w r m))).res1 = 0 := by
  rw [complete_ok_eq]
  exact ⟨rfl, rfl, rfl⟩

section
variable {α : Type} {s : State} {x : Except ErrorCode α} {bs : List Byte} {k : Writer → α}
  (h : Emits s.params.obufBytes x (bytesBits bs) s.freshWriter k)
include h

/-- Bytes emitted from the start of OBUF are written if they fit it. -/
theorem emits_fresh_ok (hfits : bs.length ≤ s.params.obufBytes) :
    ∃ w, x = .ok (k w) ∧ Writer.Wrote s.params.obufBytes (bytesBits bs) s.freshWriter w := by
  refine (h (fresh_fits s)).1 ?_
  rw [length_bytesBits]
  exact (Nat.zero_add _).trans_le (Nat.mul_le_mul_left 8 hfits)

theorem emits_fresh_overflow (hlong : s.params.obufBytes < bs.length) : x = .error .outputOverflow := by
  refine (h (fresh_fits s)).2 ?_
  rw [length_bytesBits]
  exact (Nat.mul_lt_mul_of_pos_left hlong (by decide)).trans_eq (Nat.zero_add _).symm

end

/-! ## RLE_COMPRESS (43_rle.md R250) -/

/-- A container is the tag and two bytes for each pair (43_rle.md R251). -/
theorem length_rleContainer (xs : List Byte) : (rleContainer xs).length = 1 + 2 * pairsOf (runs xs) := by
  rw [rleContainer, List.length_cons, length_pairs, Nat.add_comm]

/-- RLE_COMPRESS appends the container to an empty OBUF, or fails for want of room. -/
theorem emits_rleCompress (s : State) : ∃ x, rleCompress s = .ofBody x ∧
    Emits s.params.obufBytes x (bytesBits (rleContainer s.inputBytes)) s.freshWriter fun w =>
      s.rleLeft w 0 (pairsOf (runs s.inputBytes)) := by
  refine ⟨_, rfl, ?_⟩
  rw [rleContainer, bytesBits_cons, ← List.append_nil (bytesBits _)]
  refine (emits_writeBits _ _ _ _).bind fun w _ => Emits.bind (k := fun w' => (pairsOf (runs s.inputBytes), w')) ?_
    fun w' _ => .nil rfl
  have emits := emits_rleCompressLoop s.params.obufBytes (byteAt s.inputArray) s.n s.n 0 0 w (Nat.sub_le ..)
  rw [Nat.sub_zero, slice_input, Nat.zero_add] at emits
  exact emits

theorem rleCompress_ok {s : State} (h : (rleContainer s.inputBytes).length ≤ s.params.obufBytes) :
    ∃ w, rleCompress s = .ok (s.rleLeft w 0 (pairsOf (runs s.inputBytes))) ∧
      Writer.Wrote s.params.obufBytes (bytesBits (rleContainer s.inputBytes)) s.freshWriter w := by
  obtain ⟨x, hx, emits⟩ := emits_rleCompress s
  obtain ⟨w, hok, hwrote⟩ := emits_fresh_ok emits h
  exact ⟨w, by rw [hx, hok]; rfl, hwrote⟩

theorem rleCompress_overflow {s : State} (h : s.params.obufBytes < (rleContainer s.inputBytes).length) :
    rleCompress s = .errB .outputOverflow := by
  obtain ⟨x, hx, emits⟩ := emits_rleCompress s
  rw [hx, emits_fresh_overflow emits h]
  rfl

/-! ## RLE_DECOMPRESS: the checks of the whole input (43_rle.md R252) -/

theorem rleDecompress_empty {s : State} (hn : s.n = 0) : rleDecompress s = .errA .corruptHeader :=
  if_pos (hn.trans_lt Nat.one_pos)

theorem rleDecompress_wrongTag {s : State} (hn : 1 ≤ s.n) (ht : s.ibuf.read 0 ≠ Config.tagR) :
    rleDecompress s = .errA .corruptHeader := by
  rw [← byteAt_inputArray s hn] at ht
  rw [rleDecompress, if_neg (Nat.not_lt.2 hn), if_pos ht]

theorem rleDecompress_incompletePair {s : State} (hn : 1 ≤ s.n) (ht : s.ibuf.read 0 = Config.tagR) (h2 : s.n % 2 = 0) :
    rleDecompress s = .errA .corruptStream := by
  rw [← byteAt_inputArray s hn] at ht
  rw [rleDecompress, if_neg (Nat.not_lt.2 hn), if_neg (not_not.2 ht), if_pos (by omega)]

/-! ## RLE_DECOMPRESS: a tag and whole pairs (43_rle.md R252) -/

theorem length_pairBytes (ps : List (Byte × Byte)) : (pairBytes ps).length = 2 * ps.length := by
  simp [pairBytes, Nat.mul_comm]

/-- A check of a count asks for 0. -/
theorem exists_pairCount_iff (rd : Nat → Byte) (q : Nat) :
    (∃ i ∈ List.range q, pairCount rd i < 1) ↔ ∃ p ∈ inputPairs rd 0 q, p.1 = 0 := by
  simp [inputPairs, pairCount, BitVec.toNat_eq]

/-- The counts sum to the length of what the pairs stand for. -/
theorem sum_pairCount (rd : Nat → Byte) (q : Nat) :
    ((List.range q).map (pairCount rd)).sum = (expandPairs (inputPairs rd 0 q)).length := by
  rw [length_expandPairs, inputPairs, List.map_map]
  simp only [Nat.zero_add]
  rfl

section
variable {s : State} {ps : List (Byte × Byte)} (h : s.inputBytes = Config.tagR :: pairBytes ps)
include h

theorem n_of_pairs : s.n = 1 + 2 * ps.length := by
  rw [← length_inputBytes, h, List.length_cons, length_pairBytes, Nat.add_comm]

/-- The tag and the pairs, as RLE_DECOMPRESS reads them. -/
theorem tag_and_inputPairs :
    byteAt s.inputArray 0 = Config.tagR ∧ inputPairs (byteAt s.inputArray) 0 ps.length = ps := by
  have hn := n_of_pairs h
  rw [← slice_input, hn, Nat.add_comm, slice_succ, List.cons.injEq] at h
  obtain ⟨htag, hpairs⟩ := h
  exact ⟨htag, pairBytes_injective ((slice_pairs _ 0 _).symm.trans hpairs)⟩

/-- RLE_DECOMPRESS past its checks of the whole input. -/
theorem rleDecompress_pairs : rleDecompress s =
    if ∃ p ∈ ps, p.1 = 0 then .errA .corruptStream
    else if s.params.obufBytes < (expandPairs ps).length then .errA .outputOverflow
    else .ofBody (rleDecompressLoop s.params.obufBytes (byteAt s.inputArray) s.n ps.length 8 s.freshWriter >>= fun x =>
      .ok (s.rleLeft x.2 x.1 ps.length)) := by
  have hn := n_of_pairs h
  have hq : (s.n - 1) / 2 = ps.length := by omega
  obtain ⟨htag, hpairs⟩ := tag_and_inputPairs h
  have hread := readBits_byte (rd := byteAt s.inputArray) (n := s.n) (a := 0) (by omega)
  rw [rleDecompress, if_neg (by omega), if_neg (not_not.2 htag), if_neg (by omega), hq, sum_pairCount, hpairs, hread]
  refine if_congr ?_ rfl rfl
  rw [exists_pairCount_iff, hpairs]

theorem rleDecompress_zeroCount (h0 : ∃ p ∈ ps, p.1 = 0) : rleDecompress s = .errA .corruptStream := by
  rw [rleDecompress_pairs h, if_pos h0]

theorem rleDecompress_overflow (hc : ∀ p ∈ ps, p.1 ≠ 0) (hlong : s.params.obufBytes < (expandPairs ps).length) :
    rleDecompress s = .errA .outputOverflow := by
  rw [rleDecompress_pairs h, if_neg fun ⟨p, hp, h0⟩ => hc p hp h0, if_pos hlong]

/-- Past the checks the pairs are there and the writer has room for what they stand for, so RLE_DECOMPRESS cannot fail. -/
theorem rleDecompress_ok (hc : ∀ p ∈ ps, p.1 ≠ 0) (hfits : (expandPairs ps).length ≤ s.params.obufBytes) :
    ∃ w, rleDecompress s = .ok (s.rleLeft w (8 * s.n) ps.length) ∧
      Writer.Wrote s.params.obufBytes (bytesBits (expandPairs ps)) s.freshWriter w := by
  have hn := n_of_pairs h
  obtain ⟨-, hpairs⟩ := tag_and_inputPairs h
  have emits := emits_rleDecompressLoop s.params.obufBytes (byteAt s.inputArray) s.n ps.length 0 s.freshWriter (by omega)
  rw [hpairs, Nat.zero_add, ← hn] at emits
  obtain ⟨w, hok, hwrote⟩ := emits_fresh_ok emits hfits
  refine ⟨w, ?_, hwrote⟩
  rw [rleDecompress_pairs h, if_neg fun ⟨p, hp, h0⟩ => hc p hp h0, if_neg (Nat.not_lt.2 hfits), hok]
  rfl

end

end Sys2Proof.Machine

/-- Settles O47: what RLE_COMPRESS emits is the container, two bytes for each pair behind the tag. -/
theorem rleCompressWritesTheContainer : Obligations.RleCompressWritesTheContainer := by
  unfold Obligations.RleCompressWritesTheContainer
  refine ⟨rfl, fun s => exec_badLength rfl, fun s hl hn => ⟨fun h => ?_, fun h => ?_⟩⟩
  · obtain ⟨w, hok, hwrote⟩ := rleCompress_ok h
    have hlen := length_rleContainer s.inputBytes
    have hcap := obufBytes_le hl
    obtain ⟨hrpos, hres0, hres1⟩ := rleLeft_results .rleCompress s w 0 (pairsOf (runs s.inputBytes))
    refine ⟨_, exec_of_ok (.inr hn) hok, completedOk (left_rleLeft (.inl rfl) ..), produced_rleLeft hl rfl hwrote ..,
      hrpos, ?_, hres1⟩
    rw [hres0, toNat_ofNat_of_le (by omega), hlen]
  · exact exec_of_errB (.inr hn) (rleCompress_overflow h)

/-- Settles O48: behind a tag and whole pairs the counts decide, first whether one is 0, then whether their sum fits OBUF. -/
theorem rleDecompressExpandsThePairs : Obligations.RleDecompressExpandsThePairs := by
  unfold Obligations.RleDecompressExpandsThePairs
  refine ⟨rfl, fun s => exec_badLength rfl, fun s hl hn => ⟨fun h0 => ?_, fun h1 ht => ?_, fun h1 ht h2 => ?_, fun ps h =>
    ⟨fun h0 => ?_, fun hc hlong => ?_, fun hc hfits => ?_⟩⟩⟩
  · exact exec_of_errA (.inr hn) (rleDecompress_empty h0)
  · exact exec_of_errA (.inr hn) (rleDecompress_wrongTag h1 ht)
  · exact exec_of_errA (.inr hn) (rleDecompress_incompletePair h1 ht h2)
  · exact exec_of_errA (.inr hn) (rleDecompress_zeroCount h h0)
  · exact exec_of_errA (.inr hn) (rleDecompress_overflow h hc hlong)
  · obtain ⟨w, hok, hwrote⟩ := rleDecompress_ok h hc hfits
    have hlen := n_of_pairs h
    have hcap := ibufBytes_le hl
    obtain ⟨hrpos, hres0, hres1⟩ := rleLeft_results .rleDecompress s w (8 * s.n) ps.length
    refine ⟨_, exec_of_ok (.inr hn) hok, completedOk (left_rleLeft (.inr rfl) ..), produced_rleLeft hl rfl hwrote .., ?_, ?_,
      hres1⟩
    · rw [State.rpos, hrpos, toNat_ofNat_of_le (by omega)]
    · rw [hres0, toNat_ofNat_of_le (by omega)]

/-- Settles O49: the container RLE_COMPRESS leaves (O47) is a tag and pairs with counts of at least 1 that expand to the input,
which RLE_DECOMPRESS gives back (O48). -/
theorem rleRoundTrip : Obligations.RleRoundTrip := by
  unfold Obligations.RleRoundTrip
  intro s t u hs _ hn hexec hterr hp _ hin hun hcap
  obtain ⟨-, -, hcompress⟩ := rleCompressWritesTheContainer
  obtain ⟨-, -, hdecompress⟩ := rleDecompressExpandsThePairs
  obtain ⟨hfits, hlong⟩ := hcompress s hs hn
  have hcontainer : u.inputBytes = rleContainer s.inputBytes := by
    rcases Nat.lt_or_ge s.params.obufBytes (rleContainer s.inputBytes).length with h | h
    · obtain ⟨t', hexec', hfailed⟩ := hlong h
      rw [hexec] at hexec'
      cases hexec'
      exact absurd (hterr.symm.trans hfailed.err) (by decide)
    · obtain ⟨t', hexec', -, hproduced, -⟩ := hfits h
      rw [hexec] at hexec'
      cases hexec'
      rw [hin, hproduced.output]
  obtain ⟨ps, hpairs, hexpand, hcounts⟩ := expandPairs_runs s.inputBytes
  rw [rleContainer, hpairs] at hcontainer
  obtain ⟨-, -, -, hall⟩ := hdecompress u (hp ▸ hs) hun
  obtain ⟨-, -, hexpands⟩ := hall ps hcontainer
  obtain ⟨v, hv, hok, hproduced, -⟩ := hexpands hcounts (by rw [hexpand, length_inputBytes]; exact hcap)
  exact ⟨v, hv, hok, hproduced.output.trans hexpand⟩

end

section
/-!
The LZ77 units: the outcome of LZ_MATCH's and LZ_EMIT's own rules, check by check (44_lz77.md R260 to R266).
-/

open Sys2Proof Sys2Proof.Machine

namespace Sys2Proof.Machine

/-! ## LZ_MATCH (44_lz77.md R261) -/

/-- The match the finder finds in the latched input is the match in IBUF: it looks at no byte past the end (44_lz77.md
R260). -/
theorem longestMatch_input (s : State) (p : Nat) :
    longestMatch (byteAt s.inputArray) s.n p = longestMatch s.ibuf.read s.n p :=
  longestMatch_congr fun _ => byteAt_inputArray s

theorem lzMatch_badArgument {s : State} (hp : s.n ≤ s.a0) : lzMatch s = .errA .badArgument := if_pos hp

theorem lzMatch_ok {s : State} (hp : s.a0 < s.n) :
    lzMatch s = .ok (s.setRes (longestMatch s.ibuf.read s.n s.a0).1 (longestMatch s.ibuf.read s.n s.a0).2) := by
  rw [← longestMatch_input]
  exact if_neg (Nat.not_le.2 hp)

/-- A distance lies in the window and a length is at most 255, so each fits its register. -/
theorem longestMatch_le (rd : Nat → Byte) (n p : Nat) :
    (longestMatch rd n p).1 ≤ 4096 ∧ (longestMatch rd n p).2 ≤ 255 := by
  obtain ⟨hlen, hnone, hsome, -⟩ := longestMatch_spec rd n p
  refine ⟨?_, hlen.trans (Nat.min_le_left ..)⟩
  rcases Nat.eq_zero_or_pos (longestMatch rd n p).2 with h0 | hpos
  · exact (hnone h0).trans_le (Nat.zero_le _)
  · obtain ⟨-, hdist, -⟩ := hsome hpos
    exact hdist.trans (Nat.min_le_left ..)

/-! ## LZ_EMIT (44_lz77.md R266) -/

theorem State.a0Byte_eq (s : State) : s.a0Byte = BitVec.ofNat 8 s.a0 := by
  apply BitVec.eq_of_toNat_eq
  rw [State.a0Byte, BitVec.extractLsb'_toNat, Nat.shiftRight_zero, BitVec.toNat_ofNat]
  rfl

/-- The token LZ_EMIT's operands stand for (30_encoding.md R103). -/
def State.operandToken (s : State) : Token :=
  if s.a1 = 0 then .literal (BitVec.ofNat 8 s.a0) else .copy (s.a0 % 65536) (s.a0 / 65536)

theorem operandToken_literal {s : State} (hk : s.a1 = 0) : s.operandToken = .literal (BitVec.ofNat 8 s.a0) := if_pos hk

theorem operandToken_copy {s : State} (hk : s.a1 = 1) : s.operandToken = .copy (s.a0 % 65536) (s.a0 / 65536) :=
  if_neg (by omega)

theorem length_operandToken (s : State) : (bytesBits s.operandToken.bytes).length = tokenBits s.a1 := by
  rw [length_bytesBits, State.operandToken, tokenBits]
  split
  · rw [length_literal]
  · rw [length_copy]

theorem emits_operandToken (s : State) (cap : Nat) (w : Writer) :
    Emits cap (emitToken cap s.a1 s.a0Byte s.a0Distance s.a0Length w) (bytesBits s.operandToken.bytes) w id := by
  rw [State.operandToken, emitToken, s.a0Byte_eq, s.a0Distance_eq, s.a0Length_eq]
  split
  · exact emits_emitLiteral _ _ _
  · exact emits_emitMatch _ _ _ _

/-- The operands LZ_EMIT accepts: a literal, or a match in the bounds of a token (44_lz77.md R266). -/
def State.TokenLegal (s : State) : Prop :=
  s.a1 = 0 ∨ s.a1 = 1 ∧ 1 ≤ s.a0 % 65536 ∧ s.a0 % 65536 ≤ 4096 ∧ 3 ≤ s.a0 / 65536 ∧ s.a0 / 65536 ≤ 255

theorem lzEmit_badArgument {s : State} (h : ¬s.TokenLegal) : lzEmit s = .errA .badArgument :=
  (body_badArgument_iff .lzEmit s).2 (decide_eq_false h)

section
variable {s : State} (h : s.TokenLegal)
include h

/-- LZ_EMIT past its checks of the operands. -/
theorem lzEmit_legal : lzEmit s =
    if 8 * s.params.obufBytes < s.wpos + tokenBits s.a1 then .errA .outputOverflow
    else .ofBody (emitToken s.params.obufBytes s.a1 s.a0Byte s.a0Distance s.a0Length s.writer >>= fun w =>
      .ok (s.setWriter w)) := by
  have hkind : ¬1 < s.a1 := by rcases h with h | ⟨h, -⟩ <;> omega
  refine (if_neg hkind).trans (if_neg ?_)
  rintro ⟨h1, hbad⟩
  rw [s.a0Distance_eq, s.a0Length_eq] at hbad
  rcases h with h0 | ⟨-, hbounds⟩
  · omega
  · exact hbad hbounds

theorem lzEmit_overflow (hw : 8 * s.params.obufBytes < s.wpos + tokenBits s.a1) :
    lzEmit s = .errA .outputOverflow := by
  rw [lzEmit_legal h, if_pos hw]

/-- Past the checks the writer has room for the token, so LZ_EMIT cannot fail. -/
theorem lzEmit_ok (hw : s.wpos + tokenBits s.a1 ≤ 8 * s.params.obufBytes) :
    ∃ w, lzEmit s = .ok (s.setWriter w) ∧
      Writer.Wrote s.params.obufBytes (bytesBits s.operandToken.bytes) s.writer w := by
  have emits := emits_operandToken s s.params.obufBytes s.writer (Nat.le_of_add_right_le hw)
  obtain ⟨w, hok, hwrote⟩ := emits.1 (by rw [length_operandToken]; exact hw)
  refine ⟨w, ?_, hwrote⟩
  rw [lzEmit_legal h, if_neg (Nat.not_lt.2 hw), hok]
  rfl

theorem exec_lzEmit_ok (hl : s.params.legal) (hw : s.wpos + tokenBits s.a1 ≤ 8 * s.params.obufBytes) :
    ∃ t, exec .lzEmit s = .next t ∧ State.CompletedOk .lzEmit s t ∧
      State.Appended (bytesBits s.operandToken.bytes) s t := by
  obtain ⟨w, hok, hwrote⟩ := lzEmit_ok h hw
  exact ⟨_, exec_of_ok (.inl rfl) hok, completedOk (.lzEmit w), appended_complete hl rfl hwrote⟩

end

end Sys2Proof.Machine

/-- Settles O50: LZ_MATCH's results are the match finder's, which fit RES0 and RES1. -/
theorem lzMatchFindsTheLongestNearest : Obligations.LzMatchFindsTheLongestNearest := by
  unfold Obligations.LzMatchFindsTheLongestNearest
  refine ⟨rfl, fun s => exec_badLength rfl, fun s hn => ⟨fun hp => ?_, fun hp => ?_⟩⟩
  · exact exec_of_errA (.inr hn) (lzMatch_badArgument hp)
  · obtain ⟨hdist, hlen⟩ := longestMatch_le s.ibuf.read s.n s.a0
    refine ⟨_, _, _, exec_of_ok (.inr hn) (lzMatch_ok hp), completedOk (.lzMatch _ _), ?_, ?_,
      longestMatch_spec s.ibuf.read s.n s.a0⟩
    · rw [complete_ok_eq]
      exact toNat_ofNat_of_le (by omega)
    · rw [complete_ok_eq]
      exact toNat_ofNat_of_le (by omega)

/-- Settles O51: the range check refuses exactly the operands that stand for no legal token, and past the checks the writer
has room for the 16 or 40 bits of the token. -/
theorem lzEmitAppendsTheToken : Obligations.LzEmitAppendsTheToken := by
  unfold Obligations.LzEmitAppendsTheToken
  refine ⟨rfl, fun s hl => ⟨fun hk => ?_, fun hk hbad => ?_, fun hk hw => ?_, fun hk hd hd' hlen hlen' hw => ?_,
    fun hk hw => ?_, fun hk hd hd' hlen hlen' hw => ?_⟩⟩
  · exact exec_of_errA (.inl rfl) (lzEmit_badArgument (by unfold State.TokenLegal; omega))
  · exact exec_of_errA (.inl rfl) (lzEmit_badArgument (by unfold State.TokenLegal; omega))
  · exact exec_of_errA (.inl rfl) (lzEmit_overflow (.inl hk) (by rw [hk]; exact hw))
  · exact exec_of_errA (.inl rfl) (lzEmit_overflow (.inr ⟨hk, hd, hd', hlen, hlen'⟩) (by rw [hk]; exact hw))
  · rw [← operandToken_literal hk]
    exact exec_lzEmit_ok (.inl hk) hl (by rw [hk]; exact hw)
  · rw [← operandToken_copy hk]
    exact exec_lzEmit_ok (.inr ⟨hk, hd, hd', hlen, hlen'⟩) hl (by rw [hk]; exact hw)

end

section
/-!
The LZ77 codec: LZ_COMPRESS writes the container of the greedy parse, LZ_DECOMPRESS replays the tokens of a container and
accepts nothing else, and the one undoes the other (44_lz77.md R270 to R274).
-/

open Sys2Proof Sys2Proof.Machine

namespace Sys2Proof.Machine

/-! ## From a completed command back to its rule -/

/-- A command that ends without ERR has passed its checks, and its own rule has succeeded (40_control.md R147 to R149). -/
theorem body_of_exec_ok {i : Instr} {s t : State} (h : exec i s = .next t) (ht : t.err = false) :
    ∃ u, bodyOf i s = .ok u ∧ t = complete i s (.ok u) ∧ (readsSrcLen i = true → s.n ≤ s.params.ibufBytes) := by
  rw [exec_outcome] at h
  cases h
  cases ho : outcomeOf i s with
  | ok u =>
    obtain ⟨hbody, hn⟩ := outcomeOf_ok ho
    exact ⟨u, hbody, rfl, hn⟩
  | errA c =>
    rw [ho] at ht
    exact Bool.noConfusion ht
  | errB c =>
    rw [ho] at ht
    exact Bool.noConfusion ht

/-- A rule that flushed whole bytes from the start of OBUF on has produced them, whatever else it wrote. -/
theorem produced_of_left {i : Instr} {s t : State} {bs : List Byte} {w : Writer} (hl : s.params.legal)
    (hi : (writeSet i).obuf = true) (h : Writer.Wrote s.params.obufBytes (bytesBits bs) s.freshWriter w)
    (ho : t.obuf = w.flush.mem) (hb : t.bsWbits = BitVec.ofNat 32 w.flush.pos) :
    State.Produced bs s (complete i s (.ok t)) := by
  have hcap := obufBytes_le hl
  have hfits := h.fits
  have haligned : w.pos = 8 * bs.length := by rw [h.pos, length_bytesBits]; exact Nat.zero_add _
  rw [Writer.flush_of_aligned haligned] at ho hb
  have hpos : t.wpos = w.pos := by rw [State.wpos, hb, toNat_ofNat_of_le (by omega)]
  rw [complete_ok_eq, hi, hpos]
  exact produced_of_wrote hl h ho hb rfl

/-! ## What an LZ77 codec command leaves -/

/-- The tokens `ts`, counted, with the writer `w` (44_lz77.md R270, R273). -/
def Tokens.of (ts : List Token) (w : Writer) : Tokens where
  lits := ts.countP Token.isLiteral
  ms   := ts.countP fun t => !t.isLiteral
  out  := w

/-- The state the rule of an LZ77 codec command leaves: the writer flushed, the read cursor `r` and the counts of `k`
(44_lz77.md R270, R273). -/
def State.lzLeft (s : State) (k : Tokens) (r : Nat) : State :=
  ((s.setWriter k.out.flush).setRpos r).setRes k.lits k.ms

theorem left_lzLeft {i : Instr} (hi : i = .lzCompress ∨ i = .lzDecompress) (s : State) (k : Tokens) (r : Nat) :
    Left s i (s.lzLeft k r) :=
  .codec i k.out.flush r k.lits k.ms (by rcases hi with rfl | rfl <;> simp)

theorem writeSet_obuf_of_lz {i : Instr} (hi : i = .lzCompress ∨ i = .lzDecompress) : (writeSet i).obuf = true := by
  rcases hi with rfl | rfl <;> rfl

theorem produced_lzLeft {i : Instr} {s : State} {bs : List Byte} {k : Tokens} (hi : i = .lzCompress ∨ i = .lzDecompress)
    (hl : s.params.legal) (h : Writer.Wrote s.params.obufBytes (bytesBits bs) s.freshWriter k.out) (r : Nat) :
    State.Produced bs s (complete i s (.ok (s.lzLeft k r))) :=
  produced_of_left hl (writeSet_obuf_of_lz hi) h rfl rfl

/-- Each token takes at least two bytes (30_encoding.md R116). -/
theorem length_tokens_le (ts : List Token) : ts.length ≤ (ts.flatMap Token.bytes).length := by
  induction ts with
  | nil => exact Nat.le_refl _
  | cons t ts ih =>
    have ht := length_token t
    rw [List.flatMap_cons, List.length_append, List.length_cons]
    omega

theorem length_lzContainer (total : Nat) (ts : List Token) :
    (lzContainer total ts).length = 5 + (ts.flatMap Token.bytes).length := by
  rw [lzContainer, List.length_cons, List.length_append, length_beBytes]
  omega

/-- An LZ77 codec command whose rule has written `bs` completes with it; cursor and counts fit their registers. -/
theorem exec_lzLeft {i : Instr} {s : State} {bs : List Byte} {ts : List Token} {w : Writer} {r : Nat}
    (hi : i = .lzCompress ∨ i = .lzDecompress) (hl : s.params.legal) (hn : s.n ≤ s.params.ibufBytes)
    (hbody : bodyOf i s = .ok (s.lzLeft (.of ts w) r))
    (h : Writer.Wrote s.params.obufBytes (bytesBits bs) s.freshWriter w) (hr : r ≤ 2 ^ 23) (hts : ts.length ≤ 2 ^ 23) :
    ∃ t, exec i s = .next t ∧ State.CompletedOk i s t ∧ State.Produced bs s t ∧ t.rpos = r ∧
      t.res0.toNat = ts.countP Token.isLiteral ∧ t.res1.toNat = ts.countP fun k => !k.isLiteral := by
  refine ⟨_, exec_of_ok (.inr hn) hbody, completedOk (left_lzLeft hi ..), produced_lzLeft hi hl h r, ?_⟩
  rw [complete_ok_eq]
  exact ⟨toNat_ofNat_of_le hr, toNat_ofNat_of_le (List.countP_le_length.trans hts),
    toNat_ofNat_of_le (List.countP_le_length.trans hts)⟩

/-! ## LZ_COMPRESS (44_lz77.md R270) -/

/-- The tokens of the greedy parse of the whole input. -/
def State.lzTokens (s : State) : List Token := Machine.lzTokens s.ibuf.read s.n s.n 0

/-- LZ_COMPRESS appends the container to an empty OBUF, or fails for want of room. -/
theorem emits_lzCompress (s : State) : ∃ x, lzCompress s = .ofBody x ∧
    Emits s.params.obufBytes x (bytesBits (lzContainer s.n s.lzTokens)) s.freshWriter fun w =>
      s.lzLeft (.of s.lzTokens w) 0 := by
  refine ⟨_, rfl, ?_⟩
  rw [lzContainer, bytesBits_cons, bytesBits_append, bytesBits_beBytes, ← List.append_nil (bytesBits (List.flatMap ..))]
  refine (emits_writeBits _ _ _ _).bind fun w₁ _ => (emits_writeBits _ _ _ _).bind fun w₂ _ =>
    Emits.bind (k := fun w => Tokens.of s.lzTokens w) ?_ fun w _ => .nil rfl
  have emits := emits_lzCompressLoop s.params.obufBytes (byteAt s.inputArray) s.n s.n 0 ⟨0, 0, w₂⟩ (Nat.sub_le ..)
  rw [lzTokens_congr fun _ => byteAt_inputArray s, Nat.zero_add, Nat.zero_add] at emits
  exact emits

theorem lzCompress_ok {s : State} (h : (lzContainer s.n s.lzTokens).length ≤ s.params.obufBytes) :
    ∃ w, lzCompress s = .ok (s.lzLeft (.of s.lzTokens w) 0) ∧
      Writer.Wrote s.params.obufBytes (bytesBits (lzContainer s.n s.lzTokens)) s.freshWriter w := by
  obtain ⟨x, hx, emits⟩ := emits_lzCompress s
  obtain ⟨w, hok, hwrote⟩ := emits_fresh_ok emits h
  exact ⟨w, by rw [hx, hok]; rfl, hwrote⟩

theorem lzCompress_overflow {s : State} (h : s.params.obufBytes < (lzContainer s.n s.lzTokens).length) :
    lzCompress s = .errB .outputOverflow := by
  obtain ⟨x, hx, emits⟩ := emits_lzCompress s
  rw [hx, emits_fresh_overflow emits h]
  rfl

/-- If LZ_COMPRESS completes without error, its output is the container. -/
theorem lzCompress_output {s t : State} (hl : s.params.legal) (h : exec .lzCompress s = .next t) (ht : t.err = false) :
    t.outputBytes = lzContainer s.n s.lzTokens := by
  obtain ⟨u, hbody, rfl, -⟩ := body_of_exec_ok h ht
  change lzCompress s = .ok u at hbody
  rcases Nat.lt_or_ge s.params.obufBytes (lzContainer s.n s.lzTokens).length with hlong | hfits
  · rw [lzCompress_overflow hlong] at hbody
    cases hbody
  · obtain ⟨w, hok, hwrote⟩ := lzCompress_ok hfits
    rw [hok] at hbody
    cases hbody
    exact (produced_lzLeft (.inl rfl) hl hwrote 0).output

/-- The tokens of the greedy parse cover the input (44_lz77.md R271). -/
theorem lzTokens_cover_input (s : State) : tokensCover s.ibuf.read s.n 0 s.lzTokens :=
  lzTokens_cover s.ibuf.read s.n s.n 0 (Nat.zero_le _) (Nat.sub_le ..)

/-- The tokens of the greedy parse replay to the input (44_lz77.md R274). -/
theorem replay_lzTokens (s : State) : replayTokens s.n [] s.lzTokens = some s.inputBytes := by
  have hinput : slice s.ibuf.read 0 s.n = s.inputBytes := by simp [slice, State.inputBytes]
  rw [← hinput]
  exact replay_of_cover s.ibuf.read s.n 0 _ (lzTokens_cover_input s)

/-! ## LZ_DECOMPRESS: the checks of the header (44_lz77.md R272) -/

theorem lzDecompress_short {s : State} (hn : s.n < 5) : lzDecompress s = .errA .corruptHeader := if_pos hn

theorem lzDecompress_wrongTag {s : State} (hn : 5 ≤ s.n) (ht : s.ibuf.read 0 ≠ Config.tagL) :
    lzDecompress s = .errA .corruptHeader := by
  rw [← byteAt_inputArray s (by omega)] at ht
  exact (if_neg (Nat.not_lt.2 hn)).trans (if_pos ht)

theorem lzDecompress_overflow {s : State} (hn : 5 ≤ s.n) (ht : s.ibuf.read 0 = Config.tagL)
    (hcap : s.params.obufBytes < bigEndian s.ibuf.read 1 4) : lzDecompress s = .errA .outputOverflow := by
  rw [← byteAt_inputArray s (by omega)] at ht
  rw [← bigEndian_byteAt s (show 1 + 4 ≤ s.n from hn)] at hcap
  exact (if_neg (Nat.not_lt.2 hn)).trans ((if_neg (not_not.2 ht)).trans (if_pos hcap))

/-- The end of LZ_DECOMPRESS: no byte may follow the last token it needs (44_lz77.md R273). -/
def State.lzFinish (s : State) (x : Nat × Tokens) : Except ErrorCode State :=
  if x.1 ≠ 8 * s.n then .error .corruptStream else .ok (s.lzLeft x.2 x.1)

/-- The token replay of LZ_DECOMPRESS (44_lz77.md R273) from read cursor `r` on. -/
def State.replayFrom (s : State) (total fuel r out : Nat) (k : Tokens) : Except ErrorCode (Nat × Tokens) :=
  lzReplay s.params.obufBytes (byteAt s.inputArray) s.n total fuel r out k

/-- LZ_DECOMPRESS behind a header that passes the checks. -/
theorem lzDecompress_headerOk {s : State} {total : Nat} (hn : 5 ≤ s.n) (ht : byteAt s.inputArray 0 = Config.tagL)
    (htotal : bigEndian (byteAt s.inputArray) 1 4 = total) (hcap : total ≤ s.params.obufBytes) : lzDecompress s =
      .ofBody (s.replayFrom total total (8 * 5) 0 (.of [] s.freshWriter) >>= s.lzFinish) := by
  subst htotal
  exact (if_neg (Nat.not_lt.2 hn)).trans ((if_neg (not_not.2 ht)).trans (if_neg (Nat.not_lt.2 hcap)))

/-! ## LZ_DECOMPRESS: behind the header (44_lz77.md R273) -/

/-- The input begins with the container of `total` and `ts` and goes on with `rest`, as LZ_DECOMPRESS reads it. -/
structure State.Holds (s : State) (total : Nat) (ts : List Token) (rest : List Byte) : Prop where
  length : s.n = 5 + (ts.flatMap Token.bytes).length + rest.length
  tag    : byteAt s.inputArray 0 = Config.tagL
  total  : bigEndian (byteAt s.inputArray) 1 4 = total
  tokens : slice (byteAt s.inputArray) 5 (ts.flatMap Token.bytes).length = ts.flatMap Token.bytes
  rest   : slice (byteAt s.inputArray) (5 + (ts.flatMap Token.bytes).length) rest.length = rest

theorem holds_of_input {s : State} {total : Nat} {ts : List Token} {rest : List Byte} (ht : total < 2 ^ 32)
    (h : s.inputBytes = lzContainer total ts ++ rest) : s.Holds total ts rest := by
  have hlen : s.n = 5 + (ts.flatMap Token.bytes).length + rest.length := by
    rw [← length_inputBytes, h, List.length_append, length_lzContainer]
  have hslice : slice (byteAt s.inputArray) 0 (lzContainer total ts ++ rest).length = lzContainer total ts ++ rest := by
    rw [← h, length_inputBytes, slice_input]
  obtain ⟨hcontainer, hrest⟩ := slice_append hslice
  rw [length_lzContainer, Nat.zero_add] at hrest
  rw [lzContainer, List.length_cons, slice_succ, List.cons.injEq] at hcontainer
  obtain ⟨htag, hbehind⟩ := hcontainer
  obtain ⟨htotal, htokens⟩ := slice_append hbehind
  rw [length_beBytes] at htotal htokens
  exact ⟨hlen, htag, (bigEndian_of_slice htotal).trans (Nat.mod_eq_of_lt ht), htokens, hrest⟩

/-- The converse: a header with the tag and tokens behind it are a container. -/
theorem State.Holds.input {s : State} {total : Nat} {ts : List Token} {rest : List Byte} (h : s.Holds total ts rest) :
    s.inputBytes = lzContainer total ts ++ rest := by
  have hheader : slice (byteAt s.inputArray) 0 5 = Config.tagL :: beBytes total 4 := by
    rw [slice_succ, h.tag, slice_bigEndian, h.total]
  rw [← slice_input, h.length, slice_add, slice_add, hheader, Nat.zero_add, Nat.zero_add, h.tokens, h.rest]
  rfl

theorem State.Holds.remainder {s : State} {total : Nat} {ts : List Token} {rest : List Byte} (h : s.Holds total ts rest) :
    slice (byteAt s.inputArray) (5 + (ts.flatMap Token.bytes).length) (s.n - (5 + (ts.flatMap Token.bytes).length)) = rest := by
  rw [h.length, Nat.add_sub_cancel_left, h.rest]

/-- A replay that has produced all that was declared ends. -/
theorem replayFrom_done {s : State} {total fuel r out : Nat} {k : Tokens} (h : total ≤ out) :
    s.replayFrom total fuel r out k = .ok (r, k) := by
  cases fuel with
  | zero => rfl
  | succ fuel => exact if_neg (Nat.not_lt.2 h)

section
variable {s : State} {total : Nat} {ts : List Token} {out rest : List Byte} (h : s.Holds total ts rest)
  (hcap : total ≤ s.params.obufBytes) (hr : replayTokens out.length [] ts = some out)
include h hcap hr

/-- LZ_DECOMPRESS past tokens that pass the replay's checks. -/
theorem lzDecompress_behind (hle : out.length ≤ total) : ∃ w fuel, total - out.length ≤ fuel ∧
    Writer.Wrote s.params.obufBytes (bytesBits out) s.freshWriter w ∧ lzDecompress s =
      .ofBody (s.replayFrom total fuel (8 * (5 + (ts.flatMap Token.bytes).length)) out.length (.of ts w) >>=
        s.lzFinish) := by
  have hlen := h.length
  obtain ⟨w, fuel, hfuel, heq, hwrote⟩ := lzReplay_prefix (cap := s.params.obufBytes) (n := s.n) (w₀ := s.freshWriter)
    (f := total) (out := []) (k := .of [] s.freshWriter) rfl hcap hle (Nat.le_refl total) h.tokens (by omega) hr
    (.refl (fresh_fits s))
  refine ⟨w, fuel, hfuel, hwrote, ?_⟩
  rw [lzDecompress_headerOk (by omega) h.tag h.total hcap]
  have hcounts : Tokens.of ts w = ⟨0 + ts.countP Token.isLiteral, 0 + ts.countP fun t => !t.isLiteral, w⟩ := by
    rw [Nat.zero_add, Nat.zero_add]
    rfl
  rw [hcounts]
  exact congrArg (fun x => CmdOutcome.ofBody (x >>= s.lzFinish)) heq

/-- All that was declared and nothing behind it: LZ_DECOMPRESS succeeds. -/
theorem lzDecompress_ok (htotal : out.length = total) (hrest : rest = []) :
    ∃ w, lzDecompress s = .ok (s.lzLeft (.of ts w) (8 * s.n)) ∧
      Writer.Wrote s.params.obufBytes (bytesBits out) s.freshWriter w := by
  obtain ⟨w, fuel, -, hwrote, heq⟩ := lzDecompress_behind h hcap hr htotal.le
  have hend : 5 + (ts.flatMap Token.bytes).length = s.n := by rw [h.length, hrest]; rfl
  refine ⟨w, ?_, hwrote⟩
  rw [heq, replayFrom_done htotal.ge, hend]
  exact congrArg CmdOutcome.ofBody (if_neg (not_not.2 rfl))

theorem lzDecompress_trailing (htotal : out.length = total) (hrest : rest ≠ []) :
    lzDecompress s = .errB .corruptStream := by
  obtain ⟨w, fuel, -, -, heq⟩ := lzDecompress_behind h hcap hr htotal.le
  have hlen := h.length
  have hpos := List.length_pos_iff.2 hrest
  rw [heq, replayFrom_done htotal.ge]
  exact congrArg CmdOutcome.ofBody (if_pos (show _ ≠ _ by omega))

theorem lzDecompress_cut (hlt : out.length < total) (hcut : tokenCut rest) :
    lzDecompress s = .errB .truncatedStream := by
  obtain ⟨w, fuel, hfuel, -, heq⟩ := lzDecompress_behind h hcap hr hlt.le
  have hlen := h.length
  rw [heq, State.replayFrom, lzReplay_cut hlt (by omega) (by rwa [h.remainder]) hfuel]
  rfl

theorem lzDecompress_refused (hlt : out.length < total) (hrefused : tokenRefused total out.length rest) :
    lzDecompress s = .errB .corruptStream := by
  obtain ⟨w, fuel, hfuel, -, heq⟩ := lzDecompress_behind h hcap hr hlt.le
  have hlen := h.length
  rw [heq, State.replayFrom, lzReplay_refused hlt (by omega) (by rwa [h.remainder]) hfuel]
  rfl

end

/-! ## What LZ_DECOMPRESS accepts (44_lz77.md R273) -/

theorem lzFinish_ok {s u : State} {r : Nat} {k : Tokens} (h : s.lzFinish (r, k) = .ok u) :
    r = 8 * s.n ∧ u = s.lzLeft k r := by
  rw [State.lzFinish] at h
  split at h
  · cases h
  · rename_i hr
    cases h
    exact ⟨not_not.1 hr, rfl⟩

/-- If LZ_DECOMPRESS's rule succeeds, the header passes the checks and the replay ends at the end of the input. -/
theorem lzDecompress_inv {s u : State} (h : lzDecompress s = .ok u) :
    5 ≤ s.n ∧ byteAt s.inputArray 0 = Config.tagL ∧ ∃ k, u = s.lzLeft k (8 * s.n) ∧
      s.replayFrom (bigEndian (byteAt s.inputArray) 1 4) (bigEndian (byteAt s.inputArray) 1 4) (8 * 5) 0
        (.of [] s.freshWriter) = .ok (8 * s.n, k) := by
  rcases Nat.lt_or_ge s.n 5 with hn | hn
  · rw [lzDecompress_short hn] at h
    cases h
  rcases ne_or_eq (byteAt s.inputArray 0) Config.tagL with htag | htag
  · rw [lzDecompress_wrongTag hn (by rwa [← byteAt_inputArray s (by omega)])] at h
    cases h
  rcases Nat.lt_or_ge s.params.obufBytes (bigEndian (byteAt s.inputArray) 1 4) with hcap | hcap
  · rw [lzDecompress_overflow hn (by rwa [← byteAt_inputArray s (by omega)])
      (by rwa [← bigEndian_byteAt s (show 1 + 4 ≤ s.n from hn)])] at h
    cases h
  rw [lzDecompress_headerOk hn htag rfl hcap] at h
  obtain ⟨⟨r, k⟩, hreplay, hfinish⟩ := except_bind_ok.1 (ofBody_ok.1 h)
  obtain ⟨rfl, rfl⟩ := lzFinish_ok hfinish
  exact ⟨hn, htag, k, rfl, hreplay⟩

/-- The input LZ_DECOMPRESS accepts is a container of tokens that pass the replay's checks; it writes what they produce. -/
theorem container_of_lzDecompress {s u : State} (h : lzDecompress s = .ok u) :
    ∃ total ts out k, s.Holds total ts [] ∧ replayTokens total [] ts = some out ∧ u = s.lzLeft k (8 * s.n) ∧
      Writer.Wrote s.params.obufBytes (bytesBits out) s.freshWriter k.out := by
  obtain ⟨hn, htag, k, rfl, hreplay⟩ := lzDecompress_inv h
  obtain ⟨ts, out, hend, -, htokens, hout, hwrote⟩ := tokens_of_lzReplay (w₀ := s.freshWriter) (a := 5) (out := []) rfl
    (Nat.sub_le ..) (Nat.zero_le _) hn (.refl (fresh_fits s)) hreplay
  exact ⟨_, ts, out, k, ⟨Nat.eq_of_mul_eq_mul_left (by decide) hend, htag, rfl, htokens, rfl⟩, hout, rfl, hwrote⟩

end Sys2Proof.Machine

/-- Settles O52: what LZ_COMPRESS emits is the container of the greedy parse, whole bytes that the flush leaves as they
are. -/
theorem lzCompressWritesTheContainer : Obligations.LzCompressWritesTheContainer := by
  unfold Obligations.LzCompressWritesTheContainer
  refine ⟨rfl, fun s => exec_badLength rfl, fun s hl hn => ⟨fun h => ?_, fun h => ?_⟩⟩
  · obtain ⟨w, hok, hwrote⟩ := lzCompress_ok h
    have hcap := obufBytes_le hl
    have htokens := length_tokens_le s.lzTokens
    have hlen := length_lzContainer s.n s.lzTokens
    have hts : s.lzTokens.length ≤ 2 ^ 23 := by
      change (lzContainer s.n s.lzTokens).length ≤ s.params.obufBytes at h
      omega
    obtain ⟨t, hexec, hcompleted, hproduced, hrpos, hres⟩ := exec_lzLeft (.inl rfl) hl hn hok hwrote (Nat.zero_le _) hts
    exact ⟨t, hexec, hcompleted, hproduced, BitVec.eq_of_toNat_eq hrpos, hres⟩
  · exact exec_of_errB (.inr hn) (lzCompress_overflow h)

/-- Settles O53: the output is the container of the greedy parse, whose tokens cover the input. -/
theorem lzTokensCoverTheInput : Obligations.LzTokensCoverTheInput := by
  unfold Obligations.LzTokensCoverTheInput
  intro s t hl _ hexec ht
  exact ⟨s.lzTokens, lzCompress_output hl hexec ht, lzTokens_cover_input s⟩

/-- Settles O54: tokens that pass the replay's checks are replayed whole, and what stands behind them decides the end. -/
theorem lzDecompressReplaysTheTokens : Obligations.LzDecompressReplaysTheTokens := by
  unfold Obligations.LzDecompressReplaysTheTokens
  refine ⟨rfl, fun s => exec_badLength rfl, fun s hl hn => ⟨fun h5 => ?_, fun h5 ht => ?_, fun h5 ht hcap => ?_,
    fun total ts out rest hinput hcap hr => ?_⟩⟩
  · exact exec_of_errA (.inr hn) (lzDecompress_short h5)
  · exact exec_of_errA (.inr hn) (lzDecompress_wrongTag h5 ht)
  · exact exec_of_errA (.inr hn) (lzDecompress_overflow h5 ht hcap)
  have hocap := obufBytes_le hl
  have h := holds_of_input (by omega) hinput
  refine ⟨fun htotal hrest => ?_, fun htotal hrest => ?_, fun hlt hcut => ?_, fun hlt hrefused => ?_⟩
  · obtain ⟨w, hok, hwrote⟩ := lzDecompress_ok h hcap hr htotal hrest
    have hicap := ibufBytes_le hl
    have htokens := length_tokens_le ts
    have hlen := h.length
    exact exec_lzLeft (.inr rfl) hl hn hok hwrote (by omega) (by omega)
  · exact exec_of_errB (.inr hn) (lzDecompress_trailing h hcap hr htotal hrest)
  · exact exec_of_errB (.inr hn) (lzDecompress_cut h hcap hr hlt hcut)
  · exact exec_of_errB (.inr hn) (lzDecompress_refused h hcap hr hlt hrefused)

/-- Settles O55: a completion without ERR comes from the rule, whose replay has read a container and written what its tokens
produce. -/
theorem lzDecompressAcceptsOnlyContainers : Obligations.LzDecompressAcceptsOnlyContainers := by
  unfold Obligations.LzDecompressAcceptsOnlyContainers
  intro s t hl _ hexec ht
  obtain ⟨u, hbody, rfl, -⟩ := body_of_exec_ok hexec ht
  obtain ⟨total, ts, out, k, hholds, hr, rfl, hwrote⟩ := container_of_lzDecompress hbody
  have hproduced := produced_lzLeft (.inr rfl) hl hwrote (8 * s.n)
  refine ⟨total, ts, out, ?_, hr, hproduced.output, hproduced.dstLen.trans (replayTokens_length hr)⟩
  rw [hholds.input, List.append_nil]

/-- Settles O56: the container LZ_COMPRESS leaves declares the input's length, and its tokens replay to the input, which is
all that LZ_DECOMPRESS then produces (O54). -/
theorem lzRoundTrip : Obligations.LzRoundTrip := by
  unfold Obligations.LzRoundTrip
  intro s t u hs _ _ hexec ht hp _ hin hun hcap
  have hcontainer : u.inputBytes = lzContainer s.n s.lzTokens ++ [] := by
    rw [hin, lzCompress_output hs hexec ht, List.append_nil]
  obtain ⟨-, -, hdecompress⟩ := lzDecompressReplaysTheTokens
  obtain ⟨-, -, -, hreplays⟩ := hdecompress u (hp ▸ hs) hun
  have hlen := length_inputBytes s
  obtain ⟨hall, -⟩ := hreplays s.n s.lzTokens s.inputBytes [] hcontainer hcap (hlen.symm ▸ replay_lzTokens s)
  obtain ⟨v, hv, hok, hproduced, -⟩ := hall hlen rfl
  exact ⟨v, hv, hok, hproduced.output⟩

end

section
/-!
How commands end: each error a command reports stands in its row of the error table, and a decompress command that succeeds
gives the bytes its container declares (60_exceptions.md R300, R302).
-/

open Sys2Proof Sys2Proof.Machine

namespace Sys2Proof.Machine

/-! ## How RLE_DECOMPRESS ends (43_rle.md R252) -/

/-- The (count, value) pairs behind the tag (43_rle.md R252). -/
def State.rlePairs (s : State) : List (Byte × Byte) := inputPairs s.ibuf.read 0 ((s.n - 1) / 2)

theorem length_expandPairs_rlePairs (s : State) :
    (expandPairs s.rlePairs).length = ((List.range ((s.n - 1) / 2)).map (pairCount s.ibuf.read)).sum :=
  (sum_pairCount s.ibuf.read ((s.n - 1) / 2)).symm

theorem inputBytes_of_tagR {s : State} (ht : s.ibuf.read 0 = Config.tagR) (h2 : s.n % 2 ≠ 0) :
    s.inputBytes = Config.tagR :: pairBytes s.rlePairs := by
  have hslice : s.inputBytes = slice s.ibuf.read 0 (2 * ((s.n - 1) / 2) + 1) := by
    rw [show 2 * ((s.n - 1) / 2) + 1 = s.n by omega]
    simp only [slice, Nat.zero_add]
    rfl
  rw [hslice, slice_succ, ht, State.rlePairs, ← slice_pairs]

/-- RLE_DECOMPRESS refuses an input before it writes anything, or expands all of its pairs. -/
theorem rleDecompress_cases (s : State) : (∃ c, rleDecompress s = .errA c) ∨
    ∃ w, rleDecompress s = .ok (s.rleLeft w (8 * s.n) s.rlePairs.length) ∧
      Writer.Wrote s.params.obufBytes (bytesBits (expandPairs s.rlePairs)) s.freshWriter w := by
  by_cases hn : s.n = 0
  · exact .inl ⟨_, rleDecompress_empty hn⟩
  have h1 := Nat.one_le_iff_ne_zero.2 hn
  by_cases ht : s.ibuf.read 0 = Config.tagR
  swap
  · exact .inl ⟨_, rleDecompress_wrongTag h1 ht⟩
  by_cases h2 : s.n % 2 = 0
  · exact .inl ⟨_, rleDecompress_incompletePair h1 ht h2⟩
  have h := inputBytes_of_tagR ht h2
  by_cases h0 : ∃ p ∈ s.rlePairs, p.1 = 0
  · exact .inl ⟨_, rleDecompress_zeroCount h h0⟩
  have hc : ∀ p ∈ s.rlePairs, p.1 ≠ 0 := fun p hp hp0 => h0 ⟨p, hp, hp0⟩
  rcases Nat.lt_or_ge s.params.obufBytes (expandPairs s.rlePairs).length with hlong | hfits
  · exact .inl ⟨_, rleDecompress_overflow h hc hlong⟩
  · exact .inr (rleDecompress_ok h hc hfits)

/-- All errors of RLE_DECOMPRESS are of class A: what its loop could raise, its checks have ruled out. -/
theorem rleDecompress_ne_errB (s : State) (c : ErrorCode) : rleDecompress s ≠ .errB c := by
  rcases rleDecompress_cases s with ⟨d, h⟩ | ⟨w, h, -⟩ <;> simp [h]

/-! ## The error table (60_exceptions.md R300) -/

theorem badLength_mem_errorCodesOf {i : Instr} (h : readsSrcLen i = true) : ErrorCode.badLength ∈ errorCodesOf i := by
  revert h
  cases i <;> decide

theorem classACodes_subset_errorCodesOf (i : Instr) : classACodes i ⊆ errorCodesOf i := by
  cases i <;> decide

/-- RLE_DECOMPRESS alone has a primitive that could raise a code its row does not have: `read_bits`, TRUNCATED_STREAM. -/
theorem classBCodes_subset_errorCodesOf {i : Instr} (h : i ≠ .rleDecompress) : classBCodes i ⊆ errorCodesOf i := by
  revert h
  cases i <;> decide

theorem outcomeOf_errA_mem {i : Instr} {s : State} {c : ErrorCode} (h : outcomeOf i s = .errA c) : c ∈ errorCodesOf i := by
  rw [outcomeOf] at h
  split at h
  · rename_i hlong
    cases h
    exact badLength_mem_errorCodesOf hlong.1
  · exact classACodes_subset_errorCodesOf i (body_errA h)

theorem outcomeOf_errB_mem {i : Instr} {s : State} {c : ErrorCode} (h : outcomeOf i s = .errB c) : c ∈ errorCodesOf i := by
  refine classBCodes_subset_errorCodesOf ?_ (outcomeOf_errB h)
  rintro rfl
  rw [outcomeOf] at h
  split at h
  · cases h
  · exact rleDecompress_ne_errB s c h

/-! ## How HUF_DECOMPRESS ends (42_huffman.md R225) -/

/-- The payload part writes a byte for each one declared; without an entry none may be declared. -/
theorem hufPayload_pos {cap n k total : Nat} {lens codes : List Nat} {rd : Nat → Byte} {w : Writer}
    {x : Nat × Writer × Nat} (h : hufPayload cap lens codes rd n k total w = .ok x) (hw : w.pos ≤ 8 * cap)
    (h0 : k = 0 → total = 0) : x.2.1.pos = w.pos + 8 * total ∧ x.2.1.pos ≤ 8 * cap := by
  simp only [hufPayload] at h
  split at h
  · obtain ⟨v, hcopies, h⟩ := except_bind_ok.1 h
    cases h
    exact writeCopies_pos hcopies hw
  · split at h
    · obtain ⟨y, hloop, h⟩ := except_bind_ok.1 h
      have hpos := decodeLoop_pos hloop hw
      split at h
      · cases h
      · cases h
        exact hpos
    · cases h
      rw [h0 (by omega)]
      exact ⟨rfl, hw⟩

/-- If HUF_DECOMPRESS's rule succeeds, its writer has the declared number of bytes. -/
theorem hufDecompress_inv {s u : State} (h : hufDecompress s = .ok u) :
    ∃ freq w r a b, u = s.hufLeft freq w r a b ∧ w.pos = 8 * bigEndian s.ibuf.read 3 4 ∧
      w.pos ≤ 8 * s.params.obufBytes := by
  by_cases hheader : HufHeaderOk s.ibuf.read s.n
  swap
  · rw [hufDecompress_corruptHeader hheader] at h
    cases h
  have h0 : bigEndian s.ibuf.read 1 2 = 0 → bigEndian s.ibuf.read 3 4 = 0 := fun hk => by
    rw [← hheader.total, hk]
    rfl
  simp only [hufDecompress_headerOk hheader, ite_errA_eq_ok, ofBody_ok] at h
  obtain ⟨-, -, -, h⟩ := h
  obtain ⟨x, hpayload, h⟩ := except_bind_ok.1 h
  obtain ⟨hpos, hfits⟩ := hufPayload_pos hpayload (fresh_fits s) h0
  have hbytes : x.2.1.pos = 8 * bigEndian s.ibuf.read 3 4 := hpos.trans (Nat.zero_add _)
  rw [Writer.flush_of_aligned hbytes] at h
  cases h
  exact ⟨_, _, _, _, _, rfl, hbytes, hfits⟩

end Sys2Proof.Machine

/-- Settles O14: the codes of class A and class B stand in the command's row, except TRUNCATED_STREAM of RLE_DECOMPRESS,
which its checks rule out. -/
theorem commandsReportOnlyTheirCodes : Obligations.CommandsReportOnlyTheirCodes := by
  unfold Obligations.CommandsReportOnlyTheirCodes
  intro i s t herr hcode h
  rcases exec_cases h with ⟨u, -, -, k⟩ | ⟨c, ho, rfl⟩ | ⟨c, ho, k⟩
  · exact .inl ⟨k.err.trans herr, k.errcode.trans hcode⟩
  · exact .inr ⟨rfl, c, outcomeOf_errA_mem ho, rfl⟩
  · exact .inr ⟨k.err, c, outcomeOf_errB_mem ho, k.errcode⟩

/-- Settles O60: each rule that succeeds has written the declared number of whole bytes from the start of OBUF on, which the
completion makes DST_LEN. -/
theorem decompressLengthIsTheDeclaredOne : Obligations.DecompressLengthIsTheDeclaredOne := by
  unfold Obligations.DecompressLengthIsTheDeclaredOne
  intro s t hl _
  refine ⟨fun h ht => ?_, fun h ht => ?_, fun h ht => ?_⟩
  · obtain ⟨u, hbody, rfl, -⟩ := body_of_exec_ok h ht
    obtain ⟨freq, w, r, a, b, rfl, hbytes, hfits⟩ := hufDecompress_inv hbody
    have hcap := obufBytes_le hl
    obtain ⟨-, -, hlen⟩ := hufLeft_writer (i := .hufDecompress) rfl s freq (show w.pos ≤ 2 ^ 23 by omega) r a b
    rw [hlen, hbytes, ceil8_mul]
  · obtain ⟨u, hbody, rfl, -⟩ := body_of_exec_ok h ht
    obtain ⟨total, ts, out, k, hholds, hr, rfl, hwrote⟩ := container_of_lzDecompress hbody
    have hn := hholds.length
    rw [(produced_lzLeft (.inr rfl) hl hwrote (8 * s.n)).dstLen, replayTokens_length hr, ← hholds.total,
      bigEndian_byteAt s (by omega)]
  · obtain ⟨u, hbody, rfl, -⟩ := body_of_exec_ok h ht
    change rleDecompress s = .ok u at hbody
    rcases rleDecompress_cases s with ⟨c, hrefused⟩ | ⟨w, hok, hwrote⟩
    · rw [hrefused] at hbody
      cases hbody
    · rw [hok] at hbody
      cases hbody
      rw [(produced_rleLeft hl rfl hwrote ..).dstLen, length_expandPairs_rlePairs]

end

section
/-!
The resets, and the host accesses while a command runs (70_reset_and_hazards.md R330 to R332, R340).
-/

open Sys2Proof Sys2Proof.Machine

namespace Sys2Proof.Machine

/-! ## Accesses while Busy (70_reset_and_hazards.md R340) -/

theorem memRead_busy {s : State} {addr n : Nat} {loc : Location} (hb : s.busy = true)
    (h : locate s.params addr n = some loc) : memRead s addr n = readBusy s loc := by
  simp [memRead, h, hb]

theorem memRead_unmapped {s : State} {addr n : Nat} (h : locate s.params addr n = none) :
    memRead s addr n = .error .busError := by
  simp [memRead, h]

theorem memWrite_busy_softReset {s : State} {addr n : Nat} {v : Word} (hb : s.busy = true)
    (h : locate s.params addr n = some (.reg .ctrl)) (h2 : v.getLsbD 2 = true) :
    memWrite s addr n v = .ok s.softReset := by
  simp [memWrite, h, hb, h2]

theorem readBusy_reg (s : State) {r : Reg} (h : r.unspecWhileBusy = false) : readBusy s (.reg r) = .ok (readReg s r) := by
  simp [readBusy, h]

theorem readBusy_reg_unspec (s : State) {r : Reg} (h : r.unspecWhileBusy = true) :
    readBusy s (.reg r) = .ok (Config.unspec 32 s.draw 0) := by
  simp [readBusy, h]

theorem readBusy_notReg (s : State) {loc : Location} (h : ∀ r, loc ≠ .reg r) : readBusy s loc = .error .busError := by
  cases loc with
  | reg r => exact absurd rfl (h r)
  | freq | len | codeHi | codeLo | ibufByte | ibufWord | obufByte | obufWord => rfl

theorem memRead_busy_notReg {s : State} {addr n : Nat} (hb : s.busy = true)
    (h : ∀ r, locate s.params addr n ≠ some (.reg r)) : memRead s addr n = .error .busError := by
  cases hloc : locate s.params addr n with
  | none => exact memRead_unmapped hloc
  | some loc => exact (memRead_busy hb hloc).trans (readBusy_notReg s fun r hr => h r (hr ▸ hloc))

/-! ## Soft reset (70_reset_and_hazards.md R331) -/

theorem State.writeCtrl_softReset {v : Word} (h2 : v.getLsbD 2 = true) (s : State) : s.writeCtrl v = s.softReset :=
  if_pos h2

theorem memWrite_ctrl_softReset (s : State) {v : Word} (h2 : v.getLsbD 2 = true) :
    memWrite s (s.params.coreBase + Reg.ctrl.offset) 4 v = .ok s.softReset := by
  cases hb : s.busy with
  | false => exact (memWrite_reg_idle hb v .ctrl).trans (congrArg _ (State.writeCtrl_softReset h2 s))
  | true => exact memWrite_busy_softReset hb (locate_reg s.params .ctrl) h2

theorem State.abandon_idle {s : State} (h : s.seq = .idle) : s.abandon = s := by
  simp only [State.abandon, h]

theorem State.abandon_busy {s : State} {l : Latch} (h : s.seq = .busy l) :
    s.abandon = s.unspecify (writeSetOfOpcode l.op) := by
  simp only [State.abandon, h]

theorem State.abandon_pending (s : State) : s.abandon.pending = s.pending := by
  unfold State.abandon
  split <;> rfl

theorem State.statusWord_of_clear {s : State} (hseq : s.seq = .idle) (hdone : s.done = false) (herr : s.err = false)
    (hcode : s.errcode = 0) (hvalid : s.tableValid = false) : s.statusWord = 0 := by
  rw [State.statusWord, State.busy_of_idle hseq, hdone, herr, hcode, hvalid]
  rfl

@[simp] theorem State.softReset_obuf (s : State) : s.softReset.obuf = s.abandon.obuf := rfl
@[simp] theorem State.softReset_freq (s : State) : s.softReset.freq = s.abandon.freq := rfl
@[simp] theorem State.softReset_len (s : State) : s.softReset.len = s.abandon.len := rfl
@[simp] theorem State.softReset_code (s : State) : s.softReset.code = s.abandon.code := rfl
@[simp] theorem State.softReset_arena (s : State) : s.softReset.arena = s.abandon.arena := rfl

end Sys2Proof.Machine

/-- Settles O23: a read is answered by the location it reaches, and a refused write is one that is no soft reset. -/
theorem busyAccessesFollowTheTable : Obligations.BusyAccessesFollowTheTable := by
  unfold Obligations.BusyAccessesFollowTheTable
  intro s addr n v hb
  refine ⟨fun r hloc hr => (memRead_busy hb hloc).trans (readBusy_reg s hr), fun r hloc hr => ?_,
    memRead_busy_notReg hb, memWrite_busy_softReset hb, fun h => memWrite_eq_error_iff.2 (.inr ⟨hb, ?_⟩)⟩
  · have results : ∀ r ∈ [Reg.dstLen, .res0, .res1, .bsWbits, .bsRpos], r.unspecWhileBusy = true := by decide
    exact (memRead_busy hb hloc).trans (readBusy_reg_unspec s (results r hr))
  · rintro ⟨hctrl, h2⟩
    rcases h with h | h
    · exact h hctrl
    · exact Bool.eq_false_iff.1 h h2

/-- Settles O29: the registers do not depend on the state; the buffers, tables and arena are those of the abandoned state,
which is the state itself while Idle and has the write set unspecified while Busy. -/
theorem softResetAbandonsAndClears : Obligations.SoftResetAbandonsAndClears := by
  unfold Obligations.SoftResetAbandonsAndClears
  intro s v _ h2
  refine ⟨s.softReset, memWrite_ctrl_softReset s h2, rfl, rfl, rfl, State.statusWord_of_clear rfl rfl rfl rfl rfl, rfl, rfl,
    rfl, rfl, rfl, rfl, rfl, rfl, rfl, s.abandon_params, s.abandon_pending, s.softReset_ibuf, fun hidle => ?_, fun l hl => ?_⟩
  · simp [State.abandon_idle hidle]
  · have lost := State.abandon_busy hl
    refine ⟨fun h => ?_, fun h => ⟨s.draw, Nat.le_refl _, fun a => ?_⟩,
      fun h => ?_, fun h => ⟨s.draw + 1, Nat.le_add_right .., fun a => ?_⟩,
      fun h => ?_, fun h => ⟨s.draw + 2, Nat.le_add_right .., fun a => ?_⟩,
      fun h => ?_, fun h => ⟨s.draw + 3, Nat.le_add_right .., fun a => ?_⟩,
      fun h => ?_, fun h => ⟨s.draw + 4, Nat.le_add_right .., fun i => ?_⟩⟩
    all_goals simp [lost, h, Arena.node]

/-- Settles O1: each row of the table is a field of the reset state, draws 0 to 5 the UNSPEC ones. -/
theorem resetLeavesTheSpecifiedState : Obligations.ResetLeavesTheSpecifiedState := by
  unfold Obligations.ResetLeavesTheSpecifiedState
  refine ⟨rfl, rfl, rfl, rfl, rfl, rfl, rfl, rfl, rfl, rfl, rfl, rfl, rfl, rfl, rfl, rfl, rfl, rfl, rfl, rfl, rfl,
    ⟨0, ?_⟩, ⟨1, ?_⟩, ⟨2, ?_⟩, ⟨3, ?_⟩, ⟨4, ?_⟩, ⟨5, ?_⟩⟩
  all_goals exact fun _ => rfl

/-- Settles O2: the event is handled by a hardware reset, which takes the six draws from the next unused one on. -/
theorem hardwareResetAbandonsAnyCommand : Obligations.HardwareResetAbandonsAnyCommand := by
  unfold Obligations.HardwareResetAbandonsAnyCommand
  intro s rest hp
  refine ⟨State.hardwareReset { s with pending := rest }, step_of_pending hp, rfl, rfl, rfl, rfl, rfl,
    State.statusWord_of_clear rfl rfl rfl rfl rfl, rfl, rfl, rfl, rfl, rfl, rfl, rfl, rfl, rfl, s.draw, s.draw + 1,
    s.draw + 2, s.draw + 3, s.draw + 4, s.draw + 5, ?distinct, ?fresh, fun _ => rfl, fun _ => rfl, fun _ => rfl,
    fun _ => rfl, fun _ => rfl, fun _ => rfl⟩
  case distinct => simp
  case fresh => simp

end
